-- ==== Sys2Proof/Word.lean ====
section
/-! DEFINITION. The word types of the part: bytes, 32-bit window words, 64-bit buffer DRAM words, and host addresses. -/

namespace Sys2Proof

/-- A byte of buffer DRAM, of a host buffer or of a ring entry. -/
abbrev Byte := BitVec 8

/-- A word of the register window (11 section 11.4: aligned 32-bit words). -/
abbrev Word := BitVec 32

/-- A word of buffer DRAM (chapter 9: 8-byte words). -/
abbrev DWord := BitVec 64

/-- A 64-bit host address. -/
abbrev HostAddr := BitVec 64

/-- A 64-byte request entry read as one little-endian number (byte `i` is bits `8i` to `8i+7`). -/
abbrev Entry := BitVec 512

/-- The number of a stream, 0 to 511. -/
abbrev StreamId := Fin 512

/-- The number of a request ring, a completion ring or an interrupt vector, 0 to 31. -/
abbrev RingId := Fin 32

/-- The number of a transfer context, 0 to 63. -/
abbrev CtxId := Fin 64

end Sys2Proof
end

