-- ==== Sys2Proof/Config.lean ====
section
/-! DEFINITION. What the implementation fixes: the capacities of 00_scope.md (Capacities and Limits) and the access
granularity the manual leaves to the part. -/

namespace Sys2Proof.Config

/-- Request table slots (R124). -/
def tableSlots : Nat := 2048
/-- Marks per stream (R68). -/
def maxMarks : Nat := 8
/-- Entries of a waiting-append or waiting-fetch list (R35, R51). -/
def maxWaiting : Nat := 8
/-- Entries of the append window (R34). -/
def maxWindow : Nat := 8
/-- Bytes of a page (R86). -/
def pageBytes : Nat := 4096
/-- DRAM words of a page (chapter 9). -/
def pageWords : Nat := 512
/-- Pages holding the page link table (R86). -/
def linkPages : Nat := 2048
/-- Largest record payload (R1). -/
def maxLength : Nat := 32768
/-- Largest total of a fetch buffer, 4 MiB (R49). -/
def maxFetchBytes : Nat := 4194304
/-- `next` at the end of the sequence space, 2^48 - 1 (R6). -/
def seqEnd : Nat := 281474976710655
/-- Largest initial sequence, 2^48 - 2 (R4). -/
def maxInitial : Nat := 281474976710654
/-- The wait limit that means no limit (R35, R51). -/
def noLimit : Nat := 65535
/-- Largest value of a 32-bit counter (R157). -/
def maxCounter : Nat := 4294967295
/-- Largest ring size (R117, R118). -/
def maxRing : Nat := 4096
/-- Part revision in the describe report (R174). -/
def revision : Nat := 1
/-- DESIGN CHOICE (log 8), safe: the most bytes one host access of a context carries; the manual fixes no access size. -/
def maxAccess : Nat := 4096

end Sys2Proof.Config
end

