-- ==== Sys2Proof/Syntax.lean ====
section
/-! DEFINITION. The commands: one constructor for each row of spec/opcode_table.json, with the operands the model gives it
(the table gives none). A command is one event at the part, whole and indivisible (95_what_each_step_holds.md). -/

namespace Sys2Proof

/-- What an ECC check finds wrong with a word of buffer DRAM (R156): one bit, or two or more. -/
inductive EccError where
  | single
  | multi
deriving DecidableEq, Repr

/-- Bit errors that have appeared in buffer DRAM since the last command: DRAM word number and error.
DESIGN CHOICE (log 4), safe: the sender chooses them freely. -/
abbrev Upsets := List (Nat × EccError)

/-- How the read of a request entry ends (R123): with its 64 bytes, with an error, or at the 50 ms timeout. -/
inductive EntryRead where
  | data (entry : Entry)
  | error
  | timeout
deriving DecidableEq, Repr

/-- How a host read of a transfer ends (R145): with its bytes, with an error, or at the 50 ms timeout. -/
inductive HostReadEnd where
  | data (bytes : List Byte)
  | error
  | timeout
deriving DecidableEq, Repr

/-- The commands of the LB512. -/
inductive Instr where
  /-- FULL_RESET (R164). -/
  | fullReset
  /-- INIT_END (R165): the size the DRAM devices answered, in MiB, and whether verification passed (R162). -/
  | initEnd (sizeMiB : Option Nat) (verified : Bool)
  /-- CTRL_ENABLE (R166): CTRL written with ENABLE 1. -/
  | ctrlEnable (preserve : Bool)
  /-- CONTROLLER_RESET (R169): CTRL written with ENABLE 0 in ACTIVE. -/
  | controllerReset (preserve : Bool) (upsets : Upsets)
  /-- CTRL_DISABLE (R166): CTRL written with ENABLE 0. -/
  | ctrlDisable (preserve : Bool) (upsets : Upsets)
  /-- QUIESCE_END (R170). -/
  | quiesceEnd (upsets : Upsets)
  /-- REQ_PUT_WRITE (R120): a 32-bit host write to REQ_PUT[n]. -/
  | reqPutWrite (n : Nat) (value : Word)
  /-- CMP_TAKE_WRITE (R121): a 32-bit host write to CMP_TAKE[n]. -/
  | cmpTakeWrite (n : Nat) (value : Word)
  /-- REGISTER_WRITE (R177): a host write of 8, 16, 32 or 64 bits at a byte offset of the window. -/
  | registerWrite (offset bits : Nat) (value : DWord) (upsets : Upsets)
  /-- VECTOR_MASK (R130). -/
  | vectorMask (n : Nat)
  /-- VECTOR_UNMASK (R130). -/
  | vectorUnmask (n : Nat)
  /-- RING_TAKE_START (R123). -/
  | ringTakeStart
  /-- ENTRY_READ_END (R123): the entry read of request ring n ends. -/
  | entryReadEnd (n : Nat) (result : EntryRead)
  /-- APPEND (R27). -/
  | append (upsets : Upsets)
  /-- FETCH (R48). -/
  | fetch (upsets : Upsets)
  /-- MARK (R73). -/
  | mark
  /-- REWIND (R75). -/
  | rewind (upsets : Upsets)
  /-- RELEASE (R78). -/
  | release (upsets : Upsets)
  /-- STREAM_OPEN (R10). -/
  | streamOpen
  /-- STREAM_SET (R12). -/
  | streamSet
  /-- STREAM_FLUSH (R14). -/
  | streamFlush (upsets : Upsets)
  /-- STREAM_CLOSE (R17). -/
  | streamClose (upsets : Upsets)
  /-- STREAM_RESUME (R22). -/
  | streamResume
  /-- STREAM_REPORT (R23). -/
  | streamReport
  /-- POOL_REPORT (R103). -/
  | poolReport
  /-- DESCRIBE (R174). -/
  | describe
  /-- RING_CREATE (R135). -/
  | ringCreate
  /-- RING_DELETE of a request ring (R136). -/
  | ringDeleteRequestRing (upsets : Upsets)
  /-- RING_DELETE of a completion ring (R137). -/
  | ringDeleteCompletionRing
  /-- CANCEL (R138). -/
  | cancel (upsets : Upsets)
  /-- APPEND_DEADLINE (R37): the deadline of the waiting append in a request table slot. -/
  | appendDeadline (slot : Nat)
  /-- FETCH_DEADLINE (R56): the deadline of the waiting fetch in a request table slot. -/
  | fetchDeadline (slot : Nat) (upsets : Upsets)
  /-- TRANSFER_START (R141). -/
  | transferStart
  /-- HOST_READ_END (R145): an outstanding host read of a context, by its place in the context's list. -/
  | hostReadEnd (ctx access : Nat) (result : HostReadEnd)
  /-- HOST_WRITE_END (R146): an outstanding host write of a context, by its place in the context's list; the oldest ends first. -/
  | hostWriteEnd (ctx access : Nat)
  /-- BUFFER_READ_END (R156): an outstanding buffer DRAM read of a context. -/
  | bufferReadEnd (ctx access : Nat) (upsets : Upsets)
  /-- APPEND_COPY_END (R39): the Stream Controller takes the reported end of an append's copy. -/
  | appendCopyEnd (slot : Nat) (upsets : Upsets)
  /-- FETCH_COPY_END (R61): the Stream Controller takes the reported end of a fetch's copy. -/
  | fetchCopyEnd (slot : Nat) (upsets : Upsets)
  /-- LIST_READ_END (R50): the Stream Controller takes the reported end of a list read. -/
  | listReadEnd (slot : Nat) (upsets : Upsets)
  /-- REPORT_WRITE_END (R150): the owner takes the reported end of a report write. -/
  | reportWriteEnd (slot : Nat)
  /-- GRANT_ARBITER_START (R99). -/
  | grantArbiterStart
  /-- COMPLETION_WRITE_END (R126): the oldest outstanding completion write of ring n ends. -/
  | completionWriteEnd (n : Nat)
  /-- COALESCE_TIMER_EXPIRY (R129). -/
  | coalesceTimerExpiry (n : Nat)
  /-- BUFFER_WRITE_END (R147): an outstanding buffer DRAM write of a context. -/
  | bufferWriteEnd (ctx access : Nat)
  /-- GRANT_ARBITER_VISIT (R99, R100). -/
  | grantArbiterVisit (upsets : Upsets)
  /-- HOST_LINK_ACCESS_CHANGE (R146): the new state of the link and of the function's access to host memory. -/
  | hostLinkAccessChange (up access : Bool)
deriving DecidableEq, Repr

end Sys2Proof
end

