-- ==== Sys2Proof/Machine/State.lean ====
section
/-! DEFINITION. The state of the part, block by block as 00_scope.md lists them, and the state right after full reset.
Every field names the rule of spec/ it comes from; fields the model adds say so and name their log entry. -/

namespace Sys2Proof.Machine

/-! ### Controller -/

/-- Controller states (R164, R168). -/
inductive CtlState where
  | init | disabled | active | quiescing | halted
deriving DecidableEq, Repr

/-- Halt causes (R172). -/
inductive HaltCause where
  | none | memoryInit | freeList | controlRing
deriving DecidableEq, Repr

/-- The Controller's registers and flags (R164 to R168, R177). -/
structure Controller where
  /-- STATUS bits 0-2. -/
  state : CtlState
  /-- STATUS bits 4-5. -/
  cause : HaltCause
  /-- CTRL bit 0. -/
  enable : Bool
  /-- CTRL bit 1. -/
  preserve : Bool
  /-- The preserve flag of the controller reset in progress or last made (R169). -/
  preserveFlag : Bool
  /-- STATUS bit 8, last reset preserved. -/
  lastPreserved : Bool
  /-- STATUS bit 9, control-ring error. -/
  ringError : Bool
  /-- CRING_REQ_BASE. -/
  reqBase : DWord
  /-- CRING_CMP_BASE. -/
  cmpBase : DWord
  /-- CRING_SIZES, spare bits included (R177). -/
  sizes : Word
deriving DecidableEq, Repr

/-! ### Request entries, decoded -/

/-- A segment descriptor: a host address and a length (section 11.1). -/
structure Segment where
  addr : HostAddr
  len : Nat
deriving DecidableEq, Repr

/-- Where a transfer's host buffer is named (R143): used descriptors, or a list in host memory. -/
inductive Source where
  | direct (segments : List Segment)
  | indirect (addr : HostAddr) (count : Nat)
deriving DecidableEq, Repr

/-- A settings block as the entry holds it (section 11.1). -/
structure SettingsBlock where
  mode : Nat
  durable : Nat
  noticeRing : Nat
  reserve : Nat
  quota : Nat
  readyLevel : Nat
  pressureLevel : Nat
  reliefLevel : Nat
  initial : Nat
deriving DecidableEq, Repr

/-- A ring parameters block as the entry holds it (section 11.1). -/
structure RingBlock where
  ringType : Nat
  id : Nat
  bound : Nat
  enable : Bool
  batch : Nat
  delay : Nat
  size : Nat
  base : HostAddr
deriving DecidableEq, Repr

/-- The fields each request kind uses (section 11.1, R178). -/
inductive Body where
  | append (length : Nat) (tag : Word) (source : Source)
  | fetch (maxRecords minRecords : Nat) (source : Source)
  | mark
  | rewind (variant target : Nat)
  | release (variant target : Nat)
  | describe (buffer : Segment)
  | ringCreate (block : RingBlock)
  | ringDelete (block : RingBlock)
  | streamOpen (block : SettingsBlock)
  | streamSet (block : SettingsBlock)
  | streamFlush
  | streamClose
  | streamResume (ring : Nat)
  | streamReport (buffer : Segment)
  | poolReport (buffer : Segment)
  | cancel (ring : Nat) (command : BitVec 16)
deriving DecidableEq, Repr

/-- A decoded request (R124). -/
structure Request where
  commandId : BitVec 16
  streamId : BitVec 16
  /-- Milliseconds (section 11.1). -/
  wait : Nat
  body : Body
deriving DecidableEq, Repr

/-! ### Ring Engine -/

/-- Request phases (R124). -/
inductive Phase where
  | decoding | waiting | admitted | copying | posting
deriving DecidableEq, Repr

/-- A request table slot (R124). -/
structure Slot where
  /-- The slot number, 0 to 2,047. -/
  id : Nat
  ring : RingId
  phase : Phase
  /-- Absent while the entry read is in flight. -/
  request : Option Request
  /-- A fetch's segments: the used descriptors, or the accepted list (R50). -/
  segments : List Segment
  /-- Position A of a report request's completion, from its snapshot (R23, R103, R174). -/
  snapA : Nat
  /-- Position B of a report request's completion. -/
  snapB : Nat
deriving DecidableEq, Repr

/-- What a pending RING_FAULT latch holds (R133): the detail code of its cause and two positions. -/
structure RingFault where
  detail : Nat
  posA : Nat
  posB : Nat
deriving DecidableEq, Repr

/-- Request ring states (R117). -/
inductive ReqState where
  | absent | active | draining | stopped
deriving DecidableEq, Repr

/-- An entry read in flight (R117, R123): the slot claimed for the request, and the host address the entry is read from. -/
structure EntryFetch where
  slot : Nat
  addr : HostAddr
deriving DecidableEq, Repr

/-- A request ring record (R117). -/
structure RequestRing where
  state : ReqState
  base : HostAddr
  size : Nat
  put : Nat
  take : Nat
  bound : RingId
  /-- The entry read in flight. -/
  reading : Option EntryFetch
  outstanding : Nat
  fault : Option RingFault
  /-- The slot of the RING_DELETE that waits for the ring to drain (R136). -/
  deleter : Option Nat
  /-- Requests that RING_DELETE has cancelled so far (R136, log 21). -/
  cancelled : Nat
deriving DecidableEq, Repr

/-- Completion ring states (R118). -/
inductive CmpState where
  | absent | active | stopped
deriving DecidableEq, Repr

/-- A completion ring record (R118, R119, R129). -/
structure CompletionRing where
  state : CmpState
  base : HostAddr
  size : Nat
  put : Nat
  take : Nat
  lap : Bool
  /-- Posted and not taken. -/
  posted : Nat
  reserved : Nat
  interrupt : Bool
  batch : Nat
  /-- In units of 100 µs. -/
  delay : Nat
  unsignalled : Nat
  /-- Whether the delay timer runs. -/
  timer : Bool
  /-- The notice service pointer (R128). -/
  service : StreamId
  fault : Option RingFault
deriving DecidableEq, Repr

/-- The Ring Engine's state (R117, R118, R122, R124, R125). -/
structure RingEngine where
  req : Vector RequestRing 32
  cmp : Vector CompletionRing 32
  /-- The request table, in order of claim. -/
  table : List Slot
  /-- Requests handed to their owners and not yet acted on, in order of arrival (R125). -/
  arrived : List Nat
  ioPtr : RingId
deriving DecidableEq, Repr

/-! ### Host Link Port -/

/-- A completion write issued and not yet ended (R126, R170). -/
structure CmpWrite where
  ring : RingId
  addr : HostAddr
  data : BitVec 256
  /-- The ring it belongs to still exists (log 29). -/
  live : Bool
deriving DecidableEq, Repr

/-- What the part puts on the host link (log 16). -/
inductive LinkOut where
  | entry (addr : HostAddr) (data : BitVec 256)
  | bytes (addr : HostAddr) (data : List Byte)
  | message (vector : RingId)
deriving DecidableEq, Repr

/-- The Host Link Port's state (R126, R130, R146). -/
structure HostLink where
  /-- Input: the link is up. -/
  up : Bool
  /-- Input: the function may access host memory. -/
  access : Bool
  masked : Vector Bool 32
  msiPending : Vector Bool 32
  cmpWrites : List CmpWrite
  /-- The model's own record of what has left the part, oldest first. -/
  out : List LinkOut
deriving DecidableEq, Repr

/-! ### Stream Controller -/

/-- Stream states (R8). -/
inductive StreamState where
  | closed | opened | flushing | closing | faulted | held
deriving DecidableEq, Repr

/-- Stream modes (section 1.2). -/
inductive Mode where
  | retain | consume
deriving DecidableEq, Repr

/-- Record kinds (R2). -/
inductive RecordKind where
  | normal | voidAbandoned | voidDamaged
deriving DecidableEq, Repr

/-- Backlog monitor states (R106). -/
inductive Backlog where
  | below | atOrAbove
deriving DecidableEq, Repr

/-- Occupancy monitor states (R108). -/
inductive Occupancy where
  | calm | pressed
deriving DecidableEq, Repr

/-- Causes of a stream fault (R113). -/
inductive FaultCause where
  | recordHeader | chainLink
deriving DecidableEq, Repr

/-- A location (R69): a page of the chain and an offset in it, or the chain start. -/
inductive Loc where
  | chainStart
  | at (page offset : Nat)
deriving DecidableEq, Repr

/-- A mark (R68). -/
structure Mark where
  pos : Nat
  loc : Loc
deriving DecidableEq, Repr

/-- An entry of the waiting-append list (R35). The deadline is held as milliseconds from arrival (log 3). -/
structure WaitingAppend where
  slot : Nat
  length : Nat
  deadline : Option Nat
deriving DecidableEq, Repr

/-- An entry of the waiting-fetch list (R51). -/
structure WaitingFetch where
  slot : Nat
  maxRecords : Nat
  minRecords : Nat
  capacity : Nat
  wait : Nat
  deadline : Option Nat
deriving DecidableEq, Repr

/-- Why an append's copy failed (R40). -/
inductive CopyFailure where
  | hostRead | badList
deriving DecidableEq, Repr

/-- An admitted append (R34), its stream byte range as R32 and R140 give it. -/
structure Admitted where
  seq : Nat
  page : Nat
  offset : Nat
  footprint : Nat
  /-- The pages the range runs through, in chain order. -/
  pages : List Nat
  complete : Bool
  failed : Option CopyFailure
  slot : Nat
deriving DecidableEq, Repr

/-- The active fetch (section 3.5, R55, R63). -/
structure ActiveFetch where
  first : Nat
  endSeq : Nat
  firstLoc : Loc
  endLoc : Loc
  pin : Nat
  slot : Nat
  short : Bool
  stopped : Bool
deriving DecidableEq, Repr

/-- What a pending OCCUPANCY latch holds (R112). -/
structure OccLatch where
  state : Occupancy
  count : Nat
deriving DecidableEq, Repr

/-- A Stream Table entry with its pool record (section 1.2, R89). -/
structure StreamEntry where
  state : StreamState
  mode : Mode
  durable : Bool
  noticeRing : Option RingId
  readyLevel : Nat
  pressureLevel : Nat
  reliefLevel : Nat
  reserve : Nat
  quota : Nat
  base : Nat
  read : Nat
  frontier : Nat
  next : Nat
  baseLoc : Loc
  readLoc : Loc
  /-- The tail offset (R7). -/
  tail : Nat
  /-- The chain, oldest page first; held is its length (R89, log 26). -/
  chain : List Nat
  marks : List Mark
  waitA : List WaitingAppend
  waitF : List WaitingFetch
  admitted : List Admitted
  active : Option ActiveFetch
  /-- The slot of the flush or close that waits for work in flight. -/
  pendingEnd : Option Nat
  backlog : Backlog
  occupancy : Occupancy
  readyLatch : Bool
  occLatch : Option OccLatch
  /-- The FAULT latch with the cause of the fault (R113). -/
  faultLatch : Option FaultCause
  /-- The close under way began in FAULTED (R18). -/
  closeFromFault : Bool
  /-- The close under way has met a break and completes with MEDIA_ERROR (R19, R159). -/
  closeMedia : Bool
deriving DecidableEq, Repr

/-! ### Page Pool Manager -/

/-- A run of the grant arbiter (R99): the next stream to visit, and the visits since the last admission. -/
structure ArbiterRun where
  cursor : StreamId
  count : Nat
deriving DecidableEq, Repr

/-- The Page Pool Manager's state (R86 to R99). -/
structure Pool where
  usable : Nat
  free : Nat
  lost : Nat
  /-- Head page of the free list. -/
  head : Option Nat
  /-- Tail page of the free list. -/
  tail : Option Nat
  grantPtr : StreamId
  run : Option ArbiterRun
  /-- Starts of the arbiter raised and not yet taken (R98, log 6). -/
  starts : Nat
deriving DecidableEq, Repr

/-! ### Transfer Engine -/

/-- What a transfer does (R140). -/
inductive Work where
  | appendCopy (length : Nat) (source : Source) (pages : List Nat) (offset : Nat)
  | fetchCopy (stream : StreamId) (first endSeq : Nat) (firstLoc : Loc) (capacity : Nat) (segments : List Segment)
  | listRead (addr : HostAddr) (count : Nat)
  | reportWrite (addr : HostAddr) (data : List Byte)
deriving DecidableEq, Repr

/-- A transfer (R140). -/
structure Transfer where
  slot : Nat
  work : Work
deriving DecidableEq, Repr

/-- Context states (section 8.2). -/
inductive CtxState where
  | free | running | finishing | abandoning
deriving DecidableEq, Repr

/-- Outcomes of a transfer (R142). -/
inductive CopyOutcome where
  | ok | hostReadError | hostWriteError | badField | stopped
deriving DecidableEq, Repr

/-- An outstanding host read: bytes `off` to `off + len` of the run, or the indirect list. -/
structure HostRead where
  addr : HostAddr
  off : Nat
  len : Nat
  list : Bool
deriving DecidableEq, Repr

/-- An outstanding host write; `record` is the place among the records issued, for a fetch copy. -/
structure HostWrite where
  addr : HostAddr
  data : List Byte
  record : Nat
deriving DecidableEq, Repr

/-- An outstanding buffer DRAM read of a fetch copy (R148): a stored header, `len` payload bytes from `areaOff` of the
payload area, or a page's next link. -/
inductive BufRead where
  | header (page offset : Nat)
  | payload (page offset areaOff len : Nat)
  | link (page : Nat)
deriving DecidableEq, Repr

/-- An outstanding buffer DRAM write of an append copy: bytes at `areaOff` of the payload area (R147). -/
structure BufWrite where
  areaOff : Nat
  data : List Byte
deriving DecidableEq, Repr

/-- What a sound stored header gives (R155). -/
structure Header where
  kind : RecordKind
  length : Nat
  tag : Word
deriving DecidableEq, Repr

/-- A record whose host writes have been issued (R148). -/
structure Issued where
  footprint : Nat
  isVoid : Bool
  converted : Bool
  unsent : Nat
  failed : Bool
deriving DecidableEq, Repr

/-- Progress of a fetch copy (section 8.2, R148): the record in hand, where its walk stands, and what has been issued. -/
structure Progress where
  seq : Nat
  page : Nat
  offset : Nat
  header : Option Header
  walkPage : Nat
  walkOff : Nat
  /-- Bytes of the payload area not yet walked. -/
  left : Nat
  /-- Payload pieces read so far, by offset in the payload area. -/
  pieces : List (Nat × List Byte)
  /-- The record in hand has been converted (R158). -/
  converted : Bool
  /-- Bytes delivered or issued so far. -/
  runOff : Nat
  issued : List Issued
  /-- This copy has converted a record (R60). -/
  anyConverted : Bool
deriving DecidableEq, Repr

/-- A transfer context (section 8.2). -/
structure Context where
  state : CtxState
  transfer : Option Transfer
  outcome : CopyOutcome
  segments : List Segment
  reads : List HostRead
  writes : List HostWrite
  bufReads : List BufRead
  bufWrites : List BufWrite
  /-- Payload bytes of an append copy that have arrived in words not yet whole (R153), by their place in the payload. -/
  gathered : List (Nat × Byte)
  progress : Progress
deriving DecidableEq, Repr

/-- Which owner's rule an end goes to (R140). -/
inductive EndKind where
  | append | fetch | list | report
deriving DecidableEq, Repr

/-- A reported end (R142), with the figures of R148 for a fetch copy and the entries for a list read. -/
structure EndReport where
  slot : Nat
  kind : EndKind
  outcome : CopyOutcome
  segments : List Segment
  /-- Records written in full. -/
  count : Nat
  bytes : Nat
  voids : Nat
  /-- One of the records written in full was converted by this copy. -/
  converted : Bool
  /-- The copy converted a record. -/
  anyConverted : Bool
deriving DecidableEq, Repr

/-- The Transfer Engine's state (R141, R142). -/
structure Engine where
  queue : List Transfer
  contexts : Vector Context 64
  /-- Ends reported and not yet taken by their owners (R142, R151). -/
  ends : List EndReport
deriving DecidableEq, Repr

/-! ### Buffer Memory Controller -/

/-- Sizes of buffer DRAM (R86, R162). -/
inductive DramSize where
  | gib1 | gib2 | gib4
deriving DecidableEq, Repr

/-- Buffer DRAM and the Buffer Memory Controller's counters (chapter 9). -/
structure BufferMemory where
  /-- Absent until INIT has found it (R162). -/
  size : Option DramSize
  /-- DRAM bytes that differ from what INIT left, addresses strictly rising. -/
  cells : List Host.Cell
  /-- DRAM words in error, word numbers strictly rising. -/
  marks : List (Nat × EccError)
  corrected : Nat
  damaged : Nat
deriving DecidableEq, Repr

/-! ### The part, and the queue -/

/-- The LB512. -/
structure Chip where
  ctl : Controller
  link : HostLink
  rings : RingEngine
  streams : Vector StreamEntry 512
  pool : Pool
  engine : Engine
  mem : BufferMemory
deriving DecidableEq, Repr

/-- The part and the commands that wait, first in, first out. -/
structure State extends Chip where
  pending : List Instr
deriving DecidableEq, Repr

/-- Reasons the run stops with a fault. -/
inductive Fault where
  /-- Raised by REGISTER_WRITE at an offset of 4,096 or more: the window is 4 KiB, so the part has no such address
  (section 11.4). Safe: no write the part can receive is stopped. -/
  | outsideWindow
deriving DecidableEq, Repr

/-- Reasons a command is refused. -/
inductive Refusal where
  /-- Raised by `exec` for a command that has no meaning in the model; no arm raises it. Safe. -/
  | notModelled (mnemonic : String)
deriving DecidableEq, Repr

/-! ### Full-reset values -/

/-- R164. -/
def Controller.reset : Controller :=
  { state := .init, cause := .none, enable := false, preserve := false, preserveFlag := false,
    lastPreserved := false, ringError := false, reqBase := 0, cmpBase := 0, sizes := 0 }

/-- An ABSENT request ring (R117, R139; other fields log 36). -/
def RequestRing.absent : RequestRing :=
  { state := .absent, base := 0, size := 0, put := 0, take := 0, bound := 0, reading := none,
    outstanding := 0, fault := none, deleter := none, cancelled := 0 }

/-- An ABSENT completion ring (R118, R139; other fields log 36). -/
def CompletionRing.absent : CompletionRing :=
  { state := .absent, base := 0, size := 0, put := 0, take := 0, lap := true, posted := 0, reserved := 0,
    interrupt := false, batch := 0, delay := 0, unsignalled := 0, timer := false, service := 511,
    fault := none }

/-- R139. -/
def RingEngine.reset : RingEngine :=
  { req := Vector.replicate 32 RequestRing.absent, cmp := Vector.replicate 32 CompletionRing.absent,
    table := [], arrived := [], ioPtr := 31 }

/-- R139: no message pending; the inputs and masks are named in log 15. -/
def HostLink.reset : HostLink :=
  { up := true, access := true, masked := Vector.replicate 32 false, msiPending := Vector.replicate 32 false,
    cmpWrites := [], out := [] }

/-- A CLOSED stream (R24). -/
def StreamEntry.closed : StreamEntry :=
  { state := .closed, mode := .retain, durable := false, noticeRing := none, readyLevel := 0,
    pressureLevel := 0, reliefLevel := 0, reserve := 0, quota := 0, base := 0, read := 0, frontier := 0,
    next := 0, baseLoc := .chainStart, readLoc := .chainStart, tail := 0, chain := [], marks := [],
    waitA := [], waitF := [], admitted := [], active := none, pendingEnd := none, backlog := .below,
    occupancy := .calm, readyLatch := false, occLatch := none, faultLatch := none,
    closeFromFault := false, closeMedia := false }

/-- R104. -/
def Pool.reset : Pool :=
  { usable := 0, free := 0, lost := 0, head := none, tail := none, grantPtr := 511, run := none, starts := 0 }

/-- Progress before any record. -/
def Progress.start : Progress :=
  { seq := 0, page := 0, offset := 0, header := none, walkPage := 0, walkOff := 0, left := 0, pieces := [],
    converted := false, runOff := 0, issued := [], anyConverted := false }

/-- A FREE context (section 8.2). -/
def Context.free : Context :=
  { state := .free, transfer := none, outcome := .ok, segments := [], reads := [], writes := [],
    bufReads := [], bufWrites := [], gathered := [], progress := Progress.start }

/-- R152. -/
def Engine.reset : Engine :=
  { queue := [], contexts := Vector.replicate 64 Context.free, ends := [] }

/-- R162: both counters 0, no size found, nothing listed. -/
def BufferMemory.reset : BufferMemory :=
  { size := none, cells := [], marks := [], corrected := 0, damaged := 0 }

/-- The part right after full reset (R164). -/
def Chip.reset : Chip :=
  { ctl := Controller.reset, link := HostLink.reset, rings := RingEngine.reset,
    streams := Vector.replicate 512 StreamEntry.closed, pool := Pool.reset, engine := Engine.reset,
    mem := BufferMemory.reset }

/-- The machine right after full reset, with no command waiting. -/
def State.reset : State := { Chip.reset with pending := [] }

end Sys2Proof.Machine
end

