-- ==== Sys2Proof/Machine/Ops.lean ====
section
/-! DEFINITION. The named operations over the part's tables and over buffer DRAM: reading and writing entries of the
tables, bytes and words of DRAM with their ECC check, stored headers, and links of the page link table. -/

namespace Sys2Proof.Machine

/-! ### Tables -/

/-- Stream Table entry `i`. -/
def Chip.stream (c : Chip) (i : StreamId) : StreamEntry := c.streams.get i

/-- The part with Stream Table entry `i` replaced. -/
def Chip.setStream (c : Chip) (i : StreamId) (st : StreamEntry) : Chip :=
  { c with streams := c.streams.set i.val st i.isLt }

/-- The part with Stream Table entry `i` changed by `f`. -/
def Chip.modStream (c : Chip) (i : StreamId) (f : StreamEntry → StreamEntry) : Chip := c.setStream i (f (c.stream i))

/-- Request ring record `n`. -/
def Chip.reqRing (c : Chip) (n : RingId) : RequestRing := c.rings.req.get n

/-- The part with request ring record `n` replaced. -/
def Chip.setReqRing (c : Chip) (n : RingId) (r : RequestRing) : Chip :=
  { c with rings := { c.rings with req := c.rings.req.set n.val r n.isLt } }

/-- Completion ring record `n`. -/
def Chip.cmpRing (c : Chip) (n : RingId) : CompletionRing := c.rings.cmp.get n

/-- The part with completion ring record `n` replaced. -/
def Chip.setCmpRing (c : Chip) (n : RingId) (r : CompletionRing) : Chip :=
  { c with rings := { c.rings with cmp := c.rings.cmp.set n.val r n.isLt } }

/-- Transfer context `k`. -/
def Chip.ctx (c : Chip) (k : CtxId) : Context := c.engine.contexts.get k

/-- The part with transfer context `k` replaced. -/
def Chip.setCtx (c : Chip) (k : CtxId) (x : Context) : Chip :=
  { c with engine := { c.engine with contexts := c.engine.contexts.set k.val x k.isLt } }

/-- The controller is ACTIVE. -/
def Chip.isActive (c : Chip) : Bool := c.ctl.state == .active

/-! ### Request table -/

/-- The slot with number `id`, if it is claimed. -/
def Chip.slot? (c : Chip) (id : Nat) : Option Slot := c.rings.table.find? fun sl => sl.id == id

/-- The part with slot `id` changed by `f`. -/
def Chip.modSlot (c : Chip) (id : Nat) (f : Slot → Slot) : Chip :=
  { c with rings := { c.rings with table := c.rings.table.map fun sl => if sl.id = id then f sl else sl } }

/-- The part with slot `id` in phase `ph` (R124). -/
def Chip.setPhase (c : Chip) (id : Nat) (ph : Phase) : Chip := c.modSlot id fun sl => { sl with phase := ph }

/-- The part with slot `id` freed. -/
def Chip.freeSlot (c : Chip) (id : Nat) : Chip :=
  { c with rings := { c.rings with table := c.rings.table.filter fun sl => sl.id != id } }

/-- The least number from `n` on, within `fuel` tries, that no slot of the table has. -/
def leastUnused (table : List Slot) : Nat → Nat → Nat
  | 0, n => n
  | fuel + 1, n => if table.any (fun sl => sl.id == n) then leastUnused table fuel (n + 1) else n

/-- The number of the slot a take claims (log 19: the least free one). -/
def Chip.freshSlot (c : Chip) : Nat := leastUnused c.rings.table c.rings.table.length 0

/-- The stream a request names (R9): absent when its stream id is 512 or above. -/
def Request.stream (r : Request) : Option StreamId :=
  if h : r.streamId.toNat < 512 then some ⟨r.streamId.toNat, h⟩ else none

/-- The stream of the request in slot `id`. -/
def Chip.slotStream (c : Chip) (id : Nat) : Option StreamId :=
  match c.slot? id with
  | none => none
  | some sl =>
    match sl.request with
    | none => none
    | some r => r.stream

/-! ### Sparse tables keyed by numbers, in one canonical form -/

/-- The value listed for key `k`. -/
def sparseGet {α : Type} : List (Nat × α) → Nat → Option α
  | [], _ => none
  | (k', v) :: rest, k => if k = k' then some v else sparseGet rest k

/-- The list with `k` listed as `v`, or not listed when `v` is absent; keys stay strictly rising. -/
def sparsePut {α : Type} : List (Nat × α) → Nat → Option α → List (Nat × α)
  | [], _, none => []
  | [], k, some v => [(k, v)]
  | (k', v') :: rest, k, none => if k = k' then rest else (k', v') :: sparsePut rest k none
  | (k', v') :: rest, k, some v =>
    if k < k' then (k, v) :: (k', v') :: rest
    else if k = k' then (k, v) :: rest
    else (k', v') :: sparsePut rest k (some v)

/-- Keys strictly rising. -/
def sparseSorted {α : Type} : List (Nat × α) → Bool
  | [] => true
  | [_] => true
  | (k, _) :: (k', v') :: rest => decide (k < k') && sparseSorted ((k', v') :: rest)

/-! ### Buffer DRAM: bytes -/

/-- Total pages of a bank (R86). -/
def DramSize.pages : DramSize → Nat
  | .gib1 => 262144
  | .gib2 => 524288
  | .gib4 => 1048576

/-- Usable pages of a bank (R86): all but the 2,048 of the link table. -/
def DramSize.usable (d : DramSize) : Nat := d.pages - Config.linkPages

/-- MiB of a bank (R174). -/
def DramSize.mib : DramSize → Nat
  | .gib1 => 1024
  | .gib2 => 2048
  | .gib4 => 4096

/-- The bank of a size in MiB, when it is one of the three (R162). -/
def DramSize.ofMib (n : Nat) : Option DramSize :=
  if n = 1024 then some .gib1 else if n = 2048 then some .gib2 else if n = 4096 then some .gib4 else none

/-- The code of END in a next link and of FREE in an owner (log 13). -/
def linkNone : Nat := 4294967295

/-- A link table entry as a DRAM word (R87; layout log 13): next link in the low half, owner in the high half. -/
def encodeLink (next : Option Nat) (owner : Option StreamId) : DWord :=
  BitVec.ofNat 32 (match owner with | none => linkNone | some i => i.val) ++
    BitVec.ofNat 32 (match next with | none => linkNone | some p => p)

/-- The link table entry of page `p` at the end of INIT (R88): the page above, END for the last, owner FREE. -/
def initialLink (usable p : Nat) : DWord := encodeLink (if p + 1 < usable then some (p + 1) else none) none

/-- What DRAM word `w` holds when nothing is listed in it: zero (R162 step 2), or the link table as INIT built it
(R88, R162 step 3; log 14). -/
def BufferMemory.unlistedWord (m : BufferMemory) (w : Nat) : DWord :=
  match m.size with
  | none => 0
  | some d =>
    let first := d.usable * Config.pageWords
    if first ≤ w ∧ w < first + d.usable then initialLink d.usable (w - first) else 0

/-- What an unlisted byte reads as. -/
def BufferMemory.unlisted (m : BufferMemory) (a : Nat) : Byte := (m.unlistedWord (a / 8)).extractLsb' (8 * (a % 8)) 8

/-- The byte at address `a`. -/
def BufferMemory.readByte (m : BufferMemory) (a : Nat) : Byte := (sparseGet m.cells a).getD (m.unlisted a)

/-- Byte `a` written; its word is stored with valid check bits (R156). -/
def BufferMemory.writeByte (m : BufferMemory) (a : Nat) (b : Byte) : BufferMemory :=
  { m with
    cells := sparsePut m.cells a (if b = m.unlisted a then none else some b)
    marks := sparsePut m.marks (a / 8) none }

/-- A run of bytes written from address `a` on. -/
def BufferMemory.writeBytes (m : BufferMemory) (a : Nat) : List Byte → BufferMemory
  | [] => m
  | b :: rest => (m.writeByte a b).writeBytes (a + 1) rest

/-- `n` bytes from address `a` on. -/
def BufferMemory.readBytes (m : BufferMemory) (a : Nat) : Nat → List Byte
  | 0 => []
  | n + 1 => m.readByte a :: m.readBytes (a + 1) n

/-- The canonical form of buffer DRAM: cells and marks strictly rising, and no cell equal to what an unlisted byte reads as. -/
def BufferMemory.wf (m : BufferMemory) : Bool :=
  sparseSorted m.cells && m.cells.all (fun e => e.2 != m.unlisted e.1) && sparseSorted m.marks

/-! ### Buffer DRAM: words, ECC (R156) -/

/-- The 64 data bits of word `w`, as they would be corrected. -/
def BufferMemory.word (m : BufferMemory) (w : Nat) : DWord :=
  m.readByte (8 * w + 7) ++ m.readByte (8 * w + 6) ++ m.readByte (8 * w + 5) ++ m.readByte (8 * w + 4) ++
    m.readByte (8 * w + 3) ++ m.readByte (8 * w + 2) ++ m.readByte (8 * w + 1) ++ m.readByte (8 * w)

/-- Byte `i` of a word. -/
def wordByte (v : DWord) (i : Nat) : Byte := v.extractLsb' (8 * i) 8

/-- The bytes of a word, lowest address first. -/
def wordBytes (v : DWord) : List Byte :=
  [wordByte v 0, wordByte v 1, wordByte v 2, wordByte v 3, wordByte v 4, wordByte v 5, wordByte v 6, wordByte v 7]

/-- Word `w` written. -/
def BufferMemory.writeWord (m : BufferMemory) (w : Nat) (v : DWord) : BufferMemory := m.writeBytes (8 * w) (wordBytes v)

/-- A counter raised by one, saturating at 32 bits (R157). -/
def countUp (n : Nat) : Nat := if n < Config.maxCounter then n + 1 else n

/-- One checked read of word `w` (R156): clean, corrected (written back and counted), or uncorrectable. -/
def BufferMemory.check (m : BufferMemory) (w : Nat) : BufferMemory × Option DWord :=
  match sparseGet m.marks w with
  | none => (m, some (m.word w))
  | some .single => ({ m with marks := sparsePut m.marks w none, corrected := countUp m.corrected }, some (m.word w))
  | some .multi => (m, none)

/-- Checked reads of `n` words from `w` on; false when one of them is uncorrectable. The words after such a one are read, corrected
and counted too, the model's choice (log 42). -/
def BufferMemory.checkRun (m : BufferMemory) (w : Nat) : Nat → BufferMemory × Bool
  | 0 => (m, true)
  | n + 1 =>
    let r := m.check w
    let rest := r.1.checkRun (w + 1) n
    (rest.1, r.2.isSome && rest.2)

/-- A bit error appears in a word (log 4): a second error in a word makes it uncorrectable. -/
def BufferMemory.upset (m : BufferMemory) (e : Nat × EccError) : BufferMemory :=
  { m with marks := sparsePut m.marks e.1 (some (if (sparseGet m.marks e.1).isSome then .multi else e.2)) }

/-- The bit errors a command brings. -/
def Chip.upset (c : Chip) (u : Upsets) : Chip := { c with mem := u.foldl BufferMemory.upset c.mem }

/-! ### Stored headers (R154, R155) -/

/-- Kind codes (section 11.2). -/
def RecordKind.code : RecordKind → BitVec 8
  | .normal => 0
  | .voidAbandoned => 1
  | .voidDamaged => 2

/-- The kind of a code, when it is defined. -/
def RecordKind.ofCode (b : BitVec 8) : Option RecordKind :=
  if b = 0 then some .normal else if b = 1 then some .voidAbandoned else if b = 2 then some .voidDamaged else none

/-- The first word of a stored header: sequence and kind (R154; bit places log 13). -/
def headerWord0 (seq : Nat) (kind : RecordKind) : DWord := (0 : BitVec 8) ++ kind.code ++ BitVec.ofNat 48 seq

/-- The second word of a stored header: length, tag and stream id (R154; bit places log 13). -/
def headerWord1 (length : Nat) (tag : Word) (stream : StreamId) : DWord :=
  BitVec.ofNat 16 stream.val ++ tag ++ BitVec.ofNat 16 length

/-- The DRAM word at an offset of a page. -/
def wordAt (page offset : Nat) : Nat := page * Config.pageWords + offset / 8

/-- Both words of a stored header written at admission (R33, R154). -/
def BufferMemory.writeHeader (m : BufferMemory) (page offset seq length : Nat) (tag : Word) (stream : StreamId) :
    BufferMemory :=
  (m.writeWord (wordAt page offset) (headerWord0 seq .normal)).writeWord (wordAt page offset + 1)
    (headerWord1 length tag stream)

/-- The first word of a stored header rewritten at a conversion to a void (R154). -/
def BufferMemory.rewriteKind (m : BufferMemory) (page offset seq : Nat) (kind : RecordKind) : BufferMemory :=
  m.writeWord (wordAt page offset) (headerWord0 seq kind)

/-- The header two words hold when it is sound for stream `i` at sequence `seq` (R155). -/
def judgeHeader (w0 w1 : DWord) (i : StreamId) (seq : Nat) : Option Header :=
  match RecordKind.ofCode (w0.extractLsb' 48 8) with
  | none => none
  | some kind =>
    let length := (w1.extractLsb' 0 16).toNat
    if (w0.extractLsb' 0 48).toNat = seq ∧ (w1.extractLsb' 48 16).toNat = i.val ∧ 1 ≤ length ∧
        length ≤ Config.maxLength then
      some { kind := kind, length := length, tag := w1.extractLsb' 16 32 }
    else none

/-- A stored header read for stream `i` at sequence `seq` (R155): absent on a record-header error. -/
def BufferMemory.readHeader (m : BufferMemory) (i : StreamId) (seq page offset : Nat) :
    BufferMemory × Option Header :=
  let r0 := m.check (wordAt page offset)
  let r1 := r0.1.check (wordAt page offset + 1)
  (r1.1,
    match r0.2, r1.2 with
    | some w0, some w1 => judgeHeader w0 w1 i seq
    | _, _ => none)

/-- A record's footprint (R1). -/
def footprint (length : Nat) : Nat := 16 + (length + 15) / 16 * 16

/-! ### The page link table (R87) -/

/-- What following a next link finds: a link error, END, or a page with the expected owner. -/
inductive Follow where
  | error
  | fin
  | page (p : Nat)
deriving DecidableEq, Repr

/-- The DRAM word of page `p`'s link table entry: the table begins at the first page above the usable ones (R86). -/
def linkWord (usable p : Nat) : Nat := usable * Config.pageWords + p

/-- The next link of an entry. -/
def linkNext (v : DWord) : Nat := (v.extractLsb' 0 32).toNat

/-- The owner of an entry. -/
def linkOwner (v : DWord) : Nat := (v.extractLsb' 32 32).toNat

/-- The code of an expected owner. -/
def ownerCode : Option StreamId → Nat
  | none => linkNone
  | some i => i.val

/-- The next link of page `p` followed and judged (R87): the link is read, then the owner of the page it names. -/
def BufferMemory.follow (m : BufferMemory) (usable p : Nat) (owner : Option StreamId) : BufferMemory × Follow :=
  let r := m.check (linkWord usable p)
  match r.2 with
  | none => (r.1, .error)
  | some v =>
    if linkNext v = linkNone then (r.1, .fin)
    else if usable ≤ linkNext v then (r.1, .error)
    else
      let r' := r.1.check (linkWord usable (linkNext v))
      match r'.2 with
      | none => (r'.1, .error)
      | some v' => (r'.1, if linkOwner v' = ownerCode owner then .page (linkNext v) else .error)

/-- Page `p`'s link table entry written. -/
def BufferMemory.writeLink (m : BufferMemory) (usable p : Nat) (next : Option Nat) (owner : Option StreamId) :
    BufferMemory :=
  m.writeWord (linkWord usable p) (encodeLink next owner)

/-- A link of the chain of stream `i` followed: the page, or nothing on a chain-link error. END where a page must follow
names no usable page and is a chain-link error too (log 26). -/
def Chip.followChain (c : Chip) (i : StreamId) (p : Nat) : Chip × Option Nat :=
  let r := c.mem.follow c.pool.usable p (some i)
  ({ c with mem := r.1 },
    match r.2 with
    | .error => none
    | .fin => none
    | .page q => some q)

/-- Page `p`'s link table entry written, at the part. -/
def Chip.writeLink (c : Chip) (p : Nat) (next : Option Nat) (owner : Option StreamId) : Chip :=
  { c with mem := c.mem.writeLink c.pool.usable p next owner }

end Sys2Proof.Machine
end

