-- ==== Sys2Proof/Machine/Operands.lean ====
section
/-! DEFINITION. The layouts software writes (chapter 11): the 64-byte request entry with its operands, descriptors, settings
block and ring parameters block, and the entries of an indirect list; with the checks of R28, R49, R143 and R144 on
segments. -/

namespace Sys2Proof.Machine

/-- The little-endian field of `n` bytes at byte `off` of an entry. -/
def field (e : Entry) (off n : Nat) : Nat := (e.extractLsb' (8 * off) (8 * n)).toNat

/-- The segment descriptor at byte `off` of an entry (section 11.1). -/
def descriptorAt (e : Entry) (off : Nat) : Segment :=
  { addr := e.extractLsb' (8 * off) 64, len := field e (off + 8) 4 }

/-- The used descriptors of a direct form (R28, R143): up to the first of length 0, or all three. -/
def usedSegments : List Segment → List Segment
  | [] => []
  | s :: rest => if s.len = 0 then [] else s :: usedSegments rest

/-- The segment area of an APPEND or FETCH (section 11.1): the INDIRECT flag selects the form. -/
def sourceOf (e : Entry) : Source :=
  if e.getLsbD 8 then .indirect (e.extractLsb' 128 64) (field e 24 2)
  else .direct (usedSegments [descriptorAt e 16, descriptorAt e 32, descriptorAt e 48])

/-- The settings block at entry bytes 16 to 63 (section 11.1). -/
def settingsOf (e : Entry) : SettingsBlock :=
  { mode := field e 16 1, durable := field e 17 1, noticeRing := field e 18 1, reserve := field e 20 4,
    quota := field e 24 4, readyLevel := field e 28 2, pressureLevel := field e 32 4,
    reliefLevel := field e 36 4, initial := field e 40 6 }

/-- The ring parameters block at entry bytes 16 to 63 (section 11.1). -/
def ringBlockOf (e : Entry) : RingBlock :=
  { ringType := field e 16 1, id := field e 17 1, bound := field e 18 1, enable := field e 19 1 != 0,
    batch := field e 20 1, delay := field e 21 1, size := field e 22 2, base := e.extractLsb' 192 64 }

/-- The variant bits of the flags byte (section 11.1). -/
def variantOf (e : Entry) : Nat := (e.extractLsb' 9 2).toNat

/-- The fields an entry's kind uses (section 11.6 gives the codes); absent for a code that names no kind. -/
def bodyOf (e : Entry) : Option Body :=
  let kind := field e 0 1
  if kind = 0x01 then some (.append (field e 8 2) (e.extractLsb' 80 32) (sourceOf e))
  else if kind = 0x02 then some (.fetch (field e 8 2) (field e 10 2) (sourceOf e))
  else if kind = 0x03 then some .mark
  else if kind = 0x04 then some (.rewind (variantOf e) (field e 8 6))
  else if kind = 0x05 then some (.release (variantOf e) (field e 8 6))
  else if kind = 0x10 then some (.describe (descriptorAt e 16))
  else if kind = 0x11 then some (.ringCreate (ringBlockOf e))
  else if kind = 0x12 then some (.ringDelete (ringBlockOf e))
  else if kind = 0x13 then some (.streamOpen (settingsOf e))
  else if kind = 0x14 then some (.streamSet (settingsOf e))
  else if kind = 0x15 then some .streamFlush
  else if kind = 0x16 then some .streamClose
  else if kind = 0x17 then some (.streamResume (field e 8 1))
  else if kind = 0x18 then some (.streamReport (descriptorAt e 16))
  else if kind = 0x19 then some (.poolReport (descriptorAt e 16))
  else if kind = 0x1A then some (.cancel (field e 8 1) (e.extractLsb' 80 16))
  else none

/-- The command id of an entry. -/
def entryCommand (e : Entry) : BitVec 16 := e.extractLsb' 16 16

/-- The stream id field of an entry. -/
def entryStream (e : Entry) : BitVec 16 := e.extractLsb' 32 16

/-- The request of an entry with body `b` (R124). -/
def requestOf (e : Entry) (b : Body) : Request :=
  { commandId := entryCommand e, streamId := entryStream e, wait := field e 6 2, body := b }

/-- The kinds valid on rings 1 to 31 (R125). -/
def Body.isIO : Body → Bool
  | .append _ _ _ => true
  | .fetch _ _ _ => true
  | .mark => true
  | .rewind _ _ => true
  | .release _ _ => true
  | .describe _ => false
  | .ringCreate _ => false
  | .ringDelete _ => false
  | .streamOpen _ => false
  | .streamSet _ => false
  | .streamFlush => false
  | .streamClose => false
  | .streamResume _ => false
  | .streamReport _ => false
  | .poolReport _ => false
  | .cancel _ _ => false

/-- The owners requests are handed to (R125). -/
inductive Owner where
  | streamController | poolManager | controller | ringEngine
deriving DecidableEq, Repr

/-- The owner of a request (R125). -/
def Body.owner : Body → Owner
  | .append _ _ _ => .streamController
  | .fetch _ _ _ => .streamController
  | .mark => .streamController
  | .rewind _ _ => .streamController
  | .release _ _ => .streamController
  | .describe _ => .controller
  | .ringCreate _ => .ringEngine
  | .ringDelete _ => .ringEngine
  | .streamOpen _ => .streamController
  | .streamSet _ => .streamController
  | .streamFlush => .streamController
  | .streamClose => .streamController
  | .streamResume _ => .streamController
  | .streamReport _ => .streamController
  | .poolReport _ => .poolManager
  | .cancel _ _ => .ringEngine

/-! ### Segments -/

/-- Total length of segments. -/
def totalLength (segs : List Segment) : Nat := (segs.map Segment.len).sum

/-- A host address is a multiple of 16. -/
def aligned16 (a : HostAddr) : Bool := a.toNat % 16 == 0

/-- The list reference of an indirect form is accepted at decode (R28, R49). -/
def listAccepted (addr : HostAddr) (count : Nat) : Bool := aligned16 addr && decide (1 ≤ count) && decide (count ≤ 256)

/-- Segments an APPEND of `length` bytes accepts (R28, R144): addresses aligned, lengths totalling the record length. -/
def appendSegmentsOk (length : Nat) (segs : List Segment) : Bool :=
  segs.all (fun s => aligned16 s.addr) && totalLength segs == length

/-- Segments a FETCH accepts (R49, R144): addresses and lengths multiples of 16, no length 0, at most 4 MiB in all. -/
def fetchSegmentsOk (segs : List Segment) : Bool :=
  segs.all (fun s => aligned16 s.addr && s.len % 16 == 0 && s.len != 0) &&
    decide (totalLength segs ≤ Config.maxFetchBytes)

/-- Check 4 of R27. -/
def appendSourceOk (length : Nat) : Source → Bool
  | .direct segs => !segs.isEmpty && appendSegmentsOk length segs
  | .indirect addr count => listAccepted addr count

/-- Check 5 of R48. -/
def fetchSourceOk : Source → Bool
  | .direct segs => !segs.isEmpty && fetchSegmentsOk segs
  | .indirect addr count => listAccepted addr count

/-- The buffer descriptor of a report is accepted (R23, R103, R174). -/
def reportBufferOk (size : Nat) (s : Segment) : Bool :=
  aligned16 s.addr && s.len % 16 == 0 && decide (size ≤ s.len)

/-- The number `n` little-endian bytes spell. -/
def bytesToNat : List Byte → Nat
  | [] => 0
  | b :: rest => b.toNat + 256 * bytesToNat rest

/-- The entries of an indirect list read as `count` descriptors of 16 bytes (R144, section 11.1). -/
def listEntries : Nat → List Byte → List Segment
  | 0, _ => []
  | n + 1, bytes =>
    { addr := BitVec.ofNat 64 (bytesToNat (bytes.take 8)), len := bytesToNat ((bytes.drop 8).take 4) } ::
      listEntries n (bytes.drop 16)

/-- Accesses of at most `Config.maxAccess` bytes from an address on: address, place in the run, length (log 8). -/
def chunks : Nat → HostAddr → Nat → Nat → List (HostAddr × Nat × Nat)
  | 0, _, _, _ => []
  | fuel + 1, addr, pos, len =>
    if len = 0 then []
    else if len ≤ Config.maxAccess then [(addr, pos, len)]
    else (addr, pos, Config.maxAccess) ::
      chunks fuel (addr + BitVec.ofNat 64 Config.maxAccess) (pos + Config.maxAccess) (len - Config.maxAccess)

/-- The accesses that cover `len` bytes from byte `off` of the run the segments form (R143): none crosses a segment.
`pos` is the place of the first byte among the bytes moved. -/
def splitRun : List Segment → (off len pos : Nat) → List (HostAddr × Nat × Nat)
  | [], _, _, _ => []
  | s :: rest, off, len, pos =>
    if s.len ≤ off then splitRun rest (off - s.len) len pos
    else
      let n := min len (s.len - off)
      chunks (n / Config.maxAccess + 1) (s.addr + BitVec.ofNat 64 off) pos n ++
        (if len ≤ n then [] else splitRun rest 0 (len - n) (pos + n))

end Sys2Proof.Machine
end

