-- ==== Sys2Proof/Machine/Flags.lean ====
section
/-! DEFINITION. The codes, flags and words the part reports (chapter 11): statuses and notices, the completion entry with its
LAP, NOTICE, SHORT and DAMAGED flags, the reports, the register window as read, the two monitors (chapter 6) and the state
check of R8. -/

namespace Sys2Proof.Machine

/-! ### Codes (section 11.6) -/

/-- Completion statuses. -/
inductive Status where
  | ok | noData | bufferSmall | timedOut | cancelled | waitLimit | flushed | closed | noRoom | tooLarge
  | seqLimit | badStream | streamBusy | streamFaulted | streamHeld | wrongMode | badField | badKind | wrongRing
  | markLimit | noMark | badTarget | hostReadError | hostWriteError | mediaError | inUse | notFound | notWaiting
  | noReserve
deriving DecidableEq, Repr

/-- Status codes. -/
def Status.code : Status → BitVec 8
  | .ok => 0x00
  | .noData => 0x01
  | .bufferSmall => 0x02
  | .timedOut => 0x08
  | .cancelled => 0x09
  | .waitLimit => 0x0A
  | .flushed => 0x10
  | .closed => 0x11
  | .noRoom => 0x18
  | .tooLarge => 0x19
  | .seqLimit => 0x1A
  | .badStream => 0x20
  | .streamBusy => 0x21
  | .streamFaulted => 0x22
  | .streamHeld => 0x23
  | .wrongMode => 0x24
  | .badField => 0x28
  | .badKind => 0x29
  | .wrongRing => 0x2A
  | .markLimit => 0x30
  | .noMark => 0x31
  | .badTarget => 0x32
  | .hostReadError => 0x38
  | .hostWriteError => 0x39
  | .mediaError => 0x3A
  | .inUse => 0x40
  | .notFound => 0x41
  | .notWaiting => 0x42
  | .noReserve => 0x43

/-- Notice codes. -/
inductive Notice where
  | dataReady | pressure | relief | streamFault | ringFault
deriving DecidableEq, Repr

/-- Codes of notices in the status field. -/
def Notice.code : Notice → BitVec 8
  | .dataReady => 0x80
  | .pressure => 0x81
  | .relief => 0x82
  | .streamFault => 0x83
  | .ringFault => 0x84

/-- Stream state codes of the stream report. -/
def StreamState.code : StreamState → Nat
  | .closed => 0
  | .opened => 1
  | .flushing => 2
  | .closing => 3
  | .faulted => 4
  | .held => 5

/-- STATUS state codes (section 11.4). -/
def CtlState.code : CtlState → Nat
  | .init => 0
  | .disabled => 1
  | .active => 2
  | .quiescing => 3
  | .halted => 4

/-- Halt cause codes (section 11.4). -/
def HaltCause.code : HaltCause → Nat
  | .none => 0
  | .memoryInit => 1
  | .freeList => 2
  | .controlRing => 3

/-- The detail code of a STREAM_FAULT notice (R115). -/
def FaultCause.detail : FaultCause → Nat
  | .recordHeader => 1
  | .chainLink => 2

/-! ### Completion entries (section 11.2, R175) -/

/-- What an owner fills in a completion or a notice; the rest of the entry is zero (R175). -/
structure Completion where
  code : BitVec 8
  commandId : BitVec 16 := 0
  streamId : BitVec 16 := 0
  short : Bool := false
  damaged : Bool := false
  detail : Nat := 0
  posA : Nat := 0
  posB : Nat := 0
  count : Nat := 0
  bytes : Nat := 0
  voids : Nat := 0
deriving DecidableEq, Repr

/-- A figure of 16 bits, written as 65,535 when above (R175). -/
def clamp16 (n : Nat) : BitVec 16 := BitVec.ofNat 16 (min n 65535)

/-- A figure of 32 bits, written as 2^32 - 1 when above (R175). -/
def clamp32 (n : Nat) : BitVec 32 := BitVec.ofNat 32 (min n Config.maxCounter)

/-- The flags byte of a completion entry. -/
def entryFlags (lap notice short damaged : Bool) : BitVec 8 :=
  (0 : BitVec 4) ++ BitVec.ofBool damaged ++ BitVec.ofBool short ++ BitVec.ofBool notice ++ BitVec.ofBool lap

/-- The 32 bytes of a completion entry, byte 0 lowest. -/
def encodeEntry (lap notice : Bool) (ring : BitVec 8) (take : Nat) (e : Completion) : BitVec 256 :=
  (0 : BitVec 16) ++ clamp16 e.voids ++ clamp32 e.bytes ++ clamp16 e.count ++ BitVec.ofNat 48 e.posB ++
    BitVec.ofNat 48 e.posA ++ BitVec.ofNat 16 take ++ e.streamId ++ BitVec.ofNat 8 e.detail ++ e.code ++
    entryFlags lap notice e.short e.damaged ++ ring ++ e.commandId

/-- The bytes of a number, lowest first. -/
def natBytes : Nat → Nat → List Byte
  | 0, _ => []
  | n + 1, v => BitVec.ofNat 8 v :: natBytes n (v / 256)

/-- The 16-byte delivery header (section 11.2, R59). -/
def deliveryHeader (seq : Nat) (kind : RecordKind) (length : Nat) (tag : Word) : List Byte :=
  natBytes 6 seq ++ [kind.code, 0] ++ natBytes 2 length ++ natBytes 4 tag.toNat ++ [0, 0]

/-! ### The register window as read (R177) -/

/-- A bit as a number. -/
def bit (b : Bool) : Nat := if b then 1 else 0

/-- CTRL as read (section 11.4). -/
def Controller.ctrlWord (k : Controller) : Word := BitVec.ofNat 32 (bit k.enable + 2 * bit k.preserve)

/-- STATUS as read (R168, section 11.4). -/
def Controller.statusWord (k : Controller) : Word :=
  BitVec.ofNat 32 (k.state.code + 16 * k.cause.code + 256 * bit k.lastPreserved + 512 * bit k.ringError)

/-- The request ring 0 size in CRING_SIZES (section 11.4: bits 0-12). -/
def Controller.reqSize (k : Controller) : Nat := (k.sizes.extractLsb' 0 13).toNat

/-- The completion ring 0 size in CRING_SIZES (section 11.4: bits 16-28). -/
def Controller.cmpSize (k : Controller) : Nat := (k.sizes.extractLsb' 16 13).toNat

/-- A read of the window word at `offset` (R177, R120, R121): spare bits zero, 0 where no register is named. -/
def Chip.readReg (c : Chip) (offset : Nat) : Word :=
  if offset = 0 then c.ctl.ctrlWord
  else if offset = 4 then c.ctl.statusWord
  else if offset = 8 then c.ctl.reqBase.extractLsb' 0 32
  else if offset = 12 then c.ctl.reqBase.extractLsb' 32 32
  else if offset = 16 then c.ctl.cmpBase.extractLsb' 0 32
  else if offset = 20 then c.ctl.cmpBase.extractLsb' 32 32
  else if offset = 24 then c.ctl.sizes &&& 0x1FFF1FFF
  else if 256 ≤ offset ∧ offset < 512 ∧ offset % 4 = 0 then
    let n : RingId := Fin.ofNat 32 ((offset - 256) / 8)
    if offset % 8 = 0 then
      (if (c.reqRing n).state = .absent then 0 else BitVec.ofNat 32 (c.reqRing n).put)
    else
      (if (c.cmpRing n).state = .absent then 0 else BitVec.ofNat 32 (c.cmpRing n).take)
  else 0

/-! ### Counts of a stream and of the pool -/

/-- Pages in a stream's chain (R89). -/
def StreamEntry.heldPages (st : StreamEntry) : Nat := st.chain.length

/-- Available and unread (R5): committed records not yet granted. -/
def StreamEntry.available (st : StreamEntry) : Nat := st.frontier - st.read

/-- Unmet reserve, counted in OPEN, FLUSHING and HELD (R91). -/
def StreamEntry.unmet (st : StreamEntry) : Nat :=
  match st.state with
  | .opened => st.reserve - st.heldPages
  | .flushing => st.reserve - st.heldPages
  | .held => st.reserve - st.heldPages
  | .closed => 0
  | .closing => 0
  | .faulted => 0

/-- The sum of the unmet reserves of all streams (R91). -/
def Chip.sumUnmet (c : Chip) : Nat := (c.streams.toList.map StreamEntry.unmet).sum

/-- The shared free count (R91). -/
def Chip.sharedFree (c : Chip) : Nat := c.pool.free - c.sumUnmet

/-- The sum of the reserve settings (R103). -/
def Chip.sumReserves (c : Chip) : Nat := (c.streams.toList.map StreamEntry.reserve).sum

/-- Streams whose waiting-append list is not empty (R103). -/
def Chip.streamsWaiting (c : Chip) : Nat := (c.streams.toList.filter fun st => !st.waitA.isEmpty).length

/-- The location of the tail (R69): the position `next` when the chain is not empty, else the chain start. -/
def StreamEntry.tailLoc (st : StreamEntry) : Loc :=
  match st.chain.getLast? with
  | none => .chainStart
  | some p => .at p st.tail

/-- No admitted append and no active fetch (R14, R17). -/
def StreamEntry.idle (st : StreamEntry) : Bool := st.admitted.isEmpty && st.active.isNone

/-- A latch of the stream is pending. -/
def StreamEntry.latched (st : StreamEntry) : Bool := st.readyLatch || st.occLatch.isSome || st.faultLatch.isSome

/-! ### Monitors (chapter 6) -/

/-- One evaluation of the backlog monitor (R106), and whether it rose. -/
def StreamEntry.backlogStep (st : StreamEntry) : Backlog × Bool :=
  if st.readyLevel = 0 then (st.backlog, false)
  else if st.readyLevel ≤ st.available then (.atOrAbove, st.backlog == .below)
  else (.below, false)

/-- One evaluation of the occupancy monitor (R108), and whether it made a transition. -/
def StreamEntry.occupancyStep (st : StreamEntry) : Occupancy × Bool :=
  if st.pressureLevel = 0 then (st.occupancy, false)
  else
    match st.occupancy with
    | .calm => if st.pressureLevel ≤ st.heldPages then (.pressed, true) else (.calm, false)
    | .pressed => if st.heldPages ≤ st.reliefLevel then (.calm, true) else (.pressed, false)

/-- The OCCUPANCY latch after a transition to `o` (R112). -/
def OccLatch.absorb (l : Option OccLatch) (o : Occupancy) : OccLatch :=
  match l with
  | none => { state := o, count := 1 }
  | some x => { state := o, count := if x.count < 255 then x.count + 1 else x.count }

/-- Silent evaluation of both monitors (R110). -/
def StreamEntry.silent (st : StreamEntry) : StreamEntry :=
  { st with
    backlog := if st.readyLevel ≠ 0 ∧ st.readyLevel ≤ st.available then .atOrAbove else .below
    occupancy :=
      if st.pressureLevel ≠ 0 ∧ st.pressureLevel ≤ st.heldPages then .pressed
      else if st.pressureLevel = 0 ∨ st.heldPages ≤ st.reliefLevel then .calm
      else st.occupancy }

/-- Every latch clear (R116). -/
def StreamEntry.clearLatches (st : StreamEntry) : StreamEntry :=
  { st with readyLatch := false, occLatch := none, faultLatch := none }

/-! ### The state check (R8) -/

/-- The groups of requests that R8 decides alike. -/
inductive RequestGroup where
  | open_ | set_ | flush | close | resume | report | io
deriving DecidableEq, Repr

/-- The table of R8: the refusing status, or nothing when the request is taken. -/
def stateCheck (g : RequestGroup) (s : StreamState) : Option Status :=
  match g, s with
  | .open_, .closed => none
  | .open_, .opened => some .inUse
  | .open_, .flushing => some .streamBusy
  | .open_, .closing => some .streamBusy
  | .open_, .faulted => some .streamFaulted
  | .open_, .held => some .streamHeld
  | .set_, .closed => some .badStream
  | .set_, .opened => none
  | .set_, .flushing => some .streamBusy
  | .set_, .closing => some .streamBusy
  | .set_, .faulted => some .streamFaulted
  | .set_, .held => none
  | .flush, .closed => some .badStream
  | .flush, .opened => none
  | .flush, .flushing => some .streamBusy
  | .flush, .closing => some .streamBusy
  | .flush, .faulted => some .streamFaulted
  | .flush, .held => some .streamHeld
  | .close, .closed => some .badStream
  | .close, .opened => none
  | .close, .flushing => some .streamBusy
  | .close, .closing => some .streamBusy
  | .close, .faulted => none
  | .close, .held => none
  | .resume, .closed => some .badStream
  | .resume, .opened => some .inUse
  | .resume, .flushing => some .streamBusy
  | .resume, .closing => some .streamBusy
  | .resume, .faulted => some .streamFaulted
  | .resume, .held => none
  | .report, .closed => some .badStream
  | .report, .opened => none
  | .report, .flushing => none
  | .report, .closing => none
  | .report, .faulted => none
  | .report, .held => none
  | .io, .closed => some .badStream
  | .io, .opened => none
  | .io, .flushing => some .streamBusy
  | .io, .closing => some .streamBusy
  | .io, .faulted => some .streamFaulted
  | .io, .held => some .streamHeld

/-! ### Reports (section 11.3, R176) -/

/-- The marks field of the stream report: eight places, unused ones 0. -/
def markBytes : Nat → List Mark → List Byte
  | 0, _ => []
  | n + 1, [] => natBytes 6 0 ++ markBytes n []
  | n + 1, m :: rest => natBytes 6 m.pos ++ markBytes n rest

/-- The 128 bytes of a stream report (R23). -/
def streamReportBytes (st : StreamEntry) : List Byte :=
  natBytes 1 st.state.code ++ natBytes 1 (bit (st.mode == .consume)) ++ natBytes 1 (bit st.durable) ++
    natBytes 1 (match st.noticeRing with | none => 255 | some n => n.val) ++
    natBytes 1 (bit (st.backlog == .atOrAbove)) ++ natBytes 1 (bit (st.occupancy == .pressed)) ++
    natBytes 1 st.marks.length ++ natBytes 1 st.waitA.length ++ natBytes 1 st.waitF.length ++
    natBytes 1 st.admitted.length ++ natBytes 2 st.tail ++ natBytes 4 st.reserve ++ natBytes 4 st.quota ++
    natBytes 4 st.heldPages ++ natBytes 2 st.readyLevel ++ natBytes 2 0 ++ natBytes 4 st.pressureLevel ++
    natBytes 4 st.reliefLevel ++ natBytes 6 st.base ++ natBytes 6 st.read ++ natBytes 6 st.frontier ++
    natBytes 6 st.next ++ natBytes 6 (match st.active with | none => 0 | some a => a.first) ++
    natBytes 6 (match st.active with | none => 0 | some a => a.endSeq) ++ markBytes 8 st.marks ++ natBytes 8 0

/-- The 64 bytes of a pool report (R103). -/
def Chip.poolReportBytes (c : Chip) : List Byte :=
  natBytes 4 c.pool.usable ++ natBytes 4 c.pool.free ++ natBytes 4 c.sharedFree ++ natBytes 4 c.sumReserves ++
    natBytes 4 c.pool.lost ++ natBytes 4 c.mem.corrected ++ natBytes 4 c.mem.damaged ++
    natBytes 2 c.streamsWaiting ++ natBytes 34 0

/-- The DRAM size in MiB (R174). -/
def Chip.dramMib (c : Chip) : Nat :=
  match c.mem.size with
  | none => 0
  | some d => d.mib

/-- The 64 bytes of a describe report (R174). -/
def Chip.describeBytes (c : Chip) : List Byte :=
  natBytes 2 Config.revision ++ natBytes 2 c.dramMib ++ natBytes 4 c.pool.usable ++ natBytes 2 512 ++
    natBytes 1 32 ++ natBytes 1 0 ++ natBytes 2 Config.tableSlots ++ natBytes 1 64 ++ natBytes 1 Config.maxMarks ++
    natBytes 1 Config.maxWaiting ++ natBytes 1 Config.maxWindow ++ natBytes 2 Config.maxLength ++ natBytes 44 0

end Sys2Proof.Machine
end

