-- ==== Sys2Proof/Machine/Posting.lean ====
section
/-! DEFINITION. What the Ring Engine does with a completion handed to it (R126), with interrupts (R129, R130), with notices
(R114, R115, R127, R128, R133) and with a released reservation (R123). -/

namespace Sys2Proof.Machine

/-! ### Interrupts -/

/-- The message for vector `n`: held pending when the host has masked it, else sent (R130). -/
def Chip.sendMessage (c : Chip) (n : RingId) : Chip :=
  if c.link.masked.get n then
    { c with link := { c.link with msiPending := c.link.msiPending.set n.val true n.isLt } }
  else { c with link := { c.link with out := c.link.out ++ [.message n] } }

/-- An interrupt raised by completion ring `n` (R129): the unsignalled count is 0 and the delay timer stops. -/
def Chip.raiseInterrupt (c : Chip) (n : RingId) : Chip :=
  (c.setCmpRing n { c.cmpRing n with unsignalled := 0, timer := false }).sendMessage n

/-- A post counted for the coalescing of completion ring `n` (R129). -/
def Chip.countPost (c : Chip) (n : RingId) : Chip :=
  let r := c.cmpRing n
  if r.interrupt then
    if r.unsignalled + 1 = r.batch then c.raiseInterrupt n
    else
      c.setCmpRing n
        { r with unsignalled := r.unsignalled + 1, timer := r.timer || (r.unsignalled == 0 && r.delay != 0) }
  else c

/-! ### Writing entries -/

/-- Free-for-reservation (R118). -/
def CompletionRing.freeSlots (r : CompletionRing) : Nat := r.size - 1 - r.posted - r.reserved

/-- The ring after an entry is written at its put index (R119, R126): the index wraps and the lap value flips with it. -/
def CompletionRing.advance (r : CompletionRing) : CompletionRing :=
  { r with
    put := if r.put + 1 = r.size then 0 else r.put + 1
    lap := if r.put + 1 = r.size then !r.lap else r.lap
    posted := r.posted + 1 }

/-- The host address of entry `i` of a completion ring (R118). -/
def CompletionRing.entryAddr (r : CompletionRing) (i : Nat) : HostAddr := r.base + BitVec.ofNat 64 (32 * i)

/-- A completion entry written to completion ring `n` (R126): its write is issued, the ring advances, the post is counted. -/
def Chip.writeEntry (c : Chip) (n : RingId) (notice : Bool) (ring : BitVec 8) (take : Nat) (e : Completion) : Chip :=
  let r := c.cmpRing n
  let w : CmpWrite :=
    { ring := n, addr := r.entryAddr r.put, data := encodeEntry r.lap notice ring take e, live := true }
  let c1 := { c with link := { c.link with cmpWrites := c.link.cmpWrites ++ [w] } }
  (c1.setCmpRing n r.advance).countPost n

/-- A completion handed to the Ring Engine for the request in slot `id` (R126): written at once when its completion ring is
ACTIVE, dropped when it is STOPPED; the slot is freed. Once the controller has left ACTIVE it is not written and the slot
stays in POSTING (R45, R139, log 10). -/
def Chip.post (c : Chip) (id : Nat) (e : Completion) : Chip :=
  match c.slot? id with
  | none => c
  | some sl =>
    if c.isActive then
      let ring := c.reqRing sl.ring
      let b := ring.bound
      let c1 := c.setCmpRing b { c.cmpRing b with reserved := (c.cmpRing b).reserved - 1 }
      let c2 :=
        if (c1.cmpRing b).state = .active then c1.writeEntry b false (BitVec.ofNat 8 sl.ring.val) ring.take e else c1
      let c3 := c2.freeSlot id
      c3.setReqRing sl.ring { c3.reqRing sl.ring with outstanding := (c3.reqRing sl.ring).outstanding - 1 }
    else c.setPhase id .posting

/-- A DRAINING ring whose outstanding count is 0 becomes ABSENT and its RING_DELETE completes (R136). -/
def Chip.drainCheck (c : Chip) (n : RingId) : Chip :=
  let r := c.reqRing n
  match r.deleter with
  | none => c
  | some d =>
    if r.state = .draining ∧ r.outstanding = 0 then
      let c1 := c.setReqRing n { RequestRing.absent with fault := r.fault }
      match c1.slot? d with
      | none => c1
      | some sl =>
        match sl.request with
        | none => c1
        | some q =>
          c1.post d { code := Status.ok.code, commandId := q.commandId, posA := n.val, count := r.cancelled }
    else c

/-- A completion handed over for slot `id`, with the draining of its request ring that follows (R126, R136). -/
def Chip.complete (c : Chip) (id : Nat) (e : Completion) : Chip :=
  match c.slot? id with
  | none => c
  | some sl => (c.post id e).drainCheck sl.ring

/-- A completion of request `q` with status `s` and every other field zero. -/
def Request.reply (q : Request) (s : Status) : Completion :=
  { code := s.code, commandId := q.commandId, streamId := q.streamId }

/-- The completion `f` gives for the request in slot `id`, handed over. -/
def Chip.answer (c : Chip) (id : Nat) (f : Request → Completion) : Chip :=
  match c.slot? id with
  | none => c
  | some sl =>
    match sl.request with
    | none => c
    | some q => c.complete id (f q)

/-- The request in slot `id` completed with status `s` and zeros. -/
def Chip.refuse (c : Chip) (id : Nat) (s : Status) : Chip := c.answer id fun q => q.reply s

/-- Requests in `ids` completed with status `s` in that order. -/
def Chip.refuseAll (c : Chip) (ids : List Nat) (s : Status) : Chip := ids.foldl (fun c id => c.refuse id s) c

/-! ### Notices -/

/-- Completion ring `n` can take a notice (R114): ACTIVE, with a slot that no request has reserved. -/
def Chip.canPost (c : Chip) (n : RingId) : Bool :=
  c.isActive && (c.cmpRing n).state == .active && decide (1 ≤ (c.cmpRing n).freeSlots)

/-- The fields of an OCCUPANCY notice (R115), read when it is posted. -/
def occupancyNotice (i : StreamId) (st : StreamEntry) (l : OccLatch) : Completion :=
  match l.state with
  | .pressed =>
    { code := Notice.pressure.code, streamId := BitVec.ofNat 16 i.val, posA := st.pressureLevel, count := l.count,
      bytes := st.heldPages }
  | .calm =>
    { code := Notice.relief.code, streamId := BitVec.ofNat 16 i.val, posA := st.reliefLevel, count := l.count,
      bytes := st.heldPages }

/-- The fields of a DATA_READY notice (R115). -/
def readyNotice (i : StreamId) (st : StreamEntry) : Completion :=
  { code := Notice.dataReady.code, streamId := BitVec.ofNat 16 i.val, posA := st.readyLevel, posB := st.read,
    count := 1, bytes := st.available }

/-- The fields of a STREAM_FAULT notice (R115). -/
def faultNotice (i : StreamId) (st : StreamEntry) (f : FaultCause) : Completion :=
  { code := Notice.streamFault.code, streamId := BitVec.ofNat 16 i.val, detail := f.detail, posA := st.base,
    posB := st.frontier, count := 1, bytes := st.heldPages }

/-- A pending FAULT latch of stream `i` posted to ring `n`, if there is room. -/
def Chip.postFault (c : Chip) (i : StreamId) (n : RingId) : Chip :=
  match (c.stream i).faultLatch with
  | none => c
  | some f =>
    if c.canPost n then
      (c.writeEntry n true 0xFF 0 (faultNotice i (c.stream i) f)).modStream i fun st => { st with faultLatch := none }
    else c

/-- A pending OCCUPANCY latch of stream `i` posted to ring `n`, if there is room. -/
def Chip.postOccupancy (c : Chip) (i : StreamId) (n : RingId) : Chip :=
  match (c.stream i).occLatch with
  | none => c
  | some l =>
    if c.canPost n then
      (c.writeEntry n true 0xFF 0 (occupancyNotice i (c.stream i) l)).modStream i fun st => { st with occLatch := none }
    else c

/-- A pending READY latch of stream `i` posted to ring `n`, if there is room. -/
def Chip.postReady (c : Chip) (i : StreamId) (n : RingId) : Chip :=
  if (c.stream i).readyLatch && c.canPost n then
    (c.writeEntry n true 0xFF 0 (readyNotice i (c.stream i))).modStream i fun st => { st with readyLatch := false }
  else c

/-- An attempt to post the pending latches of stream `i` (R114): OCCUPANCY first and READY second; a FAULTED stream has
only FAULT. -/
def Chip.attempt (c : Chip) (i : StreamId) : Chip :=
  match (c.stream i).noticeRing with
  | none => c
  | some n => ((c.postFault i n).postOccupancy i n).postReady i n

/-- The fields of a RING_FAULT notice (R133). -/
def ringFaultNotice (id : Nat) (f : RingFault) : Completion :=
  { code := Notice.ringFault.code, streamId := BitVec.ofNat 16 id, detail := f.detail, posA := f.posA, posB := f.posB }

/-- The RING_FAULT latch of request ring `n` attempted (R127, R133). -/
def Chip.attemptReqFault (c : Chip) (n : RingId) : Chip :=
  match (c.reqRing n).fault with
  | none => c
  | some f =>
    if c.canPost 0 then
      let c1 := c.writeEntry 0 true 0xFF 0 (ringFaultNotice n.val f)
      c1.setReqRing n { c1.reqRing n with fault := none }
    else c

/-- The RING_FAULT latch of completion ring `n` attempted (R127, R133). -/
def Chip.attemptCmpFault (c : Chip) (n : RingId) : Chip :=
  match (c.cmpRing n).fault with
  | none => c
  | some f =>
    if c.canPost 0 then
      let c1 := c.writeEntry 0 true 0xFF 0 (ringFaultNotice (256 + n.val) f)
      c1.setCmpRing n { c1.cmpRing n with fault := none }
    else c

/-- Ring numbers 0 to 31. -/
def ringIds : List RingId := (List.range 32).map (Fin.ofNat 32)

/-- Pending RING_FAULT latches served (R128 step 1): ascending ring id, the request ring before the completion ring. -/
def Chip.serveRingFaults (c : Chip) : Chip :=
  ringIds.foldl (fun c n => (c.attemptReqFault n).attemptCmpFault n) c

/-- One stream's turn in the service of ring `n` (R128 step 2): a stream with a pending latch bound to the ring posts what
fits, and the service pointer moves to it. -/
def Chip.serveStream (n : RingId) (c : Chip) (i : StreamId) : Chip :=
  if (c.stream i).noticeRing = some n ∧ (c.stream i).latched = true ∧ c.canPost n = true then
    let c1 := c.attempt i
    c1.setCmpRing n { c1.cmpRing n with service := i }
  else c

/-- Streams in ascending order beginning after `i`, wrapping from 511 to 0. -/
def streamsAfter (i : StreamId) : List StreamId := (List.range 512).map fun k => Fin.ofNat 512 (i.val + 1 + k)

/-- Pending latches bound to completion ring `n` served into its free slots (R128). -/
def Chip.service (c : Chip) (n : RingId) : Chip :=
  let c1 := if n = 0 then c.serveRingFaults else c
  (streamsAfter (c1.cmpRing n).service).foldl (Chip.serveStream n) c1

/-- A reservation on completion ring `n` released, and the notices it makes room for served (R123). -/
def Chip.releaseReservation (c : Chip) (n : RingId) : Chip :=
  (c.setCmpRing n { c.cmpRing n with reserved := (c.cmpRing n).reserved - 1 }).service n

/-! ### Monitors that act (R106 to R112) -/

/-- The backlog monitor evaluated in OPEN (R106, R107): a rise sets READY, and a latch that becomes pending is attempted. -/
def Chip.evalBacklog (c : Chip) (i : StreamId) : Chip :=
  let st := c.stream i
  if c.isActive = true ∧ st.state = .opened then
    let r := st.backlogStep
    let c1 := c.setStream i { st with backlog := r.1, readyLatch := st.readyLatch || r.2 }
    if r.2 = true ∧ st.readyLatch = false then c1.attempt i else c1
  else c

/-- The occupancy monitor evaluated in OPEN or FLUSHING (R108, R109): a transition updates OCCUPANCY, which is attempted. -/
def Chip.evalOccupancy (c : Chip) (i : StreamId) : Chip :=
  let st := c.stream i
  if c.isActive = true ∧ (st.state = .opened ∨ st.state = .flushing) then
    let r := st.occupancyStep
    if r.2 then
      (c.setStream i { st with occupancy := r.1, occLatch := some (OccLatch.absorb st.occLatch r.1) }).attempt i
    else c
  else c

end Sys2Proof.Machine
end

