-- ==== Sys2Proof/Machine/Stopping.lean ====
section
/-! DEFINITION. The part's own faults of the rings and of the whole: the engine's abandoning (R151, R152), entry into HALTED
(R172, R173), and the stops of request and completion rings (R131, R132, R134). -/

namespace Sys2Proof.Machine

/-- No access of the context is outstanding (R142). -/
def Context.quiet (x : Context) : Bool :=
  x.reads.isEmpty && x.writes.isEmpty && x.bufReads.isEmpty && x.bufWrites.isEmpty

/-- A context at the start of QUIESCING or at a halt (R151): it issues nothing more, awaits what is outstanding, and is
FREE when nothing is. -/
def Context.abandon (x : Context) : Context :=
  match x.state with
  | .free => x
  | .running => if x.quiet then Context.free else { x with state := .abandoning }
  | .finishing => if x.quiet then Context.free else { x with state := .abandoning }
  | .abandoning => x

/-- The engine at the start of QUIESCING or at a halt (R151, R152): the queue is emptied and busy contexts abandon. -/
def Engine.abandon (e : Engine) : Engine := { e with queue := [], contexts := e.contexts.map Context.abandon }

/-- A halt cause reported (R172): INIT, ACTIVE and QUIESCING enter HALTED with it; any other state changes nothing. -/
def Chip.halt (c : Chip) (cause : HaltCause) : Chip :=
  match c.ctl.state with
  | .init => { c with ctl := { c.ctl with state := .halted, cause := cause }, engine := c.engine.abandon }
  | .active => { c with ctl := { c.ctl with state := .halted, cause := cause }, engine := c.engine.abandon }
  | .quiescing => { c with ctl := { c.ctl with state := .halted, cause := cause }, engine := c.engine.abandon }
  | .disabled => c
  | .halted => c

/-- Request ring `n` enters STOPPED with its RING_FAULT latch pending (R131, R133). -/
def Chip.markReqStopped (c : Chip) (n : RingId) (f : RingFault) : Chip :=
  c.setReqRing n { c.reqRing n with state := .stopped, fault := some f }

/-- A stop of request ring `n` (R131; R134 for ring 0): only an ACTIVE ring stops. -/
def Chip.stopReqRing (c : Chip) (n : RingId) (f : RingFault) : Chip :=
  if n = 0 then c.halt .controlRing
  else if (c.reqRing n).state = .active then (c.markReqStopped n f).attemptReqFault n
  else c

/-- Request ring `m` stopped if it is ACTIVE and bound to the completion ring `n` that stops (R132), with cause 5 (R133). -/
def Chip.stopIfBound (n : RingId) (c : Chip) (m : RingId) : Chip :=
  let r := c.reqRing m
  if r.state = .active ∧ r.bound = n then c.markReqStopped m { detail := 5, posA := r.take, posB := r.put } else c

/-- The request rings an ACTIVE completion ring `n` takes with it when it stops (R132). -/
def Chip.boundActive (c : Chip) (n : RingId) : List RingId :=
  ringIds.filter fun m => (c.reqRing m).state == .active && (c.reqRing m).bound == n

/-- The latches one stop made pending, attempted in the order of R128 (R127). -/
def Chip.attemptStopped (stopped : List RingId) (n : RingId) (c : Chip) (m : RingId) : Chip :=
  let c1 := if stopped.contains m then c.attemptReqFault m else c
  if m = n then c1.attemptCmpFault m else c1

/-- A stop of completion ring `n` (R132; R134 for ring 0): only an ACTIVE ring stops. -/
def Chip.stopCmpRing (c : Chip) (n : RingId) (f : RingFault) : Chip :=
  if n = 0 then c.halt .controlRing
  else if (c.cmpRing n).state = .active then
    let stopped := c.boundActive n
    let c1 := c.setCmpRing n { c.cmpRing n with state := .stopped, unsignalled := 0, timer := false, fault := some f }
    let c2 := ringIds.foldl (Chip.stopIfBound n) c1
    ringIds.foldl (Chip.attemptStopped stopped n) c2
  else c

end Sys2Proof.Machine
end

