-- ==== Sys2Proof/Machine/Transfers.lean ====
section
/-! DEFINITION. The Transfer Engine (chapter 8): placing and starting transfers, the accesses each kind issues, ends, the
append copy (R147), the fetch copy as a walk over stored records (R148), and the stop of a fetch copy (R149). -/

namespace Sys2Proof.Machine

/-- A transfer placed at the tail of the queue (R141). -/
def Chip.place (c : Chip) (t : Transfer) : Chip := { c with engine := { c.engine with queue := c.engine.queue ++ [t] } }

/-- An end reported to its owner (R142). -/
def Chip.report (c : Chip) (e : EndReport) : Chip := { c with engine := { c.engine with ends := c.engine.ends ++ [e] } }

/-- The owner's rule an end of this work goes to (R140). -/
def Work.endKind : Work → EndKind
  | .appendCopy _ _ _ _ => .append
  | .fetchCopy _ _ _ _ _ _ => .fetch
  | .listRead _ _ => .list
  | .reportWrite _ _ => .report

/-! ### Ends -/

/-- The records written in full: those issued from the first on whose writes have all been sent (R148). -/
def writtenInFull : List Issued → List Issued
  | [] => []
  | r :: rest => if r.unsent = 0 ∧ r.failed = false then r :: writtenInFull rest else []

/-- The report of a context's end, with the figures of R148. -/
def Context.endReport (x : Context) (t : Transfer) : EndReport :=
  let full := writtenInFull x.progress.issued
  { slot := t.slot, kind := t.work.endKind, outcome := x.outcome, segments := x.segments, count := full.length,
    bytes := (full.map Issued.footprint).sum, voids := (full.filter Issued.isVoid).length,
    converted := full.any Issued.converted, anyConverted := x.progress.anyConverted }

/-- A RUNNING context with no access outstanding has done its work: a fetch copy when every record of its range has been
issued, any other transfer at once (R142, R148). -/
def Context.workDone (x : Context) : Bool :=
  match x.transfer with
  | none => true
  | some t =>
    match t.work with
    | .appendCopy _ _ _ _ => true
    | .fetchCopy _ _ endSeq _ _ _ => x.progress.seq == endSeq
    | .listRead _ _ => true
    | .reportWrite _ _ => true

/-- A context whose last outstanding access has ended (R142, R151): RUNNING or FINISHING reports its end and is FREE,
ABANDONING is FREE without a report. -/
def Chip.settle (c : Chip) (k : CtxId) : Chip :=
  let x := c.ctx k
  if x.quiet then
    match x.transfer with
    | none => c
    | some t =>
      match x.state with
      | .free => c
      | .running => if x.workDone then (c.setCtx k Context.free).report (x.endReport t) else c
      | .finishing => (c.setCtx k Context.free).report (x.endReport t)
      | .abandoning => c.setCtx k Context.free
  else c

/-- A context that has met an error or a stop (section 8.2): FINISHING with that outcome, nothing new issued. -/
def Context.finish (x : Context) (o : CopyOutcome) : Context :=
  match x.state with
  | .running => { x with state := .finishing, outcome := o }
  | .free => x
  | .finishing => x
  | .abandoning => x

/-! ### Accesses -/

/-- The host reads that cover the first `length` bytes of the run (R143, R147). -/
def payloadReads (segs : List Segment) (length : Nat) : List HostRead :=
  (splitRun segs 0 length 0).map fun a => { addr := a.1, off := a.2.1, len := a.2.2, list := false }

/-- The host writes that put `data` at byte `off` of the run, for the `record`-th record issued. -/
def runWrites (segs : List Segment) (off : Nat) (data : List Byte) (record : Nat) : List HostWrite :=
  (splitRun segs off data.length 0).map fun a =>
    { addr := a.1, data := (data.drop a.2.1).take a.2.2, record := record }

/-- The one host read of an indirect list (R144, log 8). -/
def listRead (addr : HostAddr) (count : Nat) : HostRead := { addr := addr, off := 0, len := 16 * count, list := true }

/-! ### The fetch copy (R148) -/

/-- The first read of the record in hand: its stored header, or the link to the page it begins on when the record before
it ended at a page's end (log 9). -/
def Context.startRecord (x : Context) (endSeq : Nat) : Context :=
  if x.progress.seq = endSeq then x
  else if x.progress.offset = Config.pageBytes then { x with bufReads := x.bufReads ++ [.link x.progress.page] }
  else { x with bufReads := x.bufReads ++ [.header x.progress.page x.progress.offset] }

/-- The walk over the record in hand goes on: its payload is still to be read, or a record of the range follows it. -/
def Progress.walks (p : Progress) (endSeq : Nat) : Bool :=
  decide (p.seq + 1 < endSeq) ||
    (match p.header with
    | none => false
    | some h => h.kind == .normal && !p.converted)

/-- The bytes of the payload area in the walk's page. -/
def Progress.portion (p : Progress) : Nat := min p.left (Config.pageBytes - p.walkOff)

/-- The payload read of the walk's page, for a NORMAL record that has not been converted (R148 step 2, R158). -/
def Progress.payloadRead (p : Progress) : List BufRead :=
  match p.header with
  | none => []
  | some h =>
    let areaOff := footprint h.length - 16 - p.left
    if h.kind = .normal ∧ p.converted = false ∧ areaOff < h.length ∧ 0 < p.portion then
      [.payload p.walkPage p.walkOff areaOff (min p.portion (h.length - areaOff))]
    else []

/-- The walk over one page of the record in hand: the payload bytes in it are read, and the next link when the record
goes on to another page (R148 step 2). Both reads are issued together, before the payload's result is known, the model's choice
(log 9). -/
def Context.walkPage (x : Context) : Context :=
  let p := x.progress
  let more := p.payloadRead ++ (if p.portion < p.left then [.link p.walkPage] else [])
  { x with
    bufReads := x.bufReads ++ more
    progress := { p with left := p.left - p.portion, walkOff := p.walkOff + p.portion } }

/-- The payload pieces of a record in order, joined. -/
def joinPieces (pieces : List (Nat × List Byte)) : List Byte := (pieces.map Prod.snd).flatten

/-- A piece put among the others by its offset. -/
def insertPiece (piece : Nat × List Byte) : List (Nat × List Byte) → List (Nat × List Byte)
  | [] => [piece]
  | q :: rest => if piece.1 ≤ q.1 then piece :: q :: rest else q :: insertPiece piece rest

/-- The kind the record in hand is delivered with (R59, R60). -/
def Progress.deliveredKind (p : Progress) (h : Header) : RecordKind := if p.converted then .voidDamaged else h.kind

/-- The payload area as delivered (R59, R60): payload and zeros for a NORMAL record, zeros for a void. -/
def Progress.deliveredArea (p : Progress) (h : Header) : List Byte :=
  let size := footprint h.length - 16
  match p.deliveredKind h with
  | .normal => (joinPieces p.pieces ++ List.replicate size 0).take size
  | .voidAbandoned => List.replicate size 0
  | .voidDamaged => List.replicate size 0

/-- Every read of the record in hand has ended and its walk is over: its host writes are issued (R148 step 3) and the next
record begins. -/
def Context.deliver (x : Context) (endSeq : Nat) : Context :=
  match x.progress.header with
  | none => x
  | some h =>
    let p := x.progress
    if x.bufReads.isEmpty && (p.left == 0 || !p.walks endSeq) then
      let record := p.issued.length
      let head := deliveryHeader p.seq (p.deliveredKind h) h.length h.tag
      let writes := runWrites x.segments p.runOff head record ++
        runWrites x.segments (p.runOff + 16) (p.deliveredArea h) record
      let entry : Issued :=
        { footprint := footprint h.length, isVoid := p.deliveredKind h != .normal, converted := p.converted,
          unsent := writes.length, failed := false }
      ({ x with
        writes := x.writes ++ writes
        progress :=
          { p with
            seq := p.seq + 1, page := p.walkPage, offset := p.walkOff, header := none, left := 0, pieces := [],
            converted := false, runOff := p.runOff + footprint h.length, issued := p.issued ++ [entry] } }).startRecord
        endSeq
    else x

/-- A sound header of the record in hand (R148 step 1): its walk begins after the 16 header bytes. -/
def Context.gotHeader (x : Context) (h : Header) (endSeq : Nat) : Context :=
  let p := x.progress
  let x1 : Context :=
    { x with
      progress :=
        { p with
          header := some h, walkPage := p.page, walkOff := p.offset + 16, left := footprint h.length - 16,
          pieces := [], converted := false } }
  (if x1.progress.walks endSeq then x1.walkPage else x1).deliver endSeq

/-- A next link of the fetch copy followed to page `q`: the record in hand begins there, or its walk goes on there. -/
def Context.gotPage (x : Context) (q endSeq : Nat) : Context :=
  match x.progress.header with
  | none => ({ x with progress := { x.progress with page := q, offset := 0 } }).startRecord endSeq
  | some _ =>
    if x.progress.walks endSeq then
      (({ x with progress := { x.progress with walkPage := q, walkOff := 0 } }).walkPage).deliver endSeq
    else x.deliver endSeq

/-- The page and offset of a location; the chain start is no record's place. -/
def Loc.place : Loc → Nat × Nat
  | .chainStart => (0, 0)
  | .at p o => (p, o)

/-! ### Starting (R141, R142) -/

/-- A FREE context with a transfer started in it, its first accesses issued (R142); of an append copy every payload read at once,
the model's choice (log 8). -/
def Context.start (t : Transfer) : Context :=
  let x : Context := { Context.free with state := .running, transfer := some t }
  match t.work with
  | .appendCopy length (.direct segs) _ _ => { x with segments := segs, reads := payloadReads segs length }
  | .appendCopy _ (.indirect addr count) _ _ => { x with reads := [listRead addr count] }
  | .fetchCopy _ first endSeq loc _ segs =>
    ({ x with
      segments := segs
      progress := { Progress.start with seq := first, page := loc.place.1, offset := loc.place.2 } }).startRecord endSeq
  | .listRead addr count => { x with reads := [listRead addr count] }
  | .reportWrite addr data => { x with writes := [{ addr := addr, data := data, record := 0 }] }

/-- Context numbers 0 to 63. -/
def ctxIds : List CtxId := (List.range 64).map (Fin.ofNat 64)

/-- The FREE context with the least number (which one makes no difference, section 8.2). -/
def Chip.freeCtx (c : Chip) : Option CtxId := ctxIds.find? fun k => (c.ctx k).state == .free

/-- The head of the queue started in a FREE context while ACTIVE (R141); the phase becomes COPYING, but for a list read
(R142). -/
def Chip.startTransfer (c : Chip) : Chip :=
  if c.isActive then
    match c.engine.queue, c.freeCtx with
    | t :: rest, some k =>
      let c1 := { c with engine := { c.engine with queue := rest } }
      let c2 :=
        match t.work with
        | .listRead _ _ => c1
        | .appendCopy _ _ _ _ => c1.setPhase t.slot .copying
        | .fetchCopy _ _ _ _ _ _ => c1.setPhase t.slot .copying
        | .reportWrite _ _ => c1.setPhase t.slot .copying
      (c2.setCtx k (Context.start t)).settle k
    | _, _ => c
  else c

/-! ### Host reads (R144, R145, R147) -/

/-- Byte `n` of the payload area once it is there: from a read whose data `bytes` began at byte `off`, gathered before, or one of
the zeros that complete the last word (R153). -/
def payloadByte (gathered : List (Nat × Byte)) (length off : Nat) (bytes : List Byte) (n : Nat) : Option Byte :=
  if length ≤ n then some 0
  else if off ≤ n ∧ n < off + bytes.length then bytes[n - off]?
  else sparseGet gathered n

/-- Every byte of word `w` of the payload area is there. -/
def wordWhole (has : Nat → Option Byte) (w : Nat) : Bool := (List.range 8).all fun k => (has (8 * w + k)).isSome

/-- The zero words after the word of the last payload byte, when the words written end with it (R153). -/
def padding (length last : Nat) : List Byte :=
  if length ≤ 8 * last then List.replicate (footprint length - 16 - 8 * last) 0 else []

/-- The payload words from `first` up to `last` written to buffer DRAM in one access (R153), with the zeros that follow. -/
def wordsWrite (has : Nat → Option Byte) (length first last : Nat) : List BufWrite :=
  if first < last then
    [{ areaOff := 8 * first
       data := (List.range (8 * (last - first))).map (fun k => (has (8 * first + k)).getD 0) ++ padding length last }]
  else []

/-- Payload data at byte `off` joins what has been gathered: the words it makes whole are written, the bytes of words still to be
completed are kept (R147, R153; log 8). Of the words the data touches only the first and the last can miss bytes. -/
def Context.gather (x : Context) (length off : Nat) (bytes : List Byte) : Context :=
  let has := payloadByte x.gathered length off bytes
  let lo := off / 8
  let hi := (off + bytes.length + 7) / 8
  let first := if wordWhole has lo then lo else lo + 1
  let last := if wordWhole has (hi - 1) then hi else hi - 1
  let left : Nat × Byte → Bool := fun e => !(decide (first ≤ e.1 / 8) && decide (e.1 / 8 < last))
  { x with
    gathered := ((List.range bytes.length).zipWith (fun k b => (off + k, b)) bytes ++ x.gathered).filter left
    bufWrites := x.bufWrites ++ wordsWrite has length first last }

/-- Data of an outstanding host read of a RUNNING context: payload goes on to buffer DRAM (R147), a list is checked and used
(R144); an accepted append list has every payload read issued at once, the model's choice (log 8). -/
def Context.gotData (x : Context) (r : HostRead) (bytes : List Byte) : Context :=
  match x.transfer with
  | none => x
  | some t =>
    match t.work with
    | .appendCopy length (.direct _) _ _ => x.gather length r.off bytes
    | .appendCopy length (.indirect _ count) _ _ =>
      if r.list then
        let segs := listEntries count bytes
        if appendSegmentsOk length segs then
          { x with segments := segs, reads := x.reads ++ payloadReads segs length }
        else x.finish .badField
      else x.gather length r.off bytes
    | .fetchCopy _ _ _ _ _ _ => x
    | .listRead _ count =>
      let segs := listEntries count bytes
      if fetchSegmentsOk segs then { x with segments := segs } else x.finish .badField
    | .reportWrite _ _ => x

/-- An outstanding host read of context `k` ends (R145): with its data, or with an error or the 50 ms timeout. A read that is
not outstanding, or data of another length than the read asked for, is no event of the context. -/
def Chip.endHostRead (c : Chip) (k : CtxId) (j : Nat) (res : HostReadEnd) : Chip :=
  let x := c.ctx k
  match x.reads[j]? with
  | none => c
  | some r =>
    let x1 := { x with reads := x.reads.eraseIdx j }
    match res with
    | .data bytes =>
      if bytes.length = r.len then
        (c.setCtx k (if x.state = .running then x1.gotData r bytes else x1)).settle k
      else c
    | .error => (c.setCtx k (x1.finish .hostReadError)).settle k
    | .timeout => (c.setCtx k (x1.finish .hostReadError)).settle k

/-! ### Host writes (R146) -/

/-- The Host Link Port can send a write (R146). -/
def HostLink.canSend (l : HostLink) : Bool := l.up && l.access

/-- The record at place `i` among those issued, changed by `f`. -/
def markIssued (f : Issued → Issued) : Nat → List Issued → List Issued
  | _, [] => []
  | 0, r :: rest => f r :: rest
  | n + 1, r :: rest => r :: markIssued f n rest

/-- The oldest outstanding host write of context `k` ends (R146): sent when the port can send it, else with a host write error.
The writes of a context are issued as its run gives them, and end in that order (R143, section 8.4); between contexts and rings
the order of the ends is the order in which the port issues the writes (log 43). -/
def Chip.endHostWrite (c : Chip) (k : CtxId) : Chip :=
  let x := c.ctx k
  match x.writes with
  | [] => c
  | w :: later =>
    let x1 := { x with writes := later }
    if c.link.canSend then
      let p := { x1.progress with
        issued := markIssued (fun r => { r with unsent := r.unsent - 1 }) w.record x1.progress.issued }
      let c1 := { c with link := { c.link with out := c.link.out ++ [LinkOut.bytes w.addr w.data] } }
      (c1.setCtx k { x1 with progress := p }).settle k
    else
      let p := { x1.progress with
        issued := markIssued (fun r => { r with failed := true }) w.record x1.progress.issued }
      (c.setCtx k (({ x1 with progress := p }).finish .hostWriteError)).settle k

/-! ### Buffer writes (R147) -/

/-- Bytes of a stream byte range written from range offset `off` on (R147, R153): byte 0 of the range is at `start` in the
first of `pages`. -/
def BufferMemory.writeRange (m : BufferMemory) (pages : List Nat) (start : Nat) : Nat → List Byte → BufferMemory
  | _, [] => m
  | off, b :: rest =>
    let at_ := start + off
    let page := (pages[at_ / Config.pageBytes]?).getD 0
    (m.writeByte (page * Config.pageBytes + at_ % Config.pageBytes) b).writeRange pages start (off + 1) rest

/-- An outstanding buffer write of context `k` completes (R147, R163): its bytes are in the payload area, 16 bytes into the
record's range. -/
def Chip.endBufWrite (c : Chip) (k : CtxId) (j : Nat) : Chip :=
  let x := c.ctx k
  match x.bufWrites[j]? with
  | none => c
  | some w =>
    let c1 := c.setCtx k { x with bufWrites := x.bufWrites.eraseIdx j }
    match x.transfer with
    | none => c1
    | some t =>
      match t.work with
      | .appendCopy _ _ pages offset =>
        ({ c1 with mem := c1.mem.writeRange pages offset (16 + w.areaOff) w.data }).settle k
      | .fetchCopy _ _ _ _ _ _ => c1
      | .listRead _ _ => c1
      | .reportWrite _ _ => c1

/-! ### The stop of a fetch copy (R149) -/

/-- The context that runs the transfer of slot `id`. -/
def Chip.ctxOf (c : Chip) (id : Nat) : Option CtxId :=
  ctxIds.find? fun k =>
    match (c.ctx k).transfer with
    | none => false
    | some t => t.slot == id

/-- The report of a fetch copy stopped while queued (R149). -/
def stoppedReport (id : Nat) : EndReport :=
  { slot := id, kind := .fetch, outcome := .stopped, segments := [], count := 0, bytes := 0, voids := 0,
    converted := false, anyConverted := false }

/-- The engine told to stop the fetch copy of slot `id` (R149): queued, it leaves the queue and its end is reported; RUNNING,
it is FINISHING; otherwise nothing changes. -/
def Chip.stopCopy (c : Chip) (id : Nat) : Chip :=
  if c.engine.queue.any (fun t => t.slot == id) then
    ({ c with engine := { c.engine with queue := c.engine.queue.filter fun t => t.slot != id } }).report
      (stoppedReport id)
  else
    match c.ctxOf id with
    | none => c
    | some k => (c.setCtx k ((c.ctx k).finish .stopped)).settle k

end Sys2Proof.Machine
end

