-- ==== Sys2Proof/Machine/Pooling.lean ====
section
/-! DEFINITION. The Page Pool Manager (chapter 5) and what moves pages: allocation (R93 to R95), pages taken back (R96), chain
breaks (R97), page return (R81 to R84), whole-chain return, tail truncation, and starts of the grant arbiter (R98). -/

namespace Sys2Proof.Machine

/-- A start of the grant arbiter raised (R98); none is raised once the controller has left ACTIVE (R105). -/
def Chip.startArbiter (c : Chip) : Chip :=
  if c.isActive then { c with pool := { c.pool with starts := c.pool.starts + 1 } } else c

/-- A start raised when `b` holds. -/
def Chip.startArbiterIf (c : Chip) (b : Bool) : Chip := if b then c.startArbiter else c

/-! ### Allocation -/

/-- The `k` pages at the head of the free list from `head` on, and the head after them (R94 step 1); nothing on a free-list
link error (R95, R161). END with pages still to take names no page and is such an error (log 26). -/
def takeFree (usable : Nat) : Nat → Option Nat → BufferMemory → BufferMemory × Option (List Nat × Option Nat)
  | 0, head, m => (m, some ([], head))
  | _ + 1, none, m => (m, none)
  | k + 1, some p, m =>
    let r := m.follow usable p none
    match r.2 with
    | .error => (r.1, none)
    | .fin =>
      let rest := takeFree usable k none r.1
      (rest.1, rest.2.map fun g => (p :: g.1, g.2))
    | .page q =>
      let rest := takeFree usable k (some q) r.1
      (rest.1, rest.2.map fun g => (p :: g.1, g.2))

/-- What an allocation answers (R93, R95). -/
inductive Allocation where
  | refused
  | linkError (c : Chip)
  | pages (c : Chip) (ps : List Nat)

/-- New pages linked one after the other, the last one's link END, each owned by the stream (R94 step 2). -/
def linkPages (i : StreamId) (c : Chip) : List Nat → Chip
  | [] => c
  | [p] => c.writeLink p none (some i)
  | p :: q :: rest => linkPages i (c.writeLink p (some q) (some i)) (q :: rest)

/-- The old last page's link set to the first new page (R94 step 2). -/
def Chip.linkAfter (c : Chip) (i : StreamId) (ps : List Nat) : Chip :=
  match (c.stream i).chain.getLast?, ps with
  | some last, p :: _ => c.writeLink last (some p) (some i)
  | _, _ => c

/-- The allocation rule (R93). -/
def Chip.canAllocate (c : Chip) (i : StreamId) (k : Nat) : Bool :=
  let st := c.stream i
  decide (st.heldPages + k ≤ st.quota) && decide (k ≤ st.unmet + c.sharedFree)

/-- `k` pages allocated to stream `i` (R93 to R95). A page need of 0 is not sent to the pool. -/
def Chip.allocate (c : Chip) (i : StreamId) (k : Nat) : Allocation :=
  if k = 0 then .pages c []
  else if c.canAllocate i k then
    let r := takeFree c.pool.usable k c.pool.head c.mem
    let c1 := { c with mem := r.1 }
    match r.2 with
    | none => .linkError c1
    | some g =>
      let c2 := linkPages i (c1.linkAfter i g.1) g.1
      let c3 :=
        { c2 with
          pool := { c2.pool with
            free := c2.pool.free - k
            head := g.2
            tail := match g.2 with | none => none | some _ => c2.pool.tail } }
      .pages (c3.modStream i fun st => { st with chain := st.chain ++ g.1 }) g.1
  else .refused

/-! ### Taking pages back -/

/-- Page `p` at the tail of the free list (R96): owner FREE, link END, the old tail's link set to it. -/
def Chip.joinFree (c : Chip) (p : Nat) : Chip :=
  let c1 := c.writeLink p none none
  let c2 :=
    match c1.pool.tail with
    | none => c1
    | some t => c1.writeLink t (some p) none
  { c2 with
    pool := { c2.pool with
      free := c2.pool.free + 1
      tail := some p
      head := match c2.pool.head with | none => some p | some h => some h } }

/-- The chain up to and including page `p`. -/
def keepTo (p : Nat) : List Nat → List Nat
  | [] => []
  | q :: rest => if q = p then [q] else q :: keepTo p rest

/-- A break at page `p` of stream `i` (R97): `p` stays as the last page with link END, the pages after it are lost. A page
already cut off is in no chain, and its entry is not written (R97, R160). When pages are cut off, the tail offset is the bytes used
in `p` (R7): all of them, since records run on to a next page only past the end of one (R32; log 41). -/
def Chip.breakChain (c : Chip) (i : StreamId) (p : Nat) : Chip :=
  let st := c.stream i
  if st.chain.contains p then
    let kept := keepTo p st.chain
    let beyond := st.chain.length - kept.length
    let c1 := c.setStream i { st with chain := kept, tail := if beyond = 0 then st.tail else Config.pageBytes }
    let c2 := { c1 with pool := { c1.pool with lost := c1.pool.lost + beyond } }
    c2.writeLink p none (some i)
  else c

/-- The first page of stream `i` taken back (R96), the occupancy monitor evaluated on the new held (R82, R109). -/
def Chip.takeBack (c : Chip) (i : StreamId) (p : Nat) (rest : List Nat) : Chip :=
  ((c.modStream i fun st => { st with chain := rest }).joinFree p).evalOccupancy i

/-- Page `p` is a stop of page return for the stream (R81; none when R83 returns the whole chain). The base page is a stop in
every state, as R81 has it; that the discard walk of CLOSING keeps it too, which R15, R18 and the table of section 4.7 do not
list there, is the model's reading (log 37). -/
def StreamEntry.isStop (st : StreamEntry) (p : Nat) : Bool :=
  if st.base = st.next ∧ st.idle = true then false
  else
    (match st.baseLoc with
      | .chainStart => false
      | .at q off => q == p && decide (off < Config.pageBytes)) ||
    (match st.active with
      | none => false
      | some a => a.pin == p) ||
    ((st.state == .flushing || st.state == .closing) &&
      (match st.admitted with
        | [] => false
        | a :: _ => a.page == p))

/-- How a run over a chain ended. -/
structure RunEnd where
  chip : Chip
  /-- Pages returned. -/
  returned : Nat
  /-- The page whose link could not be followed (R84). -/
  broken : Option Nat

/-- Pages returned from the head of the chain of stream `i` (R81, R82, R84, R96), until a page is a stop when `stops` holds, or
a link cannot be followed; the last page's link is not read. -/
def returnRun (i : StreamId) (stops : Bool) : Nat → Chip → Nat → RunEnd
  | 0, c, n => { chip := c, returned := n, broken := none }
  | fuel + 1, c, n =>
    match (c.stream i).chain with
    | [] => { chip := c, returned := n, broken := none }
    | p :: rest =>
      if stops && (c.stream i).isStop p then { chip := c, returned := n, broken := none }
      else
        match rest with
        | [] => returnRun i stops fuel (c.takeBack i p []) (n + 1)
        | q :: more =>
          let r := c.followChain i p
          match r.2 with
          | none => { chip := r.1, returned := n, broken := some p }
          | some _ => returnRun i stops fuel (r.1.takeBack i p (q :: more)) (n + 1)

/-- The stream with an empty chain (R7, R69, R83): tail offset 0 and every location the chain start. -/
def StreamEntry.emptyChain (st : StreamEntry) : StreamEntry :=
  { st with
    tail := 0, baseLoc := .chainStart, readLoc := .chainStart,
    marks := st.marks.map fun m => { m with loc := .chainStart } }

/-- One run of page return on stream `i` (R81 to R83), its arbiter start included (R82, R98). -/
def Chip.pageReturnRun (c : Chip) (i : StreamId) : RunEnd :=
  let r := returnRun i true (c.stream i).chain.length c 0
  let c1 :=
    if (r.chip.stream i).chain.isEmpty then r.chip.modStream i StreamEntry.emptyChain else r.chip
  { r with chip := c1.startArbiterIf (r.returned != 0) }

/-- Every page still in the chain of stream `i` returned in chain order (R18, R25, R96); a break on the way cuts off the pages
beyond it (R19, R97) and the break page still returns. The second part says whether a break was met. -/
def Chip.returnAll (c : Chip) (i : StreamId) : Chip × Bool :=
  let r := returnRun i false (c.stream i).chain.length c 0
  match r.broken with
  | none => (r.chip.startArbiterIf (r.returned != 0), false)
  | some p =>
    let r2 := returnRun i false 1 (r.chip.breakChain i p) r.returned
    (r2.chip.startArbiterIf (r2.returned != 0), true)

/-! ### Tail truncation at entry into HELD (R96) -/

/-- The links from the first page up to the new tail page followed; the page of a break, if one is met. -/
def followTo (i : StreamId) (last : Nat) : List Nat → Chip → Chip × Option Nat
  | [], c => (c, none)
  | p :: rest, c =>
    if p = last then (c, none)
    else
      let r := c.followChain i p
      match r.2 with
      | none => (r.1, some p)
      | some _ => followTo i last rest r.1

/-- The pages after the new tail page taken back in chain order; the tail page's link follows the shrinking chain. -/
def dropAfter (i : StreamId) (last : Nat) : List Nat → Chip → Chip × Option Nat
  | [], c => (c, none)
  | [p], c =>
    let c1 := (c.modStream i fun st => { st with chain := st.chain.erase p }).joinFree p
    (c1.writeLink last none (some i), none)
  | p :: q :: rest, c =>
    let r := c.followChain i p
    match r.2 with
    | none => (r.1, some p)
    | some _ =>
      let c1 := (r.1.modStream i fun st => { st with chain := st.chain.erase p }).joinFree p
      dropAfter i last (q :: rest) (c1.writeLink last (some q) (some i))

/-- The pages of a chain after page `p`. -/
def pagesAfter (p : Nat) : List Nat → List Nat
  | [] => []
  | q :: rest => if q = p then rest else pagesAfter p rest

/-- Tail truncation: the pages of stream `i` after page `last` go back to the free list (R96); the page of a break, if one
is met. -/
def Chip.truncateTail (c : Chip) (i : StreamId) (last : Nat) : Chip × Option Nat :=
  let r := followTo i last (c.stream i).chain c
  match r.2 with
  | some p => (r.1, some p)
  | none =>
    match pagesAfter last (c.stream i).chain with
    | [] => (r.1, none)
    | later =>
      let r1 := r.1.followChain i last
      match r1.2 with
      | none => (r1.1, some last)
      | some _ => dropAfter i last later r1.1

end Sys2Proof.Machine
end

