-- ==== Sys2Proof/Machine/Streams.lean ====
section
/-! DEFINITION. The Stream Controller's shared operations: faults (R20, R21, R159), page return with its breaks (R84), the ends of
a flush and a close (R16, R18), admission (R32, R33), the walks over the append window (R41, R43, R44), and the waiting-fetch
head with its sizing walk and grant (R51 to R55). -/

namespace Sys2Proof.Machine

/-! ### Waiting lists -/

/-- Slots of the waiting appends, then of the waiting fetches, in list order. -/
def StreamEntry.waitingSlots (st : StreamEntry) : List Nat :=
  st.waitA.map WaitingAppend.slot ++ st.waitF.map WaitingFetch.slot

/-- Every waiting append and then every waiting fetch of stream `i` completed with status `s`, the lists emptied (R14, R17,
R20). -/
def Chip.refuseWaiting (c : Chip) (i : StreamId) (s : Status) : Chip :=
  (c.modStream i fun st => { st with waitA := [], waitF := [] }).refuseAll (c.stream i).waitingSlots s

/-! ### Faults -/

/-- The active fetch marked stopped (R63). -/
def StreamEntry.markStopped (st : StreamEntry) : StreamEntry :=
  { st with active := st.active.map fun a => { a with stopped := true } }

/-- The copy of the active fetch stopped and the fetch marked stopped (R63, R149). -/
def Chip.stopActive (c : Chip) (i : StreamId) : Chip :=
  match (c.stream i).active with
  | none => c
  | some a => (c.modStream i StreamEntry.markStopped).stopCopy a.slot

/-- The chain of stream `i` cut at a break, when there is one (R97). -/
def Chip.cut (c : Chip) (i : StreamId) (brk : Option Nat) : Chip :=
  match brk with
  | none => c
  | some p => c.breakChain i p

/-- The fields of an entry that enters FAULTED (R20, R113, R116). -/
def StreamEntry.enterFaulted (st : StreamEntry) (cause : FaultCause) : StreamEntry :=
  { st with
    state := .faulted, reserve := 0, pendingEnd := none, readyLatch := false, occLatch := none,
    faultLatch := some cause }

/-- A pending flush completed with STREAM_FAULTED (R21). -/
def Chip.refusePending (c : Chip) (d : Option Nat) : Chip :=
  match d with
  | none => c
  | some id => c.refuse id .streamFaulted

/-- Stream `i`, OPEN or FLUSHING, enters FAULTED (R20, R21, R113): pages beyond a break are cut off, the reserve is dropped,
the active fetch is stopped, waiting requests and a pending flush complete, and STREAM_FAULT is latched. -/
def Chip.faultStream (c : Chip) (i : StreamId) (cause : FaultCause) (brk : Option Nat) : Chip :=
  let st := c.stream i
  let c1 := ((c.cut i brk).modStream i fun x => x.enterFaulted cause).stopActive i
  let c2 := (c1.refuseWaiting i .streamFaulted).refusePending st.pendingEnd
  (c2.attempt i).startArbiterIf (st.unmet != 0)

/-- A break or an unsound header met in CLOSING (R19, R159): the close will complete with MEDIA_ERROR. -/
def Chip.closeBroken (c : Chip) (i : StreamId) (brk : Option Nat) : Chip :=
  (c.cut i brk).modStream i fun st => { st with closeMedia := true }

/-- A record-header or chain-link error met by a copy of stream `i`, decided by the stream's state (R159). -/
def Chip.reportMedia (c : Chip) (i : StreamId) (cause : FaultCause) (brk : Option Nat) : Chip :=
  match (c.stream i).state with
  | .opened => c.faultStream i cause brk
  | .flushing => c.faultStream i cause brk
  | .closing => (c.closeBroken i brk).stopActive i
  | .faulted => c.cut i brk
  | .closed => c
  | .held => c

/-- One run of page return on stream `i`, and what a break on the way does (R81 to R84). -/
def Chip.pageReturn (c : Chip) (i : StreamId) : Chip :=
  let r := c.pageReturnRun i
  match r.broken with
  | none => r.chip
  | some p =>
    match (r.chip.stream i).state with
    | .opened => r.chip.faultStream i .chainLink (some p)
    | .flushing => r.chip.faultStream i .chainLink (some p)
    | .closing => r.chip.closeBroken i (some p)
    | .faulted => r.chip
    | .closed => r.chip
    | .held => r.chip

/-! ### Ends of a flush and of a close -/

/-- The completion of a stream control request with its two positions. -/
def Request.positions (q : Request) (s : Status) (a b : Nat) : Completion :=
  { code := s.code, commandId := q.commandId, streamId := q.streamId, posA := a, posB := b }

/-- A flush ends (R16): the whole chain is returned, the stream is OPEN again and the flush completes. A break met on the way
has faulted the stream and completed the flush (R21). -/
def Chip.flushEnd (c : Chip) (i : StreamId) : Chip :=
  let c1 := c.pageReturn i
  let st := c1.stream i
  if st.state = .flushing then
    let c2 := c1.setStream i { st with state := .opened, pendingEnd := none }
    match st.pendingEnd with
    | none => c2
    | some d => c2.answer d fun q => q.positions .ok st.base st.base
  else c1

/-- A close ends (R18, R19): every page still in the chain is returned, the entry takes its values of R24, and the close
completes. -/
def Chip.closeEnd (c : Chip) (i : StreamId) : Chip :=
  let st := c.stream i
  let r := c.returnAll i
  let c1 := r.1.setStream i StreamEntry.closed
  match st.pendingEnd with
  | none => c1
  | some d =>
    c1.answer d fun q => q.positions (if st.closeMedia || r.2 then .mediaError else .ok) st.base st.next

/-- A flush or close with no admitted append and no active fetch left ends (R16, R18). -/
def Chip.endCheck (c : Chip) (i : StreamId) : Chip :=
  let st := c.stream i
  if st.idle then
    match st.state with
    | .flushing => c.flushEnd i
    | .closing => c.closeEnd i
    | .closed => c
    | .opened => c
    | .faulted => c
    | .held => c
  else c

/-! ### Admission -/

/-- Pages that hold `n` bytes. -/
def pagesFor (n : Nat) : Nat := (n + (Config.pageBytes - 1)) / Config.pageBytes

/-- Bytes left in the last page of the chain; none in an empty chain (R32). -/
def StreamEntry.room (st : StreamEntry) : Nat := if st.chain.isEmpty then 0 else Config.pageBytes - st.tail

/-- The page need of a record of footprint `f` (R32). -/
def StreamEntry.need (st : StreamEntry) (f : Nat) : Nat := pagesFor (f - st.room)

/-- The tail offset after a record of footprint `f` is placed (R32). -/
def StreamEntry.tailAfter (st : StreamEntry) (f : Nat) : Nat :=
  if st.need f = 0 then st.tail + f else f - st.room - (st.need f - 1) * Config.pageBytes

/-- The pages a record runs through, and the offset it begins at in the first of them, when `ps` are the new pages (R32). -/
def StreamEntry.rangeOf (st : StreamEntry) (ps : List Nat) : List Nat × Nat :=
  match st.chain.getLast? with
  | none => (ps, 0)
  | some last => if st.tail = Config.pageBytes then (ps, 0) else (last :: ps, st.tail)

/-- A location after an admission that allocated the pages `ps` (R69): the chain start, and the first byte after the last
page, become byte 0 of the first new page. -/
def relocate (ps : List Nat) (l : Loc) : Loc :=
  match ps, l with
  | [], l => l
  | p :: _, .chainStart => .at p 0
  | p :: _, .at q o => if o = Config.pageBytes then .at p 0 else .at q o

/-- The entry after an append is admitted (R33 steps 1, 2 and 4, R69); `st` is the entry before its pages joined the chain. -/
def StreamEntry.afterAdmission (st : StreamEntry) (ps : List Nat) (length slot : Nat) : StreamEntry :=
  let range := st.rangeOf ps
  { st with
    next := st.next + 1
    tail := st.tailAfter (footprint length)
    chain := st.chain ++ ps
    baseLoc := relocate ps st.baseLoc
    readLoc := relocate ps st.readLoc
    marks := st.marks.map fun m => { m with loc := relocate ps m.loc }
    active := st.active.map fun a => { a with endLoc := relocate ps a.endLoc }
    admitted := st.admitted ++
      [{ seq := st.next, page := (range.1.head?).getD 0, offset := range.2, footprint := footprint length,
         pages := range.1, complete := false, failed := none, slot := slot }] }

/-- An append in slot `id` admitted to stream `i` with the new pages `ps` (R33); `st` is the entry before the allocation. -/
def Chip.admitAppend (c : Chip) (i : StreamId) (st : StreamEntry) (ps : List Nat) (id length : Nat) (tag : Word)
    (src : Source) : Chip :=
  let range := st.rangeOf ps
  let c1 := c.setStream i (st.afterAdmission ps length id)
  let c2 := { c1 with mem := c1.mem.writeHeader ((range.1.head?).getD 0) range.2 st.next length tag i }
  let c3 := (c2.setPhase id .admitted).place { slot := id, work := .appendCopy length src range.1 range.2 }
  if ps.isEmpty then c3 else c3.evalOccupancy i

/-- What a test for room answers (R31, R36, R95). -/
inductive Admission where
  | refused
  | halted (c : Chip)
  | done (c : Chip)

/-- The append in slot `id` admitted to stream `i` if its page need is 0 or the pool grants it (R31, R36); a free-list link
error halts the controller and admits nothing (R95). -/
def Chip.tryAdmit (c : Chip) (i : StreamId) (id length : Nat) (tag : Word) (src : Source) : Admission :=
  let st := c.stream i
  match c.allocate i (st.need (footprint length)) with
  | .refused => .refused
  | .linkError c1 => .halted (c1.halt .freeList)
  | .pages c1 ps => .done (c1.admitAppend i st ps id length tag src)

/-! ### Sizing and granting the head of the waiting-fetch list -/

/-- The place `pos` bytes on from the start of `page`, links of the chain followed while it lies past the page; the second
part is the page reached, the third the offset in it, absent when that page's link could not be followed. -/
def passPages (i : StreamId) : Nat → Chip → Nat → Nat → Chip × Nat × Option Nat
  | 0, c, page, pos => (c, page, some pos)
  | fuel + 1, c, page, pos =>
    if pos ≤ Config.pageBytes then (c, page, some pos)
    else
      let r := c.followChain i page
      match r.2 with
      | none => (r.1, page, none)
      | some q => passPages i fuel r.1 q (pos - Config.pageBytes)

/-- The place of the record after one that ends at offset `pos` of `page`: the next page when the record fills its page and
another record exists (R69). -/
def nextPlace (i : StreamId) (more : Bool) (c : Chip) (page pos : Nat) : Chip × Nat × Option Nat :=
  if more && pos == Config.pageBytes then
    let r := c.followChain i page
    match r.2 with
    | none => (r.1, page, none)
    | some q => (r.1, q, some 0)
  else (c, page, some pos)

/-- What a sizing walk finds (R54). -/
inductive Sizing where
  /-- A record-header error, or a chain-link error at a page. -/
  | broken (c : Chip) (cause : FaultCause) (page : Option Nat)
  /-- The footprint of the first record exceeds the capacity. -/
  | small (c : Chip) (footprint : Nat)
  /-- Records, and the location after them. -/
  | sized (c : Chip) (n : Nat) (loc : Loc)

/-- The sizing walk (R54) over at most `fuel` records from `seq` at offset `offset` of `page`, `n` records of `total` bytes
having been counted. R54 bounds the headers read by the record count alone: that the next stored header is read also when the
capacity left is below 32 bytes, so that no record can fit, and that an error in it faults the stream, is the model's choice
(log 44). -/
def sizeWalk (i : StreamId) (capacity next : Nat) : Nat → Chip → (seq page offset n total : Nat) → Sizing
  | 0, c, _, page, offset, n, _ => .sized c n (.at page offset)
  | fuel + 1, c, seq, page, offset, n, total =>
    let r := c.mem.readHeader i seq page offset
    let c1 := { c with mem := r.1 }
    match r.2 with
    | none => .broken c1 .recordHeader none
    | some h =>
      let f := footprint h.length
      if capacity < total + f then (if n = 0 then .small c1 f else .sized c1 n (.at page offset))
      else
        let r1 := passPages i ((offset + f) / Config.pageBytes + 1) c1 page (offset + f)
        match r1.2.2 with
        | none => .broken r1.1 .chainLink (some r1.2.1)
        | some pos =>
          let r2 := nextPlace i (decide (seq + 1 < next)) r1.1 r1.2.1 pos
          match r2.2.2 with
          | none => .broken r2.1 .chainLink (some r2.2.1)
          | some pos' => sizeWalk i capacity next fuel r2.1 (seq + 1) r2.2.1 pos' (n + 1) (total + f)

/-- The fetch `h` granted `n` records, its list then `rest`, with the read location after them `loc` (R55 steps 1 to 3). -/
def StreamEntry.granted (st : StreamEntry) (h : WaitingFetch) (rest : List WaitingFetch) (short : Bool) (n : Nat)
    (loc : Loc) : StreamEntry :=
  { st with
    waitF := rest
    active := some
      { first := st.read, endSeq := st.read + n, firstLoc := st.readLoc, endLoc := loc,
        pin := st.readLoc.place.1, slot := h.slot, short := short, stopped := false }
    read := st.read + n
    readLoc := loc }

/-- The segments kept with the request in slot `id`. -/
def Chip.slotSegments (c : Chip) (id : Nat) : List Segment :=
  match c.slot? id with
  | none => []
  | some sl => sl.segments

/-- A grant of the head `h` of stream `i` (R54, R55): its records are sized; it is granted, or completes with BUFFER_SMALL, or
the stream faults. The second part says whether a new head is to be evaluated. -/
def Chip.grant (c : Chip) (i : StreamId) (h : WaitingFetch) (rest : List WaitingFetch) (short : Bool) : Chip × Bool :=
  let st := c.stream i
  match sizeWalk i h.capacity st.next (min h.maxRecords st.available) c st.read st.readLoc.place.1 st.readLoc.place.2
      0 0 with
  | .broken c1 cause brk => (c1.faultStream i cause brk, false)
  | .small c1 f =>
    ((c1.modStream i fun st => { st with waitF := rest }).answer h.slot fun q =>
      { code := Status.bufferSmall.code, commandId := q.commandId, streamId := q.streamId, posA := st.read,
        bytes := f }, true)
  | .sized c1 n loc =>
    let t : Transfer :=
      { slot := h.slot
        work := .fetchCopy i st.read (st.read + n) st.readLoc h.capacity (c1.slotSegments h.slot) }
    ((((c1.modStream i fun st => st.granted h rest short n loc).setPhase h.slot .admitted).place t).evalBacklog i,
      false)

/-- The head of the waiting-fetch list evaluated (R52, R53), again for each new head (`fuel` bounds how many). -/
def evalHeads : Nat → StreamId → Chip → Chip
  | 0, _, c => c
  | fuel + 1, i, c =>
    let st := c.stream i
    if c.isActive = true ∧ st.state = .opened ∧ st.active = none then
      match st.waitF with
      | [] => c
      | h :: rest =>
        if h.minRecords ≤ st.available then
          let r := c.grant i h rest false
          if r.2 then evalHeads fuel i r.1 else r.1
        else if h.wait = 0 then
          if 1 ≤ st.available then
            let r := c.grant i h rest true
            if r.2 then evalHeads fuel i r.1 else r.1
          else
            evalHeads fuel i
              ((c.modStream i fun st => { st with waitF := rest }).answer h.slot fun q =>
                { code := Status.noData.code, commandId := q.commandId, streamId := q.streamId, posA := st.read })
        else c
    else c

/-- The head of stream `i` evaluated (R53). -/
def Chip.evalHead (c : Chip) (i : StreamId) : Chip := evalHeads (c.stream i).waitF.length i c

/-! ### Joining a waiting list -/

/-- The request in slot `id` would join a waiting list, but its ring is DRAINING: it completes with CANCELLED and the
RING_DELETE counts it (R136, log 21). -/
def Chip.cancelInstead (c : Chip) (id : Nat) : Chip :=
  match c.slot? id with
  | none => c
  | some sl =>
    (c.setReqRing sl.ring { c.reqRing sl.ring with cancelled := (c.reqRing sl.ring).cancelled + 1 }).refuse id .cancelled

/-- The request ring of slot `id` is DRAINING. -/
def Chip.slotDraining (c : Chip) (id : Nat) : Bool :=
  match c.slot? id with
  | none => false
  | some sl => (c.reqRing sl.ring).state == .draining

/-- A wait limit as a deadline, in milliseconds from arrival: absent when it has no limit (R35). -/
def deadlineOf (wait : Nat) : Option Nat := if wait = Config.noLimit then none else some wait

/-- An append joins the waiting-append list of stream `i` (R35). -/
def Chip.joinAppends (c : Chip) (i : StreamId) (id length wait : Nat) : Chip :=
  if Config.maxWaiting ≤ (c.stream i).waitA.length then c.refuse id .waitLimit
  else if c.slotDraining id then c.cancelInstead id
  else
    (c.modStream i fun st =>
      { st with waitA := st.waitA ++ [{ slot := id, length := length, deadline := deadlineOf wait }] }).setPhase id .waiting

/-- A fetch arrives at the waiting-fetch list of stream `i` (R51): it joins, and becomes head of an empty list. -/
def Chip.joinFetches (c : Chip) (i : StreamId) (id maxRecords minRecords wait : Nat) (segs : List Segment) : Chip :=
  if Config.maxWaiting ≤ (c.stream i).waitF.length then c.refuse id .waitLimit
  else if c.slotDraining id then c.cancelInstead id
  else
    let w : WaitingFetch :=
      { slot := id, maxRecords := maxRecords, minRecords := minRecords, capacity := totalLength segs, wait := wait,
        deadline := if wait = 0 then none else deadlineOf wait }
    let c1 := (c.modStream i fun st => { st with waitF := st.waitF ++ [w] }).modSlot id fun sl =>
      { sl with phase := .waiting, segments := segs }
    if (c.stream i).waitF.isEmpty then c1.evalHead i else c1

/-! ### The walks over the append window -/

/-- The entries the in-order walk commits, from frontier `f` on (R41). -/
def committable : Nat → List Admitted → List Admitted
  | _, [] => []
  | f, a :: rest => if a.complete && a.seq == f then a :: committable (f + 1) rest else []

/-- The entries the discard walk removes (R43). -/
def discardable : List Admitted → List Admitted
  | [] => []
  | a :: rest => if a.complete then a :: discardable rest else []

/-- The completion of a committed append (R42): `f` is frontier after the walk. -/
def Admitted.committed (a : Admitted) (f : Nat) (q : Request) : Completion :=
  let e : Completion :=
    { code := Status.ok.code, commandId := q.commandId, streamId := q.streamId, posA := a.seq, posB := f, count := 1 }
  match a.failed with
  | none => { e with bytes := match q.body with | .append length _ _ => length | _ => 0 }
  | some .hostRead => { e with code := Status.hostReadError.code, voids := 1 }
  | some .badList => { e with code := Status.badField.code, voids := 1 }

/-- The in-order walk of stream `i` (R41): frontier passes the complete appends at the oldest end, their completions are handed
over in sequence order, then the backlog monitor and the waiting-fetch head are evaluated and the grant arbiter is started. -/
def Chip.inOrderWalk (c : Chip) (i : StreamId) : Chip :=
  let st := c.stream i
  let done := committable st.frontier st.admitted
  if done.isEmpty then c
  else
    let f := st.frontier + done.length
    let c1 := c.setStream i { st with frontier := f, admitted := st.admitted.drop done.length }
    let c2 := done.foldl (fun c a => c.answer a.slot (a.committed f)) c1
    ((c2.evalBacklog i).evalHead i).startArbiter

/-- The completion of a discarded append (R42). -/
def Admitted.discarded (a : Admitted) (s : Status) (q : Request) : Completion := { q.reply s with posA := a.seq }

/-- The status of a discarded append (R43, R44, R18). -/
def StreamEntry.discardStatus (st : StreamEntry) : Status :=
  match st.state with
  | .flushing => .flushed
  | .closing => if st.closeFromFault then .streamFaulted else .closed
  | .faulted => .streamFaulted
  | .closed => .closed
  | .opened => .flushed
  | .held => .closed

/-- The discard walk of stream `i` (R43, R44): complete appends at the oldest end leave without committing; page return runs but
in FAULTED, the arbiter is started, and a flush or close with nothing left in flight ends. -/
def Chip.discardWalk (c : Chip) (i : StreamId) : Chip :=
  let st := c.stream i
  let done := discardable st.admitted
  if done.isEmpty then c
  else
    let c1 := c.setStream i { st with admitted := st.admitted.drop done.length }
    let c2 := done.foldl (fun c a => c.answer a.slot (a.discarded st.discardStatus)) c1
    let c3 := if st.state = .faulted then c2 else c2.pageReturn i
    (c3.startArbiter).endCheck i

/-- The walk after a copy end, by the stream's state (R41, R43, R44). -/
def Chip.walk (c : Chip) (i : StreamId) : Chip :=
  match (c.stream i).state with
  | .opened => c.inOrderWalk i
  | .flushing => c.discardWalk i
  | .closing => c.discardWalk i
  | .faulted => c.discardWalk i
  | .closed => c
  | .held => c

/-! ### Requests handed to their owners (R125) -/

/-- The request in slot `id`, when it is owner `o`'s. -/
def Chip.ownedBy (c : Chip) (o : Owner) (id : Nat) : Option (Nat × Request) :=
  match c.slot? id with
  | none => none
  | some sl =>
    match sl.request with
    | none => none
    | some q => if q.body.owner = o then some (id, q) else none

/-- The oldest request handed to owner `o` and not yet acted on (R125, log 5). -/
def Chip.current (c : Chip) (o : Owner) : Option (Nat × Request) := c.rings.arrived.findSome? (c.ownedBy o)

/-- The request in slot `id` is no longer waiting for its owner. -/
def Chip.dropArrived (c : Chip) (id : Nat) : Chip :=
  { c with rings := { c.rings with arrived := c.rings.arrived.filter fun x => x != id } }

/-- Owner `o` acts on its oldest request while ACTIVE, when `act` has an action for it; otherwise nothing happens (log 1). -/
def Chip.serve (c : Chip) (o : Owner) (act : Nat → Request → Chip → Option Chip) : Chip :=
  if c.isActive then
    match c.current o with
    | none => c
    | some (id, q) =>
      match act id q (c.dropArrived id) with
      | none => c
      | some c' => c'
  else c

/-- The stream id and state checks of a request that names a stream (R8, R9), then what the request does. -/
def Chip.onStream (c : Chip) (id : Nat) (q : Request) (g : RequestGroup) (act : StreamId → Chip) : Chip :=
  match q.stream with
  | none => c.refuse id .badStream
  | some i =>
    match stateCheck g (c.stream i).state with
    | some s => c.refuse id s
    | none => act i

/-! ### Commands -/

/-- A command's outcome: the part changed by `f`, the queue as it is. -/
def State.onChip (s : State) (f : Chip → Chip) : Host.Outcome State Fault Refusal :=
  .next { s with toChip := f s.toChip }

end Sys2Proof.Machine
end

