-- ==== Sys2Proof/Machine/Appends.lean ====
section
/-! DEFINITION. The commands of appends (chapter 2): APPEND, APPEND_DEADLINE, APPEND_COPY_END. -/

namespace Sys2Proof.Machine

/-- NO_ROOM with its detail (R31, R42). -/
def Request.noRoom (q : Request) (detail : Nat) : Completion := { q.reply .noRoom with detail := detail }

/-- An append with no room (R31): NO_ROOM when it does not wait, else it joins the waiting-append list. -/
def Chip.appendWaits (c : Chip) (i : StreamId) (id length wait detail : Nat) : Chip :=
  if wait = 0 then c.answer id fun q => q.noRoom detail else c.joinAppends i id length wait

/-- Check 7 of R27 (R31). -/
def Chip.appendRoom (c : Chip) (i : StreamId) (id length wait : Nat) (tag : Word) (src : Source) : Chip :=
  let st := c.stream i
  if st.waitA ≠ [] then c.appendWaits i id length wait 3
  else if Config.maxWindow ≤ st.admitted.length then c.appendWaits i id length wait 2
  else
    match c.tryAdmit i id length tag src with
    | .refused => c.appendWaits i id length wait 1
    | .halted c1 => c1
    | .done c1 => c1

/-- Checks 3 to 7 of R27 for an APPEND to an OPEN stream. -/
def Chip.append (c : Chip) (i : StreamId) (id length wait : Nat) (tag : Word) (src : Source) : Chip :=
  let st := c.stream i
  if length = 0 ∨ Config.maxLength < length then c.refuse id .badField
  else if appendSourceOk length src = false then c.refuse id .badField
  else if st.quota < pagesFor (footprint length) then c.refuse id .tooLarge
  else if st.next = Config.seqEnd then c.refuse id .seqLimit
  else c.appendRoom i id length wait tag src

/-- What the Stream Controller does with an APPEND handed to it (R27). -/
def appendAct (id : Nat) (q : Request) (c : Chip) : Option Chip :=
  match q.body with
  | .append length tag src => some (c.onStream id q .io fun i => c.append i id length q.wait tag src)
  | _ => none

/-- APPEND (R27 to R35). -/
def execAppend (u : Upsets) (s : State) : Host.Outcome State Fault Refusal :=
  s.onChip fun c => (c.upset u).serve .streamController appendAct

/-- The waiting append in slot `id` leaves the list of stream `i`; a new head is looked at by the grant arbiter (R38). -/
def Chip.dropAppend (c : Chip) (i : StreamId) (id : Nat) : Chip :=
  c.modStream i fun st => { st with waitA := st.waitA.filter fun w => w.slot != id }

/-- The head of the waiting-append list is in slot `id`. -/
def StreamEntry.headAppend (st : StreamEntry) (id : Nat) : Bool :=
  match st.waitA with
  | [] => false
  | h :: _ => h.slot == id

/-- A waiting append of stream `i` in slot `id` has a deadline (R35). -/
def StreamEntry.appendTimed (st : StreamEntry) (id : Nat) : Bool :=
  st.waitA.any fun w => w.slot == id && w.deadline.isSome

/-- The deadline of the waiting append in slot `id` is reached (R37); deadlines run only in ACTIVE. -/
def Chip.appendDeadline (c : Chip) (id : Nat) : Chip :=
  match c.slotStream id with
  | none => c
  | some i =>
    if c.isActive && (c.stream i).appendTimed id then
      ((c.dropAppend i id).refuse id .timedOut).startArbiterIf ((c.stream i).headAppend id)
    else c

/-- APPEND_DEADLINE (R37). -/
def execAppendDeadline (slot : Nat) (s : State) : Host.Outcome State Fault Refusal :=
  s.onChip fun c => c.appendDeadline slot

/-- Why a copy that ended so failed (R40). -/
def CopyOutcome.failure : CopyOutcome → Option CopyFailure
  | .ok => none
  | .hostReadError => some .hostRead
  | .hostWriteError => some .hostRead
  | .badField => some .badList
  | .stopped => some .hostRead

/-- The window entry of slot `id` marked complete, and failed when its copy failed (R39, R40). -/
def markComplete (id : Nat) (f : Option CopyFailure) (l : List Admitted) : List Admitted :=
  l.map fun a => if a.slot = id then { a with complete := true, failed := f } else a

/-- The stored header of a failed append rewritten to VOID_ABANDONED (R40, R154). -/
def Chip.abandonRecord (c : Chip) (a : Admitted) (f : Option CopyFailure) : Chip :=
  match f with
  | none => c
  | some _ => { c with mem := c.mem.rewriteKind a.page a.offset a.seq .voidAbandoned }

/-- The end of the copy of the admitted append in slot `id` of stream `i`: the entry is complete, then the walk of the stream's
state runs (R39 to R44). -/
def Chip.appendEnds (c : Chip) (i : StreamId) (id : Nat) (o : CopyOutcome) : Chip :=
  match (c.stream i).admitted.find? fun a => a.slot == id with
  | none => c
  | some a =>
    let c1 := (c.abandonRecord a o.failure).setPhase id .admitted
    (c1.modStream i fun st => { st with admitted := markComplete id o.failure st.admitted }).walk i

/-- The ends reported and not yet taken, but for those of kind `k` for slot `id`. -/
def Chip.dropEnd (c : Chip) (k : EndKind) (id : Nat) : Chip :=
  { c with engine := { c.engine with ends := c.engine.ends.filter fun e => !(e.kind == k && e.slot == id) } }

/-- The end of kind `k` reported for slot `id` and not yet taken. -/
def Chip.endOf (c : Chip) (k : EndKind) (id : Nat) : Option EndReport :=
  c.engine.ends.find? fun e => e.kind == k && e.slot == id

/-- The Stream Controller takes an append copy's end. Outside ACTIVE no copy end reaches a stream: it is discarded (R45, R46). -/
def Chip.appendCopyEnd (c : Chip) (id : Nat) : Chip :=
  match c.endOf .append id with
  | none => c
  | some e =>
    let c1 := c.dropEnd .append id
    if c1.isActive then
      match c1.slotStream id with
      | none => c1
      | some i => c1.appendEnds i id e.outcome
    else c1

/-- APPEND_COPY_END (R39 to R46). -/
def execAppendCopyEnd (slot : Nat) (u : Upsets) (s : State) : Host.Outcome State Fault Refusal :=
  s.onChip fun c => (c.upset u).appendCopyEnd slot

end Sys2Proof.Machine
end

