-- ==== Sys2Proof/Machine/Fetches.lean ====
section
/-! DEFINITION. The commands of fetches (chapter 3): FETCH, LIST_READ_END, FETCH_DEADLINE, FETCH_COPY_END. -/

namespace Sys2Proof.Machine

/-- Checks 3 to 7 of R48 for a FETCH to an OPEN stream: a direct form arrives at once, an indirect one has its list read. -/
def Chip.fetch (c : Chip) (i : StreamId) (id maxRecords minRecords wait : Nat) (src : Source) : Chip :=
  if maxRecords = 0 ∨ 256 < maxRecords then c.refuse id .badField
  else if minRecords = 0 ∨ maxRecords < minRecords then c.refuse id .badField
  else if fetchSourceOk src = false then c.refuse id .badField
  else
    match src with
    | .direct segs => c.joinFetches i id maxRecords minRecords wait segs
    | .indirect addr count => c.place { slot := id, work := .listRead addr count }

/-- What the Stream Controller does with a FETCH handed to it (R48). -/
def fetchAct (id : Nat) (q : Request) (c : Chip) : Option Chip :=
  match q.body with
  | .fetch maxRecords minRecords src =>
    some (c.onStream id q .io fun i => c.fetch i id maxRecords minRecords q.wait src)
  | _ => none

/-- FETCH (R48 to R55). -/
def execFetch (u : Upsets) (s : State) : Host.Outcome State Fault Refusal :=
  s.onChip fun c => (c.upset u).serve .streamController fetchAct

/-- The end of the list read of the FETCH `q` in slot `id` (R50): an error completes it; an accepted list is kept, the stream's
state is checked again, and the fetch arrives. -/
def Chip.listEnds (c : Chip) (id : Nat) (q : Request) (e : EndReport) : Chip :=
  match e.outcome with
  | .ok =>
    match q.body with
    | .fetch maxRecords minRecords _ =>
      c.onStream id q .io fun i => c.joinFetches i id maxRecords minRecords q.wait e.segments
    | _ => c
  | .hostReadError => c.refuse id .hostReadError
  | .badField => c.refuse id .badField
  | .hostWriteError => c.refuse id .hostReadError
  | .stopped => c.refuse id .hostReadError

/-- The request in slot `id`. -/
def Chip.slotRequest (c : Chip) (id : Nat) : Option Request :=
  match c.slot? id with
  | none => none
  | some sl => sl.request

/-- The Stream Controller takes a list read's end; outside ACTIVE it is discarded (R66, R67). -/
def Chip.listReadEnd (c : Chip) (id : Nat) : Chip :=
  match c.endOf .list id with
  | none => c
  | some e =>
    let c1 := c.dropEnd .list id
    if c1.isActive then
      match c1.slotRequest id with
      | none => c1
      | some q => c1.listEnds id q e
    else c1

/-- LIST_READ_END (R50). -/
def execListReadEnd (slot : Nat) (u : Upsets) (s : State) : Host.Outcome State Fault Refusal :=
  s.onChip fun c => (c.upset u).listReadEnd slot

/-- The waiting fetch in slot `id` leaves the list of stream `i`. -/
def Chip.dropFetch (c : Chip) (i : StreamId) (id : Nat) : Chip :=
  c.modStream i fun st => { st with waitF := st.waitF.filter fun w => w.slot != id }

/-- The head of the waiting-fetch list is in slot `id`. -/
def StreamEntry.headFetch (st : StreamEntry) (id : Nat) : Bool :=
  match st.waitF with
  | [] => false
  | h :: _ => h.slot == id

/-- A waiting fetch in slot `id` has a deadline (R51). -/
def StreamEntry.fetchTimed (st : StreamEntry) (id : Nat) : Bool :=
  st.waitF.any fun w => w.slot == id && w.deadline.isSome

/-- The waiting fetch in slot `id` of stream `i` completes with TIMED_OUT; a new head is evaluated (R56). -/
def Chip.fetchTimesOut (c : Chip) (i : StreamId) (id : Nat) : Chip :=
  let c1 := (c.dropFetch i id).refuse id .timedOut
  if (c.stream i).headFetch id then c1.evalHead i else c1

/-- The deadline of the waiting fetch in slot `id` of stream `i` is reached (R56): a head with records and no active fetch is
granted with SHORT, any other completes with TIMED_OUT. -/
def Chip.fetchExpires (c : Chip) (i : StreamId) (id : Nat) : Chip :=
  let st := c.stream i
  match st.waitF with
  | [] => c
  | h :: rest =>
    if h.slot = id ∧ st.active = none ∧ 1 ≤ st.available then
      let r := c.grant i h rest true
      if r.2 then r.1.evalHead i else r.1
    else c.fetchTimesOut i id

/-- The deadline of the waiting fetch in slot `id`; deadlines run only in ACTIVE. -/
def Chip.fetchDeadline (c : Chip) (id : Nat) : Chip :=
  match c.slotStream id with
  | none => c
  | some i =>
    if c.isActive && (c.stream i).state == .opened && (c.stream i).fetchTimed id then c.fetchExpires i id else c

/-- FETCH_DEADLINE (R56). -/
def execFetchDeadline (slot : Nat) (u : Upsets) (s : State) : Host.Outcome State Fault Refusal :=
  s.onChip fun c => (c.upset u).fetchDeadline slot

/-! ### The end of a fetch copy -/

/-- The completion of a fetch whose copy ended without error (R64). -/
def ActiveFetch.delivered (a : ActiveFetch) (e : EndReport) (q : Request) : Completion :=
  { code := Status.ok.code, commandId := q.commandId, streamId := q.streamId, short := a.short,
    damaged := e.anyConverted, posA := a.first, posB := a.endSeq, count := a.endSeq - a.first, bytes := e.bytes,
    voids := e.voids }

/-- The completion of a fetch whose copy met a host write error (R62, R64). -/
def ActiveFetch.notWritten (a : ActiveFetch) (e : EndReport) (q : Request) : Completion :=
  { code := Status.hostWriteError.code, commandId := q.commandId, streamId := q.streamId, short := a.short,
    damaged := e.anyConverted, posA := a.first, posB := a.endSeq }

/-- The completion of a stopped fetch (R63, R64). -/
def ActiveFetch.stoppedAt (a : ActiveFetch) (e : EndReport) (q : Request) : Completion :=
  { code := Status.mediaError.code, commandId := q.commandId, streamId := q.streamId, short := a.short,
    damaged := e.converted, posA := a.first, posB := a.endSeq, count := e.count, bytes := e.bytes, voids := e.voids }

/-- Step 1 of R61 in OPEN and CONSUME: base rises to the fetch's end, and read with it when it lies below. -/
def StreamEntry.consumed (st : StreamEntry) (a : ActiveFetch) : StreamEntry :=
  let st1 := if st.base < a.endSeq then { st with base := a.endSeq, baseLoc := a.endLoc } else st
  if st1.read < st1.base then { st1 with read := st1.base, readLoc := st1.baseLoc } else st1

/-- Read restored after a host write error (R62), with the marks above it removed (R70). -/
def StreamEntry.restored (st : StreamEntry) (a : ActiveFetch) : StreamEntry :=
  let st1 :=
    if st.read = a.endSeq then
      (if st.base < a.first then { st with read := a.first, readLoc := a.firstLoc }
       else { st with read := st.base, readLoc := st.baseLoc })
    else st
  { st1 with marks := st1.marks.filter fun m => decide (m.pos ≤ st1.read) }

/-- The pin released: no active fetch (R61 step 2, R85). -/
def Chip.unpin (c : Chip) (i : StreamId) : Chip := c.modStream i fun st => { st with active := none }

/-- The effects of a fetch's end without error on its stream (R61). -/
def Chip.fetchSucceeds (c : Chip) (i : StreamId) (a : ActiveFetch) : Chip :=
  let st := c.stream i
  let c1 :=
    if st.state = .opened ∧ st.mode = .consume then (c.modStream i fun st => st.consumed a).evalBacklog i else c
  ((((c1.unpin i).pageReturn i).evalHead i)).endCheck i

/-- The effects of a fetch's end with a host write error (R62). -/
def Chip.fetchFails (c : Chip) (i : StreamId) (a : ActiveFetch) : Chip :=
  let c1 := c.modStream i fun st => st.restored a
  (((((c1.unpin i).pageReturn i).evalBacklog i).evalHead i)).endCheck i

/-- The effects of a stopped fetch's end (R63): page return in CLOSING alone. -/
def Chip.fetchStopped (c : Chip) (i : StreamId) : Chip :=
  let c1 := c.unpin i
  if (c.stream i).state = .closing then (c1.pageReturn i).endCheck i else c1

/-- The end of the copy of the active fetch `a` of stream `i` (R61 to R63). -/
def Chip.fetchEnds (c : Chip) (i : StreamId) (a : ActiveFetch) (e : EndReport) : Chip :=
  if a.stopped then (c.answer a.slot (a.stoppedAt e)).fetchStopped i
  else
    match e.outcome with
    | .ok => (c.answer a.slot (a.delivered e)).fetchSucceeds i a
    | .hostWriteError => (c.answer a.slot (a.notWritten e)).fetchFails i a
    | .hostReadError => (c.answer a.slot (a.notWritten e)).fetchFails i a
    | .badField => (c.answer a.slot (a.notWritten e)).fetchFails i a
    | .stopped => (c.answer a.slot (a.stoppedAt e)).fetchStopped i

/-- The active fetch of stream `i`, when it is slot `id`'s. -/
def Chip.activeOf (c : Chip) (i : StreamId) (id : Nat) : Option ActiveFetch :=
  match (c.stream i).active with
  | none => none
  | some a => if a.slot = id then some a else none

/-- The Stream Controller takes a fetch copy's end. Outside ACTIVE no copy end reaches a stream: it is discarded (R66, R67). -/
def Chip.fetchCopyEnd (c : Chip) (id : Nat) : Chip :=
  match c.endOf .fetch id with
  | none => c
  | some e =>
    let c1 := c.dropEnd .fetch id
    if c1.isActive then
      match c1.slotStream id with
      | none => c1
      | some i =>
        match c1.activeOf i id with
        | none => c1
        | some a => c1.fetchEnds i a e
    else c1

/-- FETCH_COPY_END (R61 to R67). -/
def execFetchCopyEnd (slot : Nat) (u : Upsets) (s : State) : Host.Outcome State Fault Refusal :=
  s.onChip fun c => (c.upset u).fetchCopyEnd slot

end Sys2Proof.Machine
end

