-- ==== Sys2Proof/Machine/Marks.lean ====
section
/-! DEFINITION. The commands on the held span (chapter 4): MARK, REWIND, RELEASE. -/

namespace Sys2Proof.Machine

/-- A refusal at check 5 of R71, with the held span (R72). -/
def Request.spanRefusal (q : Request) (s : Status) (st : StreamEntry) : Completion := q.positions s st.base st.read

/-- The highest mark. -/
def StreamEntry.latestMark (st : StreamEntry) : Option Mark := st.marks.getLast?

/-- The mark at a position. -/
def StreamEntry.markAt (st : StreamEntry) (p : Nat) : Option Mark := st.marks.find? fun m => m.pos == p

/-- MARK on an OPEN stream (R71, R73). -/
def Chip.mark (c : Chip) (i : StreamId) (id : Nat) : Chip :=
  let st := c.stream i
  if st.mode = .consume then c.refuse id .wrongMode
  else if st.latestMark.any (fun m => m.pos == st.read) then c.answer id fun q => q.positions .ok st.read st.read
  else if Config.maxMarks ≤ st.marks.length then c.answer id fun q => q.spanRefusal .markLimit st
  else
    (c.setStream i { st with marks := st.marks ++ [{ pos := st.read, loc := st.readLoc }] }).answer id fun q =>
      q.positions .ok st.read st.read

/-- What the Stream Controller does with a MARK handed to it (R71). -/
def markAct (id : Nat) (q : Request) (c : Chip) : Option Chip :=
  match q.body with
  | .mark => some (c.onStream id q .io fun i => c.mark i id)
  | _ => none

/-- MARK (R73). -/
def execMark (s : State) : Host.Outcome State Fault Refusal :=
  s.onChip fun c => c.serve .streamController markAct

/-- The target of an AT_MARK variant (R74, R77): the mark at the operand, or the refusal. -/
def StreamEntry.atMark (st : StreamEntry) (target : Nat) : Except Status Mark :=
  if target < st.base ∨ st.read < target then .error .badTarget
  else
    match st.markAt target with
    | none => .error .noMark
    | some m => .ok m

/-- The target of a REWIND by its variant (R74). -/
def StreamEntry.rewindTarget (st : StreamEntry) (variant target : Nat) : Except Status Mark :=
  if variant = 1 then
    match st.latestMark with
    | none => .error .noMark
    | some m => .ok m
  else if variant = 2 then st.atMark target
  else .ok { pos := st.base, loc := st.baseLoc }

/-- The target of a RELEASE by its variant (R77). -/
def StreamEntry.releaseTarget (st : StreamEntry) (variant target : Nat) : Except Status Mark :=
  if variant = 1 then
    match st.marks.head? with
    | none => .error .noMark
    | some m => .ok m
  else if variant = 2 then st.atMark target
  else .ok { pos := st.read, loc := st.readLoc }

/-- A completion with positions and the records moved between them (R72). -/
def Request.moved (q : Request) (a b n : Nat) : Completion := { q.positions .ok a b with count := n }

/-- Read lowered to a target, the marks above it removed (R75 steps 1 and 2, R70). -/
def StreamEntry.rewound (st : StreamEntry) (m : Mark) : StreamEntry :=
  { st with read := m.pos, readLoc := m.loc, marks := st.marks.filter fun x => decide (x.pos ≤ m.pos) }

/-- A REWIND with its target found (R75). -/
def Chip.rewindTo (c : Chip) (i : StreamId) (id : Nat) (m : Mark) : Chip :=
  let st := c.stream i
  let reply : Request → Completion := fun q => q.moved st.read m.pos (st.read - m.pos)
  if m.pos = st.read then c.answer id reply
  else (((c.setStream i (st.rewound m)).evalBacklog i).evalHead i).answer id reply

/-- REWIND on an OPEN stream (R71, R74, R75). -/
def Chip.rewind (c : Chip) (i : StreamId) (id variant target : Nat) : Chip :=
  let st := c.stream i
  if st.mode = .consume then c.refuse id .wrongMode
  else if variant = 0 then c.refuse id .badField
  else
    match st.rewindTarget variant target with
    | .error s => c.answer id fun q => q.spanRefusal s st
    | .ok m => c.rewindTo i id m

/-- What the Stream Controller does with a REWIND handed to it (R71). -/
def rewindAct (id : Nat) (q : Request) (c : Chip) : Option Chip :=
  match q.body with
  | .rewind variant target => some (c.onStream id q .io fun i => c.rewind i id variant target)
  | _ => none

/-- REWIND (R75). -/
def execRewind (u : Upsets) (s : State) : Host.Outcome State Fault Refusal :=
  s.onChip fun c => (c.upset u).serve .streamController rewindAct

/-- Base raised to a target, the marks at or below it removed (R78 steps 1 and 2). -/
def StreamEntry.released (st : StreamEntry) (m : Mark) : StreamEntry :=
  { st with base := m.pos, baseLoc := m.loc, marks := st.marks.filter fun x => decide (m.pos < x.pos) }

/-- A RELEASE with its target found (R78): page return runs when base rose. -/
def Chip.releaseTo (c : Chip) (i : StreamId) (id : Nat) (m : Mark) : Chip :=
  let st := c.stream i
  let c1 := c.setStream i (st.released m)
  let c2 := if st.base < m.pos then c1.pageReturn i else c1
  c2.answer id fun q => q.moved st.base m.pos (m.pos - st.base)

/-- RELEASE on an OPEN stream (R71, R77, R78). -/
def Chip.release (c : Chip) (i : StreamId) (id variant target : Nat) : Chip :=
  let st := c.stream i
  if st.mode = .consume then c.refuse id .wrongMode
  else if variant = 0 then c.refuse id .badField
  else
    match st.releaseTarget variant target with
    | .error s => c.answer id fun q => q.spanRefusal s st
    | .ok m => c.releaseTo i id m

/-- What the Stream Controller does with a RELEASE handed to it (R71). -/
def releaseAct (id : Nat) (q : Request) (c : Chip) : Option Chip :=
  match q.body with
  | .release variant target => some (c.onStream id q .io fun i => c.release i id variant target)
  | _ => none

/-- RELEASE (R78). -/
def execRelease (u : Upsets) (s : State) : Host.Outcome State Fault Refusal :=
  s.onChip fun c => (c.upset u).serve .streamController releaseAct

end Sys2Proof.Machine
end

