-- ==== Sys2Proof/Machine/StreamControl.lean ====
section
/-! DEFINITION. The stream control commands (chapter 1): STREAM_OPEN, STREAM_SET, STREAM_FLUSH, STREAM_CLOSE, STREAM_RESUME, and
the three reports: STREAM_REPORT, POOL_REPORT (R103), DESCRIBE (R174), with REPORT_WRITE_END (R150). -/

namespace Sys2Proof.Machine

/-- The ring a number names, 0 to 31. -/
def ringOf (n : Nat) : Option RingId := if h : n < 32 then some ⟨n, h⟩ else none

/-- A number names an ACTIVE completion ring (R4, R22). -/
def Chip.cmpActive (c : Chip) (n : Nat) : Bool :=
  match ringOf n with
  | none => false
  | some r => (c.cmpRing r).state == .active

/-- The settings every block is checked for (R4), but for the initial sequence and the notice ring. -/
def SettingsBlock.inRange (b : SettingsBlock) (usable : Nat) : Bool :=
  decide (b.mode ≤ 1) && decide (b.durable ≤ 1) && decide (1 ≤ b.quota) && decide (b.quota ≤ usable) &&
    decide (b.reserve ≤ b.quota) && decide (b.pressureLevel ≤ b.quota) &&
    (if b.pressureLevel = 0 then b.reliefLevel == 0 else decide (b.reliefLevel < b.pressureLevel))

/-- The mode a block's code gives. -/
def SettingsBlock.modeOf (b : SettingsBlock) : Mode := if b.mode = 1 then .consume else .retain

/-- A stream entry with a block's settings, but for the notice ring. -/
def StreamEntry.withSettings (st : StreamEntry) (b : SettingsBlock) : StreamEntry :=
  { st with
    mode := b.modeOf, durable := b.durable == 1, readyLevel := b.readyLevel, pressureLevel := b.pressureLevel,
    reliefLevel := b.reliefLevel, reserve := b.reserve, quota := b.quota }

/-! ### STREAM_OPEN -/

/-- The settings block of a STREAM_OPEN is valid (R4). -/
def Chip.openBlockOk (c : Chip) (b : SettingsBlock) : Bool :=
  b.inRange c.pool.usable && decide (b.initial ≤ Config.maxInitial) && c.cmpActive b.noticeRing

/-- The entry an open makes (R11). -/
def SettingsBlock.opened (b : SettingsBlock) : StreamEntry :=
  { StreamEntry.closed.withSettings b with
    state := .opened, noticeRing := ringOf b.noticeRing, base := b.initial, read := b.initial,
    frontier := b.initial, next := b.initial }

/-- STREAM_OPEN on a CLOSED stream (R10, R11, R102). -/
def Chip.openStream (c : Chip) (i : StreamId) (id : Nat) (b : SettingsBlock) : Chip :=
  if c.openBlockOk b = false then c.refuse id .badField
  else if c.sharedFree < b.reserve then c.refuse id .noReserve
  else (c.setStream i b.opened).answer id fun q => q.positions .ok b.initial b.initial

/-- What the Stream Controller does with a STREAM_OPEN handed to it (R9). -/
def streamOpenAct (id : Nat) (q : Request) (c : Chip) : Option Chip :=
  match q.body with
  | .streamOpen b => some (c.onStream id q .open_ fun i => c.openStream i id b)
  | _ => none

/-- STREAM_OPEN (R10). -/
def execStreamOpen (s : State) : Host.Outcome State Fault Refusal :=
  s.onChip fun c => c.serve .streamController streamOpenAct

/-! ### STREAM_SET -/

/-- The settings block of a STREAM_SET is valid (R4): the notice ring is not checked on a HELD stream. -/
def Chip.setBlockOk (c : Chip) (st : StreamEntry) (b : SettingsBlock) : Bool :=
  b.inRange c.pool.usable && (st.state == StreamState.held || c.cmpActive b.noticeRing)

/-- The growth in unmet reserve a STREAM_SET asks for (R12). -/
def StreamEntry.growth (st : StreamEntry) (b : SettingsBlock) : Nat :=
  (b.reserve - st.heldPages) - (st.reserve - st.heldPages)

/-- The entry after a STREAM_SET that passes its checks (R13, R110): settings, mark list, binding, monitors. -/
def StreamEntry.setTo (st : StreamEntry) (b : SettingsBlock) : StreamEntry :=
  ({ st.withSettings b with
    marks := if b.mode = 1 then [] else st.marks
    noticeRing := if st.state = StreamState.held then st.noticeRing else ringOf b.noticeRing }).silent

/-- A waiting append could never be admitted within a quota (R13, R29). -/
def WaitingAppend.tooLarge (quota : Nat) (w : WaitingAppend) : Bool := decide (quota < pagesFor (footprint w.length))

/-- The waiting appends of stream `i` that cannot fit its quota complete with TOO_LARGE, in list order (R13, R38). -/
def Chip.refuseTooLarge (c : Chip) (i : StreamId) (quota : Nat) : Chip :=
  let st := c.stream i
  (c.modStream i fun x => { x with waitA := st.waitA.filter fun w => !w.tooLarge quota }).refuseAll
    ((st.waitA.filter (WaitingAppend.tooLarge quota)).map WaitingAppend.slot) .tooLarge

/-- A STREAM_SET starts the grant arbiter (R92, R98): a raised quota or reserve, a lowered reserve whose unmet part falls, or a
waiting head that leaves. -/
def StreamEntry.setStarts (st : StreamEntry) (b : SettingsBlock) : Bool :=
  decide (st.quota < b.quota) || decide (st.reserve < b.reserve) ||
    decide (b.reserve - st.heldPages < st.reserve - st.heldPages) ||
    (match st.waitA with
      | [] => false
      | h :: _ => h.tooLarge b.quota)

/-- The pending latches of stream `i` posted to a ring it has been bound to anew (R13, R114). -/
def Chip.attemptIfMoved (c : Chip) (i : StreamId) (old : Option RingId) : Chip :=
  if (c.stream i).noticeRing = old then c else c.attempt i

/-- STREAM_SET on an OPEN or HELD stream (R12, R13, R102). -/
def Chip.setSettings (c : Chip) (i : StreamId) (id : Nat) (b : SettingsBlock) : Chip :=
  let st := c.stream i
  if c.setBlockOk st b = false then c.refuse id .badField
  else if b.quota < st.heldPages then c.refuse id .inUse
  else if c.sharedFree < st.growth b then c.refuse id .noReserve
  else
    let c1 := (c.setStream i (st.setTo b)).refuseTooLarge i b.quota
    ((c1.attemptIfMoved i st.noticeRing).answer id fun q => q.positions .ok st.base st.next).startArbiterIf
      (st.setStarts b)

/-- What the Stream Controller does with a STREAM_SET handed to it (R9). -/
def streamSetAct (id : Nat) (q : Request) (c : Chip) : Option Chip :=
  match q.body with
  | .streamSet b => some (c.onStream id q .set_ fun i => c.setSettings i id b)
  | _ => none

/-- STREAM_SET (R12). -/
def execStreamSet (s : State) : Host.Outcome State Fault Refusal :=
  s.onChip fun c => c.serve .streamController streamSetAct

/-! ### STREAM_FLUSH -/

/-- The entry as a flush in slot `id` leaves it at its decode (R14): every position at next, no marks, backlog BELOW, the flush
its pending end. -/
def StreamEntry.flushed (st : StreamEntry) (id : Nat) : StreamEntry :=
  { st with
    state := .flushing, base := st.next, read := st.next, frontier := st.next, baseLoc := st.tailLoc,
    readLoc := st.tailLoc, marks := [], backlog := .below, pendingEnd := some id }

/-- STREAM_FLUSH on an OPEN stream (R14): with nothing in flight the flush ends within the same event. -/
def Chip.flushStream (c : Chip) (i : StreamId) (id : Nat) : Chip :=
  let c1 := (c.modStream i fun st => st.flushed id).setPhase id .admitted
  ((c1.refuseWaiting i .flushed).pageReturn i).endCheck i

/-- What the Stream Controller does with a STREAM_FLUSH handed to it (R9). -/
def streamFlushAct (id : Nat) (q : Request) (c : Chip) : Option Chip :=
  match q.body with
  | .streamFlush => some (c.onStream id q .flush fun i => c.flushStream i id)
  | _ => none

/-- STREAM_FLUSH (R14). -/
def execStreamFlush (u : Upsets) (s : State) : Host.Outcome State Fault Refusal :=
  s.onChip fun c => (c.upset u).serve .streamController streamFlushAct

/-! ### STREAM_CLOSE -/

/-- The entry at the start of a close in slot `id` (R17, R116). -/
def StreamEntry.closing (st : StreamEntry) (id : Nat) : StreamEntry :=
  { st.clearLatches with
    state := .closing, reserve := 0, noticeRing := none, marks := [], pendingEnd := some id,
    closeFromFault := st.state == .faulted, closeMedia := false }

/-- STREAM_CLOSE on an OPEN, HELD or FAULTED stream (R17): with nothing in flight the close ends within the same event. -/
def Chip.closeStream (c : Chip) (i : StreamId) (id : Nat) : Chip :=
  let st := c.stream i
  let c1 := (c.setStream i (st.closing id)).setPhase id .admitted
  ((c1.refuseWaiting i .closed).startArbiterIf (st.unmet != 0)).endCheck i

/-- What the Stream Controller does with a STREAM_CLOSE handed to it (R9). -/
def streamCloseAct (id : Nat) (q : Request) (c : Chip) : Option Chip :=
  match q.body with
  | .streamClose => some (c.onStream id q .close fun i => c.closeStream i id)
  | _ => none

/-- STREAM_CLOSE (R17). -/
def execStreamClose (u : Upsets) (s : State) : Host.Outcome State Fault Refusal :=
  s.onChip fun c => (c.upset u).serve .streamController streamCloseAct

/-! ### STREAM_RESUME -/

/-- STREAM_RESUME on a HELD stream (R22). -/
def Chip.resumeStream (c : Chip) (i : StreamId) (id ring : Nat) : Chip :=
  let st := c.stream i
  if c.cmpActive ring = false then c.refuse id .badField
  else
    (c.setStream i { st with state := .opened, noticeRing := ringOf ring }).answer id fun q =>
      q.positions .ok st.base st.next

/-- What the Stream Controller does with a STREAM_RESUME handed to it (R9). -/
def streamResumeAct (id : Nat) (q : Request) (c : Chip) : Option Chip :=
  match q.body with
  | .streamResume ring => some (c.onStream id q .resume fun i => c.resumeStream i id ring)
  | _ => none

/-- STREAM_RESUME (R22). -/
def execStreamResume (s : State) : Host.Outcome State Fault Refusal :=
  s.onChip fun c => c.serve .streamController streamResumeAct

/-! ### Reports -/

/-- A report request whose buffer is accepted (R23, R103, R150, R174): the positions of its completion are kept, and the write of
its bytes is placed. -/
def Chip.placeReport (c : Chip) (id : Nat) (buffer : Segment) (data : List Byte) (a b : Nat) : Chip :=
  (c.modSlot id fun sl => { sl with phase := .admitted, snapA := a, snapB := b }).place
    { slot := id, work := .reportWrite buffer.addr data }

/-- STREAM_REPORT on a stream that is not CLOSED (R23). -/
def Chip.streamReport (c : Chip) (i : StreamId) (id : Nat) (buffer : Segment) : Chip :=
  let st := c.stream i
  if reportBufferOk 128 buffer then c.placeReport id buffer (streamReportBytes st) st.base st.next
  else c.refuse id .badField

/-- What the Stream Controller does with a STREAM_REPORT handed to it (R9). -/
def streamReportAct (id : Nat) (q : Request) (c : Chip) : Option Chip :=
  match q.body with
  | .streamReport buffer => some (c.onStream id q .report fun i => c.streamReport i id buffer)
  | _ => none

/-- STREAM_REPORT (R23). -/
def execStreamReport (s : State) : Host.Outcome State Fault Refusal :=
  s.onChip fun c => c.serve .streamController streamReportAct

/-- A refusal that names no stream: the stream id is 0 (R174; R103, log 22). -/
def Request.plain (q : Request) (s : Status) : Completion := { code := s.code, commandId := q.commandId }

/-- What the Page Pool Manager does with a POOL_REPORT (R103). -/
def poolReportAct (id : Nat) (q : Request) (c : Chip) : Option Chip :=
  match q.body with
  | .poolReport buffer =>
    some
      (if reportBufferOk 64 buffer then
        c.placeReport id buffer c.poolReportBytes c.pool.free c.sharedFree
      else c.answer id fun q => q.plain .badField)
  | _ => none

/-- POOL_REPORT (R103). -/
def execPoolReport (s : State) : Host.Outcome State Fault Refusal :=
  s.onChip fun c => c.serve .poolManager poolReportAct

/-- What the Controller does with a DESCRIBE (R174). -/
def describeAct (id : Nat) (q : Request) (c : Chip) : Option Chip :=
  match q.body with
  | .describe buffer =>
    some
      (if reportBufferOk 64 buffer then c.placeReport id buffer c.describeBytes c.pool.usable c.dramMib
      else c.answer id fun q => q.plain .badField)
  | _ => none

/-- DESCRIBE (R174). -/
def execDescribe (s : State) : Host.Outcome State Fault Refusal :=
  s.onChip fun c => c.serve .controller describeAct

/-- A request is a STREAM_REPORT. -/
def Body.isStreamReport : Body → Bool
  | .streamReport _ => true
  | _ => false

/-- The completion of a report request whose write ended so (R23, R103, R174): positions from the snapshot, bytes 64 for the pool
and describe reports, the stream id for the stream report. -/
def reportReply (o : CopyOutcome) (a b : Nat) (q : Request) : Completion :=
  let e : Completion := if q.body.isStreamReport then q.reply .ok else { q.plain .ok with bytes := 64 }
  match o with
  | .ok => { e with posA := a, posB := b }
  | .hostWriteError => { e with code := Status.hostWriteError.code, bytes := 0 }
  | .hostReadError => { e with code := Status.hostWriteError.code, bytes := 0 }
  | .badField => { e with code := Status.hostWriteError.code, bytes := 0 }
  | .stopped => { e with code := Status.hostWriteError.code, bytes := 0 }

/-- The owner takes a report write's end; outside ACTIVE it is discarded. -/
def Chip.reportWriteEnd (c : Chip) (id : Nat) : Chip :=
  match c.endOf .report id with
  | none => c
  | some e =>
    let c1 := c.dropEnd .report id
    if c1.isActive then
      match c1.slot? id with
      | none => c1
      | some sl => c1.answer id (reportReply e.outcome sl.snapA sl.snapB)
    else c1

/-- REPORT_WRITE_END (R150). -/
def execReportWriteEnd (slot : Nat) (s : State) : Host.Outcome State Fault Refusal :=
  s.onChip fun c => c.reportWriteEnd slot

end Sys2Proof.Machine
end

