-- ==== Sys2Proof/Machine/RingControl.lean ====
section
/-! DEFINITION. The ring requests (section 7.7): RING_CREATE, RING_DELETE of a request ring and of a completion ring, CANCEL. -/

namespace Sys2Proof.Machine

/-! ### RING_CREATE -/

/-- A ring number a request may name, 1 to 31 (R135 to R137). -/
def ioRing (n : Nat) : Option RingId := if n = 0 then none else ringOf n

/-- The fields every RING_CREATE is checked for (R135). -/
def RingBlock.inRange (b : RingBlock) : Bool :=
  decide (b.ringType ≤ 1) && (ioRing b.id).isSome && b.base.toNat % 4096 == 0 && decide (2 ≤ b.size) &&
    decide (b.size ≤ Config.maxRing)

/-- The rest of the checks of a RING_CREATE that end in BAD_FIELD (R135). -/
def Chip.ringBlockOk (c : Chip) (b : RingBlock) : Bool :=
  b.inRange && (if b.ringType = 0 then b.bound != 0 && c.cmpActive b.bound else b.batch != 0)

/-- A new request ring (R135); a pending RING_FAULT latch of its id is kept (R133). -/
def newRequestRing (base : HostAddr) (size : Nat) (bound : RingId) (fault : Option RingFault) : RequestRing :=
  { RequestRing.absent with state := .active, base := base, size := size, bound := bound, fault := fault }

/-- A new completion ring (R119, R135); a pending RING_FAULT latch of its id is kept (R133). -/
def newCompletionRing (base : HostAddr) (size : Nat) (interrupt : Bool) (batch delay : Nat) (fault : Option RingFault) :
    CompletionRing :=
  { CompletionRing.absent with
    state := .active, base := base, size := size, interrupt := interrupt, batch := batch, delay := delay,
    fault := fault }

/-- The completion of a ring request (R135 to R137): stream id 0. -/
def Request.ringReply (q : Request) (s : Status) (a b n : Nat) : Completion :=
  { q.plain s with posA := a, posB := b, count := n }

/-- RING_CREATE of ring `n` with a valid block (R135). -/
def Chip.createRing (c : Chip) (id : Nat) (n : RingId) (b : RingBlock) : Chip :=
  if b.ringType = 0 then
    if (c.reqRing n).state = .absent then
      (c.setReqRing n (newRequestRing b.base b.size (Fin.ofNat 32 b.bound) (c.reqRing n).fault)).answer id fun q =>
        q.ringReply .ok n.val b.size 0
    else c.answer id fun q => q.plain .inUse
  else
    if (c.cmpRing n).state = .absent then
      (c.setCmpRing n (newCompletionRing b.base b.size b.enable b.batch b.delay (c.cmpRing n).fault)).answer id fun q =>
        q.ringReply .ok n.val b.size 0
    else c.answer id fun q => q.plain .inUse

/-- What the Ring Engine does with a RING_CREATE (R135). -/
def ringCreateAct (id : Nat) (q : Request) (c : Chip) : Option Chip :=
  match q.body with
  | .ringCreate b =>
    some
      (if c.ringBlockOk b then
        match ioRing b.id with
        | none => c.answer id fun q => q.plain .badField
        | some n => c.createRing id n b
      else c.answer id fun q => q.plain .badField)
  | _ => none

/-- RING_CREATE (R135). -/
def execRingCreate (s : State) : Host.Outcome State Fault Refusal :=
  s.onChip fun c => c.serve .ringEngine ringCreateAct

/-! ### Cancelling waiting requests -/

/-- The waiting request in slot `id` leaves its list and completes with CANCELLED (R38, R58). -/
def Chip.cancelWaiting (c : Chip) (id : Nat) : Chip :=
  match c.slotStream id with
  | none => c
  | some i => ((c.dropAppend i id).dropFetch i id).refuse id .cancelled

/-- What follows when the requests in `ids` have left the lists of stream `i` (R38, R58), `st` the entry before: a waiting-append
head that left starts the arbiter, a waiting-fetch head that left has the new head evaluated. -/
def Chip.afterLeaving (ids : List Nat) (old : Chip) (c : Chip) (i : StreamId) : Chip :=
  let st := old.stream i
  let c1 := c.startArbiterIf (ids.any st.headAppend)
  if ids.any st.headFetch then c1.evalHead i else c1

/-! ### RING_DELETE of a request ring -/

/-- The waiting requests of request ring `n`, in the order they were taken (R136), the fetches of one stream too:
list order (R65) belongs to the events that empty a whole list, and R58 does not count RING_DELETE among those (log 38). -/
def Chip.waitingOf (c : Chip) (n : RingId) : List Nat :=
  (c.rings.table.filter fun sl => sl.ring == n && sl.phase == .waiting).map Slot.id

/-- The streams of the requests in `ids`, each once; their order is settled by `Chip.inServiceOrder`. -/
def Chip.streamsOf (c : Chip) (ids : List Nat) : List StreamId := (ids.filterMap c.slotStream).dedup

/-- Where R128 puts stream `i`: by its notice ring, and on one ring in ascending order after the ring's service pointer, wrapping
from 511 to 0. -/
def Chip.serviceRank (c : Chip) (i : StreamId) : Nat :=
  match (c.stream i).noticeRing with
  | none => 16384 + i.val
  | some n => 512 * n.val + (i.val + 511 - (c.cmpRing n).service.val) % 512

/-- Streams in the order their latches are attempted in when they become pending in one event (R127, R128); between streams of
different notice rings the order is the model's (log 39). -/
def Chip.inServiceOrder (c : Chip) (is : List StreamId) : List StreamId :=
  is.insertionSort fun i j => c.serviceRank i ≤ c.serviceRank j

/-- RING_DELETE of request ring `n` in slot `id`, when the ring is ACTIVE or STOPPED (R136). The order is the model's (log 39):
every waiting request completes first, then the new heads are evaluated stream by stream, those whose sizing walk faults
attempting their notices in the order of R127. -/
def Chip.drainRing (c : Chip) (id : Nat) (n : RingId) : Chip :=
  let ids := c.waitingOf n
  let c1 :=
    (c.setReqRing n { c.reqRing n with state := .draining, deleter := some id, cancelled := ids.length }).setPhase id
      .admitted
  let c2 := ids.foldl Chip.cancelWaiting c1
  ((c.inServiceOrder (c.streamsOf ids)).foldl (Chip.afterLeaving ids c) c2).drainCheck n

/-- RING_DELETE of a request ring (R136). -/
def Chip.deleteRequestRing (c : Chip) (id : Nat) (b : RingBlock) : Chip :=
  match ioRing b.id with
  | none => c.answer id fun q => q.plain .badField
  | some n =>
    match (c.reqRing n).state with
    | .absent => c.answer id fun q => q.plain .notFound
    | .draining => c.answer id fun q => q.plain .inUse
    | .active => c.drainRing id n
    | .stopped => c.drainRing id n

/-- What the Ring Engine does with a RING_DELETE whose type is not the completion ring's (R136). A type other than the two
defined codes completes with BAD_FIELD (log 20). -/
def ringDeleteRequestAct (id : Nat) (q : Request) (c : Chip) : Option Chip :=
  match q.body with
  | .ringDelete b =>
    if b.ringType = 1 then none
    else if b.ringType = 0 then some (c.deleteRequestRing id b)
    else some (c.answer id fun q => q.plain .badField)
  | _ => none

/-- RING_DELETE of a request ring (R136). -/
def execRingDeleteRequestRing (u : Upsets) (s : State) : Host.Outcome State Fault Refusal :=
  s.onChip fun c => (c.upset u).serve .ringEngine ringDeleteRequestAct

/-! ### RING_DELETE of a completion ring -/

/-- A request ring that is not ABSENT is bound to completion ring `n` (R137). -/
def Chip.ringBound (c : Chip) (n : RingId) : Bool :=
  ringIds.any fun m => (c.reqRing m).state != .absent && (c.reqRing m).bound == n

/-- A stream in OPEN, FLUSHING or FAULTED has ring `n` as its notice ring (R137). -/
def Chip.streamBound (c : Chip) (n : RingId) : Bool :=
  c.streams.toList.any fun st =>
    (st.state == .opened || st.state == .flushing || st.state == .faulted) && st.noticeRing == some n

/-- The outstanding writes of a ring that is no more (log 29). -/
def HostLink.orphan (l : HostLink) (n : RingId) : HostLink :=
  { l with cmpWrites := l.cmpWrites.map fun w => if w.ring = n then { w with live := false } else w }

/-- RING_DELETE of completion ring `n` (R137); a pending RING_FAULT latch is kept (R133). -/
def Chip.deleteCompletionRing (c : Chip) (id : Nat) (b : RingBlock) : Chip :=
  match ioRing b.id with
  | none => c.answer id fun q => q.plain .badField
  | some n =>
    if (c.cmpRing n).state = .absent then c.answer id fun q => q.plain .notFound
    else if c.ringBound n || c.streamBound n then c.answer id fun q => q.plain .inUse
    else
      let c1 := c.setCmpRing n { CompletionRing.absent with fault := (c.cmpRing n).fault }
      ({ c1 with link := c1.link.orphan n }).answer id fun q => q.ringReply .ok n.val 0 0

/-- What the Ring Engine does with a RING_DELETE of type completion ring (R137). -/
def ringDeleteCompletionAct (id : Nat) (q : Request) (c : Chip) : Option Chip :=
  match q.body with
  | .ringDelete b => if b.ringType = 1 then some (c.deleteCompletionRing id b) else none
  | _ => none

/-- RING_DELETE of a completion ring (R137). -/
def execRingDeleteCompletionRing (s : State) : Host.Outcome State Fault Refusal :=
  s.onChip fun c => c.serve .ringEngine ringDeleteCompletionAct

/-! ### CANCEL -/

/-- A slot holds a taken request of ring `n` with command id `command` (R138). -/
def Slot.isTarget (n : Nat) (command : BitVec 16) (sl : Slot) : Bool :=
  sl.ring.val == n &&
    (match sl.request with
      | none => false
      | some q => q.commandId == command)

/-- The request a CANCEL in slot `id` names: the earliest taken that matches, other than the CANCEL itself (R138). -/
def Chip.cancelTarget (c : Chip) (id ring : Nat) (command : BitVec 16) : Option Slot :=
  c.rings.table.find? fun sl => sl.id != id && sl.isTarget ring command

/-- The stream id of the request in a slot, for the CANCEL that cancels it (R138). -/
def Slot.streamField (sl : Slot) : BitVec 16 :=
  match sl.request with
  | none => 0
  | some q => q.streamId

/-- CANCEL with a ring id of 0 to 31 (R138). -/
def Chip.cancel (c : Chip) (id ring : Nat) (command : BitVec 16) : Chip :=
  match c.cancelTarget id ring command with
  | none => c.answer id fun q => q.plain .notFound
  | some sl =>
    if sl.phase = .waiting then
      let c1 := (c.streamsOf [sl.id]).foldl (Chip.afterLeaving [sl.id] c) (c.cancelWaiting sl.id)
      c1.answer id fun q => { q.plain .ok with streamId := sl.streamField, count := 1 }
    else c.answer id fun q => q.plain .notWaiting

/-- What the Ring Engine does with a CANCEL (R138). -/
def cancelAct (id : Nat) (q : Request) (c : Chip) : Option Chip :=
  match q.body with
  | .cancel ring command =>
    some (if 31 < ring then c.answer id fun q => q.plain .badField else c.cancel id ring command)
  | _ => none

/-- CANCEL (R138). -/
def execCancel (u : Upsets) (s : State) : Host.Outcome State Fault Refusal :=
  s.onChip fun c => (c.upset u).serve .ringEngine cancelAct

end Sys2Proof.Machine
end

