-- ==== Sys2Proof/Machine/Rings.lean ====
section
/-! DEFINITION. The Ring Engine's and the Host Link Port's events (chapter 7): index writes, takes and entry reads, completion
writes, the delay timer, vector masks, and the state of the host link. -/

namespace Sys2Proof.Machine

/-! ### Index writes (R120, R121) -/

/-- The value of an index write: bits 0 to 15 (R177). -/
def indexValue (v : Word) : Nat := (v.extractLsb' 0 16).toNat

/-- A host write to REQ_PUT[n] (R120). -/
def Chip.writeReqPut (c : Chip) (n : RingId) (v : Nat) : Chip :=
  let r := c.reqRing n
  if c.isActive = true ∧ r.state = .active then
    if v < r.size then c.setReqRing n { r with put := v }
    else c.stopReqRing n { detail := 2, posA := r.take, posB := v }
  else c

/-- Steps from the take index forward to `v`, wrapping at the ring's size (R121). -/
def CompletionRing.advanceTo (r : CompletionRing) (v : Nat) : Nat := if r.take ≤ v then v - r.take else v + r.size - r.take

/-- A host write to CMP_TAKE[n] (R121). -/
def Chip.writeCmpTake (c : Chip) (n : RingId) (v : Nat) : Chip :=
  let r := c.cmpRing n
  if c.isActive = true ∧ r.state = .active then
    if v < r.size ∧ r.advanceTo v ≤ r.posted then
      let c1 := c.setCmpRing n { r with take := v, posted := r.posted - r.advanceTo v }
      if 1 ≤ r.advanceTo v then c1.service n else c1
    else c.stopCmpRing n { detail := 3, posA := r.take, posB := v }
  else c

/-- A command on ring or vector `n`, when the part has it (log 1). -/
def Chip.onRing (c : Chip) (n : Nat) (f : RingId → Chip) : Chip :=
  match ringOf n with
  | none => c
  | some r => f r

/-- REQ_PUT_WRITE (R120). -/
def execReqPutWrite (n : Nat) (v : Word) (s : State) : Host.Outcome State Fault Refusal :=
  s.onChip fun c => c.onRing n fun r => c.writeReqPut r (indexValue v)

/-- CMP_TAKE_WRITE (R121). -/
def execCmpTakeWrite (n : Nat) (v : Word) (s : State) : Host.Outcome State Fault Refusal :=
  s.onChip fun c => c.onRing n fun r => c.writeCmpTake r (indexValue v)

/-! ### Takes (R122, R123) -/

/-- Free slots of the request table. -/
def Chip.tableFree (c : Chip) : Nat := Config.tableSlots - c.rings.table.length

/-- Request ring `n` is eligible (R122). -/
def Chip.eligible (c : Chip) (n : RingId) : Bool :=
  let r := c.reqRing n
  c.isActive && r.state == .active && r.put != r.take && r.reading.isNone &&
    decide ((if n = 0 then 1 else 2) ≤ c.tableFree) && (c.cmpRing r.bound).state == .active &&
    decide (1 ≤ (c.cmpRing r.bound).freeSlots)

/-- Rings 1 to 31 in ascending order after the I/O pointer, wrapping from 31 to 1 (R122). -/
def ringsAfter (p : RingId) : List RingId := (List.range 31).map fun k => Fin.ofNat 32 (1 + (p.val + k) % 31)

/-- The ring the arbiter selects (R122): ring 0 whenever it is eligible. -/
def Chip.selectRing (c : Chip) : Option RingId :=
  if c.eligible 0 then some 0 else (ringsAfter c.rings.ioPtr).find? c.eligible

/-- The host address of entry `i` of a request ring (R117). -/
def RequestRing.entryAddr (r : RequestRing) (i : Nat) : HostAddr := r.base + BitVec.ofNat 64 (64 * i)

/-- The start of a take on ring `n` (R123): a slot claimed in DECODING, a completion slot reserved, the read of the entry at the
take index issued. -/
def Chip.startTake (c : Chip) (n : RingId) : Chip :=
  let id := c.freshSlot
  let r := c.reqRing n
  let slot : Slot :=
    { id := id, ring := n, phase := .decoding, request := none, segments := [], snapA := 0, snapB := 0 }
  let c1 :=
    { c with
      rings := { c.rings with
        table := c.rings.table ++ [slot]
        ioPtr := if n = 0 then c.rings.ioPtr else n } }
  let c2 := c1.setReqRing n { r with reading := some { slot := id, addr := r.entryAddr r.take }, outstanding := r.outstanding + 1 }
  c2.setCmpRing r.bound { c2.cmpRing r.bound with reserved := (c2.cmpRing r.bound).reserved + 1 }

/-- RING_TAKE_START (R122, R123). -/
def execRingTakeStart (s : State) : Host.Outcome State Fault Refusal :=
  s.onChip fun c =>
    match c.selectRing with
    | none => c
    | some n => c.startTake n

/-- An index advanced by one around a ring (R123). -/
def nextIndex (i size : Nat) : Nat := if i + 1 = size then 0 else i + 1

/-- An entry taken (R123): the take index advances and no read of the ring is in flight. -/
def Chip.takeEntry (c : Chip) (n : RingId) : Chip :=
  let r := c.reqRing n
  c.setReqRing n { r with take := nextIndex r.take r.size, reading := none }

/-- The request of a decoded entry handed to its owner (R125). -/
def Chip.handOver (c : Chip) (id : Nat) (q : Request) : Chip :=
  let c1 := c.modSlot id fun sl => { sl with request := some q }
  { c1 with rings := { c1.rings with arrived := c1.rings.arrived ++ [id] } }

/-- The completion of a request refused at decode (R125). -/
def decodeRefusal (e : Entry) (s : Status) : Completion :=
  { code := s.code, commandId := entryCommand e, streamId := entryStream e }

/-- The kind is valid on request ring `n` (R125). -/
def Body.validOn (b : Body) (n : RingId) : Bool := b.isIO == (n != 0)

/-- A taken entry decoded (R125). -/
def Chip.decodeEntry (c : Chip) (n : RingId) (id : Nat) (e : Entry) : Chip :=
  match bodyOf e with
  | none => c.complete id (decodeRefusal e .badKind)
  | some b => if b.validOn n then c.handOver id (requestOf e b) else c.complete id (decodeRefusal e .wrongRing)

/-- A take undone (R123): the slot is freed, the outstanding count falls by one; the reservation is released by the caller. -/
def Chip.undoTake (c : Chip) (n : RingId) (id : Nat) : Chip :=
  let c1 := c.freeSlot id
  let r := c1.reqRing n
  c1.setReqRing n { r with reading := none, outstanding := r.outstanding - 1 }

/-- The entry read of ring `n` for slot `id` ends with an error while the ring is ACTIVE (R123, R131, R134). -/
def Chip.entryError (c : Chip) (n : RingId) (id : Nat) : Chip :=
  let r := c.reqRing n
  if n = 0 then c.halt .controlRing
  else
    ((c.undoTake n id).releaseReservation r.bound).stopReqRing n { detail := 1, posA := r.take, posB := r.put }

/-- The entry read of ring `n` for slot `id` ends while the controller is ACTIVE (R123). -/
def Chip.entryEnds (c : Chip) (n : RingId) (id : Nat) (res : EntryRead) : Chip :=
  let r := c.reqRing n
  if r.state = .active then
    match res with
    | .data e => (c.takeEntry n).decodeEntry n id e
    | .error => c.entryError n id
    | .timeout => c.entryError n id
  else ((c.undoTake n id).releaseReservation r.bound).drainCheck n

/-- An entry read that ends while QUIESCING is discarded (R123, R139): no notice is served. A DRAINING ring whose last outstanding
request it was becomes ABSENT all the same (R136); the completion of its RING_DELETE is not written then (R139, log 10). -/
def Chip.entryDiscarded (c : Chip) (n : RingId) (id : Nat) : Chip :=
  let b := (c.reqRing n).bound
  let c1 := c.undoTake n id
  (c1.setCmpRing b { c1.cmpRing b with reserved := (c1.cmpRing b).reserved - 1 }).drainCheck n

/-- The entry read of ring `n` ends (R123): as the controller's state says; nothing changes in HALTED (R139). -/
def Chip.entryReadEnd (c : Chip) (n : RingId) (res : EntryRead) : Chip :=
  match (c.reqRing n).reading with
  | none => c
  | some f =>
    match c.ctl.state with
    | .active => c.entryEnds n f.slot res
    | .quiescing => c.entryDiscarded n f.slot
    | .init => c
    | .disabled => c
    | .halted => c

/-- ENTRY_READ_END (R123, R125). -/
def execEntryReadEnd (n : Nat) (res : EntryRead) (s : State) : Host.Outcome State Fault Refusal :=
  s.onChip fun c => c.onRing n fun r => c.entryReadEnd r res

/-! ### Completion writes, the delay timer, vectors, the link -/

/-- The oldest outstanding completion write of ring `n`, and the others in order. -/
def takeWrite (n : RingId) : List CmpWrite → Option (CmpWrite × List CmpWrite)
  | [] => none
  | w :: rest => if w.ring = n then some (w, rest) else (takeWrite n rest).map fun r => (r.1, w :: r.2)

/-- A host write error on a completion write of ring `n` (R126, R132, R134, R170): the ring stops, or the controller halts. -/
def Chip.writeFails (c : Chip) (n : RingId) (w : CmpWrite) : Chip :=
  let r := c.cmpRing n
  if w.live = true ∧ (c.ctl.state = .active ∨ c.ctl.state = .quiescing) then
    c.stopCmpRing n { detail := 4, posA := r.put, posB := r.take }
  else c

/-- The oldest outstanding completion write of ring `n` ends (R126, R146): sent when the port can send it. A write issued before
a halt still ends so in HALTED, where a failure changes nothing: the model's choice, since R173 lets no completion be written
in HALTED and says nothing of a write already issued (log 40). -/
def Chip.completionWriteEnd (c : Chip) (n : RingId) : Chip :=
  match takeWrite n c.link.cmpWrites with
  | none => c
  | some (w, rest) =>
    let c1 := { c with link := { c.link with cmpWrites := rest } }
    if c.link.canSend then
      { c1 with link := { c1.link with out := c1.link.out ++ [.entry w.addr w.data] } }
    else c1.writeFails n w

/-- COMPLETION_WRITE_END (R126). -/
def execCompletionWriteEnd (n : Nat) (s : State) : Host.Outcome State Fault Refusal :=
  s.onChip fun c => c.onRing n fun r => c.completionWriteEnd r

/-- The delay timer of completion ring `n` runs out (R129); timers run in ACTIVE, and in QUIESCING until the rings go (R130). -/
def Chip.timerExpiry (c : Chip) (n : RingId) : Chip :=
  if (c.cmpRing n).timer = true ∧ (c.ctl.state = .active ∨ c.ctl.state = .quiescing) then c.raiseInterrupt n else c

/-- COALESCE_TIMER_EXPIRY (R129). -/
def execCoalesceTimerExpiry (n : Nat) (s : State) : Host.Outcome State Fault Refusal :=
  s.onChip fun c => c.onRing n fun r => c.timerExpiry r

/-- Vector `n` masked (R130). -/
def Chip.maskVector (c : Chip) (n : RingId) : Chip :=
  { c with link := { c.link with masked := c.link.masked.set n.val true n.isLt } }

/-- Vector `n` unmasked, and a pending message on it sent (R130). -/
def Chip.unmaskVector (c : Chip) (n : RingId) : Chip :=
  let l := { c.link with masked := c.link.masked.set n.val false n.isLt }
  if c.link.msiPending.get n then
    { c with link := { l with msiPending := l.msiPending.set n.val false n.isLt, out := l.out ++ [.message n] } }
  else { c with link := l }

/-- VECTOR_MASK (R130). -/
def execVectorMask (n : Nat) (s : State) : Host.Outcome State Fault Refusal :=
  s.onChip fun c => c.onRing n fun r => c.maskVector r

/-- VECTOR_UNMASK (R130). -/
def execVectorUnmask (n : Nat) (s : State) : Host.Outcome State Fault Refusal :=
  s.onChip fun c => c.onRing n fun r => c.unmaskVector r

/-- HOST_LINK_ACCESS_CHANGE (R146): the inputs of the Host Link Port take the state the command gives. -/
def execHostLinkAccessChange (up access : Bool) (s : State) : Host.Outcome State Fault Refusal :=
  s.onChip fun c => { c with link := { c.link with up := up, access := access } }

end Sys2Proof.Machine
end

