-- ==== Sys2Proof/Machine/Arbiter.lean ====
section
/-! DEFINITION. The grant arbiter (section 5.6): GRANT_ARBITER_START and GRANT_ARBITER_VISIT. -/

namespace Sys2Proof.Machine

/-- The stream after `i` in the arbiter's round, wrapping from 511 to 0 (R99). -/
def streamAfter (i : StreamId) : StreamId := Fin.ofNat 512 (i.val + 1)

/-- The run after a start is taken (R99): a run begins after the grant pointer, or the run under way has its count set to 0. -/
def Pool.startRun (p : Pool) : Pool :=
  { p with
    starts := p.starts - 1
    run := match p.run with
      | none => some { cursor := streamAfter p.grantPtr, count := 0 }
      | some r => some { r with count := 0 } }

/-- A raised start taken by the arbiter (R98, R99, log 6). -/
def Chip.arbiterStart (c : Chip) : Chip :=
  if c.isActive = true ∧ c.pool.starts ≠ 0 then { c with pool := c.pool.startRun } else c

/-- GRANT_ARBITER_START (R99). -/
def execGrantArbiterStart (s : State) : Host.Outcome State Fault Refusal := s.onChip fun c => c.arbiterStart

/-- The run after a visit at `i` that admitted nothing (R99): it ends when the count reaches 512. -/
def ArbiterRun.missed (r : ArbiterRun) (i : StreamId) : Option ArbiterRun :=
  if r.count + 1 = 512 then none else some { cursor := streamAfter i, count := r.count + 1 }

/-- The pool after a visit at `i` that admitted nothing. -/
def Chip.visitMissed (c : Chip) (r : ArbiterRun) (i : StreamId) : Chip :=
  { c with pool := { c.pool with run := r.missed i } }

/-- The pool after a visit at `i` that admitted a head (R99): the grant pointer moves to `i` and the count is 0. -/
def Chip.visitServed (c : Chip) (i : StreamId) : Chip :=
  { c with pool := { c.pool with grantPtr := i, run := some { cursor := streamAfter i, count := 0 } } }

/-- What the visit does with the head `w`, whose request is `q`, of stream `i` (R36 step 3, R100). -/
def Chip.visitHead (c : Chip) (r : ArbiterRun) (i : StreamId) (w : WaitingAppend) (q : Request) : Chip :=
  match q.body with
  | .append length tag src =>
    match c.tryAdmit i w.slot length tag src with
    | .refused => c.visitMissed r i
    | .halted c1 => c1
    | .done c1 => (c1.dropAppend i w.slot).visitServed i
  | _ => c.visitMissed r i

/-- The visit of stream `i` (R36, R100). -/
def Chip.visit (c : Chip) (r : ArbiterRun) (i : StreamId) : Chip :=
  let st := c.stream i
  match st.waitA with
  | [] => c.visitMissed r i
  | w :: _ =>
    if st.state = .opened then
      if st.next = Config.seqEnd then
        ((c.modStream i fun x => { x with waitA := [] }).refuseAll (st.waitA.map WaitingAppend.slot)
          .seqLimit).visitMissed r i
      else if Config.maxWindow ≤ st.admitted.length then c.visitMissed r i
      else
        match c.slotRequest w.slot with
        | none => c.visitMissed r i
        | some q => c.visitHead r i w q
    else c.visitMissed r i

/-- One visit of the run under way, while ACTIVE (R99, R105). -/
def Chip.arbiterVisit (c : Chip) : Chip :=
  if c.isActive then
    match c.pool.run with
    | none => c
    | some r => c.visit r r.cursor
  else c

/-- GRANT_ARBITER_VISIT (R99, R100). -/
def execGrantArbiterVisit (u : Upsets) (s : State) : Host.Outcome State Fault Refusal :=
  s.onChip fun c => (c.upset u).arbiterVisit

end Sys2Proof.Machine
end

