-- ==== Sys2Proof/Machine/TransferEvents.lean ====
section
/-! DEFINITION. The Transfer Engine's events (chapter 8): TRANSFER_START, HOST_READ_END, HOST_WRITE_END, BUFFER_READ_END,
BUFFER_WRITE_END. -/

namespace Sys2Proof.Machine

/-- The context a number names. -/
def ctxId (n : Nat) : Option CtxId := if h : n < 64 then some ⟨n, h⟩ else none

/-- A command on context `n`, when the part has it (log 1). -/
def Chip.onCtx (c : Chip) (n : Nat) (f : CtxId → Chip) : Chip :=
  match ctxId n with
  | none => c
  | some k => f k

/-- TRANSFER_START (R141, R142). -/
def execTransferStart (s : State) : Host.Outcome State Fault Refusal := s.onChip fun c => c.startTransfer

/-- HOST_READ_END (R145). -/
def execHostReadEnd (ctx access : Nat) (r : HostReadEnd) (s : State) : Host.Outcome State Fault Refusal :=
  s.onChip fun c => c.onCtx ctx fun k => c.endHostRead k access r

/-- HOST_WRITE_END (R146). The writes of a context end in the order of their issue (section 8.4): while an older one is
outstanding, a later one cannot end, and a command that names it changes nothing (log 1, log 43). -/
def execHostWriteEnd (ctx access : Nat) (s : State) : Host.Outcome State Fault Refusal :=
  s.onChip fun c => c.onCtx ctx fun k =>
    match access with
    | 0 => c.endHostWrite k
    | _ + 1 => c

/-- BUFFER_WRITE_END (R147, R163). -/
def execBufferWriteEnd (ctx access : Nat) (s : State) : Host.Outcome State Fault Refusal :=
  s.onChip fun c => c.onCtx ctx fun k => c.endBufWrite k access

/-! ### Buffer reads of a fetch copy (R148, R156 to R159) -/

/-- An error of a fetch copy's read reported to its stream, unless its context is ABANDONING (R151, R159, R163). -/
def Chip.copyError (c : Chip) (x : Context) (i : StreamId) (cause : FaultCause) (brk : Option Nat) : Chip :=
  match x.state with
  | .running => c.reportMedia i cause brk
  | .finishing => c.reportMedia i cause brk
  | .free => c
  | .abandoning => c

/-- The stored-header read of the record in hand ends in context `k` (R148 step 1, R155); `x` is the context without the read. -/
def Chip.headerRead (c : Chip) (k : CtxId) (x : Context) (i : StreamId) (endSeq page offset : Nat) : Chip :=
  let r := c.mem.readHeader i x.progress.seq page offset
  let c1 := { c with mem := r.1 }
  match r.2 with
  | none => ((c1.setCtx k x).copyError x i .recordHeader none).settle k
  | some h => (c1.setCtx k (if x.state = .running then x.gotHeader h endSeq else x)).settle k

/-- DRAM words that hold `n` bytes. -/
def wordsFor (n : Nat) : Nat := (n + 7) / 8

/-- A record of a fetch copy marked converted (R158 step 3). -/
def Progress.convert (p : Progress) : Progress := { p with converted := true, anyConverted := true }

/-- The stored header of the record in hand rewritten to VOID_DAMAGED and the damaged-record counter raised (R158). -/
def BufferMemory.damage (m : BufferMemory) (p : Progress) : BufferMemory :=
  let m1 := m.rewriteKind p.page p.offset p.seq .voidDamaged
  { m1 with damaged := countUp m1.damaged }

/-- A payload read of the record in hand ends in context `k` (R148 step 2, R158): an uncorrectable word converts the record,
once, whatever the context's state. -/
def Chip.payloadRead (c : Chip) (k : CtxId) (x : Context) (endSeq page offset areaOff len : Nat) : Chip :=
  let r := c.mem.checkRun (wordAt page offset) (wordsFor len)
  let c1 := { c with mem := r.1 }
  if r.2 then
    let piece := (areaOff, c1.mem.readBytes (page * Config.pageBytes + offset) len)
    let x1 := { x with progress := { x.progress with pieces := insertPiece piece x.progress.pieces } }
    (c1.setCtx k (if x.state = .running then x1.deliver endSeq else x)).settle k
  else if x.progress.converted then
    (c1.setCtx k (if x.state = .running then x.deliver endSeq else x)).settle k
  else
    let c2 := { c1 with mem := c1.mem.damage x.progress }
    let x1 := { x with progress := x.progress.convert }
    (c2.setCtx k (if x.state = .running then x1.deliver endSeq else x1)).settle k

/-- A link read of a fetch copy ends in context `k` (R87, R148 step 2): a link error is reported as a break at `page`. -/
def Chip.linkRead (c : Chip) (k : CtxId) (x : Context) (i : StreamId) (endSeq page : Nat) : Chip :=
  let r := c.followChain i page
  match r.2 with
  | none => ((r.1.setCtx k x).copyError x i .chainLink (some page)).settle k
  | some q => (r.1.setCtx k (if x.state = .running then x.gotPage q endSeq else x)).settle k

/-- An outstanding buffer read of context `k` ends (R156). -/
def Chip.endBufRead (c : Chip) (k : CtxId) (j : Nat) : Chip :=
  let x := c.ctx k
  match x.bufReads[j]?, x.transfer with
  | some b, some t =>
    let x1 := { x with bufReads := x.bufReads.eraseIdx j }
    match t.work with
    | .fetchCopy i _ endSeq _ _ _ =>
      match b with
      | .header page offset => c.headerRead k x1 i endSeq page offset
      | .payload page offset areaOff len => c.payloadRead k x1 endSeq page offset areaOff len
      | .link page => c.linkRead k x1 i endSeq page
    | .appendCopy _ _ _ _ => c
    | .listRead _ _ => c
    | .reportWrite _ _ => c
  | _, _ => c

/-- BUFFER_READ_END (R156 to R159). -/
def execBufferReadEnd (ctx access : Nat) (u : Upsets) (s : State) : Host.Outcome State Fault Refusal :=
  s.onChip fun c0 =>
    let c := c0.upset u
    c.onCtx ctx fun k => c.endBufRead k access

end Sys2Proof.Machine
end

