-- ==== Sys2Proof/Machine/Controller.lean ====
section
/-! DEFINITION. The Controller's events (chapter 10) and the writes of the register window (R177): FULL_RESET, INIT_END, the CTRL
writes, the quiesce and the restart, REGISTER_WRITE. -/

namespace Sys2Proof.Machine

/-! ### Full reset and initialisation -/

/-- FULL_RESET (R164): every block takes its full-reset values; what is outside the part stays: the inputs of the host link and
the record of what has left the part (log 34). -/
def Chip.fullReset (c : Chip) : Chip :=
  { Chip.reset with link := { HostLink.reset with up := c.link.up, access := c.link.access, out := c.link.out } }

/-- FULL_RESET (R164). -/
def execFullReset (s : State) : Host.Outcome State Fault Refusal := s.onChip Chip.fullReset

/-- The placement of the control rings is valid (R167). -/
def Controller.placementOk (k : Controller) : Bool :=
  k.reqBase.toNat % 4096 == 0 && k.cmpBase.toNat % 4096 == 0 && decide (2 ≤ k.reqSize) &&
    decide (k.reqSize ≤ Config.maxRing) && decide (2 ≤ k.cmpSize) && decide (k.cmpSize ≤ Config.maxRing)

/-- The placement check (R167): on a pass the controller is ACTIVE with control rings 0 as R139 states, on a fail it stays and
the control-ring error is set. -/
def Chip.placementCheck (c : Chip) : Chip :=
  if c.ctl.placementOk then
    let c1 := { c with ctl := { c.ctl with state := .active, ringError := false } }
    (c1.setReqRing 0 (newRequestRing c.ctl.reqBase c.ctl.reqSize 0 none)).setCmpRing 0
      (newCompletionRing c.ctl.cmpBase c.ctl.cmpSize true 1 0 none)
  else { c with ctl := { c.ctl with ringError := true } }

/-- Entry into DISABLED at the end of INIT or of a quiesce: the placement check is made at once when ENABLE is set (R165,
R171). -/
def Chip.enterDisabled (c : Chip) : Chip :=
  let c1 := { c with ctl := { c.ctl with state := .disabled } }
  if c.ctl.enable then c1.placementCheck else c1

/-- Buffer DRAM and the pool as INIT leaves them for a bank `d` (R86, R88, R104, R162). -/
def Chip.initialised (c : Chip) (d : DramSize) : Chip :=
  { c with
    mem := { size := some d, cells := [], marks := [], corrected := 0, damaged := 0 }
    pool := { c.pool with
      usable := d.usable, free := d.usable, lost := 0, head := some 0, tail := some (d.usable - 1) } }

/-- The bank found, when initialisation succeeds (R162). -/
def initResult (sizeMiB : Option Nat) (verified : Bool) : Option DramSize :=
  match sizeMiB with
  | none => none
  | some n => if verified then DramSize.ofMib n else none

/-- Initialisation ends, in INIT (R162, R165). -/
def Chip.initEnd (c : Chip) (sizeMiB : Option Nat) (verified : Bool) : Chip :=
  if c.ctl.state = .init then
    match initResult sizeMiB verified with
    | none => c.halt .memoryInit
    | some d => (c.initialised d).enterDisabled
  else c

/-- INIT_END (R165). -/
def execInitEnd (sizeMiB : Option Nat) (verified : Bool) (s : State) : Host.Outcome State Fault Refusal :=
  s.onChip fun c => c.initEnd sizeMiB verified

/-! ### The restart (R171) -/

/-- Stream `i` closed at a controller reset (R25): its chain returns and its entry takes the values of R24. -/
def Chip.resetClose (c : Chip) (i : StreamId) : Chip :=
  ((c.modStream i fun st => { st with state := .closing, reserve := 0 }).returnAll i).1.setStream i StreamEntry.closed

/-- The new tail of an OPEN stream that enters HELD (R26): where its oldest admitted append begins, which is where record
frontier - 1 ends; the page before it when that append begins a page. -/
def tailBefore (page offset : Nat) : List Nat → Option (Nat × Nat)
  | [] => none
  | [p] => if p = page ∧ offset ≠ 0 then some (p, offset) else none
  | p :: q :: rest =>
    if p = page ∧ offset ≠ 0 then some (p, offset)
    else if q = page ∧ offset = 0 then some (p, Config.pageBytes)
    else tailBefore page offset (q :: rest)

/-- The tail an OPEN stream keeps in HELD (R26): the end of record frontier - 1, which is the tail as it stands when no append is
admitted. -/
def StreamEntry.heldTail (st : StreamEntry) : Option (Nat × Nat) :=
  match st.admitted with
  | [] => st.chain.getLast?.map fun p => (p, st.tail)
  | a :: _ => tailBefore a.page a.offset st.chain

/-- The tail truncation of stream `i`, OPEN, as it enters HELD (R26, R96): none when next, once set to frontier, equals base, the
one exception R96 states. Its walk over the links up to the new tail is made as well when no page lies after that tail, the
model's reading (log 27). The second part is the page of a break. -/
def Chip.heldTruncation (c : Chip) (i : StreamId) : Chip × Option Nat :=
  let st := c.stream i
  if st.base < st.frontier then
    match st.heldTail with
    | none => (c, none)
    | some (page, offset) =>
      let r := c.truncateTail i page
      (r.1.modStream i fun x => { x with tail := offset }, r.2)
  else (c, none)

/-- The fields of an entry that enters HELD (R26), before its page return. -/
def StreamEntry.enterHeld (st : StreamEntry) : StreamEntry :=
  { st.clearLatches with
    state := .held, noticeRing := none, next := if st.state = .opened then st.frontier else st.next,
    read := st.base, readLoc := st.baseLoc, marks := st.marks.filter fun m => decide (m.pos ≤ st.base),
    waitA := [], waitF := [], admitted := [], active := none, pendingEnd := none }

/-- A break met at entry into HELD (R84): the pages beyond it are lost and the stream is closed. -/
def Chip.heldBroken (c : Chip) (i : StreamId) (p : Nat) : Chip := (c.breakChain i p).resetClose i

/-- The page return of entry into HELD, without a pin (R26), and the silent evaluation that follows (R110). -/
def Chip.heldReturn (c : Chip) (i : StreamId) : Chip :=
  let r := (c.modStream i StreamEntry.enterHeld).pageReturnRun i
  match r.broken with
  | some p => r.chip.heldBroken i p
  | none => r.chip.modStream i StreamEntry.silent

/-- Stream `i`, durable and OPEN or FLUSHING, enters HELD (R26). -/
def Chip.holdStream (c : Chip) (i : StreamId) : Chip :=
  if (c.stream i).state = .opened then
    let r := c.heldTruncation i
    match r.2 with
    | some p => r.1.heldBroken i p
    | none => r.1.heldReturn i
  else c.heldReturn i

/-- Stream `i` settled at the restart (R171). -/
def Chip.settleStream (c : Chip) (i : StreamId) : Chip :=
  let st := c.stream i
  let keeps := c.ctl.preserveFlag && st.durable
  match st.state with
  | .closed => c
  | .opened => if keeps then c.holdStream i else c.resetClose i
  | .flushing => if keeps then c.holdStream i else c.resetClose i
  | .held => if keeps then c else c.resetClose i
  | .closing => c.resetClose i
  | .faulted => c.resetClose i

/-- Streams 0 to 511. -/
def streamIds : List StreamId := (List.range 512).map (Fin.ofNat 512)

/-- Step 1 of the restart (R139, R171). -/
def Chip.dropRings (c : Chip) : Chip := { c with rings := RingEngine.reset }

/-- The restart (R171); streams are settled in ascending order (log 12). -/
def Chip.restart (c : Chip) : Chip :=
  let c1 := streamIds.foldl Chip.settleStream c.dropRings
  ({ c1 with
    ctl := { c1.ctl with lastPreserved := c1.ctl.preserveFlag }
    engine := { c1.engine with ends := [] } }).enterDisabled

/-! ### Quiesce (R169, R170) -/

/-- Both conditions of R170 hold: every context FREE, no entry read in flight, no completion write outstanding. -/
def Chip.drained (c : Chip) : Bool :=
  c.engine.contexts.toList.all (fun x => x.state == .free) && c.rings.req.toList.all (fun r => r.reading.isNone) &&
    c.link.cmpWrites.isEmpty

/-- The quiesce ends when its conditions hold (R170), with the restart. -/
def Chip.quiesceEnd (c : Chip) : Chip := if c.ctl.state = .quiescing ∧ c.drained = true then c.restart else c

/-- QUIESCE_END (R170, R171). -/
def execQuiesceEnd (u : Upsets) (s : State) : Host.Outcome State Fault Refusal :=
  s.onChip fun c => (c.upset u).quiesceEnd

/-- A copy end reported and not yet taken reaches its stream; a list-read or report end does not (R151, R169). -/
def Chip.takeCopyEnd (c : Chip) (e : EndReport) : Chip :=
  match e.kind with
  | .append => c.appendCopyEnd e.slot
  | .fetch => c.fetchCopyEnd e.slot
  | .list => c
  | .report => c

/-- The copy ends reported and not yet taken reach their streams, in the order of their reports (R151, log 11). -/
def Chip.takeCopyEnds (c : Chip) : Chip := c.engine.ends.foldl Chip.takeCopyEnd c

/-- The start of QUIESCING (R169). The copy ends reported before it are handled while the controller is still ACTIVE, since no
copy end reaches a stream from then on (R45, R66, R151, log 11); one of them may fault its stream and so end the copy of its fetch,
and that end is handled too. Then transfers are abandoned, an arbiter run ends, and a quiesce with nothing to wait for ends in the
same event (R170). -/
def Chip.startQuiesce (c : Chip) (preserve : Bool) : Chip :=
  let c1 := c.takeCopyEnds.takeCopyEnds
  ({ c1 with
    ctl := { c1.ctl with state := .quiescing, preserveFlag := preserve }
    engine := c1.engine.abandon
    pool := { c1.pool with run := none, starts := 0 } }).quiesceEnd

/-! ### CTRL writes (R166) -/

/-- The fields of CTRL stored. -/
def Chip.storeCtrl (c : Chip) (enable preserve : Bool) : Chip :=
  { c with ctl := { c.ctl with enable := enable, preserve := preserve } }

/-- A host write to CTRL (R166). -/
def Chip.writeCtrl (c : Chip) (enable preserve : Bool) : Chip :=
  let c1 := c.storeCtrl enable preserve
  match c.ctl.state with
  | .init => c1
  | .disabled => if enable then c1.placementCheck else { c1 with ctl := { c1.ctl with ringError := false } }
  | .active => if enable then c1 else c1.startQuiesce preserve
  | .quiescing => c1
  | .halted => c

/-- CTRL_ENABLE (R166). -/
def execCtrlEnable (preserve : Bool) (s : State) : Host.Outcome State Fault Refusal :=
  s.onChip fun c => c.writeCtrl true preserve

/-- CTRL_DISABLE (R166): in ACTIVE the same write begins a controller reset (log 31). -/
def execCtrlDisable (preserve : Bool) (u : Upsets) (s : State) : Host.Outcome State Fault Refusal :=
  s.onChip fun c => (c.upset u).writeCtrl false preserve

/-- CONTROLLER_RESET (R169): the write of ENABLE 0 in ACTIVE; outside ACTIVE it is what R166 says of that state (log 31). -/
def execControllerReset (preserve : Bool) (u : Upsets) (s : State) : Host.Outcome State Fault Refusal :=
  s.onChip fun c => (c.upset u).writeCtrl false preserve

/-! ### Register writes (R177) -/

/-- One half of a 64-bit register stored. -/
def putHalf (r : DWord) (high : Bool) (v : Word) : DWord :=
  if high then v ++ r.extractLsb' 0 32 else r.extractLsb' 32 32 ++ v

/-- A 32-bit write to a CRING register (R167, R177): stored in every state but HALTED. -/
def Chip.writeCring (c : Chip) (offset : Nat) (v : Word) : Chip :=
  if c.ctl.state = .halted then c
  else if offset = 8 then { c with ctl := { c.ctl with reqBase := putHalf c.ctl.reqBase false v } }
  else if offset = 12 then { c with ctl := { c.ctl with reqBase := putHalf c.ctl.reqBase true v } }
  else if offset = 16 then { c with ctl := { c.ctl with cmpBase := putHalf c.ctl.cmpBase false v } }
  else if offset = 20 then { c with ctl := { c.ctl with cmpBase := putHalf c.ctl.cmpBase true v } }
  else if offset = 24 then { c with ctl := { c.ctl with sizes := v } }
  else c

/-- A 64-bit write: stored whole in a CRING base register (R177), ignored elsewhere (log 31). -/
def Chip.write64 (c : Chip) (offset : Nat) (v : DWord) : Chip :=
  if c.ctl.state = .halted then c
  else if offset = 8 then { c with ctl := { c.ctl with reqBase := v } }
  else if offset = 16 then { c with ctl := { c.ctl with cmpBase := v } }
  else c

/-- A 32-bit write of the index window (R120, R121, R177). -/
def Chip.writeIndex (c : Chip) (offset : Nat) (v : Word) : Chip :=
  let n : RingId := Fin.ofNat 32 ((offset - 256) / 8)
  if offset % 8 = 0 then c.writeReqPut n (indexValue v)
  else if offset % 8 = 4 then c.writeCmpTake n (indexValue v)
  else c

/-- A 32-bit write of the window (R166, R177): STATUS and offsets that name no register are ignored. -/
def Chip.write32 (c : Chip) (offset : Nat) (v : Word) : Chip :=
  if offset = 0 then c.writeCtrl (v.getLsbD 0) (v.getLsbD 1)
  else if 256 ≤ offset ∧ offset < 512 then c.writeIndex offset v
  else c.writeCring offset v

/-- A host write of the window (R177): fewer than 32 bits are ignored. -/
def Chip.writeRegister (c : Chip) (offset bits : Nat) (v : DWord) : Chip :=
  if bits = 32 then c.write32 offset (v.extractLsb' 0 32)
  else if bits = 64 then c.write64 offset v
  else c

/-- REGISTER_WRITE (R177); an offset beyond the 4 KiB window is no address of the part. -/
def execRegisterWrite (offset bits : Nat) (v : DWord) (u : Upsets) (s : State) :
    Host.Outcome State Fault Refusal :=
  if 4096 ≤ offset then .fault .outsideWindow
  else s.onChip fun c => (c.upset u).writeRegister offset bits v

end Sys2Proof.Machine
end

