-- ==== Sys2Proof/Machine/Dispatch.lean ====
section
/-! DEFINITION. One arm per command: the meaning each has. -/

namespace Sys2Proof.Machine

/-- A command's effect on everything but the queue. -/
def exec (i : Instr) (s : State) : Host.Outcome State Fault Refusal :=
  match i with
  | .fullReset => Sys2Proof.Machine.execFullReset s
  | .initEnd sizeMiB verified => Sys2Proof.Machine.execInitEnd sizeMiB verified s
  | .ctrlEnable p => Sys2Proof.Machine.execCtrlEnable p s
  | .controllerReset p u => Sys2Proof.Machine.execControllerReset p u s
  | .ctrlDisable p u => Sys2Proof.Machine.execCtrlDisable p u s
  | .quiesceEnd u => Sys2Proof.Machine.execQuiesceEnd u s
  | .reqPutWrite n v => Sys2Proof.Machine.execReqPutWrite n v s
  | .cmpTakeWrite n v => Sys2Proof.Machine.execCmpTakeWrite n v s
  | .registerWrite offset bits v u => Sys2Proof.Machine.execRegisterWrite offset bits v u s
  | .vectorMask n => Sys2Proof.Machine.execVectorMask n s
  | .vectorUnmask n => Sys2Proof.Machine.execVectorUnmask n s
  | .ringTakeStart => Sys2Proof.Machine.execRingTakeStart s
  | .entryReadEnd n r => Sys2Proof.Machine.execEntryReadEnd n r s
  | .append u => Sys2Proof.Machine.execAppend u s
  | .fetch u => Sys2Proof.Machine.execFetch u s
  | .mark => Sys2Proof.Machine.execMark s
  | .rewind u => Sys2Proof.Machine.execRewind u s
  | .release u => Sys2Proof.Machine.execRelease u s
  | .streamOpen => Sys2Proof.Machine.execStreamOpen s
  | .streamSet => Sys2Proof.Machine.execStreamSet s
  | .streamFlush u => Sys2Proof.Machine.execStreamFlush u s
  | .streamClose u => Sys2Proof.Machine.execStreamClose u s
  | .streamResume => Sys2Proof.Machine.execStreamResume s
  | .streamReport => Sys2Proof.Machine.execStreamReport s
  | .poolReport => Sys2Proof.Machine.execPoolReport s
  | .describe => Sys2Proof.Machine.execDescribe s
  | .ringCreate => Sys2Proof.Machine.execRingCreate s
  | .ringDeleteRequestRing u => Sys2Proof.Machine.execRingDeleteRequestRing u s
  | .ringDeleteCompletionRing => Sys2Proof.Machine.execRingDeleteCompletionRing s
  | .cancel u => Sys2Proof.Machine.execCancel u s
  | .appendDeadline slot => Sys2Proof.Machine.execAppendDeadline slot s
  | .fetchDeadline slot u => Sys2Proof.Machine.execFetchDeadline slot u s
  | .transferStart => Sys2Proof.Machine.execTransferStart s
  | .hostReadEnd ctx access r => Sys2Proof.Machine.execHostReadEnd ctx access r s
  | .hostWriteEnd ctx access => Sys2Proof.Machine.execHostWriteEnd ctx access s
  | .bufferReadEnd ctx access u => Sys2Proof.Machine.execBufferReadEnd ctx access u s
  | .appendCopyEnd slot u => Sys2Proof.Machine.execAppendCopyEnd slot u s
  | .fetchCopyEnd slot u => Sys2Proof.Machine.execFetchCopyEnd slot u s
  | .listReadEnd slot u => Sys2Proof.Machine.execListReadEnd slot u s
  | .reportWriteEnd slot => Sys2Proof.Machine.execReportWriteEnd slot s
  | .grantArbiterStart => Sys2Proof.Machine.execGrantArbiterStart s
  | .completionWriteEnd n => Sys2Proof.Machine.execCompletionWriteEnd n s
  | .coalesceTimerExpiry n => Sys2Proof.Machine.execCoalesceTimerExpiry n s
  | .bufferWriteEnd ctx access => Sys2Proof.Machine.execBufferWriteEnd ctx access s
  | .grantArbiterVisit u => Sys2Proof.Machine.execGrantArbiterVisit u s
  | .hostLinkAccessChange up access => Sys2Proof.Machine.execHostLinkAccessChange up access s

end Sys2Proof.Machine
end

