-- ==== Sys2Proof/Safety.lean ====
section
/-! DEFINITION. What a safe state is: the invariants every step keeps; the frames statements speak of; the walks over the
free list and over a chain, link by link; and when a request is the one its owner acts on. -/

namespace Sys2Proof.Machine

/-! ### Invariants -/

/-- Buffer DRAM is held in its canonical form. -/
def Chip.memOk (c : Chip) : Prop := c.mem.wf = true

/-- The halt cause is NONE exactly outside HALTED (R168, R172). -/
def Chip.causeOk (c : Chip) : Prop := c.ctl.state = .halted ↔ c.ctl.cause ≠ .none

/-- A context that issues nothing more and reports no end: FREE or ABANDONING (section 8.2). -/
def Context.dormant (x : Context) : Prop := x.state = .free ∨ x.state = .abandoning

/-- Outside ACTIVE the transfer queue is empty, and no context issues an access or reports an end (R151, R152). -/
def Chip.quietOk (c : Chip) : Prop :=
  c.ctl.state ≠ .active → c.engine.queue = [] ∧ ∀ k : CtxId, (c.ctx k).dormant

/-- The order of the four positions (R5), what the marks (R68), the append window (R34) and the active fetch (R55) say of
them. -/
structure StreamEntry.Ordered (st : StreamEntry) : Prop where
  baseRead : st.base ≤ st.read
  readFrontier : st.read ≤ st.frontier
  frontierNext : st.frontier ≤ st.next
  nextEnd : st.next ≤ Config.seqEnd
  marks : ∀ m ∈ st.marks, st.base ≤ m.pos ∧ m.pos ≤ st.read
  consume : st.mode = .consume → st.marks = []
  window : ∀ a ∈ st.admitted, a.seq < st.next
  fetch : ∀ a, st.active = some a → a.first ≤ a.endSeq ∧ a.endSeq ≤ st.frontier

/-- The positions of every stream are in order. -/
def Chip.orderOk (c : Chip) : Prop := ∀ i : StreamId, (c.stream i).Ordered

/-- The lists of a stream hold at most eight entries each (R34, R35, R51, R68). -/
structure StreamEntry.Bounded (st : StreamEntry) : Prop where
  marks : st.marks.length ≤ Config.maxMarks
  appends : st.waitA.length ≤ Config.maxWaiting
  fetches : st.waitF.length ≤ Config.maxWaiting
  window : st.admitted.length ≤ Config.maxWindow

/-- The lists of every stream are bounded, and the request table holds at most 2,048 requests (R124). -/
def Chip.boundsOk (c : Chip) : Prop :=
  (∀ i : StreamId, (c.stream i).Bounded) ∧ c.rings.table.length ≤ Config.tableSlots

/-- The sum of held over all streams. -/
def Chip.sumHeld (c : Chip) : Nat := (c.streams.toList.map StreamEntry.heldPages).sum

/-- Outside INIT every usable page is free, in a chain, or lost (R90), and the free pages cover the unmet reserves (R91); in INIT
every stream is CLOSED and the pool's counts are 0 (R104). A CLOSED stream holds no page (R24). -/
structure Chip.PagesOk (c : Chip) : Prop where
  closed : ∀ i : StreamId, (c.stream i).state = .closed → (c.stream i).chain = []
  init : c.ctl.state = .init →
    (∀ i : StreamId, (c.stream i).state = .closed) ∧ c.pool.usable = 0 ∧ c.pool.free = 0 ∧ c.pool.lost = 0
  conserved : c.ctl.state ≠ .init → c.pool.free + c.sumHeld + c.pool.lost = c.pool.usable
  covered : c.ctl.state ≠ .init → c.sumUnmet ≤ c.pool.free

/-! ### Frames -/

/-- Only the rings and the host link differ, and no request table slot is claimed: what handing a completion over may change
(R126). -/
structure OnlyRings (c t : Chip) : Prop where
  ctl : t.ctl = c.ctl
  streams : t.streams = c.streams
  pool : t.pool = c.pool
  engine : t.engine = c.engine
  mem : t.mem = c.mem
  table : t.rings.table.length ≤ c.rings.table.length

/-- Besides the rings and the host link only the notice latches of streams differ (R114, R128). -/
structure OnlyNotices (c t : Chip) : Prop where
  ctl : t.ctl = c.ctl
  streams : ∀ j : StreamId, (t.stream j).clearLatches = (c.stream j).clearLatches
  pool : t.pool = c.pool
  engine : t.engine = c.engine
  mem : t.mem = c.mem
  table : t.rings.table.length ≤ c.rings.table.length

/-- The Controller and every stream but `i` are as they were. -/
structure OnlyStream (i : StreamId) (c t : Chip) : Prop where
  ctl : t.ctl = c.ctl
  others : ∀ j : StreamId, j ≠ i → t.stream j = c.stream j

/-! ### Walks over the free list and over a chain, link by link -/

/-- The link of a page of the free list followed (R87): the page after it, none at END or a link error, and buffer DRAM after the
read. -/
def freeStep (usable : Nat) (x : Option Nat × BufferMemory) : Option Nat × BufferMemory :=
  match x.1 with
  | none => x
  | some p =>
    let r := x.2.follow usable p none
    (match r.2 with
      | .error => none
      | .fin => none
      | .page q => some q,
    r.1)

/-- The `n`-th page of the free list, counted from 0 at its head, as the links before it give it, with buffer DRAM as the reads of
those links left it. -/
def Chip.freeAt (c : Chip) (n : Nat) : Option Nat × BufferMemory := Nat.iterate (freeStep c.pool.usable) n (c.pool.head, c.mem)

/-- The page at the head of the chain of stream `i` taken back, its link followed first when another page comes after it (R82,
R87). -/
def Chip.takeHead (i : StreamId) (c : Chip) : Chip :=
  match (c.stream i).chain with
  | [] => c
  | [p] => c.takeBack i p []
  | p :: q :: rest => (c.followChain i p).1.takeBack i p (q :: rest)

/-- The part when `n` pages have been taken back so from the head of the chain of stream `i`. -/
def Chip.headsTaken (i : StreamId) (n : Nat) (c : Chip) : Chip := Nat.iterate (Chip.takeHead i) n c

/-- The part when the links of `pages` have been followed in order, none of the pages moved. -/
def Chip.linksFollowed (i : StreamId) (pages : List Nat) (c : Chip) : Chip :=
  pages.foldl (fun x p => (x.followChain i p).1) c

/-- The page `p` of the chain of stream `i` back in the free list, the link of the page `last` then naming `next` (R96). -/
def Chip.dropPage (i : StreamId) (last p : Nat) (next : Option Nat) (c : Chip) : Chip :=
  ((c.modStream i fun st => { st with chain := st.chain.erase p }).joinFree p).writeLink last next (some i)

/-- The part when a tail truncation has given back the first `n` pages of those after the page `last`, the link of a page that
another comes after followed first (R87, R96). -/
def Chip.tailDropped (i : StreamId) (last : Nat) : List Nat → Nat → Chip → Chip
  | _, 0, c => c
  | [], _ + 1, c => c
  | [p], _ + 1, c => c.dropPage i last p none
  | p :: q :: rest, n + 1, c => Chip.tailDropped i last (q :: rest) n ((c.followChain i p).1.dropPage i last p (some q))

/-- Among the first `linked` of `pages`, the links followed in order and the `n`-th one at the part `x n`: page `p`, at place `n`,
is the first whose link gives no page (R54, R84). -/
structure FirstBreak (i : StreamId) (pages : List Nat) (linked : Nat) (x : Nat → Chip) (n p : Nat) : Prop where
  page : pages[n]? = some p
  within : n < linked
  none : ((x n).followChain i p).2 = none
  before : ∀ m q, m < n → pages[m]? = some q → ((x m).followChain i q).2 ≠ Option.none

/-- Where a walk over stored headers stands before a record: the part after the reads made so far, the record's page and its
offset. -/
structure WalkPlace where
  chip : Chip
  page : Nat
  offset : Nat

/-- The header read there for sequence `seq` of stream `i`, with buffer DRAM after the read (R155). -/
def WalkPlace.header (i : StreamId) (seq : Nat) (x : WalkPlace) : BufferMemory × Option Header :=
  x.chip.mem.readHeader i seq x.page x.offset

/-- The footprint its header gives (R1). -/
def WalkPlace.size (i : StreamId) (seq : Nat) (x : WalkPlace) : Nat :=
  match (x.header i seq).2 with
  | none => 0
  | some h => 16 + (h.length + 15) / 16 * 16

/-- The links from the record to the place after it: one for every page it leaves, and, with a record of a sequence below `next`
after it, one when it ends with its page (R32, R69). -/
def WalkPlace.hops (i : StreamId) (next seq : Nat) (x : WalkPlace) : Nat :=
  if seq + 1 < next then (x.offset + x.size i seq) / 4096 else (x.offset + x.size i seq - 1) / 4096

/-- The part and the page after `j` of those links were followed. -/
def WalkPlace.hop (i : StreamId) (seq : Nat) (x : WalkPlace) (j : Nat) : Chip × Nat :=
  Nat.iterate (fun y : Chip × Nat => ((y.1.followChain i y.2).1, (y.1.followChain i y.2).2.getD y.2)) j
    ({ x.chip with mem := (x.header i seq).1 }, x.page)

/-- What the `j`-th of those links gives. -/
def WalkPlace.link (i : StreamId) (seq : Nat) (x : WalkPlace) (j : Nat) : Option Nat :=
  ((x.hop i seq j).1.followChain i (x.hop i seq j).2).2

/-- The place after `n` records from sequence `first` on. -/
def WalkPlace.after (i : StreamId) (next first : Nat) (x : WalkPlace) : Nat → WalkPlace
  | 0 => x
  | n + 1 =>
    let y := WalkPlace.after i next first x n
    let hops := y.hops i next (first + n)
    { chip := (y.hop i (first + n) hops).1
      page := (y.hop i (first + n) hops).2
      offset := y.offset + y.size i (first + n) - 4096 * hops }

/-- The `n`-th record from `start` on is counted by a sizing walk (R54): its header is sound, it fits in the capacity beside those
before it, and every link to the place after it gives a page. -/
structure WalkPlace.Counted (i : StreamId) (next first capacity : Nat) (start : WalkPlace) (n : Nat) : Prop where
  header : ((start.after i next first n).header i (first + n)).2 ≠ none
  fits : ((List.range (n + 1)).map fun k => (start.after i next first k).size i (first + k)).sum ≤ capacity
  links : ∀ j, j < (start.after i next first n).hops i next (first + n) →
    (start.after i next first n).link i (first + n) j ≠ none

/-! ### Requests at their owners -/

/-- The machine with its part replaced, the queue as it is. -/
def State.withChip (s : State) (c : Chip) : State := { s with toChip := c }

/-- The part as the owner of the request in slot `id` finds it: the bit errors `u` have appeared, and the request no longer
waits for its owner. -/
def State.taking (s : State) (u : Upsets) (id : Nat) : Chip := (s.toChip.upset u).dropArrived id

/-- The row of R8's table a request is decided by; none for the kinds that name no stream. -/
def Body.group : Body → Option RequestGroup
  | .append _ _ _ => some .io
  | .fetch _ _ _ => some .io
  | .mark => some .io
  | .rewind _ _ => some .io
  | .release _ _ => some .io
  | .describe _ => none
  | .ringCreate _ => none
  | .ringDelete _ => none
  | .streamOpen _ => some .open_
  | .streamSet _ => some .set_
  | .streamFlush => some .flush
  | .streamClose => some .close
  | .streamResume _ => some .resume
  | .streamReport _ => some .report
  | .poolReport _ => none
  | .cancel _ _ => none

/-- The command by which a request's owner acts on it. -/
def Body.command (u : Upsets) : Body → Instr
  | .append _ _ _ => .append u
  | .fetch _ _ _ => .fetch u
  | .mark => .mark
  | .rewind _ _ => .rewind u
  | .release _ _ => .release u
  | .describe _ => .describe
  | .ringCreate _ => .ringCreate
  | .ringDelete b => if b.ringType = 1 then .ringDeleteCompletionRing else .ringDeleteRequestRing u
  | .streamOpen _ => .streamOpen
  | .streamSet _ => .streamSet
  | .streamFlush => .streamFlush u
  | .streamClose => .streamClose u
  | .streamResume _ => .streamResume
  | .streamReport _ => .streamReport
  | .poolReport _ => .poolReport
  | .cancel _ _ => .cancel u

/-- The bit errors that come with a request's command: none with a command that reads no buffer DRAM. -/
def Body.errors (u : Upsets) : Body → Upsets
  | .append _ _ _ => u
  | .fetch _ _ _ => u
  | .mark => []
  | .rewind _ _ => u
  | .release _ _ => u
  | .describe _ => []
  | .ringCreate _ => []
  | .ringDelete b => if b.ringType = 1 then [] else u
  | .streamOpen _ => []
  | .streamSet _ => []
  | .streamFlush => u
  | .streamClose => u
  | .streamResume _ => []
  | .streamReport _ => []
  | .poolReport _ => []
  | .cancel _ _ => u

/-- While ACTIVE, the oldest request owner `o` has to act on is `q`, in slot `id` (R125). -/
structure Chip.Serving (c : Chip) (o : Owner) (id : Nat) (q : Request) : Prop where
  active : c.isActive = true
  current : c.current o = some (id, q)

/-- The Stream Controller's oldest request is `q`, in slot `id`, and it names stream `i`. -/
structure Chip.ServingStream (c : Chip) (id : Nat) (q : Request) (i : StreamId) : Prop where
  serving : c.Serving .streamController id q
  stream : q.stream = some i

end Sys2Proof.Machine
end

