-- ==== Sys2Proof/Certificates/Slice0/Obligations.lean ====
section
/-! DEFINITION. The statements for the provers: one definition for each entry of OBLIGATIONS.json, in its order. -/

open Sys2Proof Sys2Proof.Machine

/-! ### The queue -/

/-- A step takes the command at the front of the queue and runs it on the queue's rest; on an empty queue the part idles (the
model's choice, log 2). -/
def Obligations.StepRunsTheFrontCommand : Prop :=
  (∀ (i : Instr) (rest : List Instr) (s : State),
    s.pending = i :: rest → step s = exec i { s with pending := rest }) ∧
  ∀ s : State, s.pending = [] → step s = .next s

/-- Every command ends in a next state with the queue untouched, also one whose event cannot take place (the model's choice,
log 1); a register write outside the window stops (the model's choice, log 31). -/
def Obligations.OnlyAWriteOutsideTheWindowStops : Prop :=
  ∀ (i : Instr) (s : State),
    (∃ t, exec i s = .next t ∧ t.pending = s.pending) ∨
      ∃ offset bits v u, i = .registerWrite offset bits v u ∧ 4096 ≤ offset ∧ exec i s = .fault .outsideWindow

/-! ### Invariants -/

/-- Buffer DRAM stays in its canonical form. -/
def Obligations.StepKeepsMemoryCanonical : Prop :=
  ∀ s t : State, s.toChip.memOk → step s = .next t → t.toChip.memOk

/-- The halt cause stays NONE exactly outside HALTED. -/
def Obligations.StepKeepsHaltCause : Prop :=
  ∀ s t : State, s.toChip.causeOk → step s = .next t → t.toChip.causeOk

/-- Outside ACTIVE the transfer queue stays empty and every transfer context FREE or ABANDONING. -/
def Obligations.StepKeepsEngineQuiet : Prop :=
  ∀ s t : State, s.toChip.quietOk → step s = .next t → t.toChip.quietOk

/-- The positions, marks, append window and active fetch of every stream stay in order, and its lists bounded. -/
def Obligations.StepKeepsPositionsInOrder : Prop :=
  ∀ s t : State, s.toChip.orderOk → s.toChip.boundsOk → step s = .next t → t.toChip.orderOk ∧ t.toChip.boundsOk

/-- Pages are neither made nor lost sight of, and the free pages go on covering the unmet reserves (an unmet reserve and the sum of
all of them are written out in AllocationByQuotaAndRoom). -/
def Obligations.StepConservesPages : Prop :=
  ∀ s t : State, s.toChip.quietOk → s.toChip.PagesOk → step s = .next t → t.toChip.PagesOk

/-- The invariants hold after full reset. -/
def Obligations.ResetMeetsTheInvariants : Prop :=
  State.reset.toChip.memOk ∧ State.reset.toChip.causeOk ∧ State.reset.toChip.quietOk ∧
    State.reset.toChip.orderOk ∧ State.reset.toChip.boundsOk ∧ State.reset.toChip.PagesOk ∧ State.reset.pending = []

/-! ### Controller -/

/-- FULL_RESET, from any state. -/
def Obligations.FullResetClearsThePart : Prop :=
  ∀ s : State, ∃ t,
    exec .fullReset s = .next t ∧
    t.ctl.state = .init ∧ t.ctl.cause = .none ∧ t.ctl.enable = false ∧ t.ctl.preserve = false ∧
    t.ctl.preserveFlag = false ∧ t.ctl.lastPreserved = false ∧ t.ctl.ringError = false ∧
    (∀ offset, t.toChip.readReg offset = 0) ∧
    (∀ i, t.toChip.stream i = StreamEntry.closed) ∧
    (∀ n, (t.toChip.reqRing n).state = .absent ∧ (t.toChip.reqRing n).fault = none) ∧
    (∀ n, (t.toChip.cmpRing n).state = .absent ∧ (t.toChip.cmpRing n).fault = none) ∧
    t.rings.table = [] ∧ t.rings.ioPtr = 31 ∧ (∀ n : RingId, t.link.msiPending.get n = false) ∧
    t.link.cmpWrites = [] ∧ t.link.out = s.link.out ∧
    t.rings.arrived = [] ∧
    t.pool.usable = 0 ∧ t.pool.free = 0 ∧ t.pool.lost = 0 ∧ t.pool.head = none ∧ t.pool.tail = none ∧
    t.pool.grantPtr = 511 ∧ t.pool.run = none ∧ t.pool.starts = 0 ∧
    t.engine.queue = [] ∧ t.engine.ends = [] ∧ (∀ k, t.toChip.ctx k = Context.free) ∧
    t.mem.corrected = 0 ∧ t.mem.damaged = 0 ∧ t.mem.size = none ∧ t.mem.cells = [] ∧ t.mem.marks = []

/-- The places of a link entry's bits (log 13); INIT_END in INIT: the three sizes and what follows from them, and every way it
fails. The engine of a halt is written out in ControllerResetStartsTheQuiesce. -/
def Obligations.InitEndBuildsThePoolOrHalts : Prop :=
  (∀ (next : Option Nat) (owner : Option StreamId), (∀ p, next = some p → p < 2 ^ 32) →
    ((encodeLink next owner).extractLsb' 0 32).toNat = (match next with | none => 2 ^ 32 - 1 | some p => p) ∧
    ((encodeLink next owner).extractLsb' 32 32).toNat = (match owner with | none => 2 ^ 32 - 1 | some i => i.val)) ∧
  ∀ (s : State) (size : Option Nat) (verified : Bool), s.ctl.state = .init →
    (∀ d, (∃ n, size = some n ∧ DramSize.ofMib n = some d) → verified = true →
      let x : Chip :=
        { s.toChip with
          ctl := { s.ctl with state := .disabled }
          mem := { size := some d, cells := [], marks := [], corrected := 0, damaged := 0 }
          pool := { s.pool with
            usable := d.usable, free := d.usable, lost := 0, head := some 0, tail := some (d.usable - 1) } }
      exec (.initEnd size verified) s = .next (s.withChip (if s.ctl.enable then x.placementCheck else x)) ∧
      (∀ p, p < d.usable →
        x.mem.word (d.usable * 512 + p) = encodeLink (if p + 1 < d.usable then some (p + 1) else none) none) ∧
      ((size = some 1024 ∧ d.usable = 260096) ∨ (size = some 2048 ∧ d.usable = 522240) ∨
        (size = some 4096 ∧ d.usable = 1046528))) ∧
    ((verified = false ∨ size = none ∨ ∃ n, size = some n ∧ n ≠ 1024 ∧ n ≠ 2048 ∧ n ≠ 4096) →
      exec (.initEnd size verified) s = .next (s.withChip
        { s.toChip with
          ctl := { s.ctl with state := .halted, cause := .memoryInit }
          engine := s.engine.abandon }))

/-- CTRL written in each controller state, but ENABLE 0 in ACTIVE, with the conditions of the placement check; CONTROLLER_RESET
outside ACTIVE is the same write (log 31). -/
def Obligations.CtrlWriteByState : Prop :=
  (∀ k : Controller,
    k.placementOk = true ↔
      k.reqBase.toNat % 4096 = 0 ∧ k.cmpBase.toNat % 4096 = 0 ∧
      (2 ≤ (k.sizes.extractLsb' 0 13).toNat ∧ (k.sizes.extractLsb' 0 13).toNat ≤ 4096) ∧
      2 ≤ (k.sizes.extractLsb' 16 13).toNat ∧ (k.sizes.extractLsb' 16 13).toNat ≤ 4096) ∧
  (∀ (s : State) (p : Bool),
    let k : Controller := { s.ctl with enable := true, preserve := p }
    (s.ctl.state = .init ∨ s.ctl.state = .active ∨ s.ctl.state = .quiescing →
      exec (.ctrlEnable p) s = .next (s.withChip { s.toChip with ctl := k })) ∧
    (s.ctl.state = .disabled → s.ctl.placementOk = true →
      exec (.ctrlEnable p) s = .next (s.withChip
        (({ s.toChip with ctl := { k with state := .active, ringError := false } }.setReqRing 0
          { state := .active, base := s.ctl.reqBase, size := (s.ctl.sizes.extractLsb' 0 13).toNat, put := 0, take := 0,
            bound := 0, reading := none, outstanding := 0, fault := none, deleter := none, cancelled := 0 }).setCmpRing 0
          { state := .active, base := s.ctl.cmpBase, size := (s.ctl.sizes.extractLsb' 16 13).toNat, put := 0, take := 0,
            lap := true, posted := 0, reserved := 0, interrupt := true, batch := 1, delay := 0, unsignalled := 0,
            timer := false, service := 511, fault := none }))) ∧
    (s.ctl.state = .disabled → s.ctl.placementOk = false →
      exec (.ctrlEnable p) s = .next (s.withChip { s.toChip with ctl := { k with ringError := true } })) ∧
    (s.ctl.state = .halted → exec (.ctrlEnable p) s = .next s)) ∧
  ∀ (s : State) (i : Instr) (p : Bool) (u : Upsets), i = .ctrlDisable p u ∨ i = .controllerReset p u →
    let c := s.toChip.upset u
    let k : Controller := { s.ctl with enable := false, preserve := p }
    (s.ctl.state = .init ∨ s.ctl.state = .quiescing → exec i s = .next (s.withChip { c with ctl := k })) ∧
    (s.ctl.state = .disabled → exec i s = .next (s.withChip { c with ctl := { k with ringError := false } })) ∧
    (s.ctl.state = .halted → exec i s = .next (s.withChip c))

/-- How the engine abandons at the start of QUIESCING and at a halt (R151, R152); and CTRL written with ENABLE 0 in ACTIVE: the copy
ends already reported handled (log 11), the start of QUIESCING, and the quiesce that ends at once: the part it leaves is the one
QUIESCE_END leaves from there (QuiesceEndMakesTheRestart). -/
def Obligations.ControllerResetStartsTheQuiesce : Prop :=
  (∀ x : Context,
    let outstanding := x.reads ≠ [] ∨ x.writes ≠ [] ∨ x.bufReads ≠ [] ∨ x.bufWrites ≠ []
    (x.state = .free ∨ x.state = .abandoning → x.abandon = x) ∧
    (x.state = .running ∨ x.state = .finishing →
      (outstanding → x.abandon = { x with state := .abandoning }) ∧
      (¬ outstanding → x.abandon =
        { state := .free, transfer := none, outcome := .ok, segments := [], reads := [], writes := [], bufReads := []
          bufWrites := [], gathered := [], progress := Progress.start }))) ∧
  (∀ e : Engine,
    e.abandon.queue = [] ∧ e.abandon.ends = e.ends ∧ ∀ k, e.abandon.contexts.get k = (e.contexts.get k).abandon) ∧
  (∀ (s : State) (slot : Nat),
    exec (.appendCopyEnd slot []) s = .next (s.withChip (s.toChip.appendCopyEnd slot)) ∧
    exec (.fetchCopyEnd slot []) s = .next (s.withChip (s.toChip.fetchCopyEnd slot))) ∧
  ∀ (s : State) (i : Instr) (p : Bool) (u : Upsets), i = .controllerReset p u ∨ i = .ctrlDisable p u →
    s.ctl.state = .active →
    let take : Chip → EndReport → Chip := fun x e =>
      match e.kind with
      | .append => x.appendCopyEnd e.slot
      | .fetch => x.fetchCopyEnd e.slot
      | .list => x
      | .report => x
    let stored : Chip := { s.toChip.upset u with ctl := { s.ctl with enable := false, preserve := p } }
    let once := stored.engine.ends.foldl take stored
    let c := once.engine.ends.foldl take once
    let x : Chip :=
      { c with
        ctl := { c.ctl with state := .quiescing, preserveFlag := p }
        engine := { c.engine with queue := [], contexts := c.engine.contexts.map Context.abandon }
        pool := { c.pool with run := none, starts := 0 } }
    (x.drained = true ↔
      (∀ k, (x.ctx k).state = .free) ∧ (∀ n, (x.reqRing n).reading = none) ∧ x.link.cmpWrites = []) ∧
    (x.drained = false → exec i s = .next (s.withChip x)) ∧
    (x.drained = true → exec i s = .next (s.withChip x.restart)) ∧
    exec i s = exec (.quiesceEnd []) (s.withChip x) ∧
    (s.engine.ends = [] → c = stored)

/-- QUIESCE_END: nothing while an access is outstanding; the restart when none is. The ascending order in which streams are settled
(log 12) and what a break in the tail truncation of an OPEN stream does (log 27) are the model's reading; the manual gives an ABSENT
ring no field values, and those of the records here are the model's choice (log 36). When the truncation and the page return meet a
break is written out in PageReturnReturnsUpToTheFirstStop. -/
def Obligations.QuiesceEndMakesTheRestart : Prop :=
  ∀ (s : State) (u : Upsets), s.ctl.state = .quiescing →
    let still := (∀ k, (s.toChip.ctx k).state = .free) ∧ (∀ n, (s.toChip.reqRing n).reading = none) ∧ s.link.cmpWrites = []
    (¬ still → exec (.quiesceEnd u) s = .next (s.withChip (s.toChip.upset u))) ∧
    let closed : StreamEntry :=
      { state := .closed, mode := .retain, durable := false, noticeRing := none, readyLevel := 0, pressureLevel := 0,
        reliefLevel := 0, reserve := 0, quota := 0, base := 0, read := 0, frontier := 0, next := 0,
        baseLoc := .chainStart, readLoc := .chainStart, tail := 0, chain := [], marks := [], waitA := [], waitF := [],
        admitted := [], active := none, pendingEnd := none, backlog := .below, occupancy := .calm,
        readyLatch := false, occLatch := none, faultLatch := none, closeFromFault := false, closeMedia := false }
    (still → ∃ t,
      exec (.quiesceEnd u) s = .next t ∧
      t.ctl.state = (if s.ctl.enable && s.ctl.placementOk then .active else .disabled) ∧
      t.ctl.lastPreserved = s.ctl.preserveFlag ∧ t.ctl.cause = s.ctl.cause ∧
      t.ctl.enable = s.ctl.enable ∧ t.ctl.preserve = s.ctl.preserve ∧ t.ctl.preserveFlag = s.ctl.preserveFlag ∧
      t.ctl.reqBase = s.ctl.reqBase ∧ t.ctl.cmpBase = s.ctl.cmpBase ∧ t.ctl.sizes = s.ctl.sizes ∧
      t.rings.table = [] ∧ t.rings.arrived = [] ∧ t.rings.ioPtr = 31 ∧
      (∀ n, n ≠ 0 ∨ t.ctl.state = .disabled →
        t.toChip.reqRing n = RequestRing.absent ∧ t.toChip.cmpRing n = CompletionRing.absent) ∧
      t.pool.grantPtr = s.pool.grantPtr ∧ t.engine.ends = [] ∧
      ∀ i : StreamId,
        let c := s.toChip.upset u
        let st := s.toChip.stream i
        (st.state = .closed → t.toChip.stream i = st) ∧
        (st.state ≠ .closed →
          s.ctl.preserveFlag = false ∨ st.durable = false ∨ st.state = .closing ∨ st.state = .faulted →
          t.toChip.stream i = closed) ∧
        (s.ctl.preserveFlag = true → st.durable = true → st.state = .held → t.toChip.stream i = st) ∧
        (s.ctl.preserveFlag = true → st.durable = true → st.state = .opened ∨ st.state = .flushing →
          let d := (streamIds.take i.val).foldl Chip.settleStream { c with rings := RingEngine.reset }
          let cut := if st.state = .opened then d.heldTruncation i else (d, none)
          let x := cut.1.stream i
          let run := (cut.1.modStream i StreamEntry.enterHeld).pageReturnRun i
          let next := if st.state = .opened then st.frontier else st.next
          let basePage := match st.baseLoc with
            | .chainStart => none
            | .at p o => if o < 4096 then some p else none
          let chain := if st.base = next then [] else x.chain.dropWhile fun p => basePage != some p
          (st.state = .flushing ∨ st.frontier ≤ st.base → cut.2 = none ∧ x = st) ∧
          (∀ page offset, st.state = .opened → st.base < st.frontier →
            (st.admitted = [] ∧ st.chain.getLast? = some page ∧ offset = st.tail ∨
              ∃ a rest, st.admitted = a :: rest ∧
                (a.offset ≠ 0 ∧ page = a.page ∧ page ∈ st.chain ∧ offset = a.offset ∨
                  a.offset = 0 ∧ offset = 4096 ∧ ∃ n, st.chain[n]? = some page ∧ st.chain[n + 1]? = some a.page ∧
                    ∀ m, m < n → st.chain[m + 1]? ≠ some a.page)) →
            cut.2 = (d.truncateTail i page).2 ∧ (cut.2 = none →
              x.chain = ((st.chain.dropWhile fun p => p != page).drop 1).foldl List.erase st.chain ∧ x.tail = offset)) ∧
          (cut.2 ≠ none ∨ run.broken ≠ none → t.toChip.stream i = closed) ∧
          (cut.2 = none → run.broken = none → t.toChip.stream i =
            { st with
              state := .held, noticeRing := none, next := next, read := st.base, chain := chain
              tail := if chain = [] then 0 else x.tail
              baseLoc := if chain = [] then .chainStart else st.baseLoc
              readLoc := if chain = [] then .chainStart else st.baseLoc
              marks := (st.marks.filter fun m => decide (m.pos ≤ st.base)).map fun m =>
                if chain = [] then { m with loc := .chainStart } else m
              waitA := [], waitF := [], admitted := [], active := none, pendingEnd := none, readyLatch := false
              occLatch := none, faultLatch := none
              backlog := if st.readyLevel ≠ 0 ∧ st.readyLevel ≤ st.frontier - st.base then .atOrAbove else .below
              occupancy := if st.pressureLevel ≠ 0 ∧ st.pressureLevel ≤ chain.length then .pressed
                else if st.pressureLevel = 0 ∨ chain.length ≤ st.reliefLevel then .calm else st.occupancy })))

/-- In HALTED no command but a full reset changes the Controller, a stream, the pool or a ring. -/
def Obligations.HaltedKeepsItsState : Prop :=
  ∀ (i : Instr) (s t : State), s.ctl.state = .halted → s.toChip.quietOk → i ≠ .fullReset → exec i s = .next t →
    t.ctl = s.ctl ∧ t.streams = s.streams ∧ t.pool = s.pool ∧ t.rings = s.rings ∧
      t.mem.size = s.mem.size ∧ ∀ offset, t.toChip.readReg offset = s.toChip.readReg offset

/-! ### The register window -/

/-- What reads of the window give, with the codes of section 11.4. -/
def Obligations.RegisterReadsGiveTheFields : Prop :=
  ∀ c : Chip,
    ((c.readReg 0).getLsbD 0 = c.ctl.enable ∧ (c.readReg 0).getLsbD 1 = c.ctl.preserve ∧
      (c.readReg 0).extractLsb' 2 30 = 0) ∧
    (((c.readReg 4).extractLsb' 0 3).toNat = (match c.ctl.state with
        | .init => 0
        | .disabled => 1
        | .active => 2
        | .quiescing => 3
        | .halted => 4) ∧
      ((c.readReg 4).extractLsb' 4 2).toNat = (match c.ctl.cause with
        | .none => 0
        | .memoryInit => 1
        | .freeList => 2
        | .controlRing => 3) ∧
      (c.readReg 4).getLsbD 8 = c.ctl.lastPreserved ∧ (c.readReg 4).getLsbD 9 = c.ctl.ringError ∧
      (c.readReg 4).getLsbD 3 = false ∧ (c.readReg 4).extractLsb' 6 2 = 0 ∧ (c.readReg 4).extractLsb' 10 22 = 0) ∧
    (c.readReg 12 ++ c.readReg 8 = c.ctl.reqBase ∧ c.readReg 20 ++ c.readReg 16 = c.ctl.cmpBase) ∧
    c.readReg 24 = c.ctl.sizes &&& 0x1FFF1FFF ∧
    (∀ n : RingId, c.readReg (256 + 8 * n.val) =
      if (c.reqRing n).state = .absent then 0 else BitVec.ofNat 32 (c.reqRing n).put) ∧
    (∀ n : RingId, c.readReg (260 + 8 * n.val) =
      if (c.cmpRing n).state = .absent then 0 else BitVec.ofNat 32 (c.cmpRing n).take) ∧
    ∀ offset, (28 ≤ offset ∧ offset < 256) ∨ 512 ≤ offset ∨ offset % 4 ≠ 0 → c.readReg offset = 0

/-- REGISTER_WRITE over the whole window; a 64-bit write elsewhere than at a CRING base is ignored by the model's choice (log 31).
-/
def Obligations.RegisterWriteByOffsetAndWidth : Prop :=
  ∀ (s : State) (offset bits : Nat) (v : DWord) (u : Upsets), offset < 4096 →
    let c := s.toChip.upset u
    let w : Word := v.extractLsb' 0 32
    (bits ≠ 32 → bits ≠ 64 → exec (.registerWrite offset bits v u) s = .next (s.withChip c)) ∧
    (bits = 32 → offset = 0 →
      exec (.registerWrite offset bits v u) s =
        exec (if w.getLsbD 0 then .ctrlEnable (w.getLsbD 1) else .ctrlDisable (w.getLsbD 1) []) (s.withChip c)) ∧
    (bits = 32 → (∃ n : RingId, offset = 256 + 8 * n.val) →
      exec (.registerWrite offset bits v u) s = exec (.reqPutWrite ((offset - 256) / 8) w) (s.withChip c)) ∧
    (bits = 32 → (∃ n : RingId, offset = 260 + 8 * n.val) →
      exec (.registerWrite offset bits v u) s = exec (.cmpTakeWrite ((offset - 256) / 8) w) (s.withChip c)) ∧
    (bits = 32 → s.ctl.state ≠ .halted → ∀ k : Controller,
      (offset = 8 ∧ k = { s.ctl with reqBase := s.ctl.reqBase.extractLsb' 32 32 ++ w } ∨
        offset = 12 ∧ k = { s.ctl with reqBase := w ++ s.ctl.reqBase.extractLsb' 0 32 } ∨
        offset = 16 ∧ k = { s.ctl with cmpBase := s.ctl.cmpBase.extractLsb' 32 32 ++ w } ∨
        offset = 20 ∧ k = { s.ctl with cmpBase := w ++ s.ctl.cmpBase.extractLsb' 0 32 } ∨
        offset = 24 ∧ k = { s.ctl with sizes := w }) →
      exec (.registerWrite offset bits v u) s = .next (s.withChip { c with ctl := k })) ∧
    (bits = 64 → s.ctl.state ≠ .halted → ∀ k : Controller,
      (offset = 8 ∧ k = { s.ctl with reqBase := v } ∨ offset = 16 ∧ k = { s.ctl with cmpBase := v }) →
      exec (.registerWrite offset bits v u) s = .next (s.withChip { c with ctl := k })) ∧
    ((offset = 4 ∨ (28 ≤ offset ∧ offset < 256) ∨ 512 ≤ offset ∨ offset % 4 ≠ 0 ∨
        (bits = 64 ∧ offset ≠ 8 ∧ offset ≠ 16) ∨
        (s.ctl.state = .halted ∧ (offset = 8 ∨ offset = 12 ∨ offset = 16 ∨ offset = 20 ∨ offset = 24))) →
      exec (.registerWrite offset bits v u) s = .next (s.withChip c))

/-! ### Indexes, takes and entry reads -/

/-- REQ_PUT_WRITE, accepted, out of range, and ignored. The engine of a halt is written out in ControllerResetStartsTheQuiesce. -/
def Obligations.ReqPutWriteSetsPutOrStops : Prop :=
  ∀ (s : State) (n : RingId) (w : Word),
    let r := s.toChip.reqRing n
    let v := (w.extractLsb' 0 16).toNat
    (s.ctl.state = .active → r.state = .active → v < r.size →
      exec (.reqPutWrite n.val w) s = .next (s.withChip (s.toChip.setReqRing n { r with put := v }))) ∧
    (s.ctl.state = .active → r.state = .active → r.size ≤ v → n ≠ 0 →
      exec (.reqPutWrite n.val w) s = .next (s.withChip
        ((s.toChip.setReqRing n
          { r with state := .stopped, fault := some { detail := 2, posA := r.take, posB := v } }).attemptReqFault n))) ∧
    (s.ctl.state = .active → r.state = .active → r.size ≤ v → n = 0 →
      exec (.reqPutWrite n.val w) s = .next (s.withChip
        { s.toChip with
          ctl := { s.ctl with state := .halted, cause := .controlRing }, engine := s.engine.abandon })) ∧
    (s.ctl.state ≠ .active ∨ r.state ≠ .active → exec (.reqPutWrite n.val w) s = .next s)

/-- The stop of a completion ring with the request rings bound to it, and the order in which their latches are attempted; and
CMP_TAKE_WRITE: accepted with the pending notices served when it advances, ignored, and out of range. The engine of a halt is
written out in ControllerResetStartsTheQuiesce. -/
def Obligations.CmpTakeWriteTakesOrStops : Prop :=
  (∀ (c : Chip) (n : RingId) (f : RingFault), n ≠ 0 → (c.cmpRing n).state = .active →
    let ids : List RingId := (List.range 32).map (Fin.ofNat 32)
    let bound := ids.filter fun m => (c.reqRing m).state == .active && (c.reqRing m).bound == n
    let stop : Chip → RingId → Chip := fun x m =>
      let q := x.reqRing m
      if q.state = .active ∧ q.bound = n then
        x.setReqRing m { q with state := .stopped, fault := some { detail := 5, posA := q.take, posB := q.put } }
      else x
    let attempt : Chip → RingId → Chip := fun x m =>
      let y := if bound.contains m then x.attemptReqFault m else x
      if m = n then y.attemptCmpFault m else y
    c.stopCmpRing n f = ids.foldl attempt (ids.foldl stop (c.setCmpRing n
      { c.cmpRing n with state := .stopped, unsignalled := 0, timer := false, fault := some f }))) ∧
  ∀ (s : State) (n : RingId) (w : Word),
    let r := s.toChip.cmpRing n
    let v := (w.extractLsb' 0 16).toNat
    let steps := if r.take ≤ v then v - r.take else v + r.size - r.take
    (s.ctl.state = .active → r.state = .active → v < r.size → steps ≤ r.posted →
      let c := s.toChip.setCmpRing n { r with take := v, posted := r.posted - steps }
      exec (.cmpTakeWrite n.val w) s = .next (s.withChip (if steps = 0 then c else c.service n))) ∧
    (s.ctl.state = .active → r.state = .active → r.size ≤ v ∨ r.posted < steps → n ≠ 0 →
      exec (.cmpTakeWrite n.val w) s =
        .next (s.withChip (s.toChip.stopCmpRing n { detail := 3, posA := r.take, posB := v })) ∧
      ∃ t, exec (.cmpTakeWrite n.val w) s = .next t ∧
        (t.toChip.cmpRing n).state = .stopped ∧ (t.toChip.cmpRing n).take = r.take ∧
        (t.toChip.cmpRing n).unsignalled = 0 ∧ (t.toChip.cmpRing n).timer = false ∧
        (∀ m, (s.toChip.reqRing m).state = .active → (s.toChip.reqRing m).bound = n →
          (t.toChip.reqRing m).state = .stopped) ∧
        (∀ m, (s.toChip.reqRing m).state ≠ .active ∨ (s.toChip.reqRing m).bound ≠ n →
          t.toChip.reqRing m = s.toChip.reqRing m)) ∧
    (s.ctl.state = .active → r.state = .active → r.size ≤ v ∨ r.posted < steps → n = 0 →
      exec (.cmpTakeWrite n.val w) s = .next (s.withChip
        { s.toChip with
          ctl := { s.ctl with state := .halted, cause := .controlRing }, engine := s.engine.abandon })) ∧
    (s.ctl.state ≠ .active ∨ r.state ≠ .active → exec (.cmpTakeWrite n.val w) s = .next s)

/-- RING_TAKE_START: which ring is eligible, which one is selected, what its take begins with, and the address it reads. -/
def Obligations.RingTakeStartClaimsAndReserves : Prop :=
  (∀ (c : Chip) (n : RingId),
    c.eligible n = true ↔
      c.ctl.state = .active ∧ (c.reqRing n).state = .active ∧ (c.reqRing n).put ≠ (c.reqRing n).take ∧
      (c.reqRing n).reading = none ∧ (if n = 0 then 1 else 2) + c.rings.table.length ≤ 2048 ∧
      (c.cmpRing (c.reqRing n).bound).state = .active ∧
      (c.cmpRing (c.reqRing n).bound).posted + (c.cmpRing (c.reqRing n).bound).reserved + 1 <
        (c.cmpRing (c.reqRing n).bound).size) ∧
  ∀ (s : State) (n : RingId), s.toChip.eligible n = true →
    (n ≠ 0 → s.toChip.eligible 0 = false ∧
      ((List.range 31).map fun k => (Fin.ofNat 32 (1 + (s.rings.ioPtr.val + k) % 31))).find? s.toChip.eligible = some n) →
    ∃ t id, exec .ringTakeStart s = .next t ∧
      id < 2048 ∧ (∀ sl ∈ s.rings.table, sl.id ≠ id) ∧
      (t.toChip.reqRing n).reading = some
        { slot := id, addr := (s.toChip.reqRing n).base + BitVec.ofNat 64 (64 * (s.toChip.reqRing n).take) } ∧
      t.rings.table = s.rings.table ++
        [{ id := id, ring := n, phase := .decoding, request := none, segments := [], snapA := 0, snapB := 0 }] ∧
      (t.toChip.reqRing n).outstanding = (s.toChip.reqRing n).outstanding + 1 ∧
      (t.toChip.reqRing n).take = (s.toChip.reqRing n).take ∧
      (t.toChip.cmpRing (s.toChip.reqRing n).bound).reserved =
        (s.toChip.cmpRing (s.toChip.reqRing n).bound).reserved + 1 ∧
      t.rings.ioPtr = (if n = 0 then s.rings.ioPtr else n) ∧ t.streams = s.streams ∧ t.ctl = s.ctl

/-- The layout of a request entry, by its kind; the owner each kind is handed to, and the request an owner serves: its oldest of
those handed over, by the order of their arrival (log 5), which no longer waits once it is taken; and ENTRY_READ_END: while ACTIVE
on an ACTIVE ring the entry is taken and decoded, or the take is undone and the ring stops; else the entry is discarded, and a
DRAINING ring whose outstanding count reaches 0 so is ABSENT, in QUIESCING too (R136; the delete's completion is not written then,
log 10). The engine of a halt is written out in ControllerResetStartsTheQuiesce. -/
def Obligations.EntryReadEndTakesOrDiscards : Prop :=
  (∀ e : Entry,
    let num : Nat → Nat → Nat := fun off n => (e.extractLsb' (8 * off) (8 * n)).toNat
    let descriptor : Nat → Segment := fun off => { addr := e.extractLsb' (8 * off) 64, len := num (off + 8) 4 }
    let source : Source := if e.getLsbD 8 then .indirect (e.extractLsb' 128 64) (num 24 2)
      else .direct ([descriptor 16, descriptor 32, descriptor 48].takeWhile fun x => x.len != 0)
    let variant := (e.extractLsb' 9 2).toNat
    let settings : SettingsBlock :=
      { mode := num 16 1, durable := num 17 1, noticeRing := num 18 1, reserve := num 20 4, quota := num 24 4,
        readyLevel := num 28 2, pressureLevel := num 32 4, reliefLevel := num 36 4, initial := num 40 6 }
    let ring : RingBlock :=
      { ringType := num 16 1, id := num 17 1, bound := num 18 1, enable := num 19 1 != 0, batch := num 20 1,
        delay := num 21 1, size := num 22 2, base := e.extractLsb' 192 64 }
    (num 0 1 = 0x01 → bodyOf e = some (.append (num 8 2) (e.extractLsb' 80 32) source)) ∧
    (num 0 1 = 0x02 → bodyOf e = some (.fetch (num 8 2) (num 10 2) source)) ∧
    (num 0 1 = 0x03 → bodyOf e = some .mark) ∧
    (num 0 1 = 0x04 → bodyOf e = some (.rewind variant (num 8 6))) ∧
    (num 0 1 = 0x05 → bodyOf e = some (.release variant (num 8 6))) ∧
    (num 0 1 = 0x10 → bodyOf e = some (.describe (descriptor 16))) ∧
    (num 0 1 = 0x11 → bodyOf e = some (.ringCreate ring)) ∧
    (num 0 1 = 0x12 → bodyOf e = some (.ringDelete ring)) ∧
    (num 0 1 = 0x13 → bodyOf e = some (.streamOpen settings)) ∧
    (num 0 1 = 0x14 → bodyOf e = some (.streamSet settings)) ∧
    (num 0 1 = 0x15 → bodyOf e = some .streamFlush) ∧
    (num 0 1 = 0x16 → bodyOf e = some .streamClose) ∧
    (num 0 1 = 0x17 → bodyOf e = some (.streamResume (num 8 1))) ∧
    (num 0 1 = 0x18 → bodyOf e = some (.streamReport (descriptor 16))) ∧
    (num 0 1 = 0x19 → bodyOf e = some (.poolReport (descriptor 16))) ∧
    (num 0 1 = 0x1A → bodyOf e = some (.cancel (num 8 1) (e.extractLsb' 80 16))) ∧
    (num 0 1 = 0 ∨ (0x05 < num 0 1 ∧ num 0 1 < 0x10) ∨ 0x1A < num 0 1 → bodyOf e = none)) ∧
  (∀ b : Body, b.owner = match b with
    | .append _ _ _ => .streamController
    | .fetch _ _ _ => .streamController
    | .mark => .streamController
    | .rewind _ _ => .streamController
    | .release _ _ => .streamController
    | .describe _ => .controller
    | .ringCreate _ => .ringEngine
    | .ringDelete _ => .ringEngine
    | .streamOpen _ => .streamController
    | .streamSet _ => .streamController
    | .streamFlush => .streamController
    | .streamClose => .streamController
    | .streamResume _ => .streamController
    | .streamReport _ => .streamController
    | .poolReport _ => .poolManager
    | .cancel _ _ => .ringEngine) ∧
  (∀ (c : Chip) (o : Owner),
    let owned : Nat → Request → Prop := fun id q => q.body.owner = o ∧ ∃ sl, c.slot? id = some sl ∧ sl.request = some q
    (∀ id q, c.current o = some (id, q) ↔
      owned id q ∧ ∃ before after, c.rings.arrived = before ++ id :: after ∧ ∀ x ∈ before, ∀ q', ¬ owned x q') ∧
    (c.current o = none ↔ ∀ id ∈ c.rings.arrived, ∀ q, ¬ owned id q)) ∧
  (∀ (s : State) (u : Upsets) (id : Nat),
    let c := s.toChip.upset u
    s.taking u id = { c with rings := { c.rings with arrived := s.rings.arrived.filter fun x => x != id } } ∧
    ∀ before after, s.rings.arrived = before ++ id :: after → id ∉ before → id ∉ after →
      (s.taking u id).rings.arrived = before ++ after) ∧
  (∀ (s : State) (n : RingId) (f : EntryFetch), s.ctl.state = .active → (s.toChip.reqRing n).reading = some f →
    (s.toChip.reqRing n).state = .active →
    let id := f.slot
    let r := s.toChip.reqRing n
    let taken := s.toChip.setReqRing n
      { r with take := if r.take + 1 = r.size then 0 else r.take + 1, reading := none }
    let command : Entry → BitVec 16 := fun e => e.extractLsb' 16 16
    let stream : Entry → BitVec 16 := fun e => e.extractLsb' 32 16
    (∀ e, bodyOf e = none →
      exec (.entryReadEnd n.val (.data e)) s = .next (s.withChip
        (taken.complete id { code := 0x29, commandId := command e, streamId := stream e }))) ∧
    (∀ e b, bodyOf e = some b → b.isIO = (n == 0) →
      exec (.entryReadEnd n.val (.data e)) s = .next (s.withChip
        (taken.complete id { code := 0x2A, commandId := command e, streamId := stream e }))) ∧
    (∀ e b, bodyOf e = some b → b.isIO = (n != 0) →
      let q : Request := { commandId := command e, streamId := stream e, wait := (e.extractLsb' 48 16).toNat, body := b }
      let c := taken.modSlot id fun sl => { sl with request := some q }
      exec (.entryReadEnd n.val (.data e)) s = .next (s.withChip
        { c with rings := { c.rings with arrived := s.rings.arrived ++ [id] } })) ∧
    (∀ res, res = .error ∨ res = .timeout →
      (n = 0 → exec (.entryReadEnd n.val res) s = .next (s.withChip
        { s.toChip with
          ctl := { s.ctl with state := .halted, cause := .controlRing }, engine := s.engine.abandon })) ∧
      (n ≠ 0 →
        let freed : Chip :=
          { s.toChip with rings := { s.rings with table := s.rings.table.filter fun sl => sl.id != id } }
        let undone := freed.setReqRing n { r with reading := none, outstanding := r.outstanding - 1 }
        let released := undone.setCmpRing r.bound
          { s.toChip.cmpRing r.bound with reserved := (s.toChip.cmpRing r.bound).reserved - 1 }
        exec (.entryReadEnd n.val res) s = .next (s.withChip (((released.service r.bound).setReqRing n
          { r with
            state := .stopped, reading := none, outstanding := r.outstanding - 1
            fault := some { detail := 1, posA := r.take, posB := r.put } }).attemptReqFault n))) ∧
      (n ≠ 0 → ∃ t, exec (.entryReadEnd n.val res) s = .next t ∧
        (t.toChip.reqRing n).state = .stopped ∧ (t.toChip.reqRing n).take = r.take ∧
        (t.toChip.reqRing n).reading = none ∧ (t.toChip.reqRing n).outstanding = r.outstanding - 1 ∧
        t.rings.table = s.rings.table.filter (fun sl => sl.id != id) ∧
        (t.toChip.cmpRing r.bound).reserved = (s.toChip.cmpRing r.bound).reserved - 1))) ∧
  ∀ (s : State) (n : RingId) (f : EntryFetch) (res : EntryRead), (s.toChip.reqRing n).reading = some f →
    let id := f.slot
    let r := s.toChip.reqRing n
    let freed : Chip :=
      { s.toChip with rings := { s.rings with table := s.rings.table.filter fun sl => sl.id != id } }
    let undone := freed.setReqRing n { r with reading := none, outstanding := r.outstanding - 1 }
    let released := undone.setCmpRing r.bound
      { s.toChip.cmpRing r.bound with reserved := (s.toChip.cmpRing r.bound).reserved - 1 }
    (s.ctl.state = .active → r.state ≠ .active →
      exec (.entryReadEnd n.val res) s = .next (s.withChip ((released.service r.bound).drainCheck n))) ∧
    (s.ctl.state = .quiescing → exec (.entryReadEnd n.val res) s = .next (s.withChip (released.drainCheck n))) ∧
    (s.ctl.state = .halted → exec (.entryReadEnd n.val res) s = .next s)

/-! ### Completions and notices -/

/-- A completion handed over in ACTIVE is written at once to an ACTIVE completion ring, and dropped at a STOPPED one; outside ACTIVE
its slot stays in POSTING (log 10). How owners hand completions over, and what becomes of a request of a DRAINING ring that would
join a waiting list (log 21). -/
def Obligations.CompletionIsWrittenOrDropped : Prop :=
  (∀ (c : Chip) (id : Nat) (sl : Slot) (e : Completion), c.slot? id = some sl →
    (c.isActive = false → c.post id e = c.modSlot id fun x => { x with phase := .posting }) ∧
    c.complete id e = (c.post id e).drainCheck sl.ring ∧
    ∀ q, sl.request = some q →
      (∀ f : Request → Completion, c.answer id f = c.complete id (f q)) ∧
      (∀ status : Status, c.refuse id status =
        c.complete id { code := status.code, commandId := q.commandId, streamId := q.streamId }) ∧
      c.cancelInstead id =
        (c.setReqRing sl.ring { c.reqRing sl.ring with cancelled := (c.reqRing sl.ring).cancelled + 1 }).complete id
          { code := Status.cancelled.code, commandId := q.commandId, streamId := q.streamId }) ∧
  (∀ (c : Chip) (ids : List Nat) (status : Status),
    c.refuseAll ids status = ids.foldl (fun x id => x.refuse id status) c) ∧
  ∀ (c : Chip) (id : Nat) (sl : Slot) (e : Completion), c.isActive = true → c.slot? id = some sl →
    let q := c.reqRing sl.ring
    let r := c.cmpRing q.bound
    let freed : Chip → Chip := fun x =>
      ({ x with rings := { x.rings with table := x.rings.table.filter fun y => y.id != id } } : Chip).setReqRing sl.ring
        { q with outstanding := q.outstanding - 1 }
    let released := c.setCmpRing q.bound { r with reserved := r.reserved - 1 }
    (r.state = .active →
      c.post id e = freed (released.writeEntry q.bound false (BitVec.ofNat 8 sl.ring.val) q.take e) ∧
      (c.post id e).link.cmpWrites = c.link.cmpWrites ++
        [{ ring := q.bound, addr := r.base + BitVec.ofNat 64 (32 * r.put),
           data := encodeEntry r.lap false (BitVec.ofNat 8 sl.ring.val) q.take e, live := true }] ∧
      ((c.post id e).cmpRing q.bound).put = (if r.put + 1 = r.size then 0 else r.put + 1) ∧
      ((c.post id e).cmpRing q.bound).lap = (if r.put + 1 = r.size then !r.lap else r.lap) ∧
      ((c.post id e).cmpRing q.bound).posted = r.posted + 1) ∧
    (r.state = .stopped →
      c.post id e = freed released ∧ (c.post id e).link = c.link ∧ (c.post id e).cmpRing q.bound = { r with reserved := r.reserved - 1 }) ∧
    ((c.post id e).cmpRing q.bound).reserved = r.reserved - 1 ∧
    ((c.post id e).reqRing sl.ring).outstanding = q.outstanding - 1 ∧
    (c.post id e).rings.table = c.rings.table.filter (fun x => x.id != id) ∧
    OnlyRings c (c.post id e)

/-- The codes of the completion statuses and of the notices (section 11.6), and the fields of a completion entry. -/
def Obligations.CompletionEntryFields : Prop :=
  (∀ x : Status, x.code = match x with
    | .ok => 0x00
    | .noData => 0x01
    | .bufferSmall => 0x02
    | .timedOut => 0x08
    | .cancelled => 0x09
    | .waitLimit => 0x0A
    | .flushed => 0x10
    | .closed => 0x11
    | .noRoom => 0x18
    | .tooLarge => 0x19
    | .seqLimit => 0x1A
    | .badStream => 0x20
    | .streamBusy => 0x21
    | .streamFaulted => 0x22
    | .streamHeld => 0x23
    | .wrongMode => 0x24
    | .badField => 0x28
    | .badKind => 0x29
    | .wrongRing => 0x2A
    | .markLimit => 0x30
    | .noMark => 0x31
    | .badTarget => 0x32
    | .hostReadError => 0x38
    | .hostWriteError => 0x39
    | .mediaError => 0x3A
    | .inUse => 0x40
    | .notFound => 0x41
    | .notWaiting => 0x42
    | .noReserve => 0x43) ∧
  (∀ x : Notice, x.code = match x with
    | .dataReady => 0x80
    | .pressure => 0x81
    | .relief => 0x82
    | .streamFault => 0x83
    | .ringFault => 0x84) ∧
  ∀ (lap notice : Bool) (ring : BitVec 8) (take : Nat) (e : Completion),
    let x := encodeEntry lap notice ring take e
    x.extractLsb' 0 16 = e.commandId ∧ x.extractLsb' 16 8 = ring ∧ x.getLsbD 24 = lap ∧ x.getLsbD 25 = notice ∧
    x.getLsbD 26 = e.short ∧ x.getLsbD 27 = e.damaged ∧ x.extractLsb' 28 4 = 0 ∧ x.extractLsb' 32 8 = e.code ∧
    (x.extractLsb' 40 8).toNat = e.detail % 256 ∧ x.extractLsb' 48 16 = e.streamId ∧
    (x.extractLsb' 64 16).toNat = take % 65536 ∧ (x.extractLsb' 80 48).toNat = e.posA % 2 ^ 48 ∧
    (x.extractLsb' 128 48).toNat = e.posB % 2 ^ 48 ∧ (x.extractLsb' 176 16).toNat = min e.count 65535 ∧
    (x.extractLsb' 192 32).toNat = min e.bytes (2 ^ 32 - 1) ∧ (x.extractLsb' 224 16).toNat = min e.voids 65535 ∧
    x.extractLsb' 240 16 = 0

/-- COMPLETION_WRITE_END: the oldest write of the ring, the first of it in the list, is sent, or fails and stops the ring (halts,
for ring 0); with none outstanding nothing changes (log 1). A failing write of a STOPPED ring does no more than leave the list
(R132). The model's choices: the outcome is decided by the link as the write ends (log 18), a failing write of a deleted ring has
no further effect (log 29), and a write issued before a halt still ends so in HALTED, a failing one without further effect
(log 40); in INIT and DISABLED no run has one outstanding (log 35). The engine of a halt is written out in
ControllerResetStartsTheQuiesce. -/
def Obligations.CompletionWriteEndSendsOrStops : Prop :=
  (∀ (s : State) (n : RingId), (∀ w ∈ s.link.cmpWrites, w.ring ≠ n) →
    exec (.completionWriteEnd n.val) s = .next s) ∧
  ∀ (s : State) (n : RingId) (w : CmpWrite) (before after : List CmpWrite),
    s.link.cmpWrites = before ++ w :: after → w.ring = n → (∀ v ∈ before, v.ring ≠ n) →
    let rest := before ++ after
    (s.link.up = false ∨ s.link.access = false →
      w.live = false ∨ (s.ctl.state ≠ .active ∧ s.ctl.state ≠ .quiescing) ∨
        (n ≠ 0 ∧ (s.toChip.cmpRing n).state ≠ .active) →
      exec (.completionWriteEnd n.val) s = .next (s.withChip
        { s.toChip with link := { s.link with cmpWrites := rest } })) ∧
    (s.link.up = true ∧ s.link.access = true →
      exec (.completionWriteEnd n.val) s = .next (s.withChip
        { s.toChip with link := { s.link with cmpWrites := rest, out := s.link.out ++ [.entry w.addr w.data] } })) ∧
    (s.link.up = false ∨ s.link.access = false → w.live = true → s.ctl.state = .active ∨ s.ctl.state = .quiescing →
      (n = 0 → exec (.completionWriteEnd n.val) s = .next (s.withChip
        { s.toChip with
          link := { s.link with cmpWrites := rest }
          ctl := { s.ctl with state := .halted, cause := .controlRing }, engine := s.engine.abandon })) ∧
      (n ≠ 0 → (s.toChip.cmpRing n).state = .active →
        let c : Chip := { s.toChip with link := { s.link with cmpWrites := rest } }
        let r := s.toChip.cmpRing n
        let ids : List RingId := (List.range 32).map (Fin.ofNat 32)
        let bound := ids.filter fun m => (c.reqRing m).state == .active && (c.reqRing m).bound == n
        let stop : Chip → RingId → Chip := fun x m =>
          let q := x.reqRing m
          if q.state = .active ∧ q.bound = n then
            x.setReqRing m { q with state := .stopped, fault := some { detail := 5, posA := q.take, posB := q.put } }
          else x
        let attempt : Chip → RingId → Chip := fun x m =>
          let y := if bound.contains m then x.attemptReqFault m else x
          if m = n then y.attemptCmpFault m else y
        exec (.completionWriteEnd n.val) s = .next (s.withChip
          (ids.foldl attempt (ids.foldl stop (c.setCmpRing n
            { r with
              state := .stopped, unsignalled := 0, timer := false
              fault := some { detail := 4, posA := r.put, posB := r.take } }))))) ∧
      (n ≠ 0 → (s.toChip.cmpRing n).state = .active → ∃ t, exec (.completionWriteEnd n.val) s = .next t ∧
        (t.toChip.cmpRing n).state = .stopped ∧ (t.toChip.cmpRing n).put = (s.toChip.cmpRing n).put ∧
        (t.toChip.cmpRing n).posted = (s.toChip.cmpRing n).posted ∧
        (∀ m, (s.toChip.reqRing m).state = .active → (s.toChip.reqRing m).bound = n →
          (t.toChip.reqRing m).state = .stopped)))

/-- Every entry written is a post that is counted; how posts are counted, the delay timer, its expiry, the message of an
interrupt, the masking of vectors, and the inputs of the host link. That a message leaves at once whatever the state of the host
link is the model's reading (log 17). -/
def Obligations.InterruptsVectorsAndLinkInputs : Prop :=
  (∀ (c : Chip) (n : RingId) (notice : Bool) (ring : BitVec 8) (take : Nat) (e : Completion),
    let r := c.cmpRing n
    c.writeEntry n notice ring take e =
      (({ c with
          link := { c.link with
            cmpWrites := c.link.cmpWrites ++
              [{ ring := n, addr := r.base + BitVec.ofNat 64 (32 * r.put), data := encodeEntry r.lap notice ring take e,
                 live := true }] } } : Chip).setCmpRing n
        { r with
          put := if r.put + 1 = r.size then 0 else r.put + 1
          lap := if r.put + 1 = r.size then !r.lap else r.lap
          posted := r.posted + 1 }).countPost n) ∧
  (∀ (c : Chip) (n : RingId),
    let r := c.cmpRing n
    (r.interrupt = false → c.countPost n = c) ∧
    (r.interrupt = true → r.unsignalled + 1 ≠ r.batch → c.countPost n = c.setCmpRing n
      { r with unsignalled := r.unsignalled + 1, timer := r.timer || (r.unsignalled == 0 && r.delay != 0) }) ∧
    (r.interrupt = true → r.unsignalled + 1 = r.batch → c.countPost n = c.raiseInterrupt n) ∧
    (c.link.masked.get n = false → c.raiseInterrupt n =
      { c.setCmpRing n { r with unsignalled := 0, timer := false } with
        link := { c.link with out := c.link.out ++ [.message n] } }) ∧
    (c.link.masked.get n = true → c.raiseInterrupt n =
      { c.setCmpRing n { r with unsignalled := 0, timer := false } with
        link := { c.link with msiPending := c.link.msiPending.set n.val true n.isLt } })) ∧
  (∀ (s : State) (n : RingId), (s.toChip.cmpRing n).timer = true →
    s.ctl.state = .active ∨ s.ctl.state = .quiescing →
    exec (.coalesceTimerExpiry n.val) s = .next (s.withChip (s.toChip.raiseInterrupt n))) ∧
  ∀ (s : State) (n : RingId) (up access : Bool),
    exec (.vectorMask n.val) s = .next (s.withChip
      { s.toChip with link := { s.link with masked := s.link.masked.set n.val true n.isLt } }) ∧
    (s.link.msiPending.get n = false → exec (.vectorUnmask n.val) s = .next (s.withChip
      { s.toChip with link := { s.link with masked := s.link.masked.set n.val false n.isLt } })) ∧
    (s.link.msiPending.get n = true → exec (.vectorUnmask n.val) s = .next (s.withChip
      { s.toChip with
        link := { s.link with
          masked := s.link.masked.set n.val false n.isLt
          msiPending := s.link.msiPending.set n.val false n.isLt
          out := s.link.out ++ [.message n] } })) ∧
    exec (.hostLinkAccessChange up access) s = .next (s.withChip
      { s.toChip with link := { s.link with up := up, access := access } })


/-! ### Ring requests -/

/-- RING_CREATE: its checks in order, and the ring it makes. -/
def Obligations.RingCreateMakesTheRing : Prop :=
  ∀ (s : State) (id : Nat) (q : Request) (b : RingBlock),
    s.toChip.Serving .ringEngine id q → q.body = .ringCreate b →
    let c := s.taking [] id
    let refused : Status → Host.Outcome State Fault Refusal := fun st =>
      .next (s.withChip (c.answer id fun q => { code := st.code, commandId := q.commandId }))
    let made : Nat → Request → Completion := fun n q =>
      { code := Status.ok.code, commandId := q.commandId, posA := n, posB := b.size }
    let common := b.ringType ≤ 1 ∧ b.base.toNat % 4096 = 0 ∧ 2 ≤ b.size ∧ b.size ≤ 4096
    (1 < b.ringType ∨ b.id = 0 ∨ 31 < b.id ∨ b.base.toNat % 4096 ≠ 0 ∨ b.size < 2 ∨ 4096 < b.size →
      exec .ringCreate s = refused .badField) ∧
    (b.ringType = 0 → b.bound = 0 ∨ 31 < b.bound → exec .ringCreate s = refused .badField) ∧
    (b.ringType = 0 → ∀ m : RingId, b.bound = m.val → (s.toChip.cmpRing m).state ≠ .active →
      exec .ringCreate s = refused .badField) ∧
    (b.ringType = 1 → b.batch = 0 → exec .ringCreate s = refused .badField) ∧
    (∀ n m : RingId, common → b.ringType = 0 → n ≠ 0 → b.id = n.val → m ≠ 0 → b.bound = m.val →
      (s.toChip.cmpRing m).state = .active →
      ((s.toChip.reqRing n).state ≠ .absent → exec .ringCreate s = refused .inUse) ∧
      ((s.toChip.reqRing n).state = .absent → exec .ringCreate s = .next (s.withChip
        ((c.setReqRing n
          { state := .active, base := b.base, size := b.size, put := 0, take := 0, bound := m, reading := none,
            outstanding := 0, fault := (s.toChip.reqRing n).fault, deleter := none, cancelled := 0 }).answer id
          (made n.val))))) ∧
    (∀ n : RingId, common → b.ringType = 1 → n ≠ 0 → b.id = n.val → b.batch ≠ 0 →
      ((s.toChip.cmpRing n).state ≠ .absent → exec .ringCreate s = refused .inUse) ∧
      ((s.toChip.cmpRing n).state = .absent → exec .ringCreate s = .next (s.withChip
        ((c.setCmpRing n
          { state := .active, base := b.base, size := b.size, put := 0, take := 0, lap := true, posted := 0,
            reserved := 0, interrupt := b.enable, batch := b.batch, delay := b.delay, unsignalled := 0, timer := false,
            service := 511, fault := (s.toChip.cmpRing n).fault }).answer id (made n.val)))))

/-- When a DRAINING ring becomes ABSENT and its delete completes; and RING_DELETE of a request ring and of a completion ring. The
model's own: BAD_FIELD for an undefined ring type (log 20), what becomes of writes still outstanding (log 29), that waiting fetches
of one stream too are cancelled in the order they were taken (log 38), and that all requests are cancelled before the new heads are
evaluated, stream by stream in the order of R128 (log 39). -/
def Obligations.RingDeleteDrainsOrRemoves : Prop :=
  (∀ (c : Chip) (n : RingId),
    let r := c.reqRing n
    (r.deleter = none ∨ r.state ≠ .draining ∨ r.outstanding ≠ 0 → c.drainCheck n = c) ∧
    ∀ d sl q, r.deleter = some d → r.state = .draining → r.outstanding = 0 → c.slot? d = some sl →
      sl.request = some q →
      c.drainCheck n = (c.setReqRing n { RequestRing.absent with fault := r.fault }).post d
        { code := Status.ok.code, commandId := q.commandId, posA := n.val, count := r.cancelled }) ∧
  ∀ (s : State) (u : Upsets) (id : Nat) (q : Request) (b : RingBlock),
    s.toChip.Serving .ringEngine id q → q.body = .ringDelete b →
    let refused : Chip → Status → Host.Outcome State Fault Refusal := fun c st =>
      .next (s.withChip (c.answer id fun q => { code := st.code, commandId := q.commandId }))
    (b.ringType = 0 →
      let c := s.taking u id
      (b.id = 0 ∨ 31 < b.id → exec (.ringDeleteRequestRing u) s = refused c .badField) ∧
      ∀ n : RingId, n ≠ 0 → b.id = n.val →
        let r := s.toChip.reqRing n
        (r.state = .absent → exec (.ringDeleteRequestRing u) s = refused c .notFound) ∧
        (r.state = .draining → exec (.ringDeleteRequestRing u) s = refused c .inUse) ∧
        (r.state = .active ∨ r.state = .stopped →
          let taken := (s.rings.table.filter fun sl => sl.ring == n && sl.phase == .waiting).map Slot.id
          let drained := (c.setReqRing n
            { r with state := .draining, deleter := some id, cancelled := taken.length }).setPhase id .admitted
          let cancel : Chip → Nat → Chip := fun x id =>
            match x.slotStream id with
            | none => x
            | some i =>
              (x.modStream i fun st =>
                { st with
                  waitA := st.waitA.filter fun w => w.slot != id
                  waitF := st.waitF.filter fun w => w.slot != id }).answer id fun q =>
                { code := Status.cancelled.code, commandId := q.commandId, streamId := q.streamId }
          let follow : Chip → StreamId → Chip := fun x i =>
            let st := s.toChip.stream i
            let y := x.startArbiterIf (st.waitA.head?.any fun w => taken.contains w.slot)
            if (st.waitF.head?.any fun w => taken.contains w.slot) = true then y.evalHead i else y
          let rank : StreamId → Nat := fun i => match (s.toChip.stream i).noticeRing with
            | none => 16384 + i.val
            | some m => 512 * m.val + (i.val + 511 - (s.toChip.cmpRing m).service.val) % 512
          (taken ≠ [] → ∀ order : List StreamId, order.Nodup →
            (∀ i, i ∈ order ↔ ∃ id ∈ taken, c.slotStream id = some i) →
            order.Pairwise (fun i j => rank i ≤ rank j) →
            exec (.ringDeleteRequestRing u) s = .next (s.withChip
              ((order.foldl follow (taken.foldl cancel drained)).drainCheck n))) ∧
          (taken = [] → r.outstanding ≠ 0 → exec (.ringDeleteRequestRing u) s = .next (s.withChip drained)) ∧
          (taken = [] → r.outstanding = 0 → exec (.ringDeleteRequestRing u) s = .next (s.withChip
            ((drained.setReqRing n { RequestRing.absent with fault := r.fault }).post id
              { code := Status.ok.code, commandId := q.commandId, posA := n.val }))))) ∧
    (1 < b.ringType → exec (.ringDeleteRequestRing u) s = refused (s.taking u id) .badField) ∧
    (b.ringType = 1 →
      let c := s.taking [] id
      (b.id = 0 ∨ 31 < b.id → exec .ringDeleteCompletionRing s = refused c .badField) ∧
      ∀ n : RingId, n ≠ 0 → b.id = n.val →
        let r := s.toChip.cmpRing n
        let used := (∃ m, (s.toChip.reqRing m).state ≠ .absent ∧ (s.toChip.reqRing m).bound = n) ∨
          ∃ i, ((s.toChip.stream i).state = .opened ∨ (s.toChip.stream i).state = .flushing ∨
            (s.toChip.stream i).state = .faulted) ∧ (s.toChip.stream i).noticeRing = some n
        (r.state = .absent → exec .ringDeleteCompletionRing s = refused c .notFound) ∧
        (r.state ≠ .absent → used → exec .ringDeleteCompletionRing s = refused c .inUse) ∧
        (r.state ≠ .absent → ¬ used →
          let c1 := c.setCmpRing n { CompletionRing.absent with fault := r.fault }
          exec .ringDeleteCompletionRing s = .next (s.withChip
            (({ c1 with link := { c1.link with
                cmpWrites := c1.link.cmpWrites.map fun (w : CmpWrite) => if w.ring = n then { w with live := false } else w } }).answer
              id fun q => { code := Status.ok.code, commandId := q.commandId, posA := n.val }))))

/-- CANCEL: its ring id, and the earliest taken request it names. -/
def Obligations.CancelReachesTheEarliestMatch : Prop :=
  ∀ (s : State) (u : Upsets) (id : Nat) (q : Request) (ring : Nat) (command : BitVec 16),
    s.toChip.Serving .ringEngine id q → q.body = .cancel ring command →
    let c := s.taking u id
    let refused : Status → Host.Outcome State Fault Refusal := fun st =>
      .next (s.withChip (c.answer id fun q => { code := st.code, commandId := q.commandId }))
    let matches_ : Slot → Bool := fun sl =>
      sl.id != id && sl.ring.val == ring && sl.request.any fun q => q.commandId == command
    (31 < ring → exec (.cancel u) s = refused .badField) ∧
    (ring ≤ 31 → s.rings.table.find? matches_ = none → exec (.cancel u) s = refused .notFound) ∧
    ∀ sl target, ring ≤ 31 → s.rings.table.find? matches_ = some sl → sl.request = some target →
      (sl.phase ≠ .waiting → exec (.cancel u) s = refused .notWaiting) ∧
      (sl.phase = .waiting → s.toChip.slot? sl.id = some sl → ∀ i, target.stream = some i →
        let left := (c.modStream i fun st =>
          { st with
            waitA := st.waitA.filter fun w => w.slot != sl.id
            waitF := st.waitF.filter fun w => w.slot != sl.id }).refuse sl.id .cancelled
        let started := left.startArbiterIf ((s.toChip.stream i).headAppend sl.id)
        let evaluated := if (s.toChip.stream i).headFetch sl.id then started.evalHead i else started
        exec (.cancel u) s = .next (s.withChip (evaluated.answer id fun q =>
          { code := Status.ok.code, commandId := q.commandId, streamId := target.streamId, count := 1 })))

/-! ### Requests on streams: states and stream control -/

/-- A request is refused by its stream id, then by its stream's state as R8's table gives it, and changes nothing of the stream. -/
def Obligations.StreamRequestRefusedByState : Prop :=
  (∀ row ∈ [(RequestGroup.open_,
        [none, some .inUse, some .streamBusy, some .streamBusy, some .streamFaulted, some .streamHeld]),
      (.set_, [some .badStream, none, some .streamBusy, some .streamBusy, some .streamFaulted, none]),
      (.flush, [some .badStream, none, some .streamBusy, some .streamBusy, some .streamFaulted, some .streamHeld]),
      (.close, [some .badStream, none, some .streamBusy, some .streamBusy, none, none]),
      (.resume, [some .badStream, some .inUse, some .streamBusy, some .streamBusy, some .streamFaulted, none]),
      (.report, [some .badStream, none, none, none, none, none]),
      (.io, [some .badStream, none, some .streamBusy, some .streamBusy, some .streamFaulted, some .streamHeld])],
    [StreamState.closed, .opened, .flushing, .closing, .faulted, .held].map (stateCheck row.1) = row.2) ∧
  ∀ (s : State) (id : Nat) (q : Request) (u : Upsets) (g : RequestGroup),
    s.toChip.Serving .streamController id q → q.body.group = some g →
    let c := s.taking (q.body.errors u) id
    (512 ≤ q.streamId.toNat →
      exec (q.body.command u) s = .next (s.withChip (c.answer id fun q =>
        { code := Status.badStream.code, commandId := q.commandId, streamId := q.streamId }))) ∧
    (∀ (i : StreamId) (st : Status), q.streamId.toNat = i.val → stateCheck g (s.toChip.stream i).state = some st →
      exec (q.body.command u) s = .next (s.withChip (c.answer id fun q =>
        { code := st.code, commandId := q.commandId, streamId := q.streamId })) ∧
      (c.answer id fun q => { code := st.code, commandId := q.commandId, streamId := q.streamId }).streams = s.streams)

/-- STREAM_OPEN of a CLOSED stream: its checks in order, and the entry it makes. The shared free count is written out in
AllocationByQuotaAndRoom. -/
def Obligations.StreamOpenChecksAndMakesTheEntry : Prop :=
  ∀ (s : State) (id : Nat) (q : Request) (i : StreamId) (b : SettingsBlock),
    s.toChip.ServingStream id q i → q.body = .streamOpen b → (s.toChip.stream i).state = .closed →
    let c := s.taking [] id
    let valid := (b.mode = 0 ∨ b.mode = 1) ∧ (b.durable = 0 ∨ b.durable = 1) ∧ 1 ≤ b.quota ∧
      b.quota ≤ s.pool.usable ∧ b.reserve ≤ b.quota ∧ b.pressureLevel ≤ b.quota ∧
      (b.pressureLevel = 0 → b.reliefLevel = 0) ∧ (b.pressureLevel ≠ 0 → b.reliefLevel < b.pressureLevel) ∧
      b.initial ≤ 2 ^ 48 - 2 ∧ ∃ n : RingId, b.noticeRing = n.val ∧ (s.toChip.cmpRing n).state = .active
    (¬ valid → exec .streamOpen s = .next (s.withChip (c.refuse id .badField))) ∧
    (valid → s.toChip.sharedFree < b.reserve → exec .streamOpen s = .next (s.withChip (c.refuse id .noReserve))) ∧
    ∀ n : RingId, valid → b.reserve ≤ s.toChip.sharedFree → b.noticeRing = n.val →
      exec .streamOpen s = .next (s.withChip
        ((c.setStream i
          { state := .opened, mode := if b.mode = 1 then .consume else .retain, durable := b.durable == 1,
            noticeRing := some n, readyLevel := b.readyLevel, pressureLevel := b.pressureLevel,
            reliefLevel := b.reliefLevel, reserve := b.reserve, quota := b.quota, base := b.initial,
            read := b.initial, frontier := b.initial, next := b.initial, baseLoc := .chainStart,
            readLoc := .chainStart, tail := 0, chain := [], marks := [], waitA := [], waitF := [], admitted := [],
            active := none, pendingEnd := none, backlog := .below, occupancy := .calm, readyLatch := false,
            occLatch := none, faultLatch := none, closeFromFault := false, closeMedia := false }).answer id fun q =>
          { code := Status.ok.code, commandId := q.commandId, streamId := q.streamId, posA := b.initial,
            posB := b.initial }))

/-- STREAM_SET of an OPEN or HELD stream: its checks in order, and what a set that passes them does: the settings, the waiting
appends that no longer fit, an attempt on a moved binding, its completion, the arbiter's start (in this order by the model's
choice, log 25). The shared free count is written out in AllocationByQuotaAndRoom. -/
def Obligations.StreamSetChecksAndReplacesTheSettings : Prop :=
  ∀ (s : State) (id : Nat) (q : Request) (i : StreamId) (b : SettingsBlock),
    s.toChip.ServingStream id q i → q.body = .streamSet b →
    let st := s.toChip.stream i
    let c := s.taking [] id
    st.state = .opened ∨ st.state = .held →
    let valid := (b.mode = 0 ∨ b.mode = 1) ∧ (b.durable = 0 ∨ b.durable = 1) ∧ 1 ≤ b.quota ∧
      b.quota ≤ s.pool.usable ∧ b.reserve ≤ b.quota ∧ b.pressureLevel ≤ b.quota ∧
      (b.pressureLevel = 0 → b.reliefLevel = 0) ∧ (b.pressureLevel ≠ 0 → b.reliefLevel < b.pressureLevel) ∧
      (st.state = .held ∨ ∃ n : RingId, b.noticeRing = n.val ∧ (s.toChip.cmpRing n).state = .active)
    let growth := (b.reserve - st.chain.length) - (st.reserve - st.chain.length)
    (¬ valid → exec .streamSet s = .next (s.withChip (c.refuse id .badField))) ∧
    (valid → b.quota < st.chain.length → exec .streamSet s = .next (s.withChip (c.refuse id .inUse))) ∧
    (valid → st.chain.length ≤ b.quota → s.toChip.sharedFree < growth →
      exec .streamSet s = .next (s.withChip (c.refuse id .noReserve))) ∧
    (valid → st.chain.length ≤ b.quota → growth ≤ s.toChip.sharedFree →
      ∃ t e, exec .streamSet s = .next t ∧ t.toChip.stream i = e ∧
        e.mode = (if b.mode = 1 then .consume else .retain) ∧ e.durable = (b.durable == 1) ∧
        e.readyLevel = b.readyLevel ∧ e.pressureLevel = b.pressureLevel ∧ e.reliefLevel = b.reliefLevel ∧
        e.reserve = b.reserve ∧ e.quota = b.quota ∧
        (st.state = .opened → ∀ n : RingId, b.noticeRing = n.val → e.noticeRing = some n) ∧
        (st.state = .held → e.noticeRing = st.noticeRing) ∧
        e.marks = (if b.mode = 1 then [] else st.marks) ∧
        e.waitA = st.waitA.filter (fun w => !decide (b.quota < pagesFor (footprint w.length))) ∧
        e.backlog = (if b.readyLevel ≠ 0 ∧ b.readyLevel ≤ st.frontier - st.read then .atOrAbove else .below) ∧
        e.occupancy = (if b.pressureLevel ≠ 0 ∧ b.pressureLevel ≤ st.chain.length then .pressed
          else if b.pressureLevel = 0 ∨ st.chain.length ≤ b.reliefLevel then .calm else st.occupancy) ∧
        e.state = st.state ∧ e.base = st.base ∧ e.read = st.read ∧ e.frontier = st.frontier ∧ e.next = st.next ∧
        e.chain = st.chain ∧ e.tail = st.tail ∧ e.waitF = st.waitF ∧ e.admitted = st.admitted ∧
        e.active = st.active ∧ t.mem = s.mem ∧ t.engine = s.engine ∧ t.pool.free = s.pool.free) ∧
    ∀ ring : Option RingId, valid → st.chain.length ≤ b.quota → growth ≤ s.toChip.sharedFree →
      (st.state = .held ∧ ring = st.noticeRing ∨
        st.state = .opened ∧ ∃ n : RingId, b.noticeRing = n.val ∧ ring = some n) →
      let tooLarge : WaitingAppend → Bool := fun w => decide (b.quota < (footprint w.length + 4095) / 4096)
      let set : StreamEntry :=
        { st with
          mode := if b.mode = 1 then .consume else .retain, durable := b.durable == 1, noticeRing := ring
          readyLevel := b.readyLevel, pressureLevel := b.pressureLevel, reliefLevel := b.reliefLevel
          reserve := b.reserve, quota := b.quota, marks := if b.mode = 1 then [] else st.marks
          waitA := st.waitA.filter fun w => !tooLarge w
          backlog := if b.readyLevel ≠ 0 ∧ b.readyLevel ≤ st.frontier - st.read then .atOrAbove else .below
          occupancy := if b.pressureLevel ≠ 0 ∧ b.pressureLevel ≤ st.chain.length then .pressed
            else if b.pressureLevel = 0 ∨ st.chain.length ≤ b.reliefLevel then .calm else st.occupancy }
      let refused := (st.waitA.filter tooLarge).foldl (fun x w => x.answer w.slot fun q =>
        { code := Status.tooLarge.code, commandId := q.commandId, streamId := q.streamId }) (c.setStream i set)
      let moved := if ring = st.noticeRing then refused else refused.attempt i
      let done := moved.answer id fun q =>
        { code := Status.ok.code, commandId := q.commandId, streamId := q.streamId, posA := st.base, posB := st.next }
      let starts := st.quota < b.quota ∨ st.reserve < b.reserve ∨
        b.reserve - st.chain.length < st.reserve - st.chain.length ∨ st.waitA.head?.any tooLarge = true
      (starts → exec .streamSet s = .next (s.withChip
        { done with pool := { s.pool with starts := s.pool.starts + 1 } })) ∧
      (¬ starts → exec .streamSet s = .next (s.withChip done))

/-- STREAM_FLUSH of an OPEN stream, and the end of a flush, at once or later. The stream is FLUSHING with the flush as its pending
end before the first page return, so that a break there completes the flush with STREAM_FAULTED: the model's reading (log 23). When
page return meets a break is written out in PageReturnReturnsUpToTheFirstStop. -/
def Obligations.StreamFlushDiscardsAndEnds : Prop :=
  (∀ (c : Chip) (i : StreamId) (d : Nat),
    let st := c.stream i
    let r := c.pageReturnRun i
    st.state = .flushing → st.pendingEnd = some d → st.admitted = [] → st.active = none → r.broken = none →
    c.endCheck i = (r.chip.setStream i { r.chip.stream i with state := .opened, pendingEnd := none }).answer d fun q =>
      { code := Status.ok.code, commandId := q.commandId, streamId := q.streamId, posA := st.base, posB := st.base }) ∧
  ∀ (s : State) (u : Upsets) (id : Nat) (q : Request) (i : StreamId),
    s.toChip.ServingStream id q i → q.body = .streamFlush → (s.toChip.stream i).state = .opened →
    let st := s.toChip.stream i
    let tailLoc : Loc := match st.chain.getLast? with
      | none => .chainStart
      | some p => .at p st.tail
    let flushed : StreamEntry :=
      { st with
        state := .flushing, base := st.next, read := st.next, frontier := st.next, baseLoc := tailLoc,
        readLoc := tailLoc, marks := [], backlog := .below, pendingEnd := some id }
    let emptied := (((s.taking u id).setStream i flushed).setPhase id .admitted).modStream i fun e =>
      { e with waitA := [], waitF := [] }
    let c := (st.waitA.map WaitingAppend.slot ++ st.waitF.map WaitingFetch.slot).foldl (fun x w => x.answer w fun q =>
      { code := Status.flushed.code, commandId := q.commandId, streamId := q.streamId }) emptied
    let r := c.pageReturnRun i
    exec (.streamFlush u) s = .next (s.withChip ((c.pageReturn i).endCheck i)) ∧
    (r.broken = none → st.admitted = [] → st.active = none → exec (.streamFlush u) s = .next (s.withChip
      ((r.chip.setStream i { r.chip.stream i with state := .opened, pendingEnd := none }).answer id fun q =>
        { code := Status.ok.code, commandId := q.commandId, streamId := q.streamId, posA := st.next, posB := st.next }))) ∧
    (r.broken = none →
      (st.admitted = [] → st.active = none → ∃ t, exec (.streamFlush u) s = .next t ∧
        (t.toChip.stream i).state = .opened ∧ (t.toChip.stream i).base = st.next ∧
        (t.toChip.stream i).read = st.next ∧ (t.toChip.stream i).frontier = st.next ∧
        (t.toChip.stream i).next = st.next ∧ (t.toChip.stream i).chain = [] ∧ (t.toChip.stream i).tail = 0 ∧
        (t.toChip.stream i).marks = [] ∧ (t.toChip.stream i).waitA = [] ∧ (t.toChip.stream i).waitF = [] ∧
        (t.toChip.stream i).pendingEnd = none ∧ (t.toChip.stream i).reserve = st.reserve) ∧
      (st.admitted ≠ [] ∨ st.active ≠ none → ∃ t, exec (.streamFlush u) s = .next t ∧
        (t.toChip.stream i).state = .flushing ∧ (t.toChip.stream i).base = st.next ∧
        (t.toChip.stream i).read = st.next ∧ (t.toChip.stream i).frontier = st.next ∧
        (t.toChip.stream i).next = st.next ∧ (t.toChip.stream i).marks = [] ∧ (t.toChip.stream i).waitA = [] ∧
        (t.toChip.stream i).waitF = [] ∧ (t.toChip.stream i).pendingEnd = some id ∧
        (t.toChip.stream i).admitted = st.admitted ∧ (t.toChip.stream i).active = st.active))

/-- STREAM_CLOSE of an OPEN, HELD or FAULTED stream, and the end of a close that waited. The unmet reserve is written out in
AllocationByQuotaAndRoom, and when a whole-chain return meets a break in PageReturnReturnsUpToTheFirstStop. -/
def Obligations.StreamCloseEndsOrWaits : Prop :=
  (∀ (c : Chip) (i : StreamId) (d : Nat),
    let st := c.stream i
    let r := c.returnAll i
    st.state = .closing → st.pendingEnd = some d →
    (st.admitted = [] → st.active = none →
      c.endCheck i = (r.1.setStream i StreamEntry.closed).answer d (fun q =>
        { code := if st.closeMedia = true ∨ r.2 = true then Status.mediaError.code else Status.ok.code,
          commandId := q.commandId, streamId := q.streamId, posA := st.base, posB := st.next }) ∧
      (c.endCheck i).stream i = StreamEntry.closed) ∧
    (st.admitted ≠ [] ∨ st.active ≠ none → c.endCheck i = c)) ∧
  ∀ (s : State) (u : Upsets) (id : Nat) (q : Request) (i : StreamId),
    s.toChip.ServingStream id q i → q.body = .streamClose →
    let st := s.toChip.stream i
    st.state = .opened ∨ st.state = .held ∨ st.state = .faulted →
    let closing : StreamEntry :=
      { st with
        state := .closing, reserve := 0, noticeRing := none, marks := [], readyLatch := false, occLatch := none,
        faultLatch := none, pendingEnd := some id, closeFromFault := st.state == .faulted, closeMedia := false }
    let emptied := (((s.taking u id).setStream i closing).setPhase id .admitted).modStream i fun e =>
      { e with waitA := [], waitF := [] }
    let refused := (st.waitA.map WaitingAppend.slot ++ st.waitF.map WaitingFetch.slot).foldl (fun x w =>
      x.answer w fun q => { code := Status.closed.code, commandId := q.commandId, streamId := q.streamId }) emptied
    let c := refused.startArbiterIf (st.unmet != 0)
    (st.admitted ≠ [] ∨ st.active ≠ none → exec (.streamClose u) s = .next (s.withChip c)) ∧
    (st.admitted = [] → st.active = none →
      exec (.streamClose u) s = .next (s.withChip
        (((c.returnAll i).1.setStream i StreamEntry.closed).answer id fun q =>
          { code := if (c.returnAll i).2 then Status.mediaError.code else Status.ok.code, commandId := q.commandId,
            streamId := q.streamId, posA := st.base, posB := st.next })) ∧
      ∃ t, exec (.streamClose u) s = .next t ∧ t.toChip.stream i = StreamEntry.closed)

/-- STREAM_RESUME of a HELD stream. -/
def Obligations.StreamResumeOpensTheHeldStream : Prop :=
  ∀ (s : State) (id : Nat) (q : Request) (i : StreamId) (ring : Nat),
    s.toChip.ServingStream id q i → q.body = .streamResume ring →
    let st := s.toChip.stream i
    let c := s.taking [] id
    (st.state = .held → 31 < ring → exec .streamResume s = .next (s.withChip (c.refuse id .badField))) ∧
    (∀ n : RingId, st.state = .held → ring = n.val → (s.toChip.cmpRing n).state ≠ .active →
      exec .streamResume s = .next (s.withChip (c.refuse id .badField))) ∧
    (∀ n : RingId, st.state = .held → ring = n.val → (s.toChip.cmpRing n).state = .active →
      exec .streamResume s = .next (s.withChip
        ((c.setStream i { st with state := .opened, noticeRing := some n }).answer id fun q =>
          { code := Status.ok.code, commandId := q.commandId, streamId := q.streamId, posA := st.base,
            posB := st.next }))) ∧
    ∀ status, (st.state, status) ∈
        [(StreamState.closed, Status.badStream), (.opened, .inUse), (.flushing, .streamBusy), (.closing, .streamBusy),
          (.faulted, .streamFaulted)] →
      exec .streamResume s = .next (s.withChip (c.refuse id status))

/-- The layouts of the three reports, the requests for them, and the end of a report's write. The shared free count is written out
in AllocationByQuotaAndRoom. -/
def Obligations.ReportsAreSnapshotsThenCompletions : Prop :=
  (∀ (c : Chip) (st : StreamEntry),
    let num : List Byte → Nat → Nat → Nat := fun data off n =>
      ((data.drop off).take n).foldr (fun b rest => b.toNat + 256 * rest) 0
    let stream := streamReportBytes st
    let pool := c.poolReportBytes
    let part := c.describeBytes
    (stream.length = 128 ∧ pool.length = 64 ∧ part.length = 64) ∧
    num stream 0 1 = (match st.state with
      | .closed => 0 | .opened => 1 | .flushing => 2 | .closing => 3 | .faulted => 4 | .held => 5) ∧
    num stream 1 1 = (if st.mode = .consume then 1 else 0) ∧ num stream 2 1 = (if st.durable then 1 else 0) ∧
    num stream 3 1 = (match st.noticeRing with | none => 255 | some n => n.val) ∧
    num stream 4 1 = (if st.backlog = .atOrAbove then 1 else 0) ∧
    num stream 5 1 = (if st.occupancy = .pressed then 1 else 0) ∧ num stream 6 1 = st.marks.length % 256 ∧
    num stream 7 1 = st.waitA.length % 256 ∧ num stream 8 1 = st.waitF.length % 256 ∧
    num stream 9 1 = st.admitted.length % 256 ∧ num stream 10 2 = st.tail % 2 ^ 16 ∧
    num stream 12 4 = st.reserve % 2 ^ 32 ∧ num stream 16 4 = st.quota % 2 ^ 32 ∧
    num stream 20 4 = st.chain.length % 2 ^ 32 ∧ num stream 24 2 = st.readyLevel % 2 ^ 16 ∧ num stream 26 2 = 0 ∧
    num stream 28 4 = st.pressureLevel % 2 ^ 32 ∧ num stream 32 4 = st.reliefLevel % 2 ^ 32 ∧
    num stream 36 6 = st.base % 2 ^ 48 ∧ num stream 42 6 = st.read % 2 ^ 48 ∧
    num stream 48 6 = st.frontier % 2 ^ 48 ∧ num stream 54 6 = st.next % 2 ^ 48 ∧
    num stream 60 6 = (match st.active with | none => 0 | some a => a.first % 2 ^ 48) ∧
    num stream 66 6 = (match st.active with | none => 0 | some a => a.endSeq % 2 ^ 48) ∧
    (∀ k, k < 8 → num stream (72 + 6 * k) 6 = (match st.marks[k]? with | none => 0 | some m => m.pos % 2 ^ 48)) ∧
    num stream 120 8 = 0 ∧
    num pool 0 4 = c.pool.usable % 2 ^ 32 ∧ num pool 4 4 = c.pool.free % 2 ^ 32 ∧
    num pool 8 4 = c.sharedFree % 2 ^ 32 ∧
    num pool 12 4 = (c.streams.toList.map StreamEntry.reserve).sum % 2 ^ 32 ∧
    num pool 16 4 = c.pool.lost % 2 ^ 32 ∧ num pool 20 4 = c.mem.corrected % 2 ^ 32 ∧
    num pool 24 4 = c.mem.damaged % 2 ^ 32 ∧
    num pool 28 2 = (c.streams.toList.filter fun st => st.waitA != []).length % 2 ^ 16 ∧ num pool 30 34 = 0 ∧
    num part 0 2 = 1 ∧
    num part 2 2 = (match c.mem.size with | none => 0 | some .gib1 => 1024 | some .gib2 => 2048 | some .gib4 => 4096) ∧
    num part 4 4 = c.pool.usable % 2 ^ 32 ∧ num part 8 2 = 512 ∧ num part 10 1 = 32 ∧ num part 11 1 = 0 ∧
    num part 12 2 = 2048 ∧ num part 14 1 = 64 ∧ num part 15 1 = 8 ∧ num part 16 1 = 8 ∧ num part 17 1 = 8 ∧
    num part 18 2 = 32768 ∧ num part 20 44 = 0) ∧
  (∀ (s : State) (id : Nat) (q : Request) (buffer : Segment),
    let c := s.taking [] id
    let good : Nat → Prop := fun size =>
      buffer.addr.toNat % 16 = 0 ∧ buffer.len % 16 = 0 ∧ size ≤ buffer.len
    let placed : List Byte → Nat → Nat → Host.Outcome State Fault Refusal := fun data a b =>
      .next (s.withChip
        ((c.modSlot id fun sl => { sl with phase := .admitted, snapA := a, snapB := b }).place
          { slot := id, work := .reportWrite buffer.addr data }))
    (∀ i, s.toChip.ServingStream id q i → q.body = .streamReport buffer → (s.toChip.stream i).state ≠ .closed →
      (¬ good 128 → exec .streamReport s = .next (s.withChip (c.refuse id .badField))) ∧
      (good 128 → exec .streamReport s =
        placed (streamReportBytes (s.toChip.stream i)) (s.toChip.stream i).base (s.toChip.stream i).next)) ∧
    (s.toChip.Serving .poolManager id q → q.body = .poolReport buffer →
      (¬ good 64 → exec .poolReport s = .next (s.withChip (c.answer id fun q =>
        { code := Status.badField.code, commandId := q.commandId }))) ∧
      (good 64 → exec .poolReport s = placed s.toChip.poolReportBytes s.pool.free s.toChip.sharedFree)) ∧
    (s.toChip.Serving .controller id q → q.body = .describe buffer →
      (¬ good 64 → exec .describe s = .next (s.withChip (c.answer id fun q =>
        { code := Status.badField.code, commandId := q.commandId }))) ∧
      (good 64 → exec .describe s = placed s.toChip.describeBytes s.pool.usable s.toChip.dramMib))) ∧
  ∀ (s : State) (slot : Nat) (e : EndReport) (sl : Slot) (q : Request), s.ctl.state = .active →
    s.toChip.endOf .report slot = some e → s.toChip.slot? slot = some sl → sl.request = some q →
    let failed := e.outcome ≠ .ok
    let done : Completion :=
      if q.body.isStreamReport then
        { code := Status.ok.code, commandId := q.commandId, streamId := q.streamId, posA := sl.snapA, posB := sl.snapB }
      else { code := Status.ok.code, commandId := q.commandId, posA := sl.snapA, posB := sl.snapB, bytes := 64 }
    (e.outcome = .ok → exec (.reportWriteEnd slot) s = .next (s.withChip ((s.toChip.dropEnd .report slot).complete slot done))) ∧
    (failed → exec (.reportWriteEnd slot) s = .next (s.withChip ((s.toChip.dropEnd .report slot).complete slot
      { done with code := Status.hostWriteError.code, posA := 0, posB := 0, bytes := 0 })))

/-! ### Appends -/

/-- APPEND to an OPEN stream: the checks in order, and the decision at arrival when it is not admitted. When an allocation meets a
link error is written out in AllocationByQuotaAndRoom, and the engine of a halt in ControllerResetStartsTheQuiesce. -/
def Obligations.AppendChecksInOrder : Prop :=
  ∀ (s : State) (u : Upsets) (id : Nat) (q : Request) (i : StreamId) (length : Nat) (tag : Word) (src : Source),
    s.toChip.ServingStream id q i → q.body = .append length tag src → (s.toChip.stream i).state = .opened →
    let st := s.toChip.stream i
    let c := s.taking u id
    let formed := (∃ segs, src = .direct segs ∧ segs ≠ [] ∧ (∀ x ∈ segs, x.addr.toNat % 16 = 0) ∧
        (segs.map Segment.len).sum = length) ∨
      ∃ addr count, src = .indirect addr count ∧ addr.toNat % 16 = 0 ∧ 1 ≤ count ∧ count ≤ 256
    let sized := 1 ≤ length ∧ length ≤ 32768
    let fits := (footprint length + 4095) / 4096 ≤ st.quota
    let passed := sized ∧ formed ∧ fits ∧ st.next ≠ 2 ^ 48 - 1
    (¬ sized → exec (.append u) s = .next (s.withChip (c.refuse id .badField))) ∧
    (sized → ¬ formed → exec (.append u) s = .next (s.withChip (c.refuse id .badField))) ∧
    (sized → formed → ¬ fits → exec (.append u) s = .next (s.withChip (c.refuse id .tooLarge))) ∧
    (sized → formed → fits → st.next = 2 ^ 48 - 1 →
      exec (.append u) s = .next (s.withChip (c.refuse id .seqLimit))) ∧
    (∀ detail, passed →
      (detail = 3 ∧ st.waitA ≠ [] ∨ detail = 2 ∧ st.waitA = [] ∧ 8 ≤ st.admitted.length ∨
        detail = 1 ∧ st.waitA = [] ∧ st.admitted.length < 8 ∧ c.allocate i (st.need (footprint length)) = .refused) →
      (q.wait = 0 → exec (.append u) s = .next (s.withChip (c.answer id fun q =>
        { code := Status.noRoom.code, commandId := q.commandId, streamId := q.streamId, detail := detail }))) ∧
      (q.wait ≠ 0 → 8 ≤ st.waitA.length → exec (.append u) s = .next (s.withChip (c.refuse id .waitLimit))) ∧
      (q.wait ≠ 0 → st.waitA.length < 8 → c.slotDraining id = true →
        exec (.append u) s = .next (s.withChip (c.cancelInstead id))) ∧
      (q.wait ≠ 0 → st.waitA.length < 8 → c.slotDraining id = false →
        exec (.append u) s = .next (s.withChip ((c.setStream i
          { st with
            waitA := st.waitA ++
              [{ slot := id, length := length, deadline := if q.wait = 65535 then none else some q.wait }] }).setPhase
          id .waiting)))) ∧
    ∀ c1, passed → st.waitA = [] → st.admitted.length < 8 →
      c.allocate i (st.need (footprint length)) = .linkError c1 → ∃ t, exec (.append u) s = .next t ∧
        t.ctl.state = .halted ∧ t.ctl.cause = .freeList ∧ t.streams = s.streams ∧ t.pool = s.pool ∧ t.rings.table = s.rings.table

/-- APPEND admitted at arrival, with the locations of base, read, the marks and the active fetch's end after it; and what an
allocation of pages reads and writes in the page link table (layout log 13): `l` is the chain's old last page, if any, with the new
pages, and the clause on links speaks of every page `l` names once. -/
def Obligations.AppendAdmissionGivesSequenceAndPages : Prop :=
  (∀ (c c1 : Chip) (i : StreamId) (k : Nat) (ps : List Nat), c.memOk → 1 ≤ k → c.allocate i k = .pages c1 ps →
    let entry : Chip → Nat → DWord := fun x p => x.mem.word (c.pool.usable * 512 + p)
    let link : Option Nat → Option StreamId → DWord := fun next owner =>
      BitVec.ofNat 32 (match owner with | none => 2 ^ 32 - 1 | some i => i.val) ++
        BitVec.ofNat 32 (match next with | none => 2 ^ 32 - 1 | some p => p)
    let l := (c.stream i).chain.getLast?.toList ++ ps
    (∀ n p : Nat, l[n]? = some p → (∀ m : Nat, l[m]? = some p → m = n) →
      entry c1 p = link l[n + 1]? (some i)) ∧
    (∀ a, (∀ p ∈ l, a / 8 ≠ c.pool.usable * 512 + p) → c1.mem.readByte a = c.mem.readByte a) ∧
    (∀ n p q : Nat, ps[n]? = some p → ps[n + 1]? = some q → ((entry c p).extractLsb' 0 32).toNat = q) ∧
    (∀ p, ps.getLast? = some p → c1.pool.head =
      (if ((entry c p).extractLsb' 0 32).toNat = 2 ^ 32 - 1 then none
      else some ((entry c p).extractLsb' 0 32).toNat)) ∧
    c1.pool.tail = (if c1.pool.head = none then none else c.pool.tail)) ∧
  ∀ (s : State) (u : Upsets) (id : Nat) (q : Request) (i : StreamId) (length : Nat) (tag : Word) (src : Source)
    (c1 : Chip) (ps : List Nat),
    s.toChip.ServingStream id q i → q.body = .append length tag src → (s.toChip.stream i).state = .opened →
    s.toChip.memOk →
    let st := s.toChip.stream i
    1 ≤ length → length ≤ 32768 → appendSourceOk length src = true → (footprint length + 4095) / 4096 ≤ st.quota →
    st.next < 2 ^ 48 - 1 → st.waitA = [] → st.admitted.length < 8 →
    (s.taking u id).allocate i (st.need (footprint length)) = .pages c1 ps →
    let range := st.rangeOf ps
    let page := (range.1.head?).getD 0
    let moved : Loc → Loc := fun l =>
      match ps, l with
      | [], l => l
      | p :: _, .chainStart => .at p 0
      | p :: _, .at q offset => if offset = 4096 then .at p 0 else .at q offset
    ∃ t e, exec (.append u) s = .next t ∧ t.toChip.stream i = e ∧
      e.next = st.next + 1 ∧ e.chain = st.chain ++ ps ∧ ps.length = st.need (footprint length) ∧
      e.tail = st.tailAfter (footprint length) ∧
      e.admitted = st.admitted ++
        [{ seq := st.next, page := page, offset := range.2, footprint := footprint length, pages := range.1,
           complete := false, failed := none, slot := id }] ∧
      e.base = st.base ∧ e.read = st.read ∧ e.frontier = st.frontier ∧ e.state = .opened ∧
      e.baseLoc = moved st.baseLoc ∧ e.readLoc = moved st.readLoc ∧
      e.marks = st.marks.map (fun m => { m with loc := moved m.loc }) ∧
      e.active = st.active.map (fun a => { a with endLoc := moved a.endLoc }) ∧
      e.waitA = [] ∧ e.waitF = st.waitF ∧ e.reserve = st.reserve ∧ e.quota = st.quota ∧
      (∃ x : Chip, t = s.withChip (if ps = [] then x else x.evalOccupancy i) ∧ x.ctl = s.ctl ∧
        (x.stream i).chain = st.chain ++ ps ∧ (x.stream i).occupancy = st.occupancy ∧
        (x.stream i).occLatch = st.occLatch ∧ (x.stream i).pressureLevel = st.pressureLevel ∧
        (x.stream i).reliefLevel = st.reliefLevel) ∧
      (∀ j, j ≠ i → t.toChip.stream j = s.toChip.stream j) ∧
      t.ctl = s.ctl ∧ t.pool.free = s.pool.free - ps.length ∧ t.pool.lost = s.pool.lost ∧
      t.engine.queue = s.engine.queue ++ [{ slot := id, work := .appendCopy length src range.1 range.2 }] ∧
      (∃ sl, t.toChip.slot? id = some sl ∧ sl.phase = .admitted ∧ sl.request = some q) ∧
      (t.mem.readHeader i st.next page range.2).2 = some { kind := .normal, length := length, tag := tag } ∧
      ∀ a, a / 8 < s.pool.usable * 512 → a / 8 ≠ page * 512 + range.2 / 8 → a / 8 ≠ page * 512 + range.2 / 8 + 1 →
        t.mem.readByte a = s.mem.readByte a

/-- The page need, the new tail offset and the byte range of an append. -/
def Obligations.PageNeedByTailOffset : Prop :=
  ∀ (st : StreamEntry) (f : Nat), 1 ≤ f →
    let k := st.need f
    let tail := st.tailAfter f
    let room := 4096 - st.tail
    (st.chain = [] →
      k = (f + 4095) / 4096 ∧ tail = f - (k - 1) * 4096 ∧ ∀ ps, st.rangeOf ps = (ps, 0)) ∧
    (∀ last, st.chain.getLast? = some last → st.tail ≤ 4096 → f ≤ room →
      k = 0 ∧ tail = st.tail + f ∧ st.rangeOf [] = ([last], st.tail)) ∧
    (∀ last, st.chain.getLast? = some last → st.tail ≤ 4096 → room < f →
      k = (f - room + 4095) / 4096 ∧ tail = f - room - (k - 1) * 4096 ∧
      (st.tail < 4096 → ∀ ps, st.rangeOf ps = (last :: ps, st.tail)) ∧
      (st.tail = 4096 → ∀ ps, st.rangeOf ps = (ps, 0))) ∧
    (st.tail ≤ 4096 → 1 ≤ tail ∧ tail ≤ 4096)

/-- The unmet reserve of a stream and the shared free count; when the pool allocates, and what an allocation changes; and when it
meets a free-list link error (R87, R95, R161): exactly when one of the first `k` places of the free list names no page, the link
before it being END with pages still to take (that this is a link error is the model's reading, log 26), or the link of the page it
names is an error. -/
def Obligations.AllocationByQuotaAndRoom : Prop :=
  (∀ st : StreamEntry,
    (st.state = .opened ∨ st.state = .flushing ∨ st.state = .held →
      (st.chain.length ≤ st.reserve → st.unmet + st.chain.length = st.reserve) ∧
      (st.reserve ≤ st.chain.length → st.unmet = 0)) ∧
    (st.state = .closed ∨ st.state = .closing ∨ st.state = .faulted → st.unmet = 0)) ∧
  (∀ c : Chip,
    let unmet := ((List.range 512).map fun n => (c.stream (Fin.ofNat 512 n)).unmet).sum
    c.sumUnmet = unmet ∧ c.sharedFree = c.pool.free - unmet) ∧
  ∀ (c : Chip) (i : StreamId) (k : Nat),
    let st := c.stream i
    (k = 0 → c.allocate i k = .pages c []) ∧
    (1 ≤ k → (c.allocate i k = .refused ↔ ¬ (st.chain.length + k ≤ st.quota ∧ k ≤ st.unmet + c.sharedFree))) ∧
    (1 ≤ k → st.chain.length + k ≤ st.quota → k ≤ st.unmet → c.allocate i k ≠ .refused) ∧
    (1 ≤ k → st.chain.length + k ≤ st.quota → k ≤ st.unmet + c.sharedFree →
      ((∃ c1, c.allocate i k = .linkError c1) ↔ ∃ n, n < k ∧ ((c.freeAt n).1 = none ∨
        ∃ p, (c.freeAt n).1 = some p ∧ ((c.freeAt n).2.follow c.pool.usable p none).2 = .error))) ∧
    (∀ c1 ps, 1 ≤ k → c.allocate i k = .pages c1 ps →
      (∀ n, n < k → ∃ p, (c.freeAt n).1 = some p ∧ ps[n]? = some p ∧
        ((c.freeAt n).2.follow c.pool.usable p none).2 ≠ .error) ∧
      c1.pool.head = (c.freeAt k).1 ∧ c1.pool.tail = (if (c.freeAt k).1 = none then none else c.pool.tail) ∧
      ps.length = k ∧ ps.head? = c.pool.head ∧ (c1.stream i).chain = st.chain ++ ps ∧
      c1.pool.free = c.pool.free - k ∧ c1.pool.lost = c.pool.lost ∧ c1.pool.usable = c.pool.usable ∧
      (∀ j, j ≠ i → c1.stream j = c.stream j) ∧ c1.ctl = c.ctl ∧ c1.rings = c.rings ∧ c1.engine = c.engine) ∧
    ∀ c1, c.allocate i k = .linkError c1 →
      c1 = { c with mem := (c.freeAt k).2 } ∧ ∀ a, c1.mem.readByte a = c.mem.readByte a

/-- APPEND_DEADLINE and FETCH_DEADLINE. -/
def Obligations.DeadlinesEndTheWait : Prop :=
  (∀ (s : State) (slot : Nat) (i : StreamId), s.ctl.state = .active → s.toChip.slotStream slot = some i →
    let st := s.toChip.stream i
    (∃ w ∈ st.waitA, w.slot = slot ∧ w.deadline ≠ none) →
    exec (.appendDeadline slot) s = .next (s.withChip
      (((s.toChip.setStream i { st with waitA := st.waitA.filter fun w => w.slot != slot }).refuse slot
        .timedOut).startArbiterIf ((st.waitA.head?.map WaitingAppend.slot) == some slot)))) ∧
  ∀ (s : State) (slot : Nat) (u : Upsets) (i : StreamId), s.ctl.state = .active →
    s.toChip.slotStream slot = some i → (s.toChip.stream i).state = .opened →
    let st := s.toChip.stream i
    let c := s.toChip.upset u
    let left := (c.setStream i { st with waitF := st.waitF.filter fun w => w.slot != slot }).refuse slot .timedOut
    (∃ w ∈ st.waitF, w.slot = slot ∧ w.deadline ≠ none) →
    ∀ h rest, st.waitF = h :: rest →
      (h.slot ≠ slot → exec (.fetchDeadline slot u) s = .next (s.withChip left)) ∧
      (h.slot = slot → st.active ≠ none ∨ st.frontier ≤ st.read →
        exec (.fetchDeadline slot u) s = .next (s.withChip (left.evalHead i))) ∧
      (h.slot = slot → st.active = none → st.read < st.frontier →
        exec (.fetchDeadline slot u) s = .next (s.withChip
          (if (c.grant i h rest true).2 then (c.grant i h rest true).1.evalHead i else (c.grant i h rest true).1)))

/-- What the rewrite of a stored header's kind leaves (places of the bits: log 13); APPEND_COPY_END: the entry is complete, failed
with its cause on an error, and the walk of the stream's state runs; outside ACTIVE the end is discarded. -/
def Obligations.AppendCopyEndMarksAndWalks : Prop :=
  (∀ (m : BufferMemory) (i : StreamId) (page offset seq : Nat) (kind : RecordKind), m.wf = true → seq < 2 ^ 48 →
    let t := m.rewriteKind page offset seq kind
    let code : Nat := match kind with | .normal => 0 | .voidAbandoned => 1 | .voidDamaged => 2
    (t.word (page * 512 + offset / 8)).toNat = code * 2 ^ 48 + seq ∧
    (∀ a, a / 8 ≠ page * 512 + offset / 8 → t.readByte a = m.readByte a) ∧
    t.size = m.size ∧ t.corrected = m.corrected ∧ t.damaged = m.damaged ∧
    ∀ h, (m.readHeader i seq page offset).2 = some h →
      (t.readHeader i seq page offset).2 = some { kind := kind, length := h.length, tag := h.tag }) ∧
  (∀ (s : State) (slot : Nat) (u : Upsets), s.ctl.state ≠ .active →
    exec (.appendCopyEnd slot u) s = .next (s.withChip ((s.toChip.upset u).dropEnd .append slot))) ∧
  ∀ (s : State) (slot : Nat) (u : Upsets) (e : EndReport) (i : StreamId) (a : Admitted),
    s.ctl.state = .active → s.toChip.endOf .append slot = some e →
    s.toChip.slotStream slot = some i →
    let st := s.toChip.stream i
    st.admitted.find? (fun a => a.slot == slot) = some a →
    let c := (s.toChip.upset u).dropEnd .append slot
    let walk : Chip → Option CopyFailure → Chip := fun c f =>
      ((c.setPhase slot .admitted).setStream i
        { st with
          admitted := st.admitted.map fun x => if x.slot = slot then { x with complete := true, failed := f } else x }).walk i
    let abandoned : Chip := { c with mem := c.mem.rewriteKind a.page a.offset a.seq .voidAbandoned }
    (e.outcome = .ok → exec (.appendCopyEnd slot u) s = .next (s.withChip (walk c none))) ∧
    (e.outcome = .hostReadError →
      exec (.appendCopyEnd slot u) s = .next (s.withChip (walk abandoned (some .hostRead)))) ∧
    (e.outcome = .badField →
      exec (.appendCopyEnd slot u) s = .next (s.withChip (walk abandoned (some .badList))))

/-- The in-order walk of OPEN and the discard walk of the other states. -/
def Obligations.WalksOverTheAppendWindow : Prop :=
  (∀ (c : Chip) (i : StreamId), (c.stream i).state = .opened →
    let st := c.stream i
    let done := committable st.frontier st.admitted
    let f := st.frontier + done.length
    done = st.admitted.take done.length ∧
    (∀ k a, k < done.length → st.admitted[k]? = some a → a.complete = true ∧ a.seq = st.frontier + k) ∧
    (∀ a, st.admitted[done.length]? = some a → a.complete = false ∨ a.seq ≠ f) ∧
    (done = [] → c.walk i = c) ∧
    (done ≠ [] →
      c.walk i = ((((done.foldl (fun x a => x.answer a.slot (a.committed f))
        (c.setStream i { st with frontier := f, admitted := st.admitted.drop done.length })).evalBacklog i).evalHead
          i).startArbiter) ∧
      ((c.walk i).stream i).frontier = f ∧ ((c.walk i).stream i).next = st.next ∧
      ((c.walk i).stream i).base = st.base ∧ ((c.walk i).stream i).admitted = st.admitted.drop done.length)) ∧
  (∀ (a : Admitted) (f : Nat) (q : Request) (length : Nat) (tag : Word) (src : Source), q.body = .append length tag src →
    let ok : Completion :=
      { code := Status.ok.code, commandId := q.commandId, streamId := q.streamId, posA := a.seq, posB := f, count := 1,
        bytes := length }
    (a.failed = none → a.committed f q = ok) ∧
    (a.failed = some .hostRead →
      a.committed f q = { ok with code := Status.hostReadError.code, bytes := 0, voids := 1 }) ∧
    (a.failed = some .badList → a.committed f q = { ok with code := Status.badField.code, bytes := 0, voids := 1 })) ∧
  ∀ (c : Chip) (i : StreamId) (status : Status),
    let st := c.stream i
    (st.state = .flushing ∧ status = .flushed ∨ st.state = .closing ∧ st.closeFromFault = false ∧ status = .closed ∨
      st.state = .closing ∧ st.closeFromFault = true ∧ status = .streamFaulted ∨
      st.state = .faulted ∧ status = .streamFaulted) →
    let done := discardable st.admitted
    done = st.admitted.takeWhile Admitted.complete ∧
    (done = [] → c.walk i = c) ∧
    (done ≠ [] →
      let left := done.foldl
        (fun x a => x.answer a.slot fun q =>
          { code := status.code, commandId := q.commandId, streamId := q.streamId, posA := a.seq })
        (c.setStream i { st with admitted := st.admitted.drop done.length })
      c.walk i = ((if st.state = .faulted then left else left.pageReturn i).startArbiter).endCheck i)

/-! ### Fetches -/

/-- FETCH to an OPEN stream, its arrival at the waiting-fetch list, and the end of an indirect list's read. That a full list is
tested before a draining ring is the model's choice (log 33). -/
def Obligations.FetchChecksAndArrives : Prop :=
  (∀ (s : State) (u : Upsets) (id : Nat) (q : Request) (i : StreamId) (most least : Nat) (src : Source),
    s.toChip.ServingStream id q i → q.body = .fetch most least src → (s.toChip.stream i).state = .opened →
    let c := s.taking u id
    let formed := (∃ segs, src = .direct segs ∧ segs ≠ [] ∧
        (∀ x ∈ segs, x.addr.toNat % 16 = 0 ∧ x.len % 16 = 0 ∧ x.len ≠ 0) ∧ (segs.map Segment.len).sum ≤ 4194304) ∨
      ∃ addr count, src = .indirect addr count ∧ addr.toNat % 16 = 0 ∧ 1 ≤ count ∧ count ≤ 256
    (most = 0 ∨ 256 < most ∨ least = 0 ∨ most < least ∨ ¬ formed →
      exec (.fetch u) s = .next (s.withChip (c.refuse id .badField))) ∧
    (1 ≤ most → most ≤ 256 → 1 ≤ least → least ≤ most → formed →
      (∀ segs, src = .direct segs →
        exec (.fetch u) s = .next (s.withChip (c.joinFetches i id most least q.wait segs))) ∧
      ∀ addr count, src = .indirect addr count →
        exec (.fetch u) s = .next (s.withChip (c.place { slot := id, work := .listRead addr count })))) ∧
  (∀ (c : Chip) (i : StreamId) (id most least wait : Nat) (segs : List Segment),
    let st := c.stream i
    let joined := (c.setStream i
      { st with
        waitF := st.waitF ++
          [{ slot := id, maxRecords := most, minRecords := least, capacity := (segs.map Segment.len).sum, wait := wait,
             deadline := if wait = 0 ∨ wait = 65535 then none else some wait }] }).modSlot id
      fun sl => { sl with phase := .waiting, segments := segs }
    (8 ≤ st.waitF.length → c.joinFetches i id most least wait segs = c.refuse id .waitLimit) ∧
    (st.waitF.length < 8 → c.slotDraining id = true →
      c.joinFetches i id most least wait segs = c.cancelInstead id) ∧
    (st.waitF.length < 8 → c.slotDraining id = false → st.waitF ≠ [] →
      c.joinFetches i id most least wait segs = joined) ∧
    (c.slotDraining id = false → st.waitF = [] →
      c.joinFetches i id most least wait segs = joined.evalHead i)) ∧
  ∀ (s : State) (slot : Nat) (u : Upsets) (e : EndReport) (q : Request) (i : StreamId) (most least : Nat) (src : Source),
    s.ctl.state = .active → s.toChip.endOf .list slot = some e → s.toChip.slotRequest slot = some q →
    q.body = .fetch most least src → q.stream = some i →
    let c := (s.toChip.upset u).dropEnd .list slot
    (e.outcome = .hostReadError → exec (.listReadEnd slot u) s = .next (s.withChip (c.refuse slot .hostReadError))) ∧
    (e.outcome = .badField → exec (.listReadEnd slot u) s = .next (s.withChip (c.refuse slot .badField))) ∧
    (e.outcome = .ok → (s.toChip.stream i).state = .opened →
      exec (.listReadEnd slot u) s = .next (s.withChip (c.joinFetches i slot most least q.wait e.segments))) ∧
    (∀ status, e.outcome = .ok → stateCheck .io (s.toChip.stream i).state = some status →
      exec (.listReadEnd slot u) s = .next (s.withChip (c.refuse slot status)))

/-- What an evaluation of the waiting-fetch head decides. -/
def Obligations.HeadEvaluationDecides : Prop :=
  ∀ (c : Chip) (i : StreamId) (h : WaitingFetch) (rest : List WaitingFetch),
    let st := c.stream i
    let available := st.frontier - st.read
    c.isActive = true → st.state = .opened → st.waitF = h :: rest →
    let again : Chip × Bool → Chip := fun r => if r.2 then r.1.evalHead i else r.1
    (st.active ≠ none → c.evalHead i = c) ∧
    (st.active = none → h.minRecords ≤ available → c.evalHead i = again (c.grant i h rest false)) ∧
    (st.active = none → available < h.minRecords → h.wait = 0 → 1 ≤ available →
      c.evalHead i = again (c.grant i h rest true)) ∧
    (st.active = none → available < h.minRecords → h.wait = 0 → available = 0 →
      c.evalHead i = ((c.setStream i { st with waitF := rest }).answer h.slot fun q =>
        { code := Status.noData.code, commandId := q.commandId, streamId := q.streamId, posA := st.read }).evalHead i) ∧
    (st.active = none → available < h.minRecords → h.wait ≠ 0 → c.evalHead i = c)

/-- A grant by what its sizing walk finds: as many records as the capacity holds, up to the bound; the place of each record
follows from the one before it along the chain's links (places of a header's and a link's bits: log 13). A header is read also
when the capacity left holds no record (log 44). Each header counted is read by readHeader with a sound result and each link on the
way is a followChain that answers some; the walk is broken exactly when one of them answers none, at that link's page (R54, R87,
R155). -/
def Obligations.GrantByItsSizing : Prop :=
  ∀ (c : Chip) (i : StreamId) (h : WaitingFetch) (rest : List WaitingFetch) (short : Bool),
    let st := c.stream i
    let bound := min h.maxRecords (st.frontier - st.read)
    let sizing := sizeWalk i h.capacity st.next bound c st.read st.readLoc.place.1 st.readLoc.place.2 0 0
    let link : Nat → Nat := fun p => ((c.mem.word (c.pool.usable * 512 + p)).extractLsb' 0 32).toNat
    let stored : Nat → Nat × Nat → Option Header := fun seq at_ =>
      judgeHeader (c.mem.word (at_.1 * 512 + at_.2 / 8)) (c.mem.word (at_.1 * 512 + at_.2 / 8 + 1)) i seq
    let after : Nat → Nat × Nat → Nat → Nat × Nat := fun seq at_ f =>
      let hops := if seq + 1 < st.next then (at_.2 + f) / 4096 else (at_.2 + f - 1) / 4096
      (Nat.iterate link hops at_.1, at_.2 + f - 4096 * hops)
    let sameBytes : BufferMemory → Prop := fun m => (∀ a, m.readByte a = c.mem.readByte a) ∧ m.size = c.mem.size
    let start : WalkPlace := { chip := c, page := st.readLoc.place.1, offset := st.readLoc.place.2 }
    let at_ : Nat → WalkPlace := start.after i st.next st.read
    let header : Nat → Option Header := fun n => ((at_ n).header i (st.read + n)).2
    let read : Nat → Chip := fun n => { (at_ n).chip with mem := ((at_ n).header i (st.read + n)).1 }
    let total : Nat → Nat := fun n => ((List.range n).map fun k => (at_ k).size i (st.read + k)).sum
    let counted : Nat → Prop := fun n => ∀ m, m < n → start.Counted i st.next st.read h.capacity m
    let broken : Nat → Nat → Prop := fun n j =>
      header n ≠ none ∧ total (n + 1) ≤ h.capacity ∧ j < (at_ n).hops i st.next (st.read + n) ∧
        (at_ n).link i (st.read + n) j = none ∧ ∀ m, m < j → (at_ n).link i (st.read + n) m ≠ none
    (∀ n, n < bound → counted n →
      (header n = none → sizing = .broken (read n) .recordHeader none) ∧
      (header n ≠ none → h.capacity < total (n + 1) → sizing =
        if n = 0 then .small (read n) ((at_ n).size i (st.read + n)) else .sized (read n) n (.at (at_ n).page (at_ n).offset)) ∧
      ∀ j, broken n j → sizing =
        .broken (((at_ n).hop i (st.read + n) j).1.followChain i ((at_ n).hop i (st.read + n) j).2).1 .chainLink
          (some ((at_ n).hop i (st.read + n) j).2)) ∧
    (counted bound → sizing = .sized (at_ bound).chip bound (.at (at_ bound).page (at_ bound).offset)) ∧
    (∀ c1 n loc, sizing = .sized c1 n loc →
      counted n ∧ loc = .at (at_ n).page (at_ n).offset ∧ (n < bound → header n ≠ none ∧ h.capacity < total (n + 1)) ∧
      n ≤ h.maxRecords ∧ n ≤ st.frontier - st.read ∧ c1 = { c with mem := c1.mem } ∧ sameBytes c1.mem ∧
      (∃ (sizes : List Nat) (place : Nat → Nat × Nat),
        place 0 = st.readLoc.place ∧
        (∀ k f, sizes[k]? = some f →
          (∃ r, stored (st.read + k) (place k) = some r ∧ f = 16 + (r.length + 15) / 16 * 16) ∧
          (k < n → place (k + 1) = after (st.read + k) (place k) f)) ∧
        loc = .at (place n).1 (place n).2 ∧ (sizes.take n).sum ≤ h.capacity ∧
        (n = bound ∧ sizes.length = n ∨ n < bound ∧ sizes.length = n + 1 ∧ h.capacity < sizes.sum) ∧
        (1 ≤ bound → 1 ≤ n)) ∧
      c.grant i h rest short =
        ((((c1.setStream i
            { st with
              waitF := rest
              active := some
                { first := st.read, endSeq := st.read + n, firstLoc := st.readLoc, endLoc := loc,
                  pin := st.readLoc.place.1, slot := h.slot, short := short, stopped := false }
              read := st.read + n
              readLoc := loc }).setPhase h.slot .admitted).place
            { slot := h.slot
              work := .fetchCopy i st.read (st.read + n) st.readLoc h.capacity (c.slotSegments h.slot) }).evalBacklog i,
          false)) ∧
    (∀ c1 f, sizing = .small c1 f →
      header 0 ≠ none ∧ f = (at_ 0).size i st.read ∧
      h.capacity < f ∧ c1 = { c with mem := c1.mem } ∧ sameBytes c1.mem ∧
      (∃ r, stored st.read st.readLoc.place = some r ∧ f = 16 + (r.length + 15) / 16 * 16) ∧
      c.grant i h rest short =
        ((c1.setStream i { st with waitF := rest }).answer h.slot fun q =>
          { code := Status.bufferSmall.code, commandId := q.commandId, streamId := q.streamId, posA := st.read,
            bytes := f }, true)) ∧
    ∀ c1 cause brk, sizing = .broken c1 cause brk →
      (∃ n, n < bound ∧ counted n ∧
        (header n = none ∧ cause = .recordHeader ∧ brk = none ∨
          ∃ j, broken n j ∧ cause = .chainLink ∧ brk = some ((at_ n).hop i (st.read + n) j).2)) ∧
      c1 = { c with mem := c1.mem } ∧ sameBytes c1.mem ∧ c.grant i h rest short = (c1.faultStream i cause brk, false)

/-- FETCH_COPY_END: a success by the mode in force, a host write error, and a stopped fetch; outside ACTIVE the end is discarded.
When page return meets a break is written out in PageReturnReturnsUpToTheFirstStop. -/
def Obligations.FetchCopyEndByOutcome : Prop :=
  (∀ (s : State) (slot : Nat) (u : Upsets), s.ctl.state ≠ .active →
    exec (.fetchCopyEnd slot u) s = .next (s.withChip ((s.toChip.upset u).dropEnd .fetch slot))) ∧
  ∀ (s : State) (slot : Nat) (u : Upsets) (e : EndReport) (i : StreamId) (a : ActiveFetch),
    s.ctl.state = .active → s.toChip.endOf .fetch slot = some e →
    s.toChip.slotStream slot = some i → (s.toChip.stream i).active = some a → a.slot = slot →
    let st := s.toChip.stream i
    let c := (s.toChip.upset u).dropEnd .fetch slot
    let done : Status → Nat → Nat → Nat → Bool → Chip := fun status count bytes voids damaged =>
      c.answer slot fun q =>
        { code := status.code, commandId := q.commandId, streamId := q.streamId, short := a.short, damaged := damaged,
          posA := a.first, posB := a.endSeq, count := count, bytes := bytes, voids := voids }
    let ok := done .ok (a.endSeq - a.first) e.bytes e.voids e.anyConverted
    let failed := done .hostWriteError 0 0 0 e.anyConverted
    let stopped := done .mediaError e.count e.bytes e.voids e.converted
    let consumed : StreamEntry :=
      let base := max st.base a.endSeq
      let baseLoc := if st.base < a.endSeq then a.endLoc else st.baseLoc
      { st with
        base := base, baseLoc := baseLoc, read := max st.read base,
        readLoc := if st.read < base then baseLoc else st.readLoc }
    let restored : StreamEntry :=
      let read := if st.read = a.endSeq then max a.first st.base else st.read
      { st with
        read := read
        readLoc := if st.read = a.endSeq then (if st.base < a.first then a.firstLoc else st.baseLoc) else st.readLoc
        marks := st.marks.filter fun m => decide (m.pos ≤ read) }
    (a.stopped = false → e.outcome = .ok → st.state = .opened → st.mode = .consume →
      exec (.fetchCopyEnd slot u) s = .next (s.withChip
        ((((((ok.setStream i consumed).evalBacklog i).modStream i fun x => { x with active := none }).pageReturn
          i).evalHead i).endCheck i))) ∧
    (a.stopped = false → e.outcome = .ok → st.state ≠ .opened ∨ st.mode = .retain →
      exec (.fetchCopyEnd slot u) s = .next (s.withChip
        ((((ok.setStream i { st with active := none }).pageReturn i).evalHead i).endCheck i))) ∧
    (a.stopped = false → e.outcome = .hostWriteError →
      exec (.fetchCopyEnd slot u) s = .next (s.withChip
        (((((failed.setStream i { restored with active := none }).pageReturn i).evalBacklog i).evalHead i).endCheck i))) ∧
    (a.stopped = true ∨ e.outcome = .stopped →
      (st.state = .closing → exec (.fetchCopyEnd slot u) s = .next (s.withChip
        (((stopped.setStream i { st with active := none }).pageReturn i).endCheck i))) ∧
      (st.state ≠ .closing → exec (.fetchCopyEnd slot u) s = .next (s.withChip
        (stopped.setStream i { st with active := none }))))

/-! ### Marks, rewind, release, and page return -/

/-- MARK on an OPEN stream. -/
def Obligations.MarkPlacesAMarkAtRead : Prop :=
  ∀ (s : State) (id : Nat) (q : Request) (i : StreamId),
    s.toChip.ServingStream id q i → q.body = .mark → (s.toChip.stream i).state = .opened →
    let st := s.toChip.stream i
    let c := s.taking [] id
    let done : Status → Nat → Nat → Request → Completion := fun status a b q =>
      { code := status.code, commandId := q.commandId, streamId := q.streamId, posA := a, posB := b }
    (st.mode = .consume → exec .mark s = .next (s.withChip (c.refuse id .wrongMode))) ∧
    (st.mode = .retain → (st.marks.getLast?.map Mark.pos) = some st.read →
      exec .mark s = .next (s.withChip (c.answer id (done .ok st.read st.read)))) ∧
    (st.mode = .retain → (st.marks.getLast?.map Mark.pos) ≠ some st.read → 8 ≤ st.marks.length →
      exec .mark s = .next (s.withChip (c.answer id (done .markLimit st.base st.read)))) ∧
    (st.mode = .retain → (st.marks.getLast?.map Mark.pos) ≠ some st.read → st.marks.length < 8 →
      exec .mark s = .next (s.withChip
        ((c.setStream i { st with marks := st.marks ++ [{ pos := st.read, loc := st.readLoc }] }).answer id
          (done .ok st.read st.read))))

/-- REWIND on an OPEN stream: its checks, its target, and what it does. -/
def Obligations.RewindLowersReadToItsTarget : Prop :=
  ∀ (s : State) (u : Upsets) (id : Nat) (q : Request) (i : StreamId) (variant target : Nat),
    s.toChip.ServingStream id q i → q.body = .rewind variant target → (s.toChip.stream i).state = .opened →
    let st := s.toChip.stream i
    let c := s.taking u id
    let done : Status → Nat → Nat → Nat → Request → Completion := fun status a b n q =>
      { code := status.code, commandId := q.commandId, streamId := q.streamId, posA := a, posB := b, count := n }
    let outside := target < st.base ∨ st.read < target
    (st.mode = .consume → exec (.rewind u) s = .next (s.withChip (c.refuse id .wrongMode))) ∧
    (st.mode = .retain → variant = 0 → exec (.rewind u) s = .next (s.withChip (c.refuse id .badField))) ∧
    (st.mode = .retain → variant = 1 ∧ st.marks = [] ∨ variant = 2 ∧ ¬ outside ∧ (∀ m ∈ st.marks, m.pos ≠ target) →
      exec (.rewind u) s = .next (s.withChip (c.answer id (done .noMark st.base st.read 0)))) ∧
    (st.mode = .retain → variant = 2 → outside →
      exec (.rewind u) s = .next (s.withChip (c.answer id (done .badTarget st.base st.read 0)))) ∧
    ∀ m : Mark, st.mode = .retain →
      (variant = 1 ∧ st.marks.getLast? = some m ∨
        variant = 2 ∧ ¬ outside ∧ st.marks.find? (fun m => m.pos == target) = some m ∨
        variant = 3 ∧ m = { pos := st.base, loc := st.baseLoc }) →
      (m.pos = st.read → exec (.rewind u) s = .next (s.withChip (c.answer id (done .ok st.read st.read 0)))) ∧
      (m.pos ≠ st.read → exec (.rewind u) s = .next (s.withChip
        ((((c.setStream i
          { st with
            read := m.pos, readLoc := m.loc, marks := st.marks.filter fun x => decide (x.pos ≤ m.pos) }).evalBacklog
          i).evalHead i).answer id (done .ok st.read m.pos (st.read - m.pos)))))

/-- RELEASE on an OPEN stream: its checks, its target, and what it does. That it completes with OK also when its page return meets a
break is the model's reading (log 24). When page return meets a break is written out in PageReturnReturnsUpToTheFirstStop. -/
def Obligations.ReleaseRaisesBaseToItsTarget : Prop :=
  ∀ (s : State) (u : Upsets) (id : Nat) (q : Request) (i : StreamId) (variant target : Nat),
    s.toChip.ServingStream id q i → q.body = .release variant target → (s.toChip.stream i).state = .opened →
    let st := s.toChip.stream i
    let c := s.taking u id
    let done : Status → Nat → Nat → Nat → Request → Completion := fun status a b n q =>
      { code := status.code, commandId := q.commandId, streamId := q.streamId, posA := a, posB := b, count := n }
    let outside := target < st.base ∨ st.read < target
    (st.mode = .consume → exec (.release u) s = .next (s.withChip (c.refuse id .wrongMode))) ∧
    (st.mode = .retain → variant = 0 → exec (.release u) s = .next (s.withChip (c.refuse id .badField))) ∧
    (st.mode = .retain → variant = 1 ∧ st.marks = [] ∨ variant = 2 ∧ ¬ outside ∧ (∀ m ∈ st.marks, m.pos ≠ target) →
      exec (.release u) s = .next (s.withChip (c.answer id (done .noMark st.base st.read 0)))) ∧
    (st.mode = .retain → variant = 2 → outside →
      exec (.release u) s = .next (s.withChip (c.answer id (done .badTarget st.base st.read 0)))) ∧
    ∀ m : Mark, st.mode = .retain →
      (variant = 1 ∧ st.marks.head? = some m ∨
        variant = 2 ∧ ¬ outside ∧ st.marks.find? (fun m => m.pos == target) = some m ∨
        variant = 3 ∧ m = { pos := st.read, loc := st.readLoc }) →
      let raised := c.setStream i
        { st with base := m.pos, baseLoc := m.loc, marks := st.marks.filter fun x => decide (m.pos < x.pos) }
      (st.base < m.pos → exec (.release u) s = .next (s.withChip
        ((raised.pageReturn i).answer id (done .ok st.base m.pos (m.pos - st.base))))) ∧
      (m.pos ≤ st.base → exec (.release u) s = .next (s.withChip
        (raised.answer id (done .ok st.base m.pos 0))))

/-- The pages a run of page return gives back, with the occupancy monitor evaluated after each; how pages that are returned join
the free list, and what a tail truncation takes off a chain (layout of the link table: log 13); and when page return, a whole-chain
return and a truncation meet a break: at the first page whose link is followed and gives no page (R84, R87, R96; a truncation
follows the links up to the new tail page too, log 27). `l` is the old tail of the free
list, if any, with the pages returned, and the clauses on links speak of every page `l` names once. That the base page is a stop
in CLOSING too is the model's reading (log 37). -/
def Obligations.PageReturnReturnsUpToTheFirstStop : Prop :=
  (∀ (st : StreamEntry) (p : Nat),
    st.isStop p = true ↔
      ¬ (st.base = st.next ∧ st.admitted = [] ∧ st.active = none) ∧
      ((∃ offset, st.baseLoc = .at p offset ∧ offset < 4096) ∨ (∃ a, st.active = some a ∧ a.pin = p) ∨
        ((st.state = .flushing ∨ st.state = .closing) ∧ ∃ a rest, st.admitted = a :: rest ∧ a.page = p))) ∧
  (∀ (c : Chip) (i : StreamId),
    let st := c.stream i
    let r := c.pageReturnRun i
    let e := r.chip.stream i
    r.broken = none →
    (∃ after : Nat → Chip, after 0 = c ∧
      (∀ n, n < r.returned → ∃ x : Chip, after (n + 1) = x.evalOccupancy i ∧
        x.stream i = { (after n).stream i with chain := st.chain.drop (n + 1) } ∧
        x.ctl = (after n).ctl ∧ x.rings = (after n).rings ∧ x.link = (after n).link ∧
        x.pool.free = (after n).pool.free + 1) ∧
      r.chip = (if ((after r.returned).stream i).chain = [] then (after r.returned).modStream i fun x =>
          { x with
            tail := 0, baseLoc := .chainStart, readLoc := .chainStart
            marks := x.marks.map fun m => { m with loc := .chainStart } }
        else after r.returned).startArbiterIf (r.returned != 0)) ∧
    e.chain = st.chain.drop r.returned ∧ r.returned ≤ st.chain.length ∧
    (∀ k p, k < r.returned → st.chain[k]? = some p → st.isStop p = false) ∧
    (∀ p, st.chain[r.returned]? = some p → st.isStop p = true) ∧
    r.chip.pool.free = c.pool.free + r.returned ∧ r.chip.pool.lost = c.pool.lost ∧
    (c.isActive = true → r.chip.pool.starts = c.pool.starts + if r.returned = 0 then 0 else 1) ∧
    e.tail = (if e.chain = [] then 0 else st.tail) ∧ e.base = st.base ∧ e.read = st.read ∧
    e.frontier = st.frontier ∧ e.next = st.next ∧ e.state = st.state ∧ e.active = st.active ∧
    e.admitted = st.admitted ∧ r.chip.ctl = c.ctl ∧ ∀ j, j ≠ i → r.chip.stream j = c.stream j) ∧
  (∀ (c : Chip) (i : StreamId),
    let st := c.stream i
    let all := c.returnAll i
    (all.1.stream i).chain = [] ∧ all.1.pool.usable = c.pool.usable ∧
    all.1.pool.free + all.1.pool.lost = c.pool.free + c.pool.lost + st.chain.length ∧
    c.pool.free ≤ all.1.pool.free ∧ c.pool.lost ≤ all.1.pool.lost ∧
    (all.2 = false → all.1.pool.free = c.pool.free + st.chain.length)) ∧
  (∀ (c t : Chip) (i : StreamId) (k : Nat), c.memOk →
    t = (c.pageReturnRun i).chip ∧ k = (c.pageReturnRun i).returned ∨
      t = (c.returnAll i).1 ∧ c.pool.free + k = (c.returnAll i).1.pool.free →
    let link : Option Nat → Option StreamId → DWord := fun next owner =>
      BitVec.ofNat 32 (match owner with | none => 2 ^ 32 - 1 | some i => i.val) ++
        BitVec.ofNat 32 (match next with | none => 2 ^ 32 - 1 | some p => p)
    let ps := (c.stream i).chain.take k
    let l := c.pool.tail.toList ++ ps
    t.pool.tail = l.getLast? ∧ t.pool.head = c.pool.head.or ps.head? ∧
    (∀ n p : Nat, ps ≠ [] → l[n]? = some p → (∀ m : Nat, l[m]? = some p → m = n) →
      t.mem.word (c.pool.usable * 512 + p) = link l[n + 1]? none) ∧
    ∀ a, (∀ p ∈ l, a / 8 ≠ c.pool.usable * 512 + p) → t.mem.readByte a = c.mem.readByte a) ∧
  (∀ (c t : Chip) (i : StreamId) (last : Nat), c.memOk → c.truncateTail i last = (t, none) →
    let link : Option Nat → Option StreamId → DWord := fun next owner =>
      BitVec.ofNat 32 (match owner with | none => 2 ^ 32 - 1 | some i => i.val) ++
        BitVec.ofNat 32 (match next with | none => 2 ^ 32 - 1 | some p => p)
    let chain := (c.stream i).chain
    let ps := (chain.dropWhile fun p => p != last).drop 1
    let l := c.pool.tail.toList ++ ps
    (t.stream i).chain = ps.foldl List.erase chain ∧ t.pool.free = c.pool.free + ps.length ∧
    t.pool.lost = c.pool.lost ∧ t.pool.tail = l.getLast? ∧ t.pool.head = c.pool.head.or ps.head? ∧
    (∀ n p : Nat, ps ≠ [] → p ≠ last → l[n]? = some p → (∀ m : Nat, l[m]? = some p → m = n) →
      t.mem.word (c.pool.usable * 512 + p) = link l[n + 1]? none) ∧
    (ps ≠ [] → t.mem.word (c.pool.usable * 512 + last) = link none (some i)) ∧
    ∀ a, (∀ p ∈ last :: l, a / 8 ≠ c.pool.usable * 512 + p) → t.mem.readByte a = c.mem.readByte a) ∧
  (∀ (c : Chip) (i : StreamId) (p : Nat) (rest : List Nat),
    c.takeBack i p rest =
      ({ c.setStream i { c.stream i with chain := rest } with
        pool := { c.pool with free := c.pool.free + 1, tail := some p, head := c.pool.head.or (some p) }
        mem := match c.pool.tail with
          | none => c.mem.writeLink c.pool.usable p none none
          | some t => (c.mem.writeLink c.pool.usable p none none).writeLink c.pool.usable t (some p) none } :
        Chip).evalOccupancy i) ∧
  (∀ (c : Chip) (i : StreamId),
    let st := c.stream i
    let r := c.pageReturnRun i
    let at_ : Nat → Chip := fun n => c.headsTaken i n
    r.returned ≤ st.chain.length ∧
    (∀ n p, n < r.returned → st.chain[n]? = some p →
      st.isStop p = false ∧ (n + 1 < st.chain.length → ((at_ n).followChain i p).2 ≠ none)) ∧
    (∀ p, r.broken = some p ↔
      FirstBreak i st.chain (st.chain.length - 1) at_ r.returned p ∧ st.isStop p = false) ∧
    ∀ p, r.broken = some p → r.chip = ((at_ r.returned).followChain i p).1.startArbiterIf (r.returned != 0)) ∧
  (∀ (c : Chip) (i : StreamId),
    let chain := (c.stream i).chain
    let all := c.returnAll i
    let first := FirstBreak i chain (chain.length - 1) fun n => c.headsTaken i n
    (all.2 = true ↔ ∃ n p, first n p) ∧
    (all.2 = false → all.1 = (c.headsTaken i chain.length).startArbiterIf (chain.length != 0)) ∧
    ∀ n p, first n p →
      all.1 = ((((c.headsTaken i n).followChain i p).1.breakChain i p).takeBack i p []).startArbiterIf true ∧
      all.1.pool.free = c.pool.free + n + 1 ∧ all.1.pool.lost = c.pool.lost + (chain.length - (n + 1))) ∧
  ∀ (c : Chip) (i : StreamId) (last : Nat),
    let chain := (c.stream i).chain
    let before := chain.takeWhile fun p => p != last
    let ps := (chain.dropWhile fun p => p != last).drop 1
    let x : Nat → Chip := fun n => c.linksFollowed i (before.take n)
    let here := (x before.length).followChain i last
    let y : Nat → Chip := fun n => here.1.tailDropped i last ps n
    let t := c.truncateTail i last
    (∀ n p, FirstBreak i before before.length x n p → t = (((x n).followChain i p).1, some p)) ∧
    ((∀ n p, ¬ FirstBreak i before before.length x n p) →
      (ps = [] → t = (x before.length, none)) ∧
      (ps ≠ [] → here.2 = none → t = (here.1, some last)) ∧
      (ps ≠ [] → here.2 ≠ none →
        (∀ n p, FirstBreak i ps (ps.length - 1) y n p → t = (((y n).followChain i p).1, some p)) ∧
        ((∀ n p, ¬ FirstBreak i ps (ps.length - 1) y n p) → t = (y ps.length, none))))

/-- A break of a chain (the tail offset it leaves: log 41; layout of the link table: log 13); a stream that enters FAULTED, with
the completions of its waiting requests and of a pending flush (their order among the other effects of the event: log 25); what a
record-header or chain-link error does in each state of its stream (in CLOSED and HELD, where no run meets one, nothing by the
model's choice, log 35), and a break met by page return (when it meets one is written out in PageReturnReturnsUpToTheFirstStop); and
the stop of a fetch copy. -/
def Obligations.FaultDropsWaitingWork : Prop :=
  (∀ (c : Chip) (i : StreamId) (p : Nat),
    let st := c.stream i
    let kept := st.chain.take (st.chain.idxOf p + 1)
    let beyond := st.chain.length - kept.length
    let w := c.pool.usable * 512 + p
    let t := c.breakChain i p
    (p ∉ st.chain → t = c) ∧
    (p ∈ st.chain →
      t = { c.setStream i { st with chain := kept, tail := if beyond = 0 then st.tail else 4096 } with
        pool := { c.pool with lost := c.pool.lost + beyond }
        mem := t.mem } ∧
      (∀ a, a / 8 ≠ w → t.mem.readByte a = c.mem.readByte a) ∧
      (c.mem.wf = true → ((t.mem.word w).extractLsb' 0 32).toNat = 2 ^ 32 - 1 ∧
        ((t.mem.word w).extractLsb' 32 32).toNat = i.val) ∧
      t.mem.size = c.mem.size ∧ t.mem.corrected = c.mem.corrected ∧ t.mem.damaged = c.mem.damaged)) ∧
  (∀ (c : Chip) (i : StreamId) (cause : FaultCause) (brk : Option Nat),
    let st := c.stream i
    let kept := match brk with
      | none => st.chain
      | some p => if p ∈ st.chain then st.chain.take (st.chain.idxOf p + 1) else st.chain
    let tail := if st.chain.length - kept.length = 0 then st.tail else 4096
    let mem := match brk with
      | none => c.mem
      | some p => (c.breakChain i p).mem
    let t := c.reportMedia i cause brk
    (st.state = .opened ∨ st.state = .flushing → t = c.faultStream i cause brk) ∧
    (st.state = .closing →
      t.stream i =
        { st with
          chain := kept, tail := tail, closeMedia := true
          active := st.active.map fun a => { a with stopped := true } } ∧
      t.mem = mem ∧
      t.pool = { c.pool with lost := c.pool.lost + (st.chain.length - kept.length) } ∧
      (∀ a, st.active = some a → t.engine = (c.stopCopy a.slot).engine) ∧
      (st.active = none → t.engine = c.engine) ∧ t.rings = c.rings ∧ t.link = c.link ∧ t.ctl = c.ctl ∧
      ∀ j, j ≠ i → t.stream j = c.stream j) ∧
    (st.state = .faulted →
      t.stream i = { st with chain := kept, tail := tail } ∧ t.mem = mem ∧
      t.pool = { c.pool with lost := c.pool.lost + (st.chain.length - kept.length) } ∧
      t.engine = c.engine ∧ t.rings = c.rings ∧ t.link = c.link ∧ t.ctl = c.ctl ∧
      ∀ j, j ≠ i → t.stream j = c.stream j) ∧
    (st.state = .closed ∨ st.state = .held → t = c)) ∧
  (∀ (c : Chip) (i : StreamId),
    let st := c.stream i
    let r := c.pageReturnRun i
    (r.broken = none → c.pageReturn i = r.chip) ∧
    ∀ p, r.broken = some p →
      (∃ q rest, (r.chip.stream i).chain = p :: q :: rest) ∧
      (st.state = .opened ∨ st.state = .flushing → c.pageReturn i = r.chip.faultStream i .chainLink (some p)) ∧
      (st.state = .closing → ∃ t, c.pageReturn i = t ∧
        t.stream i = { r.chip.stream i with chain := [p], tail := 4096, closeMedia := true } ∧
        t.mem = (r.chip.breakChain i p).mem ∧
        t.pool = { r.chip.pool with lost := r.chip.pool.lost + ((r.chip.stream i).chain.length - 1) } ∧
        t.engine = r.chip.engine ∧ t.rings = r.chip.rings ∧ t.link = r.chip.link ∧ t.ctl = r.chip.ctl)) ∧
  (∀ (c : Chip) (id : Nat),
    ((∃ t ∈ c.engine.queue, t.slot = id) → c.stopCopy id =
      { c with
        engine := { c.engine with
          queue := c.engine.queue.filter fun t => t.slot != id
          ends := c.engine.ends ++
            [{ slot := id, kind := .fetch, outcome := .stopped, segments := [], count := 0, bytes := 0, voids := 0,
               converted := false, anyConverted := false }] } }) ∧
    ((∀ t ∈ c.engine.queue, t.slot ≠ id) →
      ((∀ k t, (c.ctx k).transfer = some t → t.slot ≠ id) → c.stopCopy id = c) ∧
      ∀ (k : CtxId) (t : Transfer), (c.ctx k).transfer = some t → t.slot = id →
        (∀ j t', j < k → (c.ctx j).transfer = some t' → t'.slot ≠ id) →
        ((c.ctx k).state = .running →
          c.stopCopy id = (c.setCtx k { c.ctx k with state := .finishing, outcome := .stopped }).settle k) ∧
        ((c.ctx k).state ≠ .running → c.stopCopy id = c.settle k))) ∧
  ∀ (c : Chip) (i : StreamId) (cause : FaultCause) (brk : Option Nat),
    let st := c.stream i
    let t := c.faultStream i cause brk
    let e := t.stream i
    let kept := match brk with
      | none => st.chain
      | some p => if p ∈ st.chain then st.chain.take (st.chain.idxOf p + 1) else st.chain
    let tail := if st.chain.length - kept.length = 0 then st.tail else 4096
    let mem := match brk with
      | none => c.mem
      | some p => (c.breakChain i p).mem
    let faulted : Request → Completion := fun q =>
      { code := Status.streamFaulted.code, commandId := q.commandId, streamId := q.streamId }
    t.mem = mem ∧ e.tail = tail ∧
    (∃ x : Chip, x.rings = c.rings ∧ x.link = c.link ∧ x.ctl = c.ctl ∧
      (∀ a, st.active = some a → x.engine = (c.stopCopy a.slot).engine) ∧ (st.active = none → x.engine = c.engine) ∧
      x.stream i =
        { st with
          state := .faulted, reserve := 0, pendingEnd := none, readyLatch := false, occLatch := none
          faultLatch := some cause, waitA := [], waitF := [], chain := kept, tail := tail
          active := st.active.map fun a => { a with stopped := true } } ∧
      let refused := (st.waitA.map WaitingAppend.slot ++ st.waitF.map WaitingFetch.slot).foldl
        (fun y w => y.answer w faulted) x
      let ended := match st.pendingEnd with
        | none => refused
        | some d => refused.answer d faulted
      t = (ended.attempt i).startArbiterIf (st.unmet != 0)) ∧
    e.state = .faulted ∧ e.reserve = 0 ∧ e.waitA = [] ∧ e.waitF = [] ∧ e.pendingEnd = none ∧
    e.readyLatch = false ∧ e.occLatch = none ∧
    (e.faultLatch = some cause ∨ (e.faultLatch = none ∧ st.noticeRing ≠ none)) ∧
    (st.noticeRing = none ∨ c.isActive = false → e.faultLatch = some cause) ∧
    e.base = st.base ∧ e.read = st.read ∧ e.frontier = st.frontier ∧ e.next = st.next ∧ e.marks = st.marks ∧
    e.admitted = st.admitted ∧ e.active = st.active.map (fun a => { a with stopped := true }) ∧
    (brk = none → e.chain = st.chain ∧ t.pool.lost = c.pool.lost) ∧
    (∀ p, brk = some p → p ∈ st.chain →
      e.chain = st.chain.take (st.chain.idxOf p + 1) ∧
      t.pool.lost = c.pool.lost + (st.chain.length - e.chain.length)) ∧
    t.pool.free = c.pool.free ∧ ∀ j, j ≠ i → t.stream j = c.stream j

/-! ### Monitors -/

/-- An evaluation of the backlog monitor. -/
def Obligations.BacklogMonitorEvaluation : Prop :=
  ∀ (c : Chip) (i : StreamId),
    let st := c.stream i
    let unread := st.frontier - st.read
    let risen := c.setStream i { st with backlog := .atOrAbove, readyLatch := true }
    (c.isActive = false ∨ st.state ≠ .opened → c.evalBacklog i = c) ∧
    (c.isActive = true → st.state = .opened →
      (st.readyLevel = 0 → c.evalBacklog i = c) ∧
      (1 ≤ st.readyLevel → st.backlog = .below → st.readyLevel ≤ unread →
        (st.readyLatch = false → c.evalBacklog i = risen.attempt i) ∧
        (st.readyLatch = true → c.evalBacklog i = risen)) ∧
      (1 ≤ st.readyLevel → st.backlog = .below → unread < st.readyLevel → c.evalBacklog i = c) ∧
      (1 ≤ st.readyLevel → st.backlog = .atOrAbove → st.readyLevel ≤ unread → c.evalBacklog i = c) ∧
      (1 ≤ st.readyLevel → st.backlog = .atOrAbove → unread < st.readyLevel →
        c.evalBacklog i = c.setStream i { st with backlog := .below }))

/-- An evaluation of the occupancy monitor. -/
def Obligations.OccupancyMonitorEvaluation : Prop :=
  ∀ (c : Chip) (i : StreamId),
    let st := c.stream i
    let held := st.chain.length
    let latched : Occupancy → OccLatch := fun o =>
      match st.occLatch with
      | none => { state := o, count := 1 }
      | some l => { state := o, count := if l.count < 255 then l.count + 1 else l.count }
    let entered : Occupancy → Chip := fun o =>
      (c.setStream i { st with occupancy := o, occLatch := some (latched o) }).attempt i
    (c.isActive = false ∨ (st.state ≠ .opened ∧ st.state ≠ .flushing) → c.evalOccupancy i = c) ∧
    (c.isActive = true → st.state = .opened ∨ st.state = .flushing →
      (st.pressureLevel = 0 → c.evalOccupancy i = c) ∧
      (1 ≤ st.pressureLevel → st.occupancy = .calm → st.pressureLevel ≤ held →
        c.evalOccupancy i = entered .pressed) ∧
      (1 ≤ st.pressureLevel → st.occupancy = .calm → held < st.pressureLevel → c.evalOccupancy i = c) ∧
      (1 ≤ st.pressureLevel → st.occupancy = .pressed → held ≤ st.reliefLevel →
        c.evalOccupancy i = entered .calm) ∧
      (1 ≤ st.pressureLevel → st.occupancy = .pressed → st.reliefLevel < held → c.evalOccupancy i = c))

/-! ### The grant arbiter -/

/-- GRANT_ARBITER_START and GRANT_ARBITER_VISIT, with what an admission by the arbiter gives the stream, the pool, the stored header
and the transfer queue, as at arrival. When an allocation meets a link error is written out in AllocationByQuotaAndRoom. -/
def Obligations.GrantArbiterStartsAndVisits : Prop :=
  (∀ s : State, s.ctl.state = .active → s.pool.starts ≠ 0 →
    (s.pool.run = none → exec .grantArbiterStart s = .next (s.withChip
      { s.toChip with
        pool := { s.pool with
          starts := s.pool.starts - 1
          run := some { cursor := Fin.ofNat 512 (s.pool.grantPtr.val + 1), count := 0 } } })) ∧
    (∀ r, s.pool.run = some r → exec .grantArbiterStart s = .next (s.withChip
      { s.toChip with
        pool := { s.pool with starts := s.pool.starts - 1, run := some { cursor := r.cursor, count := 0 } } }))) ∧
  ∀ (s : State) (u : Upsets) (r : ArbiterRun), s.ctl.state = .active → s.pool.run = some r →
    let i := r.cursor
    let st := s.toChip.stream i
    let c := s.toChip.upset u
    let after : StreamId := Fin.ofNat 512 (i.val + 1)
    let missed : Chip → Chip := fun c =>
      { c with pool := { c.pool with
          run := if r.count + 1 = 512 then none else some { cursor := after, count := r.count + 1 } } }
    (st.state ≠ .opened ∨ st.waitA = [] → exec (.grantArbiterVisit u) s = .next (s.withChip (missed c))) ∧
    (st.state = .opened → st.waitA ≠ [] → st.next = 2 ^ 48 - 1 →
      exec (.grantArbiterVisit u) s = .next (s.withChip
        (missed ((c.setStream i { st with waitA := [] }).refuseAll (st.waitA.map WaitingAppend.slot) .seqLimit)))) ∧
    (st.state = .opened → st.waitA ≠ [] → st.next ≠ 2 ^ 48 - 1 → 8 ≤ st.admitted.length →
      exec (.grantArbiterVisit u) s = .next (s.withChip (missed c))) ∧
    ∀ w rest q length tag src, st.state = .opened → st.waitA = w :: rest → st.next ≠ 2 ^ 48 - 1 →
      st.admitted.length < 8 → s.toChip.slotRequest w.slot = some q → q.body = .append length tag src →
      (c.allocate i (st.need (footprint length)) = .refused →
        exec (.grantArbiterVisit u) s = .next (s.withChip (missed c))) ∧
      (∀ c1, c.allocate i (st.need (footprint length)) = .linkError c1 → ∃ t,
        exec (.grantArbiterVisit u) s = .next t ∧ t.ctl.state = .halted ∧ t.ctl.cause = .freeList ∧
          t.streams = s.streams ∧ t.pool = s.pool) ∧
      (∀ c1 ps, c.allocate i (st.need (footprint length)) = .pages c1 ps →
        let range := st.rangeOf ps
        let page := (range.1.head?).getD 0
        let moved : Loc → Loc := fun l =>
          match ps, l with
          | [], l => l
          | p :: _, .chainStart => .at p 0
          | p :: _, .at q offset => if offset = 4096 then .at p 0 else .at q offset
        ∃ t e, exec (.grantArbiterVisit u) s = .next t ∧ t.toChip.stream i = e ∧
          e.next = st.next + 1 ∧ e.chain = st.chain ++ ps ∧ ps.length = st.need (footprint length) ∧
          e.tail = st.tailAfter (footprint length) ∧
          e.waitA = st.waitA.filter (fun x => x.slot != w.slot) ∧
          e.admitted = st.admitted ++
            [{ seq := st.next, page := page, offset := range.2, footprint := footprint length, pages := range.1,
               complete := false, failed := none, slot := w.slot }] ∧
          e.baseLoc = moved st.baseLoc ∧ e.readLoc = moved st.readLoc ∧
          e.marks = st.marks.map (fun m => { m with loc := moved m.loc }) ∧
          e.active = st.active.map (fun a => { a with endLoc := moved a.endLoc }) ∧
          e.base = st.base ∧ e.read = st.read ∧ e.frontier = st.frontier ∧ e.state = .opened ∧
          e.waitF = st.waitF ∧ e.reserve = st.reserve ∧ e.quota = st.quota ∧
          (∃ x : Chip,
            let y := if ps = [] then x else x.evalOccupancy i
            let z := y.modStream i fun e => { e with waitA := e.waitA.filter fun x => x.slot != w.slot }
            t = s.withChip
              { z with pool := { z.pool with grantPtr := i, run := some { cursor := after, count := 0 } } } ∧
            x.ctl = s.ctl ∧ (x.stream i).chain = st.chain ++ ps ∧ (x.stream i).state = .opened ∧
            (x.stream i).occupancy = st.occupancy ∧ (x.stream i).occLatch = st.occLatch ∧
            (x.stream i).pressureLevel = st.pressureLevel ∧ (x.stream i).reliefLevel = st.reliefLevel) ∧
          (∀ j, j ≠ i → t.toChip.stream j = s.toChip.stream j) ∧ t.ctl = s.ctl ∧
          t.pool.grantPtr = i ∧ t.pool.run = some { cursor := after, count := 0 } ∧
          t.pool.free = s.pool.free - ps.length ∧ t.pool.lost = s.pool.lost ∧
          t.engine.queue = s.engine.queue ++
            [{ slot := w.slot, work := .appendCopy length src range.1 range.2 }] ∧
          (∃ sl, t.toChip.slot? w.slot = some sl ∧ sl.phase = .admitted ∧ sl.request = some q) ∧
          (s.toChip.memOk → 1 ≤ length → length ≤ 32768 → st.next < 2 ^ 48 →
            (t.mem.readHeader i st.next page range.2).2 = some { kind := .normal, length := length, tag := tag }) ∧
          ∀ a, a / 8 < s.pool.usable * 512 → a / 8 ≠ page * 512 + range.2 / 8 →
            a / 8 ≠ page * 512 + range.2 / 8 + 1 → t.mem.readByte a = s.mem.readByte a)

/-! ### The Transfer Engine -/

/-- How an end that is reported joins the list of ends, how the owner finds it there, and how taking it removes it (R142).
The payload reads of an append copy, which lie each in one segment and together cover the record (their size and number: log 8);
when a context's work is done, and what it reports at its end; TRANSFER_START, and a context whose last access has ended. -/
def Obligations.TransfersStartAndEnd : Prop :=
  (∀ (c : Chip) (e : EndReport), c.report e = { c with engine := { c.engine with ends := c.engine.ends ++ [e] } }) ∧
  (∀ (c : Chip) (kind : EndKind) (slot : Nat),
    let named : EndReport → Prop := fun e => e.kind = kind ∧ e.slot = slot
    let d := c.dropEnd kind slot
    (∀ e, c.endOf kind slot = some e ↔
      named e ∧ ∃ before after, c.engine.ends = before ++ e :: after ∧ ∀ x ∈ before, ¬ named x) ∧
    (c.endOf kind slot = none ↔ ∀ e ∈ c.engine.ends, ¬ named e) ∧
    d = { c with engine := { c.engine with ends := d.engine.ends } } ∧
    d.engine.ends.Sublist c.engine.ends ∧ (∀ e, e ∈ d.engine.ends ↔ e ∈ c.engine.ends ∧ ¬ named e) ∧
    ∀ before e after, c.engine.ends = before ++ e :: after → named e → (∀ x ∈ before ++ after, ¬ named x) →
      d.engine.ends = before ++ after) ∧
  (∀ (segs : List Segment) (length : Nat), length ≤ (segs.map Segment.len).sum →
    ((payloadReads segs length).map fun r => (List.range r.len).map fun k => r.off + k).flatten = List.range length ∧
    ∀ r ∈ payloadReads segs length, r.list = false ∧
      ∃ before seg after inside, segs = before ++ seg :: after ∧ inside + r.len ≤ seg.len ∧
        r.addr = seg.addr + BitVec.ofNat 64 inside ∧ r.off = (before.map Segment.len).sum + inside) ∧
  (∀ (x : Context) (t : Transfer),
    let full := x.progress.issued.takeWhile fun r => r.unsent == 0 && !r.failed
    (x.quiet = true ↔ x.reads = [] ∧ x.writes = [] ∧ x.bufReads = [] ∧ x.bufWrites = []) ∧
    (x.transfer = some t → (x.workDone = true ↔
      ∀ i first endSeq loc capacity segs, t.work = .fetchCopy i first endSeq loc capacity segs →
        x.progress.seq = endSeq)) ∧
    x.endReport t =
      { slot := t.slot
        kind := match t.work with
          | .appendCopy _ _ _ _ => .append
          | .fetchCopy _ _ _ _ _ _ => .fetch
          | .listRead _ _ => .list
          | .reportWrite _ _ => .report
        outcome := x.outcome, segments := x.segments, count := full.length
        bytes := (full.map fun r => r.footprint).sum, voids := (full.filter fun r => r.isVoid).length
        converted := full.any fun r => r.converted, anyConverted := x.progress.anyConverted }) ∧
  (∀ (s : State) (t : Transfer) (rest : List Transfer) (k : CtxId), s.ctl.state = .active →
    s.engine.queue = t :: rest → (s.toChip.ctx k).state = .free → (∀ j, j < k → (s.toChip.ctx j).state ≠ .free) →
    let c : Chip := { s.toChip with engine := { s.engine with queue := rest } }
    let phased : Chip := if t.work.endKind = .list then c else c.setPhase t.slot .copying
    exec .transferStart s = .next (s.withChip ((phased.setCtx k (Context.start t)).settle k))) ∧
  (∀ (t : Transfer),
    (Context.start t).state = .running ∧ (Context.start t).transfer = some t ∧ (Context.start t).outcome = .ok ∧
    (∀ length segs pages offset, t.work = .appendCopy length (.direct segs) pages offset →
      (Context.start t).segments = segs ∧ (Context.start t).reads = payloadReads segs length) ∧
    (∀ length addr count pages offset, t.work = .appendCopy length (.indirect addr count) pages offset →
      (Context.start t).reads = [{ addr := addr, off := 0, len := 16 * count, list := true }]) ∧
    (∀ addr count, t.work = .listRead addr count →
      (Context.start t).reads = [{ addr := addr, off := 0, len := 16 * count, list := true }]) ∧
    (∀ addr data, t.work = .reportWrite addr data →
      (Context.start t).writes = [{ addr := addr, data := data, record := 0 }]) ∧
    (∀ i first endSeq page offset capacity segs, first < endSeq → offset < 4096 →
      t.work = .fetchCopy i first endSeq (.at page offset) capacity segs →
      (Context.start t).bufReads = [.header page offset])) ∧
  ∀ (c : Chip) (k : CtxId) (t : Transfer),
    let x := c.ctx k
    x.transfer = some t →
    (x.quiet = false → c.settle k = c) ∧
    (x.quiet = true → x.state = .finishing ∨ (x.state = .running ∧ x.workDone = true) →
      c.settle k = (c.setCtx k Context.free).report (x.endReport t)) ∧
    (x.quiet = true → x.state = .abandoning → c.settle k = c.setCtx k Context.free) ∧
    (x.state = .running → x.workDone = false → c.settle k = c)

/-- The entries of an indirect list, 16 bytes each; HOST_READ_END and HOST_WRITE_END of a context. Payload goes on to buffer DRAM
in whole words, the words one read completes in one access (log 8); bytes of a word still to be completed are kept. The writes of
a context end in the order its run gives them, so that a command naming a later one changes nothing (log 1, log 43); their outcome
is decided by the link as they end (log 18). -/
def Obligations.HostAccessEnds : Prop :=
  (∀ (count : Nat) (bytes : List Byte),
    let num : Nat → Nat → Nat := fun off n =>
      ((bytes.drop off).take n).foldr (fun b rest => b.toNat + 256 * rest) 0
    listEntries count bytes = (List.range count).map fun n =>
      { addr := BitVec.ofNat 64 (num (16 * n) 8), len := num (16 * n + 8) 4 }) ∧
  (∀ (s : State) (k : CtxId) (j : Nat) (r : HostRead) (t : Transfer), (s.toChip.ctx k).reads[j]? = some r →
    (s.toChip.ctx k).state = .running → (s.toChip.ctx k).transfer = some t →
    let x := s.toChip.ctx k
    let left : Context := { x with reads := x.reads.eraseIdx j }
    let settled : Context → Host.Outcome State Fault Refusal := fun x => .next (s.withChip ((s.toChip.setCtx k x).settle k))
    (∀ res, res = .error ∨ res = .timeout → exec (.hostReadEnd k.val j res) s =
      settled { left with state := .finishing, outcome := .hostReadError }) ∧
    (∀ bytes length src pages offset, bytes.length = r.len → t.work = .appendCopy length src pages offset →
      r.list = false →
      let has : Nat → Option Byte := fun n =>
        if length ≤ n then some 0
        else if r.off ≤ n ∧ n < r.off + r.len then bytes[n - r.off]? else sparseGet x.gathered n
      ∃ (y : Context) (first last : Nat),
        exec (.hostReadEnd k.val j (.data bytes)) s = settled y ∧
        y = { left with gathered := y.gathered, bufWrites := y.bufWrites } ∧
        (∀ w, first ≤ w ∧ w < last ↔
          r.off < 8 * w + 8 ∧ 8 * w < r.off + r.len ∧ ∀ b, b < 8 → has (8 * w + b) ≠ none) ∧
        (last ≤ first → y.bufWrites = x.bufWrites) ∧
        (first < last → ∃ data : List Byte,
          y.bufWrites = x.bufWrites ++ [{ areaOff := 8 * first, data := data }] ∧
          data.length = 8 * (last - first) + (if length ≤ 8 * last then footprint length - 16 - 8 * last else 0) ∧
          ∀ n, n < data.length → data[n]? = has (8 * first + n)) ∧
        ∀ n, n < length → sparseGet y.gathered n = if first ≤ n / 8 ∧ n / 8 < last then none else has n) ∧
    (∀ bytes length addr count pages offset, bytes.length = r.len →
      t.work = .appendCopy length (.indirect addr count) pages offset → r.list = true →
      let segs := listEntries count bytes
      let accepted := (∀ x ∈ segs, x.addr.toNat % 16 = 0) ∧ (segs.map Segment.len).sum = length
      (accepted → exec (.hostReadEnd k.val j (.data bytes)) s =
        settled { left with segments := segs, reads := left.reads ++ payloadReads segs length }) ∧
      (¬ accepted → exec (.hostReadEnd k.val j (.data bytes)) s =
        settled { left with state := .finishing, outcome := .badField })) ∧
    (∀ bytes addr count, bytes.length = r.len → t.work = .listRead addr count →
      let segs := listEntries count bytes
      let accepted := (∀ x ∈ segs, x.addr.toNat % 16 = 0 ∧ x.len % 16 = 0 ∧ x.len ≠ 0) ∧
        (segs.map Segment.len).sum ≤ 4194304
      (accepted → exec (.hostReadEnd k.val j (.data bytes)) s = settled { left with segments := segs }) ∧
      (¬ accepted → exec (.hostReadEnd k.val j (.data bytes)) s =
        settled { left with state := .finishing, outcome := .badField }))) ∧
  (∀ (s : State) (k : CtxId) (j : Nat) (r : HostRead) (res : HostReadEnd), (s.toChip.ctx k).reads[j]? = some r →
    (s.toChip.ctx k).state = .finishing ∨ (s.toChip.ctx k).state = .abandoning →
    (∀ bytes, res = .data bytes → bytes.length = r.len) →
    exec (.hostReadEnd k.val j res) s = .next (s.withChip ((s.toChip.setCtx k
      { s.toChip.ctx k with reads := (s.toChip.ctx k).reads.eraseIdx j }).settle k))) ∧
  (∀ (s : State) (k : CtxId) (later : Nat), exec (.hostWriteEnd k.val (later + 1)) s = .next s) ∧
  ∀ (s : State) (k : CtxId) (w : HostWrite) (later : List HostWrite), (s.toChip.ctx k).writes = w :: later →
    let x := s.toChip.ctx k
    let left : (Issued → Issued) → Context := fun f =>
      { x with
        writes := later
        progress := { x.progress with issued := x.progress.issued.modify w.record f } }
    (s.link.up = true ∧ s.link.access = true →
      exec (.hostWriteEnd k.val 0) s = .next (s.withChip
        (({ s.toChip with link := { s.link with out := s.link.out ++ [LinkOut.bytes w.addr w.data] } }.setCtx k
          (left fun r => { r with unsent := r.unsent - 1 })).settle k))) ∧
    (s.link.up = false ∨ s.link.access = false → x.state = .running →
      exec (.hostWriteEnd k.val 0) s = .next (s.withChip
        ((s.toChip.setCtx k
          { left fun r => { r with failed := true } with state := .finishing, outcome := .hostWriteError }).settle k))) ∧
    (s.link.up = false ∨ s.link.access = false → x.state = .finishing ∨ x.state = .abandoning →
      exec (.hostWriteEnd k.val 0) s = .next (s.withChip
        ((s.toChip.setCtx k (left fun r => { r with failed := true })).settle k)))

/-- What a fetch copy delivers for the record in hand, where in its host run, and the reads it issues on the way (their number and
order: log 8, log 9); and BUFFER_READ_END of a fetch copy that has ended or is abandoned, and of a RUNNING one: a header, a payload
piece, a link, each sound or not (words after an uncorrectable one are read too: log 42), with the header a conversion leaves
(places of its bits: log 13). -/
def Obligations.BufferReadEndOfAFetchCopy : Prop :=
  (∀ (x : Context) (h : Header) (endSeq : Nat), x.progress.header = some h →
    let p := x.progress
    let size := (h.length + 15) / 16 * 16
    let le : Nat → Nat → List Byte := fun n v => (List.range n).map fun k => BitVec.ofNat 8 (v / 256 ^ k)
    let kind : RecordKind := if p.converted then .voidDamaged else h.kind
    let code : Byte := match kind with | .normal => 0 | .voidAbandoned => 1 | .voidDamaged => 2
    let header : List Byte := le 6 p.seq ++ [code, 0] ++ le 2 h.length ++ le 4 h.tag.toNat ++ [0, 0]
    let area : List Byte :=
      if kind = .normal then ((p.pieces.map Prod.snd).flatten ++ List.replicate size 0).take size
      else List.replicate size 0
    let writes := runWrites x.segments p.runOff header p.issued.length ++
      runWrites x.segments (p.runOff + 16) area p.issued.length
    let finished := x.bufReads = [] ∧ (p.left = 0 ∨ endSeq ≤ p.seq + 1 ∧ (h.kind ≠ .normal ∨ p.converted = true))
    (finished → ∃ y, x.deliver endSeq = y ∧
      y.writes = x.writes ++ writes ∧ y.segments = x.segments ∧ y.state = x.state ∧
      y.progress.seq = p.seq + 1 ∧ y.progress.header = none ∧ y.progress.converted = false ∧
      y.progress.anyConverted = p.anyConverted ∧ y.progress.page = p.walkPage ∧ y.progress.offset = p.walkOff ∧
      y.progress.runOff = p.runOff + 16 + size ∧
      y.progress.issued = p.issued ++
        [{ footprint := 16 + size, isVoid := kind != .normal, converted := p.converted, unsent := writes.length,
           failed := false }] ∧
      y.bufReads = (if p.seq + 1 = endSeq then []
        else if p.walkOff = 4096 then [.link p.walkPage] else [.header p.walkPage p.walkOff])) ∧
    (¬ finished → x.deliver endSeq = x) ∧
    (let portion := min p.left (4096 - p.walkOff)
     let areaOff := size - p.left
     x.walkPage =
      { x with
        bufReads := x.bufReads ++
          ((if h.kind = .normal ∧ p.converted = false ∧ areaOff < h.length ∧ 0 < portion then
            [.payload p.walkPage p.walkOff areaOff (min portion (h.length - areaOff))] else []) ++
          if portion < p.left then [.link p.walkPage] else [])
        progress := { p with left := p.left - portion, walkOff := p.walkOff + portion } }) ∧
    ∀ q,
      (p.seq + 1 < endSeq ∨ h.kind = .normal ∧ p.converted = false → x.gotPage q endSeq =
        ({ x with progress := { p with walkPage := q, walkOff := 0 } } : Context).walkPage.deliver endSeq) ∧
      (endSeq ≤ p.seq + 1 → h.kind ≠ .normal ∨ p.converted = true → x.gotPage q endSeq = x.deliver endSeq)) ∧
  (∀ (x : Context) (q endSeq : Nat), x.progress.header = none → x.progress.seq < endSeq →
    x.gotPage q endSeq =
      { x with bufReads := x.bufReads ++ [.header q 0], progress := { x.progress with page := q, offset := 0 } }) ∧
  (∀ (piece : Nat × List Byte) (pieces : List (Nat × List Byte)),
    (insertPiece piece pieces).Perm (piece :: pieces) ∧
    (pieces.Pairwise (fun a b => a.1 ≤ b.1) → (insertPiece piece pieces).Pairwise fun a b => a.1 ≤ b.1)) ∧
  (∀ (x : Context) (h : Header) (endSeq : Nat),
    let p := x.progress
    let y : Context :=
      { x with
        progress := { p with
          header := some h, walkPage := p.page, walkOff := p.offset + 16, left := (h.length + 15) / 16 * 16,
          pieces := [], converted := false } }
    (p.seq + 1 < endSeq ∨ h.kind = .normal → x.gotHeader h endSeq = y.walkPage.deliver endSeq) ∧
    (endSeq ≤ p.seq + 1 → h.kind ≠ .normal → x.gotHeader h endSeq = y.deliver endSeq)) ∧
  (∀ (segs : List Segment) (off : Nat) (data : List Byte) (record : Nat),
    off + data.length ≤ (segs.map Segment.len).sum →
    ((runWrites segs off data record).map HostWrite.data).flatten = data ∧
    ∀ w ∈ runWrites segs off data record, w.record = record ∧
      ∃ before seg after inside, segs = before ++ seg :: after ∧ inside + w.data.length ≤ seg.len ∧
        w.addr = seg.addr + BitVec.ofNat 64 inside ∧ off ≤ (before.map Segment.len).sum + inside ∧
        w.data = (data.drop ((before.map Segment.len).sum + inside - off)).take w.data.length) ∧
  (∀ (s : State) (k : CtxId) (j : Nat) (u : Upsets) (b : BufRead) (t : Transfer) (i : StreamId)
    (first endSeq capacity : Nat) (loc : Loc) (segs : List Segment),
    (s.toChip.ctx k).bufReads[j]? = some b → (s.toChip.ctx k).transfer = some t →
    t.work = .fetchCopy i first endSeq loc capacity segs →
    (s.toChip.ctx k).state = .finishing ∨ (s.toChip.ctx k).state = .abandoning →
    let c := s.toChip.upset u
    let x : Context := { s.toChip.ctx k with bufReads := (s.toChip.ctx k).bufReads.eraseIdx j }
    let p := x.progress
    let out : Chip → Host.Outcome State Fault Refusal := fun c => .next (s.withChip (c.settle k))
    let report : Chip → FaultCause → Option Nat → Chip := fun c cause brk =>
      if x.state = .finishing then c.reportMedia i cause brk else c
    (∀ page offset, b = .header page offset →
      let r := c.mem.readHeader i p.seq page offset
      ((r.2).isSome = true → exec (.bufferReadEnd k.val j u) s = out ({ c with mem := r.1 }.setCtx k x)) ∧
      (r.2 = none → exec (.bufferReadEnd k.val j u) s =
        out (report ({ c with mem := r.1 }.setCtx k x) .recordHeader none))) ∧
    (∀ page offset areaOff len, b = .payload page offset areaOff len →
      let r := c.mem.checkRun (page * 512 + offset / 8) ((len + 7) / 8)
      (r.2 = true ∨ p.converted = true →
        exec (.bufferReadEnd k.val j u) s = out ({ c with mem := r.1 }.setCtx k x)) ∧
      (r.2 = false → p.converted = false → ∃ m : BufferMemory,
        m.damaged = countUp r.1.damaged ∧ m.corrected = r.1.corrected ∧
        m.size = r.1.size ∧ (∀ a, a / 8 ≠ p.page * 512 + p.offset / 8 → m.readByte a = r.1.readByte a) ∧
        (r.1.wf = true → p.seq < 2 ^ 48 →
          (m.word (p.page * 512 + p.offset / 8)).toNat = 2 * 2 ^ 48 + p.seq ∧
          ∀ h, (r.1.readHeader i p.seq p.page p.offset).2 = some h →
            (m.readHeader i p.seq p.page p.offset).2 =
              some { kind := .voidDamaged, length := h.length, tag := h.tag }) ∧
        exec (.bufferReadEnd k.val j u) s = out ({ c with mem := m }.setCtx k
          { x with progress := { p with converted := true, anyConverted := true } }))) ∧
    ∀ page, b = .link page →
      let r := c.followChain i page
      ((r.2).isSome = true → exec (.bufferReadEnd k.val j u) s = out (r.1.setCtx k x)) ∧
      (r.2 = none → exec (.bufferReadEnd k.val j u) s =
        out (report (r.1.setCtx k x) .chainLink (some page)))) ∧
  ∀ (s : State) (k : CtxId) (j : Nat) (u : Upsets) (b : BufRead) (t : Transfer) (i : StreamId)
    (first endSeq capacity : Nat) (loc : Loc) (segs : List Segment),
    (s.toChip.ctx k).bufReads[j]? = some b → (s.toChip.ctx k).transfer = some t →
    t.work = .fetchCopy i first endSeq loc capacity segs → (s.toChip.ctx k).state = .running →
    let c := s.toChip.upset u
    let x : Context := { s.toChip.ctx k with bufReads := (s.toChip.ctx k).bufReads.eraseIdx j }
    let p := x.progress
    let out : Chip → Host.Outcome State Fault Refusal := fun c => .next (s.withChip (c.settle k))
    (∀ page offset, b = .header page offset →
      let r := c.mem.readHeader i p.seq page offset
      (∀ h, r.2 = some h →
        exec (.bufferReadEnd k.val j u) s = out ({ c with mem := r.1 }.setCtx k (x.gotHeader h endSeq))) ∧
      (r.2 = none → exec (.bufferReadEnd k.val j u) s =
        out (({ c with mem := r.1 }.setCtx k x).reportMedia i .recordHeader none))) ∧
    (∀ page offset areaOff len, b = .payload page offset areaOff len →
      let r := c.mem.checkRun (page * 512 + offset / 8) ((len + 7) / 8)
      (r.2 = true → exec (.bufferReadEnd k.val j u) s = out ({ c with mem := r.1 }.setCtx k
        (({ x with
            progress := { p with
              pieces := insertPiece (areaOff, r.1.readBytes (page * 4096 + offset) len) p.pieces } }).deliver endSeq))) ∧
      (r.2 = false → p.converted = false → ∃ m : BufferMemory,
        m.damaged = countUp r.1.damaged ∧ m.corrected = r.1.corrected ∧
        m.size = r.1.size ∧ (∀ a, a / 8 ≠ p.page * 512 + p.offset / 8 → m.readByte a = r.1.readByte a) ∧
        (r.1.wf = true → p.seq < 2 ^ 48 →
          (m.word (p.page * 512 + p.offset / 8)).toNat = 2 * 2 ^ 48 + p.seq ∧
          ∀ h, (r.1.readHeader i p.seq p.page p.offset).2 = some h →
            (m.readHeader i p.seq p.page p.offset).2 =
              some { kind := .voidDamaged, length := h.length, tag := h.tag }) ∧
        exec (.bufferReadEnd k.val j u) s = out ({ c with mem := m }.setCtx k
          (({ x with progress := { p with converted := true, anyConverted := true } }).deliver endSeq))) ∧
      (r.2 = false → p.converted = true → exec (.bufferReadEnd k.val j u) s =
        out ({ c with mem := r.1 }.setCtx k (x.deliver endSeq)))) ∧
    ∀ page, b = .link page →
      let r := c.followChain i page
      (∀ next, r.2 = some next →
        exec (.bufferReadEnd k.val j u) s = out (r.1.setCtx k (x.gotPage next endSeq))) ∧
      (r.2 = none → exec (.bufferReadEnd k.val j u) s =
        out ((r.1.setCtx k x).reportMedia i .chainLink (some page)))

/-- BUFFER_WRITE_END: the bytes land in the record's payload area and nowhere else. -/
def Obligations.BufferWriteEndStoresTheBytes : Prop :=
  ∀ (s : State) (k : CtxId) (j : Nat) (w : BufWrite) (t : Transfer) (length : Nat) (src : Source) (pages : List Nat)
    (offset : Nat),
    (s.toChip.ctx k).bufWrites[j]? = some w → (s.toChip.ctx k).transfer = some t →
    t.work = .appendCopy length src pages offset →
    let x := s.toChip.ctx k
    let place : Nat → Nat := fun n =>
      ((pages[(offset + 16 + w.areaOff + n) / 4096]?).getD 0) * 4096 + (offset + 16 + w.areaOff + n) % 4096
    ∃ m : BufferMemory,
      exec (.bufferWriteEnd k.val j) s = .next (s.withChip
        (({ s.toChip with mem := m }.setCtx k { x with bufWrites := x.bufWrites.eraseIdx j }).settle k)) ∧
      m.size = s.mem.size ∧ m.corrected = s.mem.corrected ∧ m.damaged = s.mem.damaged ∧
      (∀ a, (∀ n, n < w.data.length → a ≠ place n) → m.readByte a = s.mem.readByte a) ∧
      (s.toChip.memOk → (∀ n n', n < w.data.length → n' < w.data.length → place n = place n' → n = n') →
        ∀ n (h : n < w.data.length), m.readByte (place n) = w.data[n])

/-! ### Buffer memory -/

/-- Checked reads of a word and of a run of words (the words after an uncorrectable one are checked too: log 42), when a stored
header is read and sound, and when a link followed is sound (END where a page must follow is not: log 26). -/
def Obligations.CheckedReadsAndSoundHeaders : Prop :=
  (∀ (m : BufferMemory) (w : Nat),
    (sparseGet m.marks w = none → m.check w = (m, some (m.word w))) ∧
    (sparseGet m.marks w = some .single →
      (m.check w).2 = some (m.word w) ∧ (m.check w).1.corrected = (if m.corrected < 2 ^ 32 - 1 then m.corrected + 1 else m.corrected) ∧
      (m.check w).1.cells = m.cells ∧ (m.wf = true → sparseGet (m.check w).1.marks w = none)) ∧
    (sparseGet m.marks w = some .multi → m.check w = (m, none))) ∧
  (∀ (m : BufferMemory) (w n : Nat),
    m.checkRun w n = (List.range n).foldl
      (fun r k => ((r.1.check (w + k)).1, r.2 && (r.1.check (w + k)).2.isSome)) (m, true)) ∧
  (∀ (m : BufferMemory) (i : StreamId) (seq page offset : Nat),
    let r0 := m.check (page * 512 + offset / 8)
    let r1 := r0.1.check (page * 512 + offset / 8 + 1)
    (m.readHeader i seq page offset).1 = r1.1 ∧
    (r0.2 = none ∨ r1.2 = none → (m.readHeader i seq page offset).2 = none) ∧
    ∀ w0 w1, r0.2 = some w0 → r1.2 = some w1 → (m.readHeader i seq page offset).2 = judgeHeader w0 w1 i seq) ∧
  (∀ (m : BufferMemory) (usable p : Nat) (owner : Option StreamId),
    let code := match owner with | none => 2 ^ 32 - 1 | some i => i.val
    let r := m.check (usable * 512 + p)
    (r.2 = none → m.follow usable p owner = (r.1, .error)) ∧
    ∀ v, r.2 = some v →
      let next := (v.extractLsb' 0 32).toNat
      let r' := r.1.check (usable * 512 + next)
      (next = 2 ^ 32 - 1 → m.follow usable p owner = (r.1, .fin)) ∧
      (next ≠ 2 ^ 32 - 1 →
        (usable ≤ next → m.follow usable p owner = (r.1, .error)) ∧
        (next < usable →
          (r'.2 = none → m.follow usable p owner = (r'.1, .error)) ∧
          ∀ v', r'.2 = some v' →
            ((v'.extractLsb' 32 32).toNat ≠ code → m.follow usable p owner = (r'.1, .error)) ∧
            ((v'.extractLsb' 32 32).toNat = code → m.follow usable p owner = (r'.1, .page next))))) ∧
  (∀ (c : Chip) (i : StreamId) (p : Nat),
    let r := c.mem.follow c.pool.usable p (some i)
    (r.2 = .error ∨ r.2 = .fin → c.followChain i p = ({ c with mem := r.1 }, none)) ∧
    ∀ q, r.2 = .page q → c.followChain i p = ({ c with mem := r.1 }, some q)) ∧
  ∀ (w0 w1 : DWord) (i : StreamId) (seq : Nat) (h : Header),
    judgeHeader w0 w1 i seq = some h ↔
      (w1.extractLsb' 48 16).toNat = i.val ∧ (w0.extractLsb' 0 48).toNat = seq ∧
      (w0.extractLsb' 48 8 = 0 ∧ h.kind = .normal ∨ w0.extractLsb' 48 8 = 1 ∧ h.kind = .voidAbandoned ∨
        w0.extractLsb' 48 8 = 2 ∧ h.kind = .voidDamaged) ∧
      h.length = (w1.extractLsb' 0 16).toNat ∧ 1 ≤ h.length ∧ h.length ≤ 32768 ∧ h.tag = w1.extractLsb' 16 32

/-! ### Frames -/

/-- What the requests on one stream, and the events of rings, vectors and the link, leave as it was. The engine of a halt is written
out in ControllerResetStartsTheQuiesce. -/
def Obligations.FramesOfRequestsAndRingEvents : Prop :=
  (∀ (s t : State) (u : Upsets) (id : Nat) (q : Request) (i : StreamId), s.toChip.ServingStream id q i →
    exec (q.body.command u) s = .next t →
    (∀ j, j ≠ i → t.toChip.stream j = s.toChip.stream j) ∧
    (t.ctl = s.ctl ∨ ((∃ length tag src, q.body = .append length tag src) ∧ t.ctl.state = .halted)) ∧
    (q.body = .mark ∨ (∃ b, q.body = .streamOpen b) ∨ (∃ b, q.body = .streamSet b) ∨
        (∃ n, q.body = .streamResume n) ∨ (∃ d, q.body = .streamReport d) →
      t.mem = s.mem ∧ (∀ a, t.mem.readByte a = s.mem.readByte a) ∧ t.engine.contexts = s.engine.contexts ∧
      t.pool.free = s.pool.free ∧ t.pool.lost = s.pool.lost)) ∧
  ∀ (s t : State) (i : Instr),
    (∃ n v, i = .reqPutWrite n v) ∨ (∃ n v, i = .cmpTakeWrite n v) ∨ (∃ n, i = .vectorMask n) ∨
      (∃ n, i = .vectorUnmask n) ∨ i = .ringTakeStart ∨ (∃ n r, i = .entryReadEnd n r) ∨
      (∃ n, i = .completionWriteEnd n) ∨ (∃ n, i = .coalesceTimerExpiry n) ∨
      (∃ up access, i = .hostLinkAccessChange up access) →
    exec i s = .next t →
    t.mem = s.mem ∧ (∀ a, t.mem.readByte a = s.mem.readByte a) ∧ t.pool = s.pool ∧
    (∀ j, (t.toChip.stream j).clearLatches = (s.toChip.stream j).clearLatches) ∧
    (t.ctl = s.ctl ∧ t.engine = s.engine ∨
      t.ctl = { s.ctl with state := .halted, cause := .controlRing } ∧ t.engine = s.engine.abandon)

/-! ### Notices -/

/-- Notices: when a ring can take one, how it is written, the fields of each, what an attempt posts and clears, the latches of
stopped rings, and the service of a ring's pending latches. -/
def Obligations.NoticesArePostedAndServed : Prop :=
  (∀ (c : Chip) (n : RingId),
    c.canPost n = true ↔ c.ctl.state = .active ∧ (c.cmpRing n).state = .active ∧
      (c.cmpRing n).posted + (c.cmpRing n).reserved + 1 < (c.cmpRing n).size) ∧
  (∀ (c : Chip) (n : RingId) (e : Completion),
    let r := c.cmpRing n
    let t := c.writeEntry n true 0xFF 0 e
    let writes := c.link.cmpWrites ++
      [{ ring := n, addr := r.base + BitVec.ofNat 64 (32 * r.put), data := encodeEntry r.lap true 0xFF 0 e,
         live := true }]
    t = (({ c with link := { c.link with cmpWrites := writes } } : Chip).setCmpRing n
      { r with
        put := if r.put + 1 = r.size then 0 else r.put + 1
        lap := if r.put + 1 = r.size then !r.lap else r.lap
        posted := r.posted + 1 }).countPost n ∧
    t.link.cmpWrites = writes ∧
    (t.cmpRing n).put = (if r.put + 1 = r.size then 0 else r.put + 1) ∧
    (t.cmpRing n).lap = (if r.put + 1 = r.size then !r.lap else r.lap) ∧
    (t.cmpRing n).posted = r.posted + 1 ∧ (t.cmpRing n).reserved = r.reserved ∧
    (t.cmpRing n).service = r.service ∧ t.rings.req = c.rings.req ∧ t.rings.table = c.rings.table ∧
    (∀ m, m ≠ n → t.cmpRing m = c.cmpRing m) ∧ OnlyRings c t) ∧
  (∀ (c : Chip) (i : StreamId) (n : RingId),
    let st := c.stream i
    let r := c.cmpRing n
    let id : BitVec 16 := BitVec.ofNat 16 i.val
    let post : Chip → Completion → Chip := fun c e => c.writeEntry n true 0xFF 0 e
    let fault : FaultCause → Completion := fun f =>
      { code := 0x83, streamId := id, detail := (match f with | .recordHeader => 1 | .chainLink => 2),
        posA := st.base, posB := st.frontier, count := 1, bytes := st.chain.length }
    let occupancy : OccLatch → Completion := fun l =>
      { code := if l.state = .pressed then 0x81 else 0x82, streamId := id,
        posA := if l.state = .pressed then st.pressureLevel else st.reliefLevel, count := l.count,
        bytes := st.chain.length }
    let ready : Completion :=
      { code := 0x80, streamId := id, posA := st.readyLevel, posB := st.read, count := 1,
        bytes := st.frontier - st.read }
    (st.noticeRing = none → c.attempt i = c) ∧
    (st.noticeRing = some n → c.canPost n = false → c.attempt i = c) ∧
    (st.noticeRing = some n → st.faultLatch = none → st.occLatch = none → st.readyLatch = false → c.attempt i = c) ∧
    (st.noticeRing = some n → c.canPost n = true →
      (∀ f, st.faultLatch = some f → st.occLatch = none → st.readyLatch = false →
        c.attempt i = (post c (fault f)).setStream i { st with faultLatch := none }) ∧
      (∀ l, st.faultLatch = none → st.occLatch = some l → st.readyLatch = false →
        c.attempt i = (post c (occupancy l)).setStream i { st with occLatch := none }) ∧
      (st.faultLatch = none → st.occLatch = none → st.readyLatch = true →
        c.attempt i = (post c ready).setStream i { st with readyLatch := false }) ∧
      ∀ l, st.faultLatch = none → st.occLatch = some l → st.readyLatch = true →
        let first := (post c (occupancy l)).setStream i { st with occLatch := none }
        c.attempt i =
          if r.posted + r.reserved + 2 < r.size then
            (post first ready).setStream i { st with occLatch := none, readyLatch := false }
          else first)) ∧
  (∀ (c : Chip) (n : RingId),
    let notice : Nat → RingFault → Completion := fun id f =>
      { code := 0x84, streamId := BitVec.ofNat 16 id, detail := f.detail, posA := f.posA, posB := f.posB }
    ((c.reqRing n).fault = none ∨ c.canPost 0 = false → c.attemptReqFault n = c) ∧
    (∀ f, (c.reqRing n).fault = some f → c.canPost 0 = true → c.attemptReqFault n =
      (c.writeEntry 0 true 0xFF 0 (notice n.val f)).setReqRing n { c.reqRing n with fault := none }) ∧
    ((c.cmpRing n).fault = none ∨ c.canPost 0 = false → c.attemptCmpFault n = c) ∧
    ∀ f, (c.cmpRing n).fault = some f → c.canPost 0 = true →
      let t := c.writeEntry 0 true 0xFF 0 (notice (256 + n.val) f)
      c.attemptCmpFault n = t.setCmpRing n { t.cmpRing n with fault := none }) ∧
  ∀ (c : Chip) (n : RingId),
    let order : List StreamId := (List.range 512).map fun k => Fin.ofNat 512 ((c.cmpRing n).service.val + 1 + k)
    let ids : List RingId := (List.range 32).map (Fin.ofNat 32)
    let turn : Chip → StreamId → Chip := fun c i =>
      if (c.stream i).noticeRing = some n ∧ c.canPost n = true ∧
          ((c.stream i).readyLatch = true ∨ (c.stream i).occLatch ≠ none ∨ (c.stream i).faultLatch ≠ none) then
        (c.attempt i).setCmpRing n { (c.attempt i).cmpRing n with service := i }
      else c
    let pending : StreamEntry → Prop := fun st =>
      st.noticeRing = some n ∧ (st.readyLatch = true ∨ st.occLatch ≠ none ∨ st.faultLatch ≠ none)
    (n ≠ 0 → c.service n = order.foldl turn c) ∧
    (n = 0 → c.service n = order.foldl turn (ids.foldl (fun c m => (c.attemptReqFault m).attemptCmpFault m) c)) ∧
    (c.canPost n = false → c.service n = c) ∧
    ((∃ i, pending ((c.service n).stream i)) → (c.service n).canPost n = false)
end

