-- ==== Sys2Proof/Laws/State.lean ====
section
/-! SUPPORT. What one update leaves alone: one lemma per operation on the tables and per field of the part, each true by rfl,
and the two lemmas of each table (the entry written, and the others). -/

namespace Sys2Proof.Machine

/-! `Chip.setStream` -/

@[simp] theorem Chip.setStream_ctl (c : Chip) (i : StreamId) (st : StreamEntry) : (c.setStream i st).ctl = c.ctl := rfl
@[simp] theorem Chip.setStream_link (c : Chip) (i : StreamId) (st : StreamEntry) : (c.setStream i st).link = c.link := rfl
@[simp] theorem Chip.setStream_rings (c : Chip) (i : StreamId) (st : StreamEntry) : (c.setStream i st).rings = c.rings := rfl
@[simp] theorem Chip.setStream_pool (c : Chip) (i : StreamId) (st : StreamEntry) : (c.setStream i st).pool = c.pool := rfl
@[simp] theorem Chip.setStream_engine (c : Chip) (i : StreamId) (st : StreamEntry) : (c.setStream i st).engine = c.engine := rfl
@[simp] theorem Chip.setStream_mem (c : Chip) (i : StreamId) (st : StreamEntry) : (c.setStream i st).mem = c.mem := rfl
@[simp] theorem Chip.setStream_isActive (c : Chip) (i : StreamId) (st : StreamEntry) : (c.setStream i st).isActive = c.isActive := rfl
@[simp] theorem Chip.setStream_ctx (c : Chip) (i : StreamId) (st : StreamEntry) (j : CtxId) : (c.setStream i st).ctx j = c.ctx j := rfl
@[simp] theorem Chip.setStream_reqRing (c : Chip) (i : StreamId) (st : StreamEntry) (j : RingId) : (c.setStream i st).reqRing j = c.reqRing j := rfl
@[simp] theorem Chip.setStream_cmpRing (c : Chip) (i : StreamId) (st : StreamEntry) (j : RingId) : (c.setStream i st).cmpRing j = c.cmpRing j := rfl
@[simp] theorem Chip.setStream_slot? (c : Chip) (i : StreamId) (st : StreamEntry) (j : Nat) : (c.setStream i st).slot? j = c.slot? j := rfl

/-! `Chip.modStream` -/

@[simp] theorem Chip.modStream_ctl (c : Chip) (i : StreamId) (f : StreamEntry → StreamEntry) : (c.modStream i f).ctl = c.ctl := rfl
@[simp] theorem Chip.modStream_link (c : Chip) (i : StreamId) (f : StreamEntry → StreamEntry) : (c.modStream i f).link = c.link := rfl
@[simp] theorem Chip.modStream_rings (c : Chip) (i : StreamId) (f : StreamEntry → StreamEntry) : (c.modStream i f).rings = c.rings := rfl
@[simp] theorem Chip.modStream_pool (c : Chip) (i : StreamId) (f : StreamEntry → StreamEntry) : (c.modStream i f).pool = c.pool := rfl
@[simp] theorem Chip.modStream_engine (c : Chip) (i : StreamId) (f : StreamEntry → StreamEntry) : (c.modStream i f).engine = c.engine := rfl
@[simp] theorem Chip.modStream_mem (c : Chip) (i : StreamId) (f : StreamEntry → StreamEntry) : (c.modStream i f).mem = c.mem := rfl
@[simp] theorem Chip.modStream_isActive (c : Chip) (i : StreamId) (f : StreamEntry → StreamEntry) : (c.modStream i f).isActive = c.isActive := rfl
@[simp] theorem Chip.modStream_ctx (c : Chip) (i : StreamId) (f : StreamEntry → StreamEntry) (j : CtxId) : (c.modStream i f).ctx j = c.ctx j := rfl
@[simp] theorem Chip.modStream_reqRing (c : Chip) (i : StreamId) (f : StreamEntry → StreamEntry) (j : RingId) : (c.modStream i f).reqRing j = c.reqRing j := rfl
@[simp] theorem Chip.modStream_cmpRing (c : Chip) (i : StreamId) (f : StreamEntry → StreamEntry) (j : RingId) : (c.modStream i f).cmpRing j = c.cmpRing j := rfl
@[simp] theorem Chip.modStream_slot? (c : Chip) (i : StreamId) (f : StreamEntry → StreamEntry) (j : Nat) : (c.modStream i f).slot? j = c.slot? j := rfl

/-! `Chip.setReqRing` -/

@[simp] theorem Chip.setReqRing_ctl (c : Chip) (n : RingId) (r : RequestRing) : (c.setReqRing n r).ctl = c.ctl := rfl
@[simp] theorem Chip.setReqRing_link (c : Chip) (n : RingId) (r : RequestRing) : (c.setReqRing n r).link = c.link := rfl
@[simp] theorem Chip.setReqRing_streams (c : Chip) (n : RingId) (r : RequestRing) : (c.setReqRing n r).streams = c.streams := rfl
@[simp] theorem Chip.setReqRing_pool (c : Chip) (n : RingId) (r : RequestRing) : (c.setReqRing n r).pool = c.pool := rfl
@[simp] theorem Chip.setReqRing_engine (c : Chip) (n : RingId) (r : RequestRing) : (c.setReqRing n r).engine = c.engine := rfl
@[simp] theorem Chip.setReqRing_mem (c : Chip) (n : RingId) (r : RequestRing) : (c.setReqRing n r).mem = c.mem := rfl
@[simp] theorem Chip.setReqRing_isActive (c : Chip) (n : RingId) (r : RequestRing) : (c.setReqRing n r).isActive = c.isActive := rfl
@[simp] theorem Chip.setReqRing_stream (c : Chip) (n : RingId) (r : RequestRing) (j : StreamId) : (c.setReqRing n r).stream j = c.stream j := rfl
@[simp] theorem Chip.setReqRing_ctx (c : Chip) (n : RingId) (r : RequestRing) (j : CtxId) : (c.setReqRing n r).ctx j = c.ctx j := rfl
@[simp] theorem Chip.setReqRing_cmpRing (c : Chip) (n : RingId) (r : RequestRing) (j : RingId) : (c.setReqRing n r).cmpRing j = c.cmpRing j := rfl
@[simp] theorem Chip.setReqRing_slot? (c : Chip) (n : RingId) (r : RequestRing) (j : Nat) : (c.setReqRing n r).slot? j = c.slot? j := rfl
@[simp] theorem Chip.setReqRing_table (c : Chip) (n : RingId) (r : RequestRing) : (c.setReqRing n r).rings.table = c.rings.table := rfl
@[simp] theorem Chip.setReqRing_arrived (c : Chip) (n : RingId) (r : RequestRing) : (c.setReqRing n r).rings.arrived = c.rings.arrived := rfl

/-! `Chip.setCmpRing` -/

@[simp] theorem Chip.setCmpRing_ctl (c : Chip) (n : RingId) (r : CompletionRing) : (c.setCmpRing n r).ctl = c.ctl := rfl
@[simp] theorem Chip.setCmpRing_link (c : Chip) (n : RingId) (r : CompletionRing) : (c.setCmpRing n r).link = c.link := rfl
@[simp] theorem Chip.setCmpRing_streams (c : Chip) (n : RingId) (r : CompletionRing) : (c.setCmpRing n r).streams = c.streams := rfl
@[simp] theorem Chip.setCmpRing_pool (c : Chip) (n : RingId) (r : CompletionRing) : (c.setCmpRing n r).pool = c.pool := rfl
@[simp] theorem Chip.setCmpRing_engine (c : Chip) (n : RingId) (r : CompletionRing) : (c.setCmpRing n r).engine = c.engine := rfl
@[simp] theorem Chip.setCmpRing_mem (c : Chip) (n : RingId) (r : CompletionRing) : (c.setCmpRing n r).mem = c.mem := rfl
@[simp] theorem Chip.setCmpRing_isActive (c : Chip) (n : RingId) (r : CompletionRing) : (c.setCmpRing n r).isActive = c.isActive := rfl
@[simp] theorem Chip.setCmpRing_stream (c : Chip) (n : RingId) (r : CompletionRing) (j : StreamId) : (c.setCmpRing n r).stream j = c.stream j := rfl
@[simp] theorem Chip.setCmpRing_ctx (c : Chip) (n : RingId) (r : CompletionRing) (j : CtxId) : (c.setCmpRing n r).ctx j = c.ctx j := rfl
@[simp] theorem Chip.setCmpRing_reqRing (c : Chip) (n : RingId) (r : CompletionRing) (j : RingId) : (c.setCmpRing n r).reqRing j = c.reqRing j := rfl
@[simp] theorem Chip.setCmpRing_slot? (c : Chip) (n : RingId) (r : CompletionRing) (j : Nat) : (c.setCmpRing n r).slot? j = c.slot? j := rfl
@[simp] theorem Chip.setCmpRing_table (c : Chip) (n : RingId) (r : CompletionRing) : (c.setCmpRing n r).rings.table = c.rings.table := rfl
@[simp] theorem Chip.setCmpRing_arrived (c : Chip) (n : RingId) (r : CompletionRing) : (c.setCmpRing n r).rings.arrived = c.rings.arrived := rfl

/-! `Chip.setCtx` -/

@[simp] theorem Chip.setCtx_ctl (c : Chip) (k : CtxId) (x : Context) : (c.setCtx k x).ctl = c.ctl := rfl
@[simp] theorem Chip.setCtx_link (c : Chip) (k : CtxId) (x : Context) : (c.setCtx k x).link = c.link := rfl
@[simp] theorem Chip.setCtx_rings (c : Chip) (k : CtxId) (x : Context) : (c.setCtx k x).rings = c.rings := rfl
@[simp] theorem Chip.setCtx_streams (c : Chip) (k : CtxId) (x : Context) : (c.setCtx k x).streams = c.streams := rfl
@[simp] theorem Chip.setCtx_pool (c : Chip) (k : CtxId) (x : Context) : (c.setCtx k x).pool = c.pool := rfl
@[simp] theorem Chip.setCtx_mem (c : Chip) (k : CtxId) (x : Context) : (c.setCtx k x).mem = c.mem := rfl
@[simp] theorem Chip.setCtx_isActive (c : Chip) (k : CtxId) (x : Context) : (c.setCtx k x).isActive = c.isActive := rfl
@[simp] theorem Chip.setCtx_stream (c : Chip) (k : CtxId) (x : Context) (j : StreamId) : (c.setCtx k x).stream j = c.stream j := rfl
@[simp] theorem Chip.setCtx_reqRing (c : Chip) (k : CtxId) (x : Context) (j : RingId) : (c.setCtx k x).reqRing j = c.reqRing j := rfl
@[simp] theorem Chip.setCtx_cmpRing (c : Chip) (k : CtxId) (x : Context) (j : RingId) : (c.setCtx k x).cmpRing j = c.cmpRing j := rfl
@[simp] theorem Chip.setCtx_slot? (c : Chip) (k : CtxId) (x : Context) (j : Nat) : (c.setCtx k x).slot? j = c.slot? j := rfl

/-! `Chip.modSlot` -/

@[simp] theorem Chip.modSlot_ctl (c : Chip) (id : Nat) (f : Slot → Slot) : (c.modSlot id f).ctl = c.ctl := rfl
@[simp] theorem Chip.modSlot_link (c : Chip) (id : Nat) (f : Slot → Slot) : (c.modSlot id f).link = c.link := rfl
@[simp] theorem Chip.modSlot_streams (c : Chip) (id : Nat) (f : Slot → Slot) : (c.modSlot id f).streams = c.streams := rfl
@[simp] theorem Chip.modSlot_pool (c : Chip) (id : Nat) (f : Slot → Slot) : (c.modSlot id f).pool = c.pool := rfl
@[simp] theorem Chip.modSlot_engine (c : Chip) (id : Nat) (f : Slot → Slot) : (c.modSlot id f).engine = c.engine := rfl
@[simp] theorem Chip.modSlot_mem (c : Chip) (id : Nat) (f : Slot → Slot) : (c.modSlot id f).mem = c.mem := rfl
@[simp] theorem Chip.modSlot_isActive (c : Chip) (id : Nat) (f : Slot → Slot) : (c.modSlot id f).isActive = c.isActive := rfl
@[simp] theorem Chip.modSlot_stream (c : Chip) (id : Nat) (f : Slot → Slot) (j : StreamId) : (c.modSlot id f).stream j = c.stream j := rfl
@[simp] theorem Chip.modSlot_ctx (c : Chip) (id : Nat) (f : Slot → Slot) (j : CtxId) : (c.modSlot id f).ctx j = c.ctx j := rfl
@[simp] theorem Chip.modSlot_reqRing (c : Chip) (id : Nat) (f : Slot → Slot) (j : RingId) : (c.modSlot id f).reqRing j = c.reqRing j := rfl
@[simp] theorem Chip.modSlot_cmpRing (c : Chip) (id : Nat) (f : Slot → Slot) (j : RingId) : (c.modSlot id f).cmpRing j = c.cmpRing j := rfl

/-! `Chip.setPhase` -/

@[simp] theorem Chip.setPhase_ctl (c : Chip) (id : Nat) (ph : Phase) : (c.setPhase id ph).ctl = c.ctl := rfl
@[simp] theorem Chip.setPhase_link (c : Chip) (id : Nat) (ph : Phase) : (c.setPhase id ph).link = c.link := rfl
@[simp] theorem Chip.setPhase_streams (c : Chip) (id : Nat) (ph : Phase) : (c.setPhase id ph).streams = c.streams := rfl
@[simp] theorem Chip.setPhase_pool (c : Chip) (id : Nat) (ph : Phase) : (c.setPhase id ph).pool = c.pool := rfl
@[simp] theorem Chip.setPhase_engine (c : Chip) (id : Nat) (ph : Phase) : (c.setPhase id ph).engine = c.engine := rfl
@[simp] theorem Chip.setPhase_mem (c : Chip) (id : Nat) (ph : Phase) : (c.setPhase id ph).mem = c.mem := rfl
@[simp] theorem Chip.setPhase_isActive (c : Chip) (id : Nat) (ph : Phase) : (c.setPhase id ph).isActive = c.isActive := rfl
@[simp] theorem Chip.setPhase_stream (c : Chip) (id : Nat) (ph : Phase) (j : StreamId) : (c.setPhase id ph).stream j = c.stream j := rfl
@[simp] theorem Chip.setPhase_ctx (c : Chip) (id : Nat) (ph : Phase) (j : CtxId) : (c.setPhase id ph).ctx j = c.ctx j := rfl
@[simp] theorem Chip.setPhase_reqRing (c : Chip) (id : Nat) (ph : Phase) (j : RingId) : (c.setPhase id ph).reqRing j = c.reqRing j := rfl
@[simp] theorem Chip.setPhase_cmpRing (c : Chip) (id : Nat) (ph : Phase) (j : RingId) : (c.setPhase id ph).cmpRing j = c.cmpRing j := rfl

/-! `Chip.freeSlot` -/

@[simp] theorem Chip.freeSlot_ctl (c : Chip) (id : Nat) : (c.freeSlot id).ctl = c.ctl := rfl
@[simp] theorem Chip.freeSlot_link (c : Chip) (id : Nat) : (c.freeSlot id).link = c.link := rfl
@[simp] theorem Chip.freeSlot_streams (c : Chip) (id : Nat) : (c.freeSlot id).streams = c.streams := rfl
@[simp] theorem Chip.freeSlot_pool (c : Chip) (id : Nat) : (c.freeSlot id).pool = c.pool := rfl
@[simp] theorem Chip.freeSlot_engine (c : Chip) (id : Nat) : (c.freeSlot id).engine = c.engine := rfl
@[simp] theorem Chip.freeSlot_mem (c : Chip) (id : Nat) : (c.freeSlot id).mem = c.mem := rfl
@[simp] theorem Chip.freeSlot_isActive (c : Chip) (id : Nat) : (c.freeSlot id).isActive = c.isActive := rfl
@[simp] theorem Chip.freeSlot_stream (c : Chip) (id : Nat) (j : StreamId) : (c.freeSlot id).stream j = c.stream j := rfl
@[simp] theorem Chip.freeSlot_ctx (c : Chip) (id : Nat) (j : CtxId) : (c.freeSlot id).ctx j = c.ctx j := rfl
@[simp] theorem Chip.freeSlot_reqRing (c : Chip) (id : Nat) (j : RingId) : (c.freeSlot id).reqRing j = c.reqRing j := rfl
@[simp] theorem Chip.freeSlot_cmpRing (c : Chip) (id : Nat) (j : RingId) : (c.freeSlot id).cmpRing j = c.cmpRing j := rfl

/-! `Chip.dropArrived` -/

@[simp] theorem Chip.dropArrived_ctl (c : Chip) (id : Nat) : (c.dropArrived id).ctl = c.ctl := rfl
@[simp] theorem Chip.dropArrived_link (c : Chip) (id : Nat) : (c.dropArrived id).link = c.link := rfl
@[simp] theorem Chip.dropArrived_streams (c : Chip) (id : Nat) : (c.dropArrived id).streams = c.streams := rfl
@[simp] theorem Chip.dropArrived_pool (c : Chip) (id : Nat) : (c.dropArrived id).pool = c.pool := rfl
@[simp] theorem Chip.dropArrived_engine (c : Chip) (id : Nat) : (c.dropArrived id).engine = c.engine := rfl
@[simp] theorem Chip.dropArrived_mem (c : Chip) (id : Nat) : (c.dropArrived id).mem = c.mem := rfl
@[simp] theorem Chip.dropArrived_isActive (c : Chip) (id : Nat) : (c.dropArrived id).isActive = c.isActive := rfl
@[simp] theorem Chip.dropArrived_stream (c : Chip) (id : Nat) (j : StreamId) : (c.dropArrived id).stream j = c.stream j := rfl
@[simp] theorem Chip.dropArrived_ctx (c : Chip) (id : Nat) (j : CtxId) : (c.dropArrived id).ctx j = c.ctx j := rfl
@[simp] theorem Chip.dropArrived_reqRing (c : Chip) (id : Nat) (j : RingId) : (c.dropArrived id).reqRing j = c.reqRing j := rfl
@[simp] theorem Chip.dropArrived_cmpRing (c : Chip) (id : Nat) (j : RingId) : (c.dropArrived id).cmpRing j = c.cmpRing j := rfl

@[simp] theorem Chip.dropArrived_slot? (c : Chip) (id j : Nat) : (c.dropArrived id).slot? j = c.slot? j := rfl

/-! `Chip.place` -/

@[simp] theorem Chip.place_ctl (c : Chip) (t : Transfer) : (c.place t).ctl = c.ctl := rfl
@[simp] theorem Chip.place_link (c : Chip) (t : Transfer) : (c.place t).link = c.link := rfl
@[simp] theorem Chip.place_rings (c : Chip) (t : Transfer) : (c.place t).rings = c.rings := rfl
@[simp] theorem Chip.place_streams (c : Chip) (t : Transfer) : (c.place t).streams = c.streams := rfl
@[simp] theorem Chip.place_pool (c : Chip) (t : Transfer) : (c.place t).pool = c.pool := rfl
@[simp] theorem Chip.place_mem (c : Chip) (t : Transfer) : (c.place t).mem = c.mem := rfl
@[simp] theorem Chip.place_isActive (c : Chip) (t : Transfer) : (c.place t).isActive = c.isActive := rfl
@[simp] theorem Chip.place_stream (c : Chip) (t : Transfer) (j : StreamId) : (c.place t).stream j = c.stream j := rfl
@[simp] theorem Chip.place_reqRing (c : Chip) (t : Transfer) (j : RingId) : (c.place t).reqRing j = c.reqRing j := rfl
@[simp] theorem Chip.place_cmpRing (c : Chip) (t : Transfer) (j : RingId) : (c.place t).cmpRing j = c.cmpRing j := rfl
@[simp] theorem Chip.place_slot? (c : Chip) (t : Transfer) (j : Nat) : (c.place t).slot? j = c.slot? j := rfl
@[simp] theorem Chip.place_ctx (c : Chip) (t : Transfer) (k : CtxId) : (c.place t).ctx k = c.ctx k := rfl

/-! `Chip.report` -/

@[simp] theorem Chip.report_ctl (c : Chip) (e : EndReport) : (c.report e).ctl = c.ctl := rfl
@[simp] theorem Chip.report_link (c : Chip) (e : EndReport) : (c.report e).link = c.link := rfl
@[simp] theorem Chip.report_rings (c : Chip) (e : EndReport) : (c.report e).rings = c.rings := rfl
@[simp] theorem Chip.report_streams (c : Chip) (e : EndReport) : (c.report e).streams = c.streams := rfl
@[simp] theorem Chip.report_pool (c : Chip) (e : EndReport) : (c.report e).pool = c.pool := rfl
@[simp] theorem Chip.report_mem (c : Chip) (e : EndReport) : (c.report e).mem = c.mem := rfl
@[simp] theorem Chip.report_isActive (c : Chip) (e : EndReport) : (c.report e).isActive = c.isActive := rfl
@[simp] theorem Chip.report_stream (c : Chip) (e : EndReport) (j : StreamId) : (c.report e).stream j = c.stream j := rfl
@[simp] theorem Chip.report_reqRing (c : Chip) (e : EndReport) (j : RingId) : (c.report e).reqRing j = c.reqRing j := rfl
@[simp] theorem Chip.report_cmpRing (c : Chip) (e : EndReport) (j : RingId) : (c.report e).cmpRing j = c.cmpRing j := rfl
@[simp] theorem Chip.report_slot? (c : Chip) (e : EndReport) (j : Nat) : (c.report e).slot? j = c.slot? j := rfl
@[simp] theorem Chip.report_ctx (c : Chip) (e : EndReport) (k : CtxId) : (c.report e).ctx k = c.ctx k := rfl

/-! `Chip.dropEnd` -/

@[simp] theorem Chip.dropEnd_ctl (c : Chip) (k : EndKind) (id : Nat) : (c.dropEnd k id).ctl = c.ctl := rfl
@[simp] theorem Chip.dropEnd_link (c : Chip) (k : EndKind) (id : Nat) : (c.dropEnd k id).link = c.link := rfl
@[simp] theorem Chip.dropEnd_rings (c : Chip) (k : EndKind) (id : Nat) : (c.dropEnd k id).rings = c.rings := rfl
@[simp] theorem Chip.dropEnd_streams (c : Chip) (k : EndKind) (id : Nat) : (c.dropEnd k id).streams = c.streams := rfl
@[simp] theorem Chip.dropEnd_pool (c : Chip) (k : EndKind) (id : Nat) : (c.dropEnd k id).pool = c.pool := rfl
@[simp] theorem Chip.dropEnd_mem (c : Chip) (k : EndKind) (id : Nat) : (c.dropEnd k id).mem = c.mem := rfl
@[simp] theorem Chip.dropEnd_isActive (c : Chip) (k : EndKind) (id : Nat) : (c.dropEnd k id).isActive = c.isActive := rfl
@[simp] theorem Chip.dropEnd_stream (c : Chip) (k : EndKind) (id : Nat) (j : StreamId) : (c.dropEnd k id).stream j = c.stream j := rfl
@[simp] theorem Chip.dropEnd_reqRing (c : Chip) (k : EndKind) (id : Nat) (j : RingId) : (c.dropEnd k id).reqRing j = c.reqRing j := rfl
@[simp] theorem Chip.dropEnd_cmpRing (c : Chip) (k : EndKind) (id : Nat) (j : RingId) : (c.dropEnd k id).cmpRing j = c.cmpRing j := rfl
@[simp] theorem Chip.dropEnd_slot? (c : Chip) (k : EndKind) (id : Nat) (j : Nat) : (c.dropEnd k id).slot? j = c.slot? j := rfl
@[simp] theorem Chip.dropEnd_ctx (c : Chip) (k : EndKind) (id : Nat) (j : CtxId) : (c.dropEnd k id).ctx j = c.ctx j := rfl

/-! `Chip.writeLink` -/

@[simp] theorem Chip.writeLink_ctl (c : Chip) (p : Nat) (next : Option Nat) (owner : Option StreamId) : (c.writeLink p next owner).ctl = c.ctl := rfl
@[simp] theorem Chip.writeLink_link (c : Chip) (p : Nat) (next : Option Nat) (owner : Option StreamId) : (c.writeLink p next owner).link = c.link := rfl
@[simp] theorem Chip.writeLink_rings (c : Chip) (p : Nat) (next : Option Nat) (owner : Option StreamId) : (c.writeLink p next owner).rings = c.rings := rfl
@[simp] theorem Chip.writeLink_streams (c : Chip) (p : Nat) (next : Option Nat) (owner : Option StreamId) : (c.writeLink p next owner).streams = c.streams := rfl
@[simp] theorem Chip.writeLink_pool (c : Chip) (p : Nat) (next : Option Nat) (owner : Option StreamId) : (c.writeLink p next owner).pool = c.pool := rfl
@[simp] theorem Chip.writeLink_engine (c : Chip) (p : Nat) (next : Option Nat) (owner : Option StreamId) : (c.writeLink p next owner).engine = c.engine := rfl
@[simp] theorem Chip.writeLink_isActive (c : Chip) (p : Nat) (next : Option Nat) (owner : Option StreamId) : (c.writeLink p next owner).isActive = c.isActive := rfl
@[simp] theorem Chip.writeLink_stream (c : Chip) (p : Nat) (next : Option Nat) (owner : Option StreamId) (j : StreamId) : (c.writeLink p next owner).stream j = c.stream j := rfl
@[simp] theorem Chip.writeLink_ctx (c : Chip) (p : Nat) (next : Option Nat) (owner : Option StreamId) (j : CtxId) : (c.writeLink p next owner).ctx j = c.ctx j := rfl
@[simp] theorem Chip.writeLink_reqRing (c : Chip) (p : Nat) (next : Option Nat) (owner : Option StreamId) (j : RingId) : (c.writeLink p next owner).reqRing j = c.reqRing j := rfl
@[simp] theorem Chip.writeLink_cmpRing (c : Chip) (p : Nat) (next : Option Nat) (owner : Option StreamId) (j : RingId) : (c.writeLink p next owner).cmpRing j = c.cmpRing j := rfl
@[simp] theorem Chip.writeLink_slot? (c : Chip) (p : Nat) (next : Option Nat) (owner : Option StreamId) (j : Nat) : (c.writeLink p next owner).slot? j = c.slot? j := rfl

/-! `Chip.upset` -/

@[simp] theorem Chip.upset_ctl (c : Chip) (u : Upsets) : (c.upset u).ctl = c.ctl := rfl
@[simp] theorem Chip.upset_link (c : Chip) (u : Upsets) : (c.upset u).link = c.link := rfl
@[simp] theorem Chip.upset_rings (c : Chip) (u : Upsets) : (c.upset u).rings = c.rings := rfl
@[simp] theorem Chip.upset_streams (c : Chip) (u : Upsets) : (c.upset u).streams = c.streams := rfl
@[simp] theorem Chip.upset_pool (c : Chip) (u : Upsets) : (c.upset u).pool = c.pool := rfl
@[simp] theorem Chip.upset_engine (c : Chip) (u : Upsets) : (c.upset u).engine = c.engine := rfl
@[simp] theorem Chip.upset_isActive (c : Chip) (u : Upsets) : (c.upset u).isActive = c.isActive := rfl
@[simp] theorem Chip.upset_stream (c : Chip) (u : Upsets) (j : StreamId) : (c.upset u).stream j = c.stream j := rfl
@[simp] theorem Chip.upset_ctx (c : Chip) (u : Upsets) (j : CtxId) : (c.upset u).ctx j = c.ctx j := rfl
@[simp] theorem Chip.upset_reqRing (c : Chip) (u : Upsets) (j : RingId) : (c.upset u).reqRing j = c.reqRing j := rfl
@[simp] theorem Chip.upset_cmpRing (c : Chip) (u : Upsets) (j : RingId) : (c.upset u).cmpRing j = c.cmpRing j := rfl
@[simp] theorem Chip.upset_slot? (c : Chip) (u : Upsets) (j : Nat) : (c.upset u).slot? j = c.slot? j := rfl

/-! `Chip.storeCtrl` -/

@[simp] theorem Chip.storeCtrl_link (c : Chip) (e p : Bool) : (c.storeCtrl e p).link = c.link := rfl
@[simp] theorem Chip.storeCtrl_rings (c : Chip) (e p : Bool) : (c.storeCtrl e p).rings = c.rings := rfl
@[simp] theorem Chip.storeCtrl_streams (c : Chip) (e p : Bool) : (c.storeCtrl e p).streams = c.streams := rfl
@[simp] theorem Chip.storeCtrl_pool (c : Chip) (e p : Bool) : (c.storeCtrl e p).pool = c.pool := rfl
@[simp] theorem Chip.storeCtrl_engine (c : Chip) (e p : Bool) : (c.storeCtrl e p).engine = c.engine := rfl
@[simp] theorem Chip.storeCtrl_mem (c : Chip) (e p : Bool) : (c.storeCtrl e p).mem = c.mem := rfl
@[simp] theorem Chip.storeCtrl_stream (c : Chip) (e p : Bool) (j : StreamId) : (c.storeCtrl e p).stream j = c.stream j := rfl
@[simp] theorem Chip.storeCtrl_ctx (c : Chip) (e p : Bool) (j : CtxId) : (c.storeCtrl e p).ctx j = c.ctx j := rfl
@[simp] theorem Chip.storeCtrl_reqRing (c : Chip) (e p : Bool) (j : RingId) : (c.storeCtrl e p).reqRing j = c.reqRing j := rfl
@[simp] theorem Chip.storeCtrl_cmpRing (c : Chip) (e p : Bool) (j : RingId) : (c.storeCtrl e p).cmpRing j = c.cmpRing j := rfl
@[simp] theorem Chip.storeCtrl_slot? (c : Chip) (e p : Bool) (j : Nat) : (c.storeCtrl e p).slot? j = c.slot? j := rfl

/-! ### Entries of the tables -/

theorem Chip.setStream_stream (c : Chip) (i j : StreamId) (st : StreamEntry) :
    (c.setStream i st).stream j = if j = i then st else c.stream j := by
  simp only [Chip.stream, Chip.setStream, Vector.get_eq_getElem, Vector.getElem_set, Fin.ext_iff]
  simp only [eq_comm]

@[simp] theorem Chip.setStream_stream_same (c : Chip) (i : StreamId) (st : StreamEntry) :
    (c.setStream i st).stream i = st := by
  simp [Chip.setStream_stream]

theorem Chip.setStream_stream_ne (c : Chip) {i j : StreamId} (st : StreamEntry) (h : j ≠ i) :
    (c.setStream i st).stream j = c.stream j := by
  simp [Chip.setStream_stream, h]

theorem Chip.modStream_stream (c : Chip) (i j : StreamId) (f : StreamEntry → StreamEntry) :
    (c.modStream i f).stream j = if j = i then f (c.stream i) else c.stream j :=
  c.setStream_stream i j _

@[simp] theorem Chip.modStream_stream_same (c : Chip) (i : StreamId) (f : StreamEntry → StreamEntry) :
    (c.modStream i f).stream i = f (c.stream i) :=
  c.setStream_stream_same i _

theorem Chip.modStream_stream_ne (c : Chip) {i j : StreamId} (f : StreamEntry → StreamEntry) (h : j ≠ i) :
    (c.modStream i f).stream j = c.stream j :=
  c.setStream_stream_ne _ h

theorem Chip.setReqRing_reqRing (c : Chip) (n m : RingId) (r : RequestRing) :
    (c.setReqRing n r).reqRing m = if m = n then r else c.reqRing m := by
  simp only [Chip.reqRing, Chip.setReqRing, Vector.get_eq_getElem, Vector.getElem_set, Fin.ext_iff]
  simp only [eq_comm]

@[simp] theorem Chip.setReqRing_reqRing_same (c : Chip) (n : RingId) (r : RequestRing) :
    (c.setReqRing n r).reqRing n = r := by
  simp [Chip.setReqRing_reqRing]

theorem Chip.setCmpRing_cmpRing (c : Chip) (n m : RingId) (r : CompletionRing) :
    (c.setCmpRing n r).cmpRing m = if m = n then r else c.cmpRing m := by
  simp only [Chip.cmpRing, Chip.setCmpRing, Vector.get_eq_getElem, Vector.getElem_set, Fin.ext_iff]
  simp only [eq_comm]

@[simp] theorem Chip.setCmpRing_cmpRing_same (c : Chip) (n : RingId) (r : CompletionRing) :
    (c.setCmpRing n r).cmpRing n = r := by
  simp [Chip.setCmpRing_cmpRing]

theorem Chip.setCtx_ctx (c : Chip) (k j : CtxId) (x : Context) :
    (c.setCtx k x).ctx j = if j = k then x else c.ctx j := by
  simp only [Chip.ctx, Chip.setCtx, Vector.get_eq_getElem, Vector.getElem_set, Fin.ext_iff]
  simp only [eq_comm]

@[simp] theorem Chip.setCtx_ctx_same (c : Chip) (k : CtxId) (x : Context) : (c.setCtx k x).ctx k = x := by
  simp [Chip.setCtx_ctx]

/-- Two vectors of streams with the same entries are the same. -/
theorem streams_ext (a b : Vector StreamEntry 512) (h : ∀ i : StreamId, a.get i = b.get i) : a = b :=
  Vector.ext fun k hk => h ⟨k, hk⟩

end Sys2Proof.Machine
end

