-- ==== Sys2Proof/Laws/Memory.lean ====
section
/-! SUPPORT. Buffer DRAM: the sparse lists keep their canonical form, reads after writes, and every memory operation keeps
`BufferMemory.wf`. -/

namespace Sys2Proof.Machine

/-! ### Sparse lists -/

/-- Every key of the list is above `k`. -/
def sparseAbove {α : Type} (k : Nat) (l : List (Nat × α)) : Prop := ∀ e ∈ l, k < e.1

theorem sparseSorted_cons {α : Type} (k : Nat) (v : α) (l : List (Nat × α)) :
    sparseSorted ((k, v) :: l) = true ↔ sparseAbove k l ∧ sparseSorted l = true := by
  induction l generalizing k v with
  | nil => simp [sparseSorted, sparseAbove]
  | cons e rest ih =>
    obtain ⟨k', v'⟩ := e
    simp only [sparseSorted, Bool.and_eq_true, decide_eq_true_eq, sparseAbove, List.mem_cons, forall_eq_or_imp]
    constructor
    · rintro ⟨h, hs⟩
      exact ⟨⟨h, fun e he => lt_trans h (((ih k' v').1 hs).1 e he)⟩, hs⟩
    · rintro ⟨⟨h, _⟩, hs⟩
      exact ⟨h, hs⟩

theorem sparsePut_mem {α : Type} (l : List (Nat × α)) (k : Nat) (v : Option α) (e : Nat × α)
    (h : e ∈ sparsePut l k v) : e ∈ l ∨ (e.1 = k ∧ v = some e.2) := by
  induction l with
  | nil => cases v <;> simp_all [sparsePut]
  | cons x rest ih =>
    obtain ⟨k', v'⟩ := x
    cases v with
    | none =>
      simp only [sparsePut] at h
      split at h
      · exact .inl (List.mem_cons_of_mem _ h)
      · rcases List.mem_cons.1 h with h | h
        · exact .inl (h ▸ List.mem_cons_self)
        · exact (ih h).imp (List.mem_cons_of_mem _) id
    | some w =>
      simp only [sparsePut] at h
      split at h
      · rcases List.mem_cons.1 h with h | h
        · exact .inr (by simp [h])
        · exact .inl h
      · split at h
        · rcases List.mem_cons.1 h with h | h
          · exact .inr (by simp [h])
          · exact .inl (List.mem_cons_of_mem _ h)
        · rcases List.mem_cons.1 h with h | h
          · exact .inl (h ▸ List.mem_cons_self)
          · exact (ih h).imp (List.mem_cons_of_mem _) id

theorem sparsePut_sorted {α : Type} (l : List (Nat × α)) (k : Nat) (v : Option α) (h : sparseSorted l = true) :
    sparseSorted (sparsePut l k v) = true := by
  induction l with
  | nil => cases v <;> rfl
  | cons x rest ih =>
    obtain ⟨k', v'⟩ := x
    have hx := (sparseSorted_cons k' v' rest).1 h
    cases v with
    | none =>
      simp only [sparsePut]
      split
      · exact hx.2
      · exact (sparseSorted_cons _ _ _).2
          ⟨fun e he => (sparsePut_mem rest k none e he).elim (hx.1 e) (by simp), ih hx.2⟩
    | some w =>
      simp only [sparsePut]
      split
      · rename_i hlt
        refine (sparseSorted_cons _ _ _).2 ⟨fun e he => ?_, h⟩
        rcases List.mem_cons.1 he with he | he
        · simpa [he] using hlt
        · exact lt_trans hlt (hx.1 e he)
      · split
        · rename_i heq
          exact (sparseSorted_cons _ _ _).2 ⟨fun e he => heq ▸ hx.1 e he, hx.2⟩
        · refine (sparseSorted_cons _ _ _).2 ⟨fun e he => ?_, ih hx.2⟩
          rcases sparsePut_mem rest k (some w) e he with he | he
          · exact hx.1 e he
          · rw [he.1]; omega

theorem sparseGet_above {α : Type} (l : List (Nat × α)) (k : Nat) (h : sparseAbove k l) : sparseGet l k = none := by
  induction l with
  | nil => rfl
  | cons x rest ih =>
    obtain ⟨k', v'⟩ := x
    have hk : k ≠ k' := by have := h (k', v') List.mem_cons_self; simp at this; omega
    simp only [sparseGet, hk, if_false]
    exact ih fun e he => h e (List.mem_cons_of_mem _ he)

theorem sparseGet_put_ne {α : Type} (l : List (Nat × α)) (k j : Nat) (v : Option α) (h : j ≠ k) :
    sparseGet (sparsePut l k v) j = sparseGet l j := by
  induction l with
  | nil => cases v <;> simp [sparsePut, sparseGet, h]
  | cons x rest ih =>
    obtain ⟨k', v'⟩ := x
    cases v with
    | none =>
      simp only [sparsePut]
      split
      · subst_vars; simp [sparseGet, h]
      · simp only [sparseGet, ih]
    | some w =>
      simp only [sparsePut]
      split
      · simp [sparseGet, h]
      · split
        · subst_vars; simp [sparseGet, h]
        · simp only [sparseGet, ih]

theorem sparseGet_put_same {α : Type} (l : List (Nat × α)) (k : Nat) (v : Option α) (h : sparseSorted l = true) :
    sparseGet (sparsePut l k v) k = v := by
  induction l with
  | nil => cases v <;> simp [sparsePut, sparseGet]
  | cons x rest ih =>
    obtain ⟨k', v'⟩ := x
    have hx := (sparseSorted_cons k' v' rest).1 h
    cases v with
    | none =>
      simp only [sparsePut]
      split
      · subst_vars; exact sparseGet_above rest _ hx.1
      · rename_i hne; simp only [sparseGet, hne, if_false, ih hx.2]
    | some w =>
      simp only [sparsePut]
      split
      · simp [sparseGet]
      · split
        · simp [sparseGet]
        · rename_i hne; simp only [sparseGet, hne, if_false, ih hx.2]

/-- A value is listed exactly when its entry is a member. -/
theorem sparseGet_eq_some {α : Type} (l : List (Nat × α)) (k : Nat) (v : α) (h : sparseSorted l = true) :
    sparseGet l k = some v ↔ (k, v) ∈ l := by
  induction l with
  | nil => simp [sparseGet]
  | cons x rest ih =>
    obtain ⟨k', v'⟩ := x
    have hx := (sparseSorted_cons k' v' rest).1 h
    simp only [sparseGet]
    split
    · subst_vars
      simp only [Option.some.injEq, List.mem_cons, Prod.mk.injEq, true_and]
      refine ⟨fun e => .inl e.symm, fun e => e.elim Eq.symm fun e => ?_⟩
      exact absurd (hx.1 _ e) (lt_irrefl _)
    · rename_i hne
      simp [ih hx.2, hne]

/-- Two sorted lists that list the same values are the same data. -/
theorem sparse_ext {α : Type} : ∀ l r : List (Nat × α), sparseSorted l = true → sparseSorted r = true →
    (∀ k, sparseGet l k = sparseGet r k) → l = r
  | [], [], _, _, _ => rfl
  | [], (k, v) :: r, _, _, h => by simpa [sparseGet] using h k
  | (k, v) :: l, [], _, _, h => by simpa [sparseGet] using h k
  | (k, v) :: l, (k', v') :: r, hl, hr, h => by
    have xl := (sparseSorted_cons k v l).1 hl
    have xr := (sparseSorted_cons k' v' r).1 hr
    have m1 : (k, v) ∈ (k', v') :: r := by
      rw [← sparseGet_eq_some _ _ _ hr, ← h k]; simp [sparseGet]
    have m2 : (k', v') ∈ (k, v) :: l := by
      rw [← sparseGet_eq_some _ _ _ hl, h k']; simp [sparseGet]
    have e : (k, v) = (k', v') := by
      rcases List.mem_cons.1 m1 with e | e
      · exact e
      · rcases List.mem_cons.1 m2 with e' | e'
        · exact e'.symm
        · have := xr.1 _ e; have := xl.1 _ e'; simp at *; omega
    obtain ⟨rfl, rfl⟩ := Prod.mk.inj e
    rw [sparse_ext l r xl.2 xr.2 fun j => ?_]
    by_cases hj : j = k
    · subst hj; rw [sparseGet_above l _ xl.1, sparseGet_above r _ xr.1]
    · simpa [sparseGet, hj] using h j

/-! ### Bytes -/

theorem BufferMemory.wf_iff (m : BufferMemory) : m.wf = true ↔
    sparseSorted m.cells = true ∧ (∀ e ∈ m.cells, e.2 ≠ m.unlisted e.1) ∧ sparseSorted m.marks = true := by
  simp [BufferMemory.wf, and_assoc]

@[simp] theorem BufferMemory.writeByte_size (m : BufferMemory) (a : Nat) (b : Byte) :
    (m.writeByte a b).size = m.size := rfl

@[simp] theorem BufferMemory.writeByte_unlisted (m : BufferMemory) (a : Nat) (b : Byte) (x : Nat) :
    (m.writeByte a b).unlisted x = m.unlisted x := rfl

theorem BufferMemory.writeByte_wf (m : BufferMemory) (a : Nat) (b : Byte) (h : m.wf = true) :
    (m.writeByte a b).wf = true := by
  rw [BufferMemory.wf_iff] at h ⊢
  refine ⟨sparsePut_sorted _ _ _ h.1, fun e he => ?_, sparsePut_sorted _ _ _ h.2.2⟩
  rcases sparsePut_mem _ _ _ _ he with he | ⟨he, hv⟩
  · exact h.2.1 e he
  · rw [BufferMemory.writeByte_unlisted, he]
    split at hv
    · cases hv
    · rename_i hb; exact fun hc => hb (by rw [← hc, ← Option.some.inj hv])

/-- A byte written reads as written. -/
theorem BufferMemory.readByte_writeByte (m : BufferMemory) (a : Nat) (b : Byte) (h : m.wf = true) :
    (m.writeByte a b).readByte a = b := by
  rw [BufferMemory.wf_iff] at h
  rw [BufferMemory.readByte, BufferMemory.writeByte_unlisted]
  simp only [BufferMemory.writeByte, sparseGet_put_same _ _ _ h.1]
  split <;> simp_all

/-- A byte written changes no other byte. -/
theorem BufferMemory.readByte_writeByte_ne (m : BufferMemory) (a x : Nat) (b : Byte) (h : x ≠ a) :
    (m.writeByte a b).readByte x = m.readByte x := by
  rw [BufferMemory.readByte, BufferMemory.writeByte_unlisted]
  simp only [BufferMemory.writeByte, sparseGet_put_ne _ _ _ _ h, BufferMemory.readByte]

@[simp] theorem BufferMemory.writeBytes_size (m : BufferMemory) (a : Nat) (l : List Byte) :
    (m.writeBytes a l).size = m.size := by
  induction l generalizing m a with
  | nil => rfl
  | cons b rest ih => simp [BufferMemory.writeBytes, ih]

theorem BufferMemory.writeBytes_wf (m : BufferMemory) (a : Nat) (l : List Byte) (h : m.wf = true) :
    (m.writeBytes a l).wf = true := by
  induction l generalizing m a with
  | nil => exact h
  | cons b rest ih => exact ih _ _ (m.writeByte_wf a b h)

/-- A run of bytes written changes no byte outside it. -/
theorem BufferMemory.readByte_writeBytes_out (m : BufferMemory) (a x : Nat) (l : List Byte)
    (h : x < a ∨ a + l.length ≤ x) : (m.writeBytes a l).readByte x = m.readByte x := by
  induction l generalizing m a with
  | nil => rfl
  | cons b rest ih =>
    simp only [List.length_cons] at h
    rw [BufferMemory.writeBytes, ih _ _ (by omega), BufferMemory.readByte_writeByte_ne _ _ _ _ (by omega)]

theorem BufferMemory.writeWord_wf (m : BufferMemory) (w : Nat) (v : DWord) (h : m.wf = true) :
    (m.writeWord w v).wf = true := m.writeBytes_wf _ _ h

theorem BufferMemory.writeRange_wf (m : BufferMemory) (pages : List Nat) (start off : Nat) (l : List Byte)
    (h : m.wf = true) : (m.writeRange pages start off l).wf = true := by
  induction l generalizing m off with
  | nil => exact h
  | cons b rest ih => exact ih _ _ (m.writeByte_wf _ b h)

/-! ### Checked reads and bit errors -/

theorem BufferMemory.wf_of_marks (m : BufferMemory) (marks : List (Nat × EccError)) (corrected damaged : Nat)
    (h : m.wf = true) (hm : sparseSorted marks = true) :
    ({ m with marks := marks, corrected := corrected, damaged := damaged } : BufferMemory).wf = true := by
  rw [BufferMemory.wf_iff] at h ⊢
  exact ⟨h.1, h.2.1, hm⟩

theorem BufferMemory.check_wf (m : BufferMemory) (w : Nat) (h : m.wf = true) : (m.check w).1.wf = true := by
  have hm := ((m.wf_iff).1 h).2.2
  unfold BufferMemory.check
  split
  · exact h
  · exact m.wf_of_marks _ _ _ h (sparsePut_sorted _ _ _ hm)
  · exact h

theorem BufferMemory.checkRun_wf (m : BufferMemory) (w n : Nat) (h : m.wf = true) : (m.checkRun w n).1.wf = true := by
  induction n generalizing m w with
  | zero => exact h
  | succ n ih => exact ih _ _ (m.check_wf w h)

theorem BufferMemory.upset_wf (m : BufferMemory) (e : Nat × EccError) (h : m.wf = true) : (m.upset e).wf = true :=
  m.wf_of_marks _ _ _ h (sparsePut_sorted _ _ _ ((m.wf_iff).1 h).2.2)

theorem BufferMemory.upsets_wf (u : Upsets) (m : BufferMemory) (h : m.wf = true) :
    (u.foldl BufferMemory.upset m).wf = true := by
  induction u generalizing m with
  | nil => exact h
  | cons e rest ih => exact ih _ (m.upset_wf e h)

/-! ### Headers and links -/

theorem BufferMemory.writeHeader_wf (m : BufferMemory) (page offset seq length : Nat) (tag : Word) (i : StreamId)
    (h : m.wf = true) : (m.writeHeader page offset seq length tag i).wf = true :=
  (m.writeWord _ _).writeWord_wf _ _ (m.writeWord_wf _ _ h)

theorem BufferMemory.rewriteKind_wf (m : BufferMemory) (page offset seq : Nat) (kind : RecordKind)
    (h : m.wf = true) : (m.rewriteKind page offset seq kind).wf = true := m.writeWord_wf _ _ h

theorem BufferMemory.readHeader_wf (m : BufferMemory) (i : StreamId) (seq page offset : Nat) (h : m.wf = true) :
    (m.readHeader i seq page offset).1.wf = true :=
  BufferMemory.check_wf _ _ (m.check_wf _ h)

theorem BufferMemory.follow_wf (m : BufferMemory) (usable p : Nat) (owner : Option StreamId) (h : m.wf = true) :
    (m.follow usable p owner).1.wf = true := by
  have h1 := m.check_wf (linkWord usable p) h
  unfold BufferMemory.follow
  simp only
  split
  · exact h1
  · split
    · exact h1
    · split
      · exact h1
      · split
        · exact BufferMemory.check_wf _ _ h1
        · exact BufferMemory.check_wf _ _ h1

theorem BufferMemory.writeLink_wf (m : BufferMemory) (usable p : Nat) (next : Option Nat) (owner : Option StreamId)
    (h : m.wf = true) : (m.writeLink usable p next owner).wf = true := m.writeWord_wf _ _ h

theorem BufferMemory.damage_wf (m : BufferMemory) (p : Progress) (h : m.wf = true) : (m.damage p).wf = true :=
  BufferMemory.wf_of_marks _ _ _ _ (m.rewriteKind_wf _ _ _ _ h)
    (((m.rewriteKind p.page p.offset p.seq .voidDamaged).wf_iff).1 (m.rewriteKind_wf _ _ _ _ h)).2.2

theorem takeFree_wf (usable k : Nat) (head : Option Nat) (m : BufferMemory) (h : m.wf = true) :
    (takeFree usable k head m).1.wf = true := by
  induction k generalizing head m with
  | zero => exact h
  | succ k ih =>
    cases head with
    | none => exact h
    | some p =>
      have hf := m.follow_wf usable p none h
      simp only [takeFree]
      split
      · exact hf
      · exact ih _ _ hf
      · exact ih _ _ hf

/-- Buffer DRAM as INIT leaves it, and as it is at reset, is in canonical form. -/
theorem BufferMemory.empty_wf (size : Option DramSize) (corrected damaged : Nat) :
    ({ size := size, cells := [], marks := [], corrected := corrected, damaged := damaged } : BufferMemory).wf =
      true := rfl

theorem State.reset_mem_wf : State.reset.mem.wf = true := rfl

/-- Canonical memories that read alike, byte for byte, with the same errors, list the same cells. -/
theorem BufferMemory.cells_ext (a b : BufferMemory) (ha : a.wf = true) (hb : b.wf = true) (hs : a.size = b.size)
    (h : ∀ x, a.readByte x = b.readByte x) : a.cells = b.cells := by
  rw [BufferMemory.wf_iff] at ha hb
  have hu : ∀ x, a.unlisted x = b.unlisted x := by
    intro x; simp only [BufferMemory.unlisted, BufferMemory.unlistedWord, hs]
  refine sparse_ext _ _ ha.1 hb.1 fun k => ?_
  have hk := h k
  simp only [BufferMemory.readByte, hu] at hk
  cases ea : sparseGet a.cells k with
  | none =>
    cases eb : sparseGet b.cells k with
    | none => rfl
    | some v =>
      have hm := hb.2.1 _ ((sparseGet_eq_some _ _ _ hb.1).1 eb)
      simp only [ea, eb, Option.getD_none, Option.getD_some] at hk
      exact absurd hk.symm hm
  | some v =>
    have hm := ha.2.1 _ ((sparseGet_eq_some _ _ _ ha.1).1 ea)
    cases eb : sparseGet b.cells k with
    | none =>
      simp only [ea, eb, Option.getD_none, Option.getD_some] at hk
      exact absurd (hk.trans (hu k).symm) hm
    | some w => simpa [ea, eb] using hk

end Sys2Proof.Machine
end

