-- ==== Sys2Proof/Laws/Posting.lean ====
section
/-! SUPPORT. What the Ring Engine's operations leave alone: handing a completion over changes the rings and the link only; posting
notices changes besides only the latches. -/

namespace Sys2Proof.Machine

/-! ### Frames compose -/

theorem OnlyRings.refl (c : Chip) : OnlyRings c c := ⟨rfl, rfl, rfl, rfl, rfl, le_rfl⟩

theorem OnlyRings.trans {a b c : Chip} (h : OnlyRings a b) (k : OnlyRings b c) : OnlyRings a c :=
  ⟨k.ctl.trans h.ctl, k.streams.trans h.streams, k.pool.trans h.pool, k.engine.trans h.engine, k.mem.trans h.mem,
    k.table.trans h.table⟩

theorem OnlyRings.stream {c t : Chip} (h : OnlyRings c t) (j : StreamId) : t.stream j = c.stream j := by
  simp only [Chip.stream, h.streams]

theorem OnlyRings.isActive {c t : Chip} (h : OnlyRings c t) : t.isActive = c.isActive := by
  simp only [Chip.isActive, h.ctl]

theorem OnlyNotices.refl (c : Chip) : OnlyNotices c c := ⟨rfl, fun _ => rfl, rfl, rfl, rfl, le_rfl⟩

theorem OnlyNotices.trans {a b c : Chip} (h : OnlyNotices a b) (k : OnlyNotices b c) : OnlyNotices a c :=
  ⟨k.ctl.trans h.ctl, fun j => (k.streams j).trans (h.streams j), k.pool.trans h.pool, k.engine.trans h.engine,
    k.mem.trans h.mem, k.table.trans h.table⟩

theorem OnlyRings.notices {c t : Chip} (h : OnlyRings c t) : OnlyNotices c t :=
  ⟨h.ctl, fun j => by rw [h.stream j], h.pool, h.engine, h.mem, h.table⟩

theorem OnlyNotices.isActive {c t : Chip} (h : OnlyNotices c t) : t.isActive = c.isActive := by
  simp only [Chip.isActive, h.ctl]

theorem Chip.setLink_rings (c : Chip) (l : HostLink) : OnlyRings c { c with link := l } :=
  ⟨rfl, rfl, rfl, rfl, rfl, le_rfl⟩

theorem Chip.setRings_rings (c : Chip) (r : RingEngine) (h : r.table.length ≤ c.rings.table.length) :
    OnlyRings c { c with rings := r } := ⟨rfl, rfl, rfl, rfl, rfl, h⟩

theorem Chip.setReqRing_rings (c : Chip) (n : RingId) (r : RequestRing) : OnlyRings c (c.setReqRing n r) :=
  c.setRings_rings _ le_rfl

theorem Chip.setCmpRing_rings (c : Chip) (n : RingId) (r : CompletionRing) : OnlyRings c (c.setCmpRing n r) :=
  c.setRings_rings _ le_rfl

theorem Chip.modSlot_rings (c : Chip) (id : Nat) (f : Slot → Slot) : OnlyRings c (c.modSlot id f) := c.setRings_rings _ (by simp)

theorem Chip.setPhase_rings (c : Chip) (id : Nat) (ph : Phase) : OnlyRings c (c.setPhase id ph) := c.setRings_rings _ (by simp)

theorem Chip.freeSlot_rings (c : Chip) (id : Nat) : OnlyRings c (c.freeSlot id) := c.setRings_rings _ (List.length_filter_le _ _)

theorem Chip.dropArrived_rings (c : Chip) (id : Nat) : OnlyRings c (c.dropArrived id) := c.setRings_rings _ le_rfl

/-! ### Handing a completion over (R126) -/

theorem Chip.sendMessage_rings (c : Chip) (n : RingId) : OnlyRings c (c.sendMessage n) := by
  unfold Chip.sendMessage; split <;> exact c.setLink_rings _

theorem Chip.raiseInterrupt_rings (c : Chip) (n : RingId) : OnlyRings c (c.raiseInterrupt n) :=
  (c.setCmpRing_rings n _).trans (Chip.sendMessage_rings _ n)

theorem Chip.countPost_rings (c : Chip) (n : RingId) : OnlyRings c (c.countPost n) := by
  unfold Chip.countPost
  simp only
  split
  · split
    · exact c.raiseInterrupt_rings n
    · exact c.setCmpRing_rings n _
  · exact .refl c

theorem Chip.writeEntry_rings (c : Chip) (n : RingId) (notice : Bool) (ring : BitVec 8) (take : Nat) (e : Completion) :
    OnlyRings c (c.writeEntry n notice ring take e) :=
  ((c.setLink_rings _).trans (Chip.setCmpRing_rings _ n _)).trans (Chip.countPost_rings _ n)

theorem Chip.post_rings (c : Chip) (id : Nat) (e : Completion) : OnlyRings c (c.post id e) := by
  unfold Chip.post
  split
  · exact .refl c
  · split
    · refine .trans ?_ (Chip.setReqRing_rings _ _ _)
      refine .trans ?_ (Chip.freeSlot_rings _ _)
      split
      · exact (c.setCmpRing_rings _ _).trans (Chip.writeEntry_rings _ _ _ _ _ _)
      · exact c.setCmpRing_rings _ _
    · exact c.setPhase_rings _ _

theorem Chip.drainCheck_rings (c : Chip) (n : RingId) : OnlyRings c (c.drainCheck n) := by
  unfold Chip.drainCheck
  simp only
  split
  · exact .refl c
  · split
    · split
      · exact c.setReqRing_rings n _
      · split
        · exact c.setReqRing_rings n _
        · exact (c.setReqRing_rings n _).trans (Chip.post_rings _ _ _)
    · exact .refl c

theorem Chip.complete_rings (c : Chip) (id : Nat) (e : Completion) : OnlyRings c (c.complete id e) := by
  unfold Chip.complete
  split
  · exact OnlyRings.refl c
  · exact (c.post_rings id e).trans (Chip.drainCheck_rings _ _)

theorem Chip.answer_rings (c : Chip) (id : Nat) (f : Request → Completion) : OnlyRings c (c.answer id f) := by
  unfold Chip.answer
  split
  · exact OnlyRings.refl c
  · split
    · exact OnlyRings.refl c
    · exact c.complete_rings id _

theorem Chip.refuse_rings (c : Chip) (id : Nat) (s : Status) : OnlyRings c (c.refuse id s) := c.answer_rings id _

theorem foldl_onlyRings {α : Type} (f : Chip → α → Chip) (h : ∀ c a, OnlyRings c (f c a)) (l : List α) (c : Chip) :
    OnlyRings c (l.foldl f c) := by
  induction l generalizing c with
  | nil => exact OnlyRings.refl c
  | cons a rest ih => exact (h c a).trans (ih (f c a))

theorem Chip.refuseAll_rings (c : Chip) (ids : List Nat) (s : Status) : OnlyRings c (c.refuseAll ids s) :=
  foldl_onlyRings _ (fun c id => c.refuse_rings id s) ids c

/-! ### Posting notices (R114, R127, R128) -/

/-- A stream whose latches alone are changed. -/
theorem Chip.modStream_notices (c : Chip) (i : StreamId) (f : StreamEntry → StreamEntry)
    (h : ∀ st, (f st).clearLatches = st.clearLatches) : OnlyNotices c (c.modStream i f) := by
  refine ⟨rfl, fun j => ?_, rfl, rfl, rfl, le_rfl⟩
  rw [Chip.modStream_stream]
  split
  · subst_vars; exact h _
  · rfl

theorem Chip.postFault_notices (c : Chip) (i : StreamId) (n : RingId) : OnlyNotices c (c.postFault i n) := by
  unfold Chip.postFault
  split
  · exact .refl c
  · split
    · exact (c.writeEntry_rings n true _ _ _).notices.trans (Chip.modStream_notices _ i _ fun _ => rfl)
    · exact .refl c

theorem Chip.postOccupancy_notices (c : Chip) (i : StreamId) (n : RingId) : OnlyNotices c (c.postOccupancy i n) := by
  unfold Chip.postOccupancy
  split
  · exact .refl c
  · split
    · exact (c.writeEntry_rings n true _ _ _).notices.trans (Chip.modStream_notices _ i _ fun _ => rfl)
    · exact .refl c

theorem Chip.postReady_notices (c : Chip) (i : StreamId) (n : RingId) : OnlyNotices c (c.postReady i n) := by
  unfold Chip.postReady
  split
  · exact (c.writeEntry_rings n true _ _ _).notices.trans (Chip.modStream_notices _ i _ fun _ => rfl)
  · exact .refl c

theorem Chip.attempt_notices (c : Chip) (i : StreamId) : OnlyNotices c (c.attempt i) := by
  unfold Chip.attempt
  split
  · exact .refl c
  · exact ((c.postFault_notices i _).trans (Chip.postOccupancy_notices _ i _)).trans (Chip.postReady_notices _ i _)

/-- An entry written changes no request table slot. -/
theorem Chip.writeEntry_table (c : Chip) (n : RingId) (notice : Bool) (ring : BitVec 8) (take : Nat) (e : Completion) :
    (c.writeEntry n notice ring take e).rings.table = c.rings.table := by
  have hs (x : Chip) (r : CompletionRing) : ((x.setCmpRing n r).sendMessage n).rings.table = x.rings.table := by
    unfold Chip.sendMessage; split <;> rfl
  unfold Chip.writeEntry Chip.countPost Chip.raiseInterrupt
  simp only
  split
  · split
    · exact hs _ _
    · rfl
  · rfl

/-- An attempt to post latches changes no request table slot. -/
theorem Chip.attempt_table (c : Chip) (i : StreamId) : (c.attempt i).rings.table = c.rings.table := by
  have hf (x : Chip) (n : RingId) : (x.postFault i n).rings.table = x.rings.table := by
    unfold Chip.postFault
    split
    · rfl
    · split
      · exact x.writeEntry_table n true _ _ _
      · rfl
  have ho (x : Chip) (n : RingId) : (x.postOccupancy i n).rings.table = x.rings.table := by
    unfold Chip.postOccupancy
    split
    · rfl
    · split
      · exact x.writeEntry_table n true _ _ _
      · rfl
  have hr (x : Chip) (n : RingId) : (x.postReady i n).rings.table = x.rings.table := by
    unfold Chip.postReady
    split
    · exact x.writeEntry_table n true _ _ _
    · rfl
  unfold Chip.attempt
  split
  · rfl
  · rw [hr, ho, hf]

theorem Chip.attemptReqFault_rings (c : Chip) (n : RingId) : OnlyRings c (c.attemptReqFault n) := by
  unfold Chip.attemptReqFault
  split
  · exact .refl c
  · split
    · exact (c.writeEntry_rings 0 true _ _ _).trans (Chip.setReqRing_rings _ n _)
    · exact .refl c

theorem Chip.attemptCmpFault_rings (c : Chip) (n : RingId) : OnlyRings c (c.attemptCmpFault n) := by
  unfold Chip.attemptCmpFault
  split
  · exact .refl c
  · split
    · exact (c.writeEntry_rings 0 true _ _ _).trans (Chip.setCmpRing_rings _ n _)
    · exact .refl c

theorem Chip.serveRingFaults_rings (c : Chip) : OnlyRings c c.serveRingFaults :=
  foldl_onlyRings _ (fun c n => (c.attemptReqFault_rings n).trans (Chip.attemptCmpFault_rings _ n)) ringIds c

theorem foldl_onlyNotices {α : Type} (f : Chip → α → Chip) (h : ∀ c a, OnlyNotices c (f c a)) (l : List α) (c : Chip) :
    OnlyNotices c (l.foldl f c) := by
  induction l generalizing c with
  | nil => exact .refl c
  | cons a rest ih => exact (h c a).trans (ih (f c a))

theorem Chip.serveStream_notices (n : RingId) (c : Chip) (i : StreamId) : OnlyNotices c (Chip.serveStream n c i) := by
  unfold Chip.serveStream
  split
  · exact (c.attempt_notices i).trans (Chip.setCmpRing_rings _ n _).notices
  · exact .refl c

theorem Chip.service_notices (c : Chip) (n : RingId) : OnlyNotices c (c.service n) := by
  unfold Chip.service
  simp only
  split
  · exact c.serveRingFaults_rings.notices.trans (foldl_onlyNotices _ (Chip.serveStream_notices n) _ _)
  · exact foldl_onlyNotices _ (Chip.serveStream_notices n) _ _

theorem Chip.releaseReservation_notices (c : Chip) (n : RingId) : OnlyNotices c (c.releaseReservation n) :=
  (c.setCmpRing_rings n _).notices.trans (Chip.service_notices _ n)

/-! ### Posting touches no other stream -/

theorem OnlyStream.refl (i : StreamId) (c : Chip) : OnlyStream i c c := ⟨rfl, fun _ _ => rfl⟩

theorem OnlyStream.trans {i : StreamId} {a b c : Chip} (h : OnlyStream i a b) (k : OnlyStream i b c) :
    OnlyStream i a c :=
  ⟨k.ctl.trans h.ctl, fun j hj => (k.others j hj).trans (h.others j hj)⟩

theorem OnlyRings.onlyStream {c t : Chip} (h : OnlyRings c t) (i : StreamId) : OnlyStream i c t :=
  ⟨h.ctl, fun j _ => h.stream j⟩

theorem Chip.setStream_only (c : Chip) (i : StreamId) (st : StreamEntry) : OnlyStream i c (c.setStream i st) :=
  ⟨rfl, fun _ h => c.setStream_stream_ne st h⟩

theorem Chip.modStream_only (c : Chip) (i : StreamId) (f : StreamEntry → StreamEntry) :
    OnlyStream i c (c.modStream i f) :=
  c.setStream_only i _

theorem Chip.attempt_only (c : Chip) (i : StreamId) : OnlyStream i c (c.attempt i) := by
  unfold Chip.attempt
  split
  · exact .refl i c
  · rename_i n _
    have h1 : OnlyStream i c (c.postFault i n) := by
      unfold Chip.postFault
      split
      · exact .refl i c
      · split
        · exact ((c.writeEntry_rings n true _ _ _).onlyStream i).trans (Chip.modStream_only _ i _)
        · exact .refl i c
    have h2 (d : Chip) : OnlyStream i d (d.postOccupancy i n) := by
      unfold Chip.postOccupancy
      split
      · exact .refl i d
      · split
        · exact ((d.writeEntry_rings n true _ _ _).onlyStream i).trans (Chip.modStream_only _ i _)
        · exact .refl i d
    have h3 (d : Chip) : OnlyStream i d (d.postReady i n) := by
      unfold Chip.postReady
      split
      · exact ((d.writeEntry_rings n true _ _ _).onlyStream i).trans (Chip.modStream_only _ i _)
      · exact .refl i d
    exact (h1.trans (h2 _)).trans (h3 _)

/-- A service finds nothing to post when no latch of a stream is pending (R128); ring 0 has the fault latches besides. -/
theorem Chip.service_idle (c : Chip) (n : RingId) (hn : n ≠ 0) (h : ∀ i, (c.stream i).latched = false) :
    c.service n = c := by
  have idle : ∀ l : List StreamId, l.foldl (Chip.serveStream n) c = c := by
    intro l
    induction l with
    | nil => rfl
    | cons a l ih => simpa [Chip.serveStream, h a] using ih
  simpa [Chip.service, hn] using idle _

/-- A service posts nothing while no entry fits (R114, R128); ring 0 has the fault latches besides. -/
theorem Chip.service_full (c : Chip) (n : RingId) (hn : n ≠ 0) (h : c.canPost n = false) : c.service n = c := by
  have full : ∀ l : List StreamId, l.foldl (Chip.serveStream n) c = c := by
    intro l
    induction l with
    | nil => rfl
    | cons a l ih => simpa [Chip.serveStream, h] using ih
  simpa [Chip.service, hn] using full _

end Sys2Proof.Machine
end

