-- ==== Sys2Proof/Laws/Streams.lean ====
section
/-! SUPPORT. One lemma per shared operation of the Stream Controller and the Page Pool Manager on a stream `i`: what it keeps
(`Keeps i`): the Controller's registers, every other stream, buffer DRAM's canonical form, dormant contexts, and the order and
bounds of the stream itself. -/

namespace Sys2Proof.Machine

/-- What an operation on stream `i` keeps. -/
structure Keeps (i : StreamId) (c t : Chip) : Prop where
  ctl : t.ctl = c.ctl
  others : ∀ j : StreamId, j ≠ i → t.stream j = c.stream j
  mem : c.memOk → t.memOk
  ctx : ∀ k : CtxId, (c.ctx k).dormant → (t.ctx k).dormant
  order : (c.stream i).Ordered → (t.stream i).Ordered
  bounds : (c.stream i).Bounded → (t.stream i).Bounded
  table : t.rings.table.length ≤ c.rings.table.length

theorem Keeps.refl (i : StreamId) (c : Chip) : Keeps i c c := ⟨rfl, fun _ _ => rfl, id, fun _ => id, id, id, le_rfl⟩

theorem Keeps.trans {i : StreamId} {a b c : Chip} (h : Keeps i a b) (k : Keeps i b c) : Keeps i a c :=
  ⟨k.ctl.trans h.ctl, fun j hj => (k.others j hj).trans (h.others j hj), k.mem ∘ h.mem, fun j => k.ctx j ∘ h.ctx j,
    k.order ∘ h.order, k.bounds ∘ h.bounds, k.table.trans h.table⟩

theorem Keeps.onlyStream {i : StreamId} {c t : Chip} (h : Keeps i c t) : OnlyStream i c t := ⟨h.ctl, h.others⟩

theorem Keeps.isActive {i : StreamId} {c t : Chip} (h : Keeps i c t) : t.isActive = c.isActive := by
  simp only [Chip.isActive, h.ctl]

theorem OnlyRings.keeps {c t : Chip} (h : OnlyRings c t) (i : StreamId) : Keeps i c t :=
  ⟨h.ctl, fun j _ => h.stream j, fun m => by simpa only [Chip.memOk, h.mem] using m,
    fun k d => by simpa only [Chip.ctx, h.engine] using d, fun o => by rwa [h.stream i],
    fun o => by rwa [h.stream i], h.table⟩

/-- A stream that differs in its latches alone has the same order and bounds. -/
theorem StreamEntry.ordered_of_latches {a b : StreamEntry} (h : a.clearLatches = b.clearLatches) (o : b.Ordered) :
    a.Ordered := by
  have ho : b.clearLatches.Ordered :=
    ⟨o.baseRead, o.readFrontier, o.frontierNext, o.nextEnd, o.marks, o.consume, o.window, o.fetch⟩
  rw [← h] at ho
  exact ⟨ho.baseRead, ho.readFrontier, ho.frontierNext, ho.nextEnd, ho.marks, ho.consume, ho.window, ho.fetch⟩

theorem StreamEntry.bounded_of_latches {a b : StreamEntry} (h : a.clearLatches = b.clearLatches) (o : b.Bounded) :
    a.Bounded := by
  have ho : b.clearLatches.Bounded := ⟨o.marks, o.appends, o.fetches, o.window⟩
  rw [← h] at ho
  exact ⟨ho.marks, ho.appends, ho.fetches, ho.window⟩

/-- The entry of the stream replaced by one in order and within bounds. -/
theorem Chip.setStream_keeps (c : Chip) (i : StreamId) (st : StreamEntry)
    (ho : (c.stream i).Ordered → st.Ordered) (hb : (c.stream i).Bounded → st.Bounded) :
    Keeps i c (c.setStream i st) :=
  ⟨rfl, fun _ h => c.setStream_stream_ne st h, id, fun _ => id, by simpa using ho, by simpa using hb, le_rfl⟩

theorem Chip.modStream_keeps (c : Chip) (i : StreamId) (f : StreamEntry → StreamEntry)
    (ho : ∀ st : StreamEntry, st.Ordered → (f st).Ordered) (hb : ∀ st : StreamEntry, st.Bounded → (f st).Bounded) :
    Keeps i c (c.modStream i f) :=
  c.setStream_keeps i _ (ho _) (hb _)

/-- A change of buffer DRAM that keeps its form. -/
theorem Chip.setMem_keeps (c : Chip) (i : StreamId) (m : BufferMemory) (h : c.mem.wf = true → m.wf = true) :
    Keeps i c { c with mem := m } := ⟨rfl, fun _ _ => rfl, h, fun _ => id, id, id, le_rfl⟩

theorem Chip.setPool_keeps (c : Chip) (i : StreamId) (p : Pool) : Keeps i c { c with pool := p } :=
  ⟨rfl, fun _ _ => rfl, id, fun _ => id, id, id, le_rfl⟩

/-! ### Notices and monitors -/

theorem Chip.attempt_keeps (c : Chip) (i : StreamId) : Keeps i c (c.attempt i) := by
  have h := c.attempt_notices i
  exact ⟨h.ctl, (c.attempt_only i).others, fun m => by simpa only [Chip.memOk, h.mem] using m,
    fun k d => by simpa only [Chip.ctx, h.engine] using d, StreamEntry.ordered_of_latches (h.streams i),
    StreamEntry.bounded_of_latches (h.streams i), h.table⟩

theorem Chip.evalBacklog_keeps (c : Chip) (i : StreamId) : Keeps i c (c.evalBacklog i) := by
  have h (b : Backlog) (r : Bool) :
      Keeps i c (c.setStream i { c.stream i with backlog := b, readyLatch := r }) :=
    c.setStream_keeps i _
      (fun o => ⟨o.baseRead, o.readFrontier, o.frontierNext, o.nextEnd, o.marks, o.consume, o.window, o.fetch⟩)
      fun b => ⟨b.marks, b.appends, b.fetches, b.window⟩
  unfold Chip.evalBacklog
  simp only
  split
  · split
    · exact (h _ _).trans (Chip.attempt_keeps _ i)
    · exact h _ _
  · exact .refl i c

theorem Chip.evalOccupancy_keeps (c : Chip) (i : StreamId) : Keeps i c (c.evalOccupancy i) := by
  unfold Chip.evalOccupancy
  simp only
  split
  · split
    · refine .trans ?_ (Chip.attempt_keeps _ i)
      exact c.setStream_keeps i _
        (fun o => ⟨o.baseRead, o.readFrontier, o.frontierNext, o.nextEnd, o.marks, o.consume, o.window, o.fetch⟩)
        fun b => ⟨b.marks, b.appends, b.fetches, b.window⟩
    · exact .refl i c
  · exact .refl i c

/-! ### The pool and the engine -/

theorem Chip.startArbiter_keeps (c : Chip) (i : StreamId) : Keeps i c c.startArbiter := by
  unfold Chip.startArbiter
  split
  · exact c.setPool_keeps i _
  · exact .refl i c

theorem Chip.startArbiterIf_keeps (c : Chip) (i : StreamId) (b : Bool) : Keeps i c (c.startArbiterIf b) := by
  unfold Chip.startArbiterIf
  split
  · exact c.startArbiter_keeps i
  · exact .refl i c

theorem Chip.writeLink_keeps (c : Chip) (i : StreamId) (p : Nat) (next : Option Nat) (owner : Option StreamId) :
    Keeps i c (c.writeLink p next owner) := c.setMem_keeps i _ (c.mem.writeLink_wf _ _ _ _)

theorem Chip.followChain_keeps (c : Chip) (i j : StreamId) (p : Nat) : Keeps i c (c.followChain j p).1 :=
  c.setMem_keeps i _ (c.mem.follow_wf _ _ _)

theorem Chip.joinFree_keeps (c : Chip) (i : StreamId) (p : Nat) : Keeps i c (c.joinFree p) := by
  unfold Chip.joinFree
  refine .trans ?_ (Chip.setPool_keeps _ i _)
  split
  · exact c.writeLink_keeps i _ _ _
  · exact (c.writeLink_keeps i _ _ _).trans (Chip.writeLink_keeps _ i _ _ _)

/-- A change of the chain and the tail offset alone. -/
theorem StreamEntry.chain_ordered (st : StreamEntry) (l : List Nat) (n : Nat) (o : st.Ordered) :
    ({ st with chain := l, tail := n } : StreamEntry).Ordered :=
  ⟨o.baseRead, o.readFrontier, o.frontierNext, o.nextEnd, o.marks, o.consume, o.window, o.fetch⟩

theorem StreamEntry.chain_bounded (st : StreamEntry) (l : List Nat) (n : Nat) (b : st.Bounded) :
    ({ st with chain := l, tail := n } : StreamEntry).Bounded := ⟨b.marks, b.appends, b.fetches, b.window⟩

theorem Chip.breakChain_keeps (c : Chip) (i : StreamId) (p : Nat) : Keeps i c (c.breakChain i p) := by
  unfold Chip.breakChain
  simp only
  split
  · refine .trans ?_ (Chip.writeLink_keeps _ i _ _ _)
    refine .trans ?_ (Chip.setPool_keeps _ i _)
    exact c.setStream_keeps i _ (StreamEntry.chain_ordered _ _ _) (StreamEntry.chain_bounded _ _ _)
  · exact .refl i c

theorem Context.finish_dormant (x : Context) (o : CopyOutcome) (h : x.dormant) : x.finish o = x := by
  rcases h with h | h <;> simp [Context.finish, h]

/-- A context replaced by one that is dormant when it was. -/
theorem Chip.setCtx_keeps (c : Chip) (i : StreamId) (k : CtxId) (x : Context) (h : (c.ctx k).dormant → x.dormant) :
    Keeps i c (c.setCtx k x) := by
  refine ⟨rfl, fun _ _ => rfl, id, fun j d => ?_, id, id, le_rfl⟩
  rw [Chip.setCtx_ctx]
  split
  · subst_vars; exact h d
  · exact d

theorem Chip.setEngine_keeps (c : Chip) (i : StreamId) (e : Engine) (h : e.contexts = c.engine.contexts) :
    Keeps i c { c with engine := e } :=
  ⟨rfl, fun _ _ => rfl, id, fun k d => by simpa only [Chip.ctx, h] using d, id, id, le_rfl⟩

theorem Chip.report_keeps (c : Chip) (i : StreamId) (e : EndReport) : Keeps i c (c.report e) :=
  c.setEngine_keeps i _ rfl

theorem Chip.place_keeps (c : Chip) (i : StreamId) (t : Transfer) : Keeps i c (c.place t) := c.setEngine_keeps i _ rfl

theorem Context.free_dormant : Context.free.dormant := .inl rfl

theorem Chip.settle_keeps (c : Chip) (i : StreamId) (k : CtxId) : Keeps i c (c.settle k) := by
  have h : Keeps i c (c.setCtx k Context.free) := c.setCtx_keeps i k _ fun _ => Context.free_dormant
  unfold Chip.settle
  simp only
  split
  · split
    · exact .refl i c
    · split
      · exact .refl i c
      · split
        · exact h.trans (Chip.report_keeps _ i _)
        · exact .refl i c
      · exact h.trans (Chip.report_keeps _ i _)
      · exact h
  · exact .refl i c

theorem Chip.stopCopy_keeps (c : Chip) (i : StreamId) (id : Nat) : Keeps i c (c.stopCopy id) := by
  unfold Chip.stopCopy
  split
  · exact .trans (c.setEngine_keeps i { c.engine with queue := c.engine.queue.filter fun t => t.slot != id } rfl)
      (Chip.report_keeps _ i _)
  · split
    · exact .refl i c
    · exact .trans (c.setCtx_keeps i _ _ fun h => by rwa [Context.finish_dormant _ _ h]) (Chip.settle_keeps _ i _)

/-! ### Faults -/

theorem Chip.cut_keeps (c : Chip) (i : StreamId) (brk : Option Nat) : Keeps i c (c.cut i brk) := by
  unfold Chip.cut
  split
  · exact .refl i c
  · exact c.breakChain_keeps i _

theorem StreamEntry.markStopped_ordered (st : StreamEntry) (o : st.Ordered) : st.markStopped.Ordered := by
  refine ⟨o.baseRead, o.readFrontier, o.frontierNext, o.nextEnd, o.marks, o.consume, o.window, fun a ha => ?_⟩
  simp only [StreamEntry.markStopped, Option.map_eq_some_iff] at ha
  obtain ⟨b, hb, rfl⟩ := ha
  exact o.fetch b hb

theorem Chip.stopActive_keeps (c : Chip) (i : StreamId) : Keeps i c (c.stopActive i) := by
  unfold Chip.stopActive
  split
  · exact .refl i c
  · exact .trans
      (c.modStream_keeps i _ StreamEntry.markStopped_ordered fun st b => ⟨b.marks, b.appends, b.fetches, b.window⟩)
      (Chip.stopCopy_keeps _ i _)

/-- The waiting lists emptied. -/
theorem Chip.refuseWaiting_keeps (c : Chip) (i : StreamId) (s : Status) : Keeps i c (c.refuseWaiting i s) := by
  refine .trans ?_ ((Chip.refuseAll_rings _ _ s).keeps i)
  exact c.modStream_keeps i _
    (fun st o => ⟨o.baseRead, o.readFrontier, o.frontierNext, o.nextEnd, o.marks, o.consume, o.window, o.fetch⟩)
    fun st b => ⟨b.marks, Nat.zero_le _, Nat.zero_le _, b.window⟩

theorem Chip.refusePending_keeps (c : Chip) (i : StreamId) (d : Option Nat) : Keeps i c (c.refusePending d) := by
  unfold Chip.refusePending
  split
  · exact .refl i c
  · exact (c.refuse_rings _ _).keeps i

theorem Chip.faultStream_keeps (c : Chip) (i : StreamId) (cause : FaultCause) (brk : Option Nat) :
    Keeps i c (c.faultStream i cause brk) := by
  unfold Chip.faultStream
  simp only
  refine .trans ?_ (Chip.startArbiterIf_keeps _ i _)
  refine .trans ?_ (Chip.attempt_keeps _ i)
  refine .trans ?_ (Chip.refusePending_keeps _ i _)
  refine .trans ?_ (Chip.refuseWaiting_keeps _ i _)
  refine .trans ?_ (Chip.stopActive_keeps _ i)
  refine .trans (c.cut_keeps i brk) ?_
  exact Chip.modStream_keeps _ i _
    (fun st o => ⟨o.baseRead, o.readFrontier, o.frontierNext, o.nextEnd, o.marks, o.consume, o.window, o.fetch⟩)
    fun st b => ⟨b.marks, b.appends, b.fetches, b.window⟩

theorem Chip.closeBroken_keeps (c : Chip) (i : StreamId) (brk : Option Nat) : Keeps i c (c.closeBroken i brk) := by
  refine .trans (c.cut_keeps i brk) ?_
  exact Chip.modStream_keeps _ i _
    (fun st o => ⟨o.baseRead, o.readFrontier, o.frontierNext, o.nextEnd, o.marks, o.consume, o.window, o.fetch⟩)
    fun st b => ⟨b.marks, b.appends, b.fetches, b.window⟩

theorem Chip.reportMedia_keeps (c : Chip) (i : StreamId) (cause : FaultCause) (brk : Option Nat) :
    Keeps i c (c.reportMedia i cause brk) := by
  unfold Chip.reportMedia
  split
  · exact c.faultStream_keeps i cause brk
  · exact c.faultStream_keeps i cause brk
  · exact (c.closeBroken_keeps i brk).trans (Chip.stopActive_keeps _ i)
  · exact c.cut_keeps i brk
  · exact .refl i c
  · exact .refl i c

/-! ### Page return -/

theorem Chip.takeBack_keeps (c : Chip) (i : StreamId) (p : Nat) (rest : List Nat) : Keeps i c (c.takeBack i p rest) := by
  refine .trans ?_ (Chip.evalOccupancy_keeps _ i)
  refine .trans ?_ (Chip.joinFree_keeps _ i p)
  exact c.modStream_keeps i _ (fun st => st.chain_ordered rest st.tail) fun st => st.chain_bounded rest st.tail

theorem returnRun_keeps (i : StreamId) (stops : Bool) (fuel : Nat) (c : Chip) (n : Nat) :
    Keeps i c (returnRun i stops fuel c n).chip := by
  induction fuel generalizing c n with
  | zero => exact .refl i c
  | succ fuel ih =>
    unfold returnRun
    split
    · exact .refl i c
    · split
      · exact .refl i c
      · split
        · exact (c.takeBack_keeps i _ _).trans (ih _ _)
        · simp only
          split
          · exact c.followChain_keeps i i _
          · exact (c.followChain_keeps i i _).trans ((Chip.takeBack_keeps _ i _ _).trans (ih _ _))

theorem StreamEntry.emptyChain_ordered (st : StreamEntry) (o : st.Ordered) : st.emptyChain.Ordered := by
  refine ⟨o.baseRead, o.readFrontier, o.frontierNext, o.nextEnd, fun m hm => ?_, fun h => ?_, o.window, o.fetch⟩
  · simp only [StreamEntry.emptyChain, List.mem_map] at hm
    obtain ⟨m', hm', rfl⟩ := hm
    exact o.marks m' hm'
  · simp only [StreamEntry.emptyChain, o.consume h, List.map_nil]

theorem StreamEntry.emptyChain_bounded (st : StreamEntry) (b : st.Bounded) : st.emptyChain.Bounded :=
  ⟨by simpa [StreamEntry.emptyChain] using b.marks, b.appends, b.fetches, b.window⟩

theorem Chip.pageReturnRun_keeps (c : Chip) (i : StreamId) : Keeps i c (c.pageReturnRun i).chip := by
  unfold Chip.pageReturnRun
  simp only
  refine .trans ?_ (Chip.startArbiterIf_keeps _ i _)
  split
  · exact (returnRun_keeps i true _ c 0).trans
      (Chip.modStream_keeps _ i _ StreamEntry.emptyChain_ordered StreamEntry.emptyChain_bounded)
  · exact returnRun_keeps i true _ c 0

theorem Chip.pageReturn_keeps (c : Chip) (i : StreamId) : Keeps i c (c.pageReturn i) := by
  have h := c.pageReturnRun_keeps i
  unfold Chip.pageReturn
  simp only
  split
  · exact h
  · split
    · exact h.trans (Chip.faultStream_keeps _ i _ _)
    · exact h.trans (Chip.faultStream_keeps _ i _ _)
    · exact h.trans (Chip.closeBroken_keeps _ i _)
    · exact h
    · exact h
    · exact h

theorem Chip.returnAll_keeps (c : Chip) (i : StreamId) : Keeps i c (c.returnAll i).1 := by
  have h := returnRun_keeps i false (c.stream i).chain.length c 0
  unfold Chip.returnAll
  simp only
  split
  · exact h.trans (Chip.startArbiterIf_keeps _ i _)
  · exact (h.trans ((Chip.breakChain_keeps _ i _).trans (returnRun_keeps i false 1 _ _))).trans
      (Chip.startArbiterIf_keeps _ i _)

/-! ### Ends -/

theorem StreamEntry.closed_ordered : StreamEntry.closed.Ordered :=
  ⟨le_rfl, le_rfl, le_rfl, by decide, fun m h => (List.not_mem_nil h).elim, fun _ => rfl,
    fun m h => (List.not_mem_nil h).elim, fun a h => by cases h⟩

theorem StreamEntry.closed_bounded : StreamEntry.closed.Bounded :=
  ⟨Nat.zero_le _, Nat.zero_le _, Nat.zero_le _, Nat.zero_le _⟩

theorem Chip.flushEnd_keeps (c : Chip) (i : StreamId) : Keeps i c (c.flushEnd i) := by
  have h := c.pageReturn_keeps i
  have h2 : Keeps i (c.pageReturn i)
      ((c.pageReturn i).setStream i { (c.pageReturn i).stream i with state := .opened, pendingEnd := none }) :=
    Chip.setStream_keeps _ i _
      (fun o => ⟨o.baseRead, o.readFrontier, o.frontierNext, o.nextEnd, o.marks, o.consume, o.window, o.fetch⟩)
      fun b => ⟨b.marks, b.appends, b.fetches, b.window⟩
  unfold Chip.flushEnd
  simp only
  split
  · split
    · exact h.trans h2
    · exact (h.trans h2).trans ((Chip.answer_rings _ _ _).keeps i)
  · exact h

theorem Chip.closeEnd_keeps (c : Chip) (i : StreamId) : Keeps i c (c.closeEnd i) := by
  have h : Keeps i c ((c.returnAll i).1.setStream i StreamEntry.closed) :=
    (c.returnAll_keeps i).trans
      (Chip.setStream_keeps _ i _ (fun _ => StreamEntry.closed_ordered) fun _ => StreamEntry.closed_bounded)
  unfold Chip.closeEnd
  simp only
  split
  · exact h
  · exact h.trans ((Chip.answer_rings _ _ _).keeps i)

theorem Chip.endCheck_keeps (c : Chip) (i : StreamId) : Keeps i c (c.endCheck i) := by
  unfold Chip.endCheck
  simp only
  split
  · split
    · exact c.flushEnd_keeps i
    · exact c.closeEnd_keeps i
    all_goals exact .refl i c
  · exact .refl i c

/-! ### Admission -/

theorem linkPages_keeps (i j : StreamId) (c : Chip) (l : List Nat) : Keeps i c (linkPages j c l) := by
  induction l generalizing c with
  | nil => exact .refl i c
  | cons p rest ih =>
    cases rest with
    | nil => exact c.writeLink_keeps i _ _ _
    | cons q more => exact (c.writeLink_keeps i _ _ _).trans (ih _)

theorem Chip.linkAfter_keeps (c : Chip) (i j : StreamId) (ps : List Nat) : Keeps i c (c.linkAfter j ps) := by
  unfold Chip.linkAfter
  split
  · exact c.writeLink_keeps i _ _ _
  · exact .refl i c

/-- What an allocation of pages leaves alone, besides the chain that grows. -/
theorem Chip.allocate_pages (c : Chip) (i : StreamId) (k : Nat) (t : Chip) (ps : List Nat)
    (h : c.allocate i k = .pages t ps) :
    Keeps i c t ∧ t.stream i = { c.stream i with chain := (c.stream i).chain ++ ps } := by
  unfold Chip.allocate at h
  split at h
  · cases h
    exact ⟨.refl i _, by simp⟩
  · split at h
    · simp only at h
      split at h
      · cases h
      · rename_i g hg
        injection h with h1 h2
        subst h2
        have k1 : Keeps i c { c with mem := (takeFree c.pool.usable k c.pool.head c.mem).1 } :=
          c.setMem_keeps i _ (takeFree_wf _ _ _ _)
        have k2 := (Chip.linkAfter_keeps { c with mem := (takeFree c.pool.usable k c.pool.head c.mem).1 } i i g.1).trans
          (linkPages_keeps i i _ g.1)
        have hs : ∀ d l, ((linkPages i d l).stream i) = d.stream i := by
          intro d l
          induction l generalizing d with
          | nil => rfl
          | cons p rest ih =>
            cases rest with
            | nil => rfl
            | cons q more => rw [linkPages, ih]; rfl
        have ha : ∀ d : Chip, (d.linkAfter i g.1).stream i = d.stream i := by
          intro d; unfold Chip.linkAfter; split <;> rfl
        subst h1
        refine ⟨((k1.trans k2).trans (Chip.setPool_keeps _ i _)).trans
          (Chip.modStream_keeps _ i _ (fun st => st.chain_ordered _ st.tail) fun st => st.chain_bounded _ st.tail), ?_⟩
        rw [Chip.modStream_stream_same]
        have : ∀ (d : Chip) (p : Pool), ({ d with pool := p } : Chip).stream i = d.stream i := fun _ _ => rfl
        rw [this, hs, ha]
        rfl
    · cases h

/-- An allocation that meets a free-list link error leaves all but the corrections of its reads as it was (R95). -/
theorem Chip.allocate_linkError (c : Chip) (i : StreamId) (k : Nat) (t : Chip) (h : c.allocate i k = .linkError t) :
    ∃ m : BufferMemory, t = { c with mem := m } ∧ (c.memOk → m.wf = true) := by
  unfold Chip.allocate at h
  split at h
  · cases h
  · split at h
    · simp only at h
      split at h
      · injection h with h
        exact ⟨_, h.symm, takeFree_wf _ _ _ _⟩
      · cases h
    · cases h

theorem StreamEntry.afterAdmission_ordered (st : StreamEntry) (ps : List Nat) (length slot : Nat)
    (hn : st.next < Config.seqEnd) (o : st.Ordered) : (st.afterAdmission ps length slot).Ordered := by
  refine ⟨o.baseRead, o.readFrontier, le_trans o.frontierNext (Nat.le_succ _), hn, fun m hm => ?_, fun h => ?_,
    fun a ha => ?_, fun a ha => ?_⟩
  · simp only [StreamEntry.afterAdmission, List.mem_map] at hm
    obtain ⟨m', hm', rfl⟩ := hm
    exact o.marks m' hm'
  · simp only [StreamEntry.afterAdmission, o.consume h, List.map_nil]
  · simp only [StreamEntry.afterAdmission, List.mem_append, List.mem_singleton] at ha
    rcases ha with ha | rfl
    · exact lt_of_lt_of_le (o.window a ha) (Nat.le_succ _)
    · exact Nat.lt_succ_self _
  · simp only [StreamEntry.afterAdmission, Option.map_eq_some_iff] at ha
    obtain ⟨b, hb, rfl⟩ := ha
    exact o.fetch b hb

theorem StreamEntry.afterAdmission_bounded (st : StreamEntry) (ps : List Nat) (length slot : Nat)
    (hw : st.admitted.length < Config.maxWindow) (b : st.Bounded) : (st.afterAdmission ps length slot).Bounded :=
  ⟨by simpa [StreamEntry.afterAdmission] using b.marks, b.appends, b.fetches,
    by simpa [StreamEntry.afterAdmission] using hw⟩

theorem Chip.admitAppend_keeps (c : Chip) (i : StreamId) (st : StreamEntry) (ps : List Nat) (id length : Nat)
    (tag : Word) (src : Source) (hn : st.next < Config.seqEnd) (hw : st.admitted.length < Config.maxWindow)
    (hc : c.stream i = { st with chain := st.chain ++ ps }) : Keeps i c (c.admitAppend i st ps id length tag src) := by
  have k1 : Keeps i c (c.setStream i (st.afterAdmission ps length id)) :=
    c.setStream_keeps i _
      (fun o => by
        rw [hc] at o
        have o' : st.Ordered :=
          ⟨o.baseRead, o.readFrontier, o.frontierNext, o.nextEnd, o.marks, o.consume, o.window, o.fetch⟩
        exact st.afterAdmission_ordered ps length id hn o')
      fun b => by
        rw [hc] at b
        have b' : st.Bounded := ⟨b.marks, b.appends, b.fetches, b.window⟩
        exact st.afterAdmission_bounded ps length id hw b'
  have k2 := (k1.trans (Chip.setMem_keeps _ i _ (BufferMemory.writeHeader_wf _ ((st.rangeOf ps).1.head?.getD 0)
    (st.rangeOf ps).2 st.next length tag i))).trans
    (((Chip.setPhase_rings _ id .admitted).keeps i).trans
      (Chip.place_keeps _ i { slot := id, work := .appendCopy length src (st.rangeOf ps).1 (st.rangeOf ps).2 }))
  unfold Chip.admitAppend
  simp only
  split
  · exact k2
  · exact k2.trans (Chip.evalOccupancy_keeps _ i)

/-- An admission (R33), when next is below its end and the window has room. -/
theorem Chip.tryAdmit_done (c : Chip) (i : StreamId) (id length : Nat) (tag : Word) (src : Source) (t : Chip)
    (hn : (c.stream i).next < Config.seqEnd) (hw : (c.stream i).admitted.length < Config.maxWindow)
    (h : c.tryAdmit i id length tag src = .done t) : Keeps i c t := by
  unfold Chip.tryAdmit at h
  simp only at h
  split at h
  · cases h
  · cases h
  · rename_i c1 ps he
    injection h with h
    obtain ⟨k, hs⟩ := c.allocate_pages i _ c1 ps he
    exact h ▸ k.trans (c1.admitAppend_keeps i _ ps id length tag src hn hw hs)

/-- A free-list link error met by an admission halts the controller (R95). -/
theorem Chip.tryAdmit_halted (c : Chip) (i : StreamId) (id length : Nat) (tag : Word) (src : Source) (t : Chip)
    (h : c.tryAdmit i id length tag src = .halted t) :
    ∃ m : BufferMemory, t = ({ c with mem := m } : Chip).halt .freeList ∧ (c.memOk → m.wf = true) := by
  unfold Chip.tryAdmit at h
  simp only at h
  split at h
  · cases h
  · rename_i c1 he
    injection h with h
    obtain ⟨m, rfl, hm⟩ := c.allocate_linkError i _ c1 he
    exact ⟨m, h.symm, hm⟩
  · cases h

/-! ### The waiting-fetch head -/

theorem passPages_keeps (i j : StreamId) (fuel : Nat) (c : Chip) (page pos : Nat) :
    Keeps i c (passPages j fuel c page pos).1 := by
  induction fuel generalizing c page pos with
  | zero => exact .refl i c
  | succ fuel ih =>
    unfold passPages
    split
    · exact .refl i c
    · simp only
      split
      · exact c.followChain_keeps i j page
      · exact (c.followChain_keeps i j page).trans (ih _ _ _)

theorem nextPlace_keeps (i j : StreamId) (more : Bool) (c : Chip) (page pos : Nat) :
    Keeps i c (nextPlace j more c page pos).1 := by
  unfold nextPlace
  split
  · simp only
    split <;> exact c.followChain_keeps i j page
  · exact .refl i c

/-- The part a sizing walk leaves behind. -/
def Sizing.chip : Sizing → Chip
  | .broken c _ _ => c
  | .small c _ => c
  | .sized c _ _ => c

theorem sizeWalk_keeps (i j : StreamId) (capacity next fuel : Nat) (c : Chip) (seq page offset n total : Nat) :
    Keeps i c (sizeWalk j capacity next fuel c seq page offset n total).chip := by
  induction fuel generalizing c seq page offset n total with
  | zero => exact .refl i c
  | succ fuel ih =>
    have hm : Keeps i c { c with mem := (c.mem.readHeader j seq page offset).1 } :=
      c.setMem_keeps i _ (c.mem.readHeader_wf j seq page offset)
    unfold sizeWalk
    simp only
    split
    · exact hm
    · split
      · split <;> exact hm
      · split
        · exact hm.trans (passPages_keeps i j _ _ _ _)
        · split
          · exact (hm.trans (passPages_keeps i j _ _ _ _)).trans (nextPlace_keeps i j _ _ _ _)
          · exact ((hm.trans (passPages_keeps i j _ _ _ _)).trans (nextPlace_keeps i j _ _ _ _)).trans (ih _ _ _ _ _ _)

/-- A sizing walk changes no stream entry. -/
theorem sizeWalk_stream (j : StreamId) (capacity next fuel : Nat) (c : Chip) (seq page offset n total : Nat) :
    (sizeWalk j capacity next fuel c seq page offset n total).chip.streams = c.streams := by
  have hp : ∀ (fuel : Nat) (d : Chip) (page pos : Nat), (passPages j fuel d page pos).1.streams = d.streams := by
    intro fuel
    induction fuel with
    | zero => intros; rfl
    | succ fuel ih =>
      intro d page pos
      unfold passPages
      split
      · rfl
      · simp only
        split
        · rfl
        · exact (ih _ _ _).trans rfl
  have hn : ∀ (more : Bool) (d : Chip) (page pos : Nat), (nextPlace j more d page pos).1.streams = d.streams := by
    intro more d page pos
    unfold nextPlace
    split
    · simp only; split <;> rfl
    · rfl
  induction fuel generalizing c seq page offset n total with
  | zero => rfl
  | succ fuel ih =>
    unfold sizeWalk
    simp only
    split
    · rfl
    · split
      · split <;> rfl
      · split
        · exact (hp _ _ _ _).trans rfl
        · split
          · exact ((hn _ _ _ _).trans (hp _ _ _ _)).trans rfl
          · exact (ih _ _ _ _ _ _).trans (((hn _ _ _ _).trans (hp _ _ _ _)).trans rfl)

/-- A sizing walk counts no more records than its bound (R54). -/
theorem sizeWalk_count (j : StreamId) (capacity next fuel : Nat) (c : Chip) (seq page offset n total : Nat) (t : Chip)
    (m : Nat) (loc : Loc) (h : sizeWalk j capacity next fuel c seq page offset n total = .sized t m loc) :
    m ≤ n + fuel := by
  induction fuel generalizing c seq page offset n total with
  | zero => injection h with _ h _; omega
  | succ fuel ih =>
    unfold sizeWalk at h
    simp only at h
    split at h
    · cases h
    · split at h
      · split at h
        · cases h
        · injection h with _ h _; omega
      · split at h
        · cases h
        · split at h
          · cases h
          · have := ih _ _ _ _ _ _ h; omega

theorem StreamEntry.granted_ordered (st : StreamEntry) (h : WaitingFetch) (rest : List WaitingFetch) (short : Bool)
    (n : Nat) (loc : Loc) (hn : n ≤ st.available) (o : st.Ordered) : (st.granted h rest short n loc).Ordered := by
  have hr : st.read + n ≤ st.frontier := by
    have := o.readFrontier; simp only [StreamEntry.available] at hn; omega
  refine ⟨le_trans o.baseRead (Nat.le_add_right _ _), hr, o.frontierNext, o.nextEnd,
    fun m hm => ⟨(o.marks m hm).1, le_trans (o.marks m hm).2 (Nat.le_add_right _ _)⟩, o.consume, o.window,
    fun a ha => ?_⟩
  simp only [StreamEntry.granted, Option.some.injEq] at ha
  subst ha
  exact ⟨Nat.le_add_right _ _, hr⟩

theorem Chip.grant_keeps (c : Chip) (i : StreamId) (h : WaitingFetch) (rest : List WaitingFetch) (short : Bool)
    (hl : rest.length ≤ Config.maxWaiting) : Keeps i c (c.grant i h rest short).1 := by
  have kw := sizeWalk_keeps i i h.capacity (c.stream i).next (min h.maxRecords (c.stream i).available) c
    (c.stream i).read (c.stream i).readLoc.place.1 (c.stream i).readLoc.place.2 0 0
  have sw := sizeWalk_stream i h.capacity (c.stream i).next (min h.maxRecords (c.stream i).available) c
    (c.stream i).read (c.stream i).readLoc.place.1 (c.stream i).readLoc.place.2 0 0
  have cw := sizeWalk_count i h.capacity (c.stream i).next (min h.maxRecords (c.stream i).available) c
    (c.stream i).read (c.stream i).readLoc.place.1 (c.stream i).readLoc.place.2 0 0
  unfold Chip.grant
  simp only
  split
  · rename_i c1 cause brk he
    rw [he] at kw
    exact kw.trans (Chip.faultStream_keeps c1 i cause brk)
  · rename_i c1 f he
    rw [he] at kw
    refine (kw.trans ?_).trans ((Chip.answer_rings _ _ _).keeps i)
    exact Chip.modStream_keeps c1 i _
      (fun st o => ⟨o.baseRead, o.readFrontier, o.frontierNext, o.nextEnd, o.marks, o.consume, o.window, o.fetch⟩)
      fun st b => ⟨b.marks, b.appends, hl, b.window⟩
  · rename_i c1 n loc he
    rw [he] at kw sw
    have hn : n ≤ (c.stream i).available := by have := cw c1 n loc he; omega
    have hs : c1.stream i = c.stream i := by simp only [Chip.stream]; exact congrArg (·.get i) sw
    refine .trans ?_ (Chip.evalBacklog_keeps _ i)
    refine .trans ?_ (Chip.place_keeps _ i _)
    refine .trans ?_ ((Chip.setPhase_rings _ _ _).keeps i)
    refine kw.trans (Chip.setStream_keeps c1 i _ (fun o => ?_) fun b => ⟨b.marks, b.appends, hl, b.window⟩)
    exact StreamEntry.granted_ordered _ h rest short n loc (hs ▸ hn) o

theorem evalHeads_keeps (fuel : Nat) (i : StreamId) (c : Chip) (hb : (c.stream i).Bounded) :
    Keeps i c (evalHeads fuel i c) := by
  induction fuel generalizing c with
  | zero => exact .refl i c
  | succ fuel ih =>
    unfold evalHeads
    simp only
    split
    · split
      · exact .refl i c
      · rename_i h rest hw
        have hl : rest.length ≤ Config.maxWaiting := by have := hb.fetches; rw [hw] at this; simp at this; omega
        split
        · have k := c.grant_keeps i h rest false hl
          split
          · exact k.trans (ih _ (k.bounds hb))
          · exact k
        · split
          · split
            · have k := c.grant_keeps i h rest true hl
              split
              · exact k.trans (ih _ (k.bounds hb))
              · exact k
            · have k1 : Keeps i c (c.modStream i fun st => { st with waitF := rest }) :=
                c.modStream_keeps i _
                  (fun st o =>
                    ⟨o.baseRead, o.readFrontier, o.frontierNext, o.nextEnd, o.marks, o.consume, o.window, o.fetch⟩)
                  fun st b => ⟨b.marks, b.appends, hl, b.window⟩
              have k := k1.trans ((Chip.answer_rings (c.modStream i fun st => { st with waitF := rest }) h.slot
                fun q => { code := Status.noData.code, commandId := q.commandId, streamId := q.streamId,
                           posA := (c.stream i).read }).keeps i)
              exact k.trans (ih _ (k.bounds hb))
          · exact .refl i c
    · exact .refl i c

theorem Chip.evalHead_keeps (c : Chip) (i : StreamId) (hb : (c.stream i).Bounded) : Keeps i c (c.evalHead i) :=
  evalHeads_keeps _ i c hb

/-! ### Joining the waiting lists -/

theorem Chip.cancelInstead_rings (c : Chip) (id : Nat) : OnlyRings c (c.cancelInstead id) := by
  unfold Chip.cancelInstead
  split
  · exact .refl c
  · exact (c.setReqRing_rings _ _).trans (Chip.refuse_rings _ _ _)

theorem Chip.joinAppends_keeps (c : Chip) (i : StreamId) (id length wait : Nat) :
    Keeps i c (c.joinAppends i id length wait) := by
  unfold Chip.joinAppends
  split
  · exact (c.refuse_rings _ _).keeps i
  · rename_i hl
    split
    · exact (c.cancelInstead_rings id).keeps i
    · refine .trans ?_ ((Chip.setPhase_rings _ _ _).keeps i)
      exact c.setStream_keeps i _
        (fun o => ⟨o.baseRead, o.readFrontier, o.frontierNext, o.nextEnd, o.marks, o.consume, o.window, o.fetch⟩)
        fun b => ⟨b.marks, by simp; omega, b.fetches, b.window⟩

theorem Chip.joinFetches_keeps (c : Chip) (i : StreamId) (id maxRecords minRecords wait : Nat) (segs : List Segment)
    (hb : (c.stream i).Bounded) : Keeps i c (c.joinFetches i id maxRecords minRecords wait segs) := by
  unfold Chip.joinFetches
  split
  · exact (c.refuse_rings _ _).keeps i
  · rename_i hl
    split
    · exact (c.cancelInstead_rings id).keeps i
    · have k : ∀ w : WaitingFetch, Keeps i c ((c.modStream i fun st => { st with waitF := st.waitF ++ [w] }).modSlot id
          fun sl => { sl with phase := .waiting, segments := segs }) := fun w =>
        .trans
          (c.setStream_keeps i { c.stream i with waitF := (c.stream i).waitF ++ [w] }
            (fun o => ⟨o.baseRead, o.readFrontier, o.frontierNext, o.nextEnd, o.marks, o.consume, o.window, o.fetch⟩)
            fun b => ⟨b.marks, b.appends,
              by rw [List.length_append, List.length_singleton]; omega, b.window⟩)
          ((Chip.modSlot_rings _ _ _).keeps i)
      simp only
      split
      · exact (k _).trans (Chip.evalHead_keeps _ i ((k _).bounds hb))
      · exact k _

/-! ### The walks over the append window -/

theorem committable_length (f : Nat) (l : List Admitted) (n : Nat) (h : ∀ a ∈ l, a.seq < n) (hf : f ≤ n) :
    f + (committable f l).length ≤ n := by
  induction l generalizing f with
  | nil => simpa [committable] using hf
  | cons a rest ih =>
    unfold committable
    split
    · rename_i hc
      have ha := h a List.mem_cons_self
      simp only [Bool.and_eq_true, beq_iff_eq] at hc
      have := ih (f + 1) (fun b hb => h b (List.mem_cons_of_mem _ hb)) (by omega)
      simp only [List.length_cons]; omega
    · simpa using hf

theorem Chip.inOrderWalk_keeps (c : Chip) (i : StreamId) (hb : (c.stream i).Bounded) : Keeps i c (c.inOrderWalk i) := by
  unfold Chip.inOrderWalk
  simp only
  split
  · exact .refl i c
  · have k1 : Keeps i c (c.setStream i
        { c.stream i with
          frontier := (c.stream i).frontier + (committable (c.stream i).frontier (c.stream i).admitted).length
          admitted := (c.stream i).admitted.drop
            (committable (c.stream i).frontier (c.stream i).admitted).length }) :=
      c.setStream_keeps i _
        (fun o => ⟨o.baseRead, le_trans o.readFrontier (Nat.le_add_right _ _),
          committable_length _ _ _ o.window o.frontierNext, o.nextEnd, o.marks, o.consume,
          fun a ha => o.window a (List.mem_of_mem_drop ha),
          fun a ha => ⟨(o.fetch a ha).1, le_trans (o.fetch a ha).2 (Nat.le_add_right _ _)⟩⟩)
        fun b => ⟨b.marks, b.appends, b.fetches, by have := b.window; simp; omega⟩
    refine .trans ?_ (Chip.startArbiter_keeps _ i)
    have k3 : Keeps i c ((committable (c.stream i).frontier (c.stream i).admitted).foldl
        (fun d a => d.answer a.slot (a.committed ((c.stream i).frontier +
          (committable (c.stream i).frontier (c.stream i).admitted).length)))
        (c.setStream i
        { c.stream i with
          frontier := (c.stream i).frontier + (committable (c.stream i).frontier (c.stream i).admitted).length
          admitted := (c.stream i).admitted.drop
            (committable (c.stream i).frontier (c.stream i).admitted).length })) :=
      k1.trans ((foldl_onlyRings _ (fun d a => d.answer_rings _ _) _ _).keeps i)
    have k4 := k3.trans (Chip.evalBacklog_keeps _ i)
    exact k4.trans (Chip.evalHead_keeps _ i (k4.bounds hb))

theorem Chip.discardWalk_keeps (c : Chip) (i : StreamId) : Keeps i c (c.discardWalk i) := by
  unfold Chip.discardWalk
  simp only
  split
  · exact .refl i c
  · refine .trans ?_ (Chip.endCheck_keeps _ i)
    refine .trans ?_ (Chip.startArbiter_keeps _ i)
    have k1 : Keeps i c (c.setStream i
        { c.stream i with admitted := (c.stream i).admitted.drop (discardable (c.stream i).admitted).length }) :=
      c.setStream_keeps i _
        (fun o => ⟨o.baseRead, o.readFrontier, o.frontierNext, o.nextEnd, o.marks, o.consume,
          fun a ha => o.window a (List.mem_of_mem_drop ha), o.fetch⟩)
        fun b => ⟨b.marks, b.appends, b.fetches, by have := b.window; simp; omega⟩
    have k2 := k1.trans ((foldl_onlyRings (fun d (a : Admitted) => d.answer a.slot
      (a.discarded (c.stream i).discardStatus)) (fun d a => d.answer_rings _ _)
      (discardable (c.stream i).admitted) _).keeps i)
    split
    · exact k2
    · exact k2.trans (Chip.pageReturn_keeps _ i)

theorem Chip.walk_keeps (c : Chip) (i : StreamId) (hb : (c.stream i).Bounded) : Keeps i c (c.walk i) := by
  unfold Chip.walk
  split
  · exact c.inOrderWalk_keeps i hb
  · exact c.discardWalk_keeps i
  · exact c.discardWalk_keeps i
  · exact c.discardWalk_keeps i
  · exact .refl i c
  · exact .refl i c

end Sys2Proof.Machine
end

