-- ==== Sys2Proof/Laws/Links.lean ====
section
/-! SUPPORT. What reads and writes of the page link table and the free list do to the words of buffer DRAM: one lemma for each
operation that follows, writes, takes or joins pages. -/

namespace Sys2Proof.Machine

/-! ### Words -/

/-- A word written reads as written. -/
theorem BufferMemory.word_writeWord (m : BufferMemory) (w : Nat) (v : DWord) (h : m.wf = true) :
    (m.writeWord w v).word w = v := by
  have e (a : Nat) (l : List Byte) (n : BufferMemory) (hn : n.wf = true) (k : Nat) (hk : k < l.length) :
      (n.writeBytes a l).readByte (a + k) = l[k] := by
    induction l generalizing n a k with
    | nil => simp at hk
    | cons b rest ih =>
      cases k with
      | zero =>
        rw [BufferMemory.writeBytes, BufferMemory.readByte_writeBytes_out _ _ _ _ (by omega), Nat.add_zero,
          BufferMemory.readByte_writeByte _ _ _ hn, List.getElem_cons_zero]
      | succ k =>
        rw [BufferMemory.writeBytes, List.getElem_cons_succ,
          ← ih (a + 1) _ (n.writeByte_wf a b hn) k (by simpa using hk), Nat.add_right_comm, Nat.add_assoc]
  have g (k : Nat) (hk : k < 8) : (m.writeWord w v).readByte (8 * w + k) = wordByte v k := by
    rw [BufferMemory.writeWord, e _ _ _ h k (by simpa [wordBytes] using hk)]
    match k, hk with
    | 0, _ | 1, _ | 2, _ | 3, _ | 4, _ | 5, _ | 6, _ | 7, _ => rfl
  have g0 := g 0 (by omega)
  rw [Nat.add_zero] at g0
  unfold BufferMemory.word
  rw [g 7 (by omega), g 6 (by omega), g 5 (by omega), g 4 (by omega), g 3 (by omega), g 2 (by omega), g 1 (by omega), g0]
  apply BitVec.eq_of_getLsbD_eq
  intro i hi
  simp only [wordByte, BitVec.getLsbD_append, BitVec.getLsbD_extractLsb']
  interval_cases i <;> simp

/-- A word written changes no byte of another word. -/
theorem BufferMemory.readByte_writeWord_ne (m : BufferMemory) (w a : Nat) (v : DWord) (h : a / 8 ≠ w) :
    (m.writeWord w v).readByte a = m.readByte a :=
  m.readByte_writeBytes_out _ _ _ (by simp only [wordBytes, List.length_cons, List.length_nil]; omega)

/-- A word whose bytes all read as in another memory is the same word there. -/
theorem BufferMemory.word_congr {m n : BufferMemory} (w : Nat) (h : ∀ a, a / 8 = w → m.readByte a = n.readByte a) :
    m.word w = n.word w := by
  unfold BufferMemory.word
  rw [h _ (by omega), h _ (by omega), h _ (by omega), h _ (by omega), h _ (by omega), h _ (by omega), h _ (by omega),
    h _ (by omega)]

/-- A word written changes no other word. -/
theorem BufferMemory.word_writeWord_ne (m : BufferMemory) (w w' : Nat) (v : DWord) (h : w' ≠ w) :
    (m.writeWord w v).word w' = m.word w' :=
  BufferMemory.word_congr _ fun a ha => m.readByte_writeWord_ne w a v (by omega)

/-! ### Reads change no data -/

/-- Two memories of one size that hold the same cells; their error marks and counters may differ. -/
structure SameData (m n : BufferMemory) : Prop where
  size : n.size = m.size
  cells : n.cells = m.cells

theorem SameData.refl (m : BufferMemory) : SameData m m := ⟨rfl, rfl⟩

theorem SameData.trans {a b c : BufferMemory} (h : SameData a b) (k : SameData b c) : SameData a c :=
  ⟨k.size.trans h.size, k.cells.trans h.cells⟩

theorem SameData.readByte {m n : BufferMemory} (h : SameData m n) (a : Nat) : n.readByte a = m.readByte a := by
  simp only [BufferMemory.readByte, BufferMemory.unlisted, BufferMemory.unlistedWord, h.size, h.cells]

theorem SameData.word {m n : BufferMemory} (h : SameData m n) (w : Nat) : n.word w = m.word w :=
  BufferMemory.word_congr w fun a _ => h.readByte a

/-- A checked read changes no data, and what it gives is the word. -/
theorem BufferMemory.check_spec (m : BufferMemory) (w : Nat) :
    SameData m (m.check w).1 ∧ ∀ v, (m.check w).2 = some v → v = m.word w := by
  unfold BufferMemory.check
  split
  · exact ⟨.refl m, fun v h => (Option.some.inj h).symm⟩
  · exact ⟨⟨rfl, rfl⟩, fun v h => (Option.some.inj h).symm⟩
  · exact ⟨.refl m, fun v h => by cases h⟩

/-- A stored header read changes no data, and what it gives is the judgement of its two words (R155). -/
theorem BufferMemory.readHeader_spec (m : BufferMemory) (i : StreamId) (seq page offset : Nat) :
    SameData m (m.readHeader i seq page offset).1 ∧ ∀ h, (m.readHeader i seq page offset).2 = some h →
      judgeHeader (m.word (wordAt page offset)) (m.word (wordAt page offset + 1)) i seq = some h := by
  have h0 := m.check_spec (wordAt page offset)
  have h1 := (m.check (wordAt page offset)).1.check_spec (wordAt page offset + 1)
  refine ⟨h0.1.trans h1.1, fun h hh => ?_⟩
  unfold BufferMemory.readHeader at hh
  simp only at hh
  split at hh
  · rename_i a b ea eb
    rw [h0.2 a ea, h1.2 b eb, h0.1.word] at hh
    exact hh
  · cases hh

/-- A next link followed changes no data; END and the page found are what the link's word holds (R87). -/
theorem BufferMemory.follow_spec (m : BufferMemory) (usable p : Nat) (owner : Option StreamId) :
    SameData m (m.follow usable p owner).1 ∧
    ((m.follow usable p owner).2 = .fin → linkNext (m.word (linkWord usable p)) = linkNone) ∧
    ∀ q, (m.follow usable p owner).2 = .page q → linkNext (m.word (linkWord usable p)) = q ∧ q ≠ linkNone := by
  have h0 := m.check_spec (linkWord usable p)
  unfold BufferMemory.follow
  simp only
  split
  · exact ⟨h0.1, by simp, by simp⟩
  · rename_i v hv
    have hv := h0.2 v hv
    subst hv
    split
    · rename_i hn
      exact ⟨h0.1, fun _ => hn, by simp⟩
    · rename_i hn
      split
      · exact ⟨h0.1, by simp, by simp⟩
      · rename_i hu
        have h1 := (m.check (linkWord usable p)).1.check_spec
          (linkWord usable (linkNext (m.word (linkWord usable p))))
        split
        · exact ⟨h0.1.trans h1.1, by simp, by simp⟩
        · simp only
          split
          · refine ⟨h0.1.trans h1.1, by simp, fun q h => ?_⟩
            injection h with h
            subst h
            exact ⟨rfl, hn⟩
          · exact ⟨h0.1.trans h1.1, by simp, by simp⟩

/-- A chain link followed changes no data but corrections; the page found is what the link's word holds. -/
theorem Chip.followChain_spec (c : Chip) (i : StreamId) (p : Nat) :
    (c.followChain i p).1 = { c with mem := (c.followChain i p).1.mem } ∧
    SameData c.mem (c.followChain i p).1.mem ∧
    ∀ q, (c.followChain i p).2 = some q → linkNext (c.mem.word (linkWord c.pool.usable p)) = q := by
  have h := c.mem.follow_spec c.pool.usable p (some i)
  refine ⟨rfl, h.1, fun q hq => ?_⟩
  unfold Chip.followChain at hq
  simp only at hq
  split at hq
  · cases hq
  · cases hq
  · rename_i r hr
    injection hq with hq
    subst hq
    exact (h.2.2 _ hr).1

/-! ### Pages drawn from the free list -/

/-- The pages taken from the free list: each one's link names the next, the last one's the new head (R94 step 1). -/
theorem takeFree_spec (usable k : Nat) (head : Option Nat) (m : BufferMemory) :
    SameData m (takeFree usable k head m).1 ∧ ∀ g, (takeFree usable k head m).2 = some g →
      g.1.length = k ∧ (1 ≤ k → g.1.head? = head) ∧ (k = 0 → g.2 = head) ∧
      (∀ n p q : Nat, g.1[n]? = some p → g.1[n + 1]? = some q → linkNext (m.word (linkWord usable p)) = q) ∧
      ∀ p, g.1.getLast? = some p → g.2 =
        if linkNext (m.word (linkWord usable p)) = linkNone then none
        else some (linkNext (m.word (linkWord usable p))) := by
  induction k generalizing head m with
  | zero =>
    refine ⟨.refl m, fun g hg => ?_⟩
    injection hg with hg
    subst hg
    simp
  | succ k ih =>
    cases head with
    | none => exact ⟨.refl m, fun g hg => by cases hg⟩
    | some p =>
      have hf := m.follow_spec usable p none
      have go (h' : Option Nat)
          (hh : h' = if linkNext (m.word (linkWord usable p)) = linkNone then none
            else some (linkNext (m.word (linkWord usable p))))
          (g : List Nat × Option Nat)
          (hg : (takeFree usable k h' (m.follow usable p none).1).2.map (fun g => (p :: g.1, g.2)) = some g) :
          g.1.length = k + 1 ∧ (1 ≤ k + 1 → g.1.head? = some p) ∧ (k + 1 = 0 → g.2 = some p) ∧
          (∀ n a b : Nat, g.1[n]? = some a → g.1[n + 1]? = some b → linkNext (m.word (linkWord usable a)) = b) ∧
          ∀ a, g.1.getLast? = some a → g.2 =
            if linkNext (m.word (linkWord usable a)) = linkNone then none
            else some (linkNext (m.word (linkWord usable a))) := by
        obtain ⟨x, hx, rfl⟩ := Option.map_eq_some_iff.1 hg
        obtain ⟨h1, h2, h3, h4, h5⟩ := (ih h' (m.follow usable p none).1).2 x hx
        simp only [hf.1.word] at h4 h5
        refine ⟨by simp [h1], fun _ => rfl, fun h => by omega, fun n a b ha hb => ?_, fun a ha => ?_⟩
        · cases n with
          | zero =>
            simp only [List.getElem?_cons_zero, Option.some.injEq] at ha
            subst ha
            simp only [List.getElem?_cons_succ, ← List.head?_eq_getElem?] at hb
            rcases Nat.eq_zero_or_pos k with hk | hk
            · rw [List.length_eq_zero_iff.1 (h1.trans hk)] at hb; cases hb
            · rw [h2 hk, hh] at hb
              split at hb
              · cases hb
              · exact Option.some.inj hb
          | succ n => exact h4 n a b (by simpa using ha) (by simpa using hb)
        · rcases Nat.eq_zero_or_pos k with hk | hk
          · have hn := List.length_eq_zero_iff.1 (h1.trans hk)
            rw [hn] at ha
            simp only [List.getLast?_singleton, Option.some.injEq] at ha
            subst ha
            rw [h3 hk, hh]
          · refine h5 a ?_
            rw [List.getLast?_cons] at ha
            cases hl : x.1.getLast? with
            | none => rw [List.getLast?_eq_none_iff.1 hl] at h1; simp at h1; omega
            | some b => simpa [hl] using ha
      unfold takeFree
      simp only
      split
      · exact ⟨hf.1, fun g hg => by cases hg⟩
      · rename_i he
        refine ⟨hf.1.trans (ih _ _).1, go none ?_⟩
        rw [if_pos (hf.2.1 he)]
      · rename_i q he
        refine ⟨hf.1.trans (ih _ _).1, go (some q) ?_⟩
        obtain ⟨h1, h2⟩ := hf.2.2 q he
        rw [h1, if_neg h2]

/-! ### Link table entries written -/

/-- A link table entry written reads as written. -/
theorem Chip.writeLink_word (c : Chip) (p : Nat) (next : Option Nat) (owner : Option StreamId) (h : c.memOk) :
    (c.writeLink p next owner).mem.word (linkWord c.pool.usable p) = encodeLink next owner :=
  c.mem.word_writeWord _ _ h

/-- A link table entry written changes no other one. -/
theorem Chip.writeLink_word_ne (c : Chip) (p q : Nat) (next : Option Nat) (owner : Option StreamId) (h : q ≠ p) :
    (c.writeLink p next owner).mem.word (linkWord c.pool.usable q) = c.mem.word (linkWord c.pool.usable q) :=
  c.mem.word_writeWord_ne _ _ _ (by simp only [linkWord]; omega)

/-- A link table entry written changes no byte outside it. -/
theorem Chip.writeLink_readByte (c : Chip) (p a : Nat) (next : Option Nat) (owner : Option StreamId)
    (h : a / 8 ≠ linkWord c.pool.usable p) : (c.writeLink p next owner).mem.readByte a = c.mem.readByte a :=
  c.mem.readByte_writeWord_ne _ _ _ h

theorem Chip.writeLink_memOk (c : Chip) (p : Nat) (next : Option Nat) (owner : Option StreamId) (h : c.memOk) :
    (c.writeLink p next owner).memOk := c.mem.writeLink_wf _ _ _ _ h

/-- New pages linked: each page the list names once has a link to the page after it, the last one END (R94 step 2). -/
theorem linkPages_spec (i : StreamId) (c : Chip) (ps : List Nat) (h : c.memOk) :
    linkPages i c ps = { c with mem := (linkPages i c ps).mem } ∧
    (∀ n p : Nat, ps[n]? = some p → (∀ m : Nat, ps[m]? = some p → m = n) →
      (linkPages i c ps).mem.word (linkWord c.pool.usable p) = encodeLink ps[n + 1]? (some i)) ∧
    (∀ p, p ∉ ps → (linkPages i c ps).mem.word (linkWord c.pool.usable p) = c.mem.word (linkWord c.pool.usable p)) ∧
    ∀ a, (∀ p ∈ ps, a / 8 ≠ linkWord c.pool.usable p) →
      (linkPages i c ps).mem.readByte a = c.mem.readByte a := by
  induction ps generalizing c with
  | nil => exact ⟨rfl, by simp, fun _ _ => rfl, fun _ _ => rfl⟩
  | cons x rest ih =>
    cases rest with
    | nil =>
      refine ⟨rfl, fun n p hn _ => ?_, fun p hp => ?_, fun a ha => ?_⟩
      · cases n with
        | zero =>
          simp only [List.getElem?_cons_zero, Option.some.injEq] at hn
          subst hn
          exact c.writeLink_word _ _ _ h
        | succ n => simp at hn
      · exact c.writeLink_word_ne _ _ _ _ (by simpa using hp)
      · exact c.writeLink_readByte _ _ _ _ (ha x (by simp))
    | cons y more =>
      obtain ⟨h1, h2, h3, h4⟩ := ih (c.writeLink x (some y) (some i)) (c.writeLink_memOk _ _ _ h)
      refine ⟨by rw [linkPages, h1]; rfl, fun n p hn hu => ?_, fun p hp => ?_, fun a ha => ?_⟩
      · cases n with
        | zero =>
          simp only [List.getElem?_cons_zero, Option.some.injEq] at hn
          subst hn
          have hx : x ∉ y :: more := fun hm => by
            obtain ⟨m, hm⟩ := List.mem_iff_getElem?.1 hm
            exact absurd (hu (m + 1) (by simpa using hm)) (by omega)
          exact (h3 x hx).trans (c.writeLink_word _ _ _ h)
        | succ n =>
          exact h2 n p (by simpa using hn) fun m hm => by
            have := hu (m + 1) (by simpa using hm); omega
      · rw [List.mem_cons, not_or] at hp
        exact (h3 p hp.2).trans (c.writeLink_word_ne _ _ _ _ hp.1)
      · exact (h4 a fun p hp => ha p (List.mem_cons_of_mem _ hp)).trans
          (c.writeLink_readByte _ _ _ _ (ha x (by simp)))

/-! ### Pages joining the free list -/

/-- The pages `ps` have joined the free list of `c`, in that order, giving `t` (R96): the counts, the head and tail, and the
links of every page that the old tail and `ps` name once; pages with `skip` are not spoken of. -/
structure Joined (skip : Nat → Prop) (c t : Chip) (ps : List Nat) : Prop where
  usable : t.pool.usable = c.pool.usable
  free : t.pool.free = c.pool.free + ps.length
  lost : t.pool.lost = c.pool.lost
  tail : t.pool.tail = (c.pool.tail.toList ++ ps).getLast?
  head : t.pool.head = c.pool.head.or ps.head?
  ok : t.memOk
  link : ∀ n p : Nat, ps ≠ [] → ¬ skip p → (c.pool.tail.toList ++ ps)[n]? = some p →
    (∀ m : Nat, (c.pool.tail.toList ++ ps)[m]? = some p → m = n) →
    t.mem.word (linkWord c.pool.usable p) = encodeLink (c.pool.tail.toList ++ ps)[n + 1]? none
  other : ∀ a, (∀ p, p ∈ c.pool.tail.toList ++ ps ∨ skip p → a / 8 ≠ linkWord c.pool.usable p) →
    t.mem.readByte a = c.mem.readByte a

theorem Joined.refl (skip : Nat → Prop) (c : Chip) (h : c.memOk) : Joined skip c c [] where
  usable := rfl
  free := rfl
  lost := rfl
  tail := by cases c.pool.tail <;> rfl
  head := by cases c.pool.head <;> rfl
  ok := h
  link := fun _ _ h => absurd rfl h
  other := fun _ _ => rfl

/-- What changes neither the data of buffer DRAM nor the free list leaves the joined pages as they are. -/
theorem Joined.same {skip : Nat → Prop} {c t u : Chip} {ps : List Nat} (h : Joined skip c t ps)
    (hm : SameData t.mem u.mem) (ho : u.memOk) (hu : u.pool.usable = t.pool.usable) (hf : u.pool.free = t.pool.free)
    (hl : u.pool.lost = t.pool.lost) (ht : u.pool.tail = t.pool.tail) (hh : u.pool.head = t.pool.head) :
    Joined skip c u ps where
  usable := hu.trans h.usable
  free := hf.trans h.free
  lost := hl.trans h.lost
  tail := ht.trans h.tail
  head := hh.trans h.head
  ok := ho
  link := fun n p a b d e => (hm.word _).trans (h.link n p a b d e)
  other := fun a b => (hm.readByte a).trans (h.other a b)

/-- A link table entry of a page not spoken of written. -/
theorem Joined.writeLink {skip : Nat → Prop} {c t : Chip} {ps : List Nat} (h : Joined skip c t ps) (p : Nat)
    (next : Option Nat) (owner : Option StreamId) (hp : skip p) : Joined skip c (t.writeLink p next owner) ps where
  usable := h.usable
  free := h.free
  lost := h.lost
  tail := h.tail
  head := h.head
  ok := t.writeLink_memOk _ _ _ h.ok
  link := fun n q a b d e => by
    have hq : q ≠ p := fun hc => b (hc ▸ hp)
    rw [← h.usable, t.writeLink_word_ne _ _ _ _ hq, h.usable]
    exact h.link n q a b d e
  other := fun a b => by
    rw [t.writeLink_readByte _ _ _ _ (h.usable ▸ b p (.inr hp))]
    exact h.other a b

/-- One more page joins the free list (R96). -/
theorem Joined.joinFree {skip : Nat → Prop} {c t : Chip} {ps : List Nat} (h : Joined skip c t ps) (p : Nat) :
    Joined skip c (t.joinFree p) (ps ++ [p]) := by
  have hm : (t.joinFree p).mem = (match (t.writeLink p none none).pool.tail with
      | none => t.writeLink p none none
      | some u => (t.writeLink p none none).writeLink u (some p) none).mem := rfl
  have htail : (t.writeLink p none none).pool.tail = t.pool.tail := rfl
  rw [htail, h.tail] at hm
  have hok := t.writeLink_memOk p none none h.ok
  refine ⟨?_, ?_, ?_, ?_, ?_, ?_, ?_, ?_⟩
  · rw [← h.usable]; unfold Chip.joinFree; simp only; split <;> rfl
  · have : (t.joinFree p).pool.free = t.pool.free + 1 := by unfold Chip.joinFree; simp only; split <;> rfl
    rw [this, h.free, List.length_append, List.length_singleton, Nat.add_assoc]
  · rw [← h.lost]; unfold Chip.joinFree; simp only; split <;> rfl
  · rw [← List.append_assoc, List.getLast?_concat]; rfl
  · have : (t.joinFree p).pool.head = t.pool.head.or (some p) := by
      have e : (match t.pool.tail with
          | none => t.writeLink p none none
          | some u => (t.writeLink p none none).writeLink u (some p) none).pool.head = t.pool.head := by split <;> rfl
      change (match (match t.pool.tail with
          | none => t.writeLink p none none
          | some u => (t.writeLink p none none).writeLink u (some p) none).pool.head with
        | none => some p
        | some h => some h) = _
      rw [e]
      cases t.pool.head <;> rfl
    rw [this, h.head]
    cases ps <;> cases c.pool.head <;> rfl
  · unfold Chip.memOk
    rw [hm]
    split
    · exact hok
    · exact Chip.writeLink_memOk _ _ _ _ hok
  · intro n q _ hs hn hu
    rw [hm]
    set l := c.pool.tail.toList ++ ps with hl
    rw [← List.append_assoc, ← hl] at hn hu ⊢
    have hlast (k : Nat) (hk : k < l.length) (hq : l[k]? = some q) : k = n :=
      hu k (by rw [List.getElem?_append_left hk, hq])
    have hp : (l ++ [p])[l.length]? = some p := by simp
    rcases Nat.lt_trichotomy n l.length with hlt | heq | hgt
    · have hqp : q ≠ p := fun hc => by
        have := hu l.length (hc ▸ hp); omega
      rw [List.getElem?_append_left hlt] at hn
      have hne : l ≠ [] := fun hc => by rw [hc] at hlt; simp at hlt
      rw [List.getLast?_eq_some_getLast hne]
      simp only
      by_cases hq : l.getLast hne = q
      · have hk : l[l.length - 1]? = some q := by
          rw [← hq, List.getLast_eq_getElem, List.getElem?_eq_getElem (by omega)]
        have := hlast _ (by omega) hk
        have hn1 : n + 1 = l.length := by omega
        rw [hn1, hp, hq, ← h.usable]
        exact Chip.writeLink_word _ _ _ _ hok
      · have hn1 : n + 1 < l.length := by
          rcases Nat.lt_or_ge (n + 1) l.length with h1 | h1
          · exact h1
          · exfalso
            apply hq
            have : n = l.length - 1 := by omega
            rw [List.getLast_eq_getElem]
            rw [this, List.getElem?_eq_getElem (by omega)] at hn
            exact Option.some.inj hn
        have hps : ps ≠ [] := fun hc => by
          rw [hl, hc, List.append_nil] at hn1
          cases ht : c.pool.tail <;> simp [ht] at hn1
        rw [← h.usable]
        have e1 := Chip.writeLink_word_ne (t.writeLink p none none) (l.getLast hne) q (some p) none (Ne.symm hq)
        have e2 := Chip.writeLink_word_ne t p q none none hqp
        refine e1.trans (e2.trans ?_)
        rw [h.usable, List.getElem?_append_left hn1]
        exact h.link n q hps hs hn fun m hm => hlast m (by
          rcases Nat.lt_or_ge m l.length with h1 | h1
          · exact h1
          · rw [List.getElem?_eq_none h1] at hm; cases hm) hm
    · subst heq
      rw [hp] at hn
      injection hn with hn
      subst hn
      have e0 : (l ++ [p])[l.length + 1]? = none := by simp
      rw [e0, ← h.usable]
      split
      · exact t.writeLink_word p none none h.ok
      · rename_i u hu'
        have hup : p ≠ u := fun hc => by
          subst hc
          have hne : l ≠ [] := fun hc => by rw [hc] at hu'; cases hu'
          rw [List.getLast?_eq_some_getLast hne, Option.some.injEq, List.getLast_eq_getElem] at hu'
          have h1 : l.length ≠ 0 := fun hc => hne (List.length_eq_zero_iff.1 hc)
          have := hlast (l.length - 1) (by omega) (by rw [List.getElem?_eq_getElem (by omega), hu'])
          omega
        exact (Chip.writeLink_word_ne (t.writeLink p none none) u p (some p) none hup).trans
          (t.writeLink_word p none none h.ok)
    · rw [List.getElem?_eq_none (by simp; omega)] at hn
      cases hn
  · intro a ha
    rw [hm]
    have e1 := t.writeLink_readByte p a none none
      (h.usable ▸ ha p (.inl (by simp)))
    have e2 := h.other a fun q hq => ha q (hq.imp (fun hq => by
      rw [← List.append_assoc]; exact List.mem_append_left _ hq) id)
    split
    · exact e1.trans e2
    · rename_i u hu
      refine (Chip.writeLink_readByte (t.writeLink p none none) u a (some p) none ?_).trans (e1.trans e2)
      have hmem : u ∈ c.pool.tail.toList ++ ps := List.mem_of_getLast? hu
      exact h.usable ▸ ha u (.inl (by rw [← List.append_assoc]; exact List.mem_append_left _ hmem))

/-! ### Runs over a chain -/

/-- An attempt to post a stream's latches changes no chain. -/
theorem Chip.attempt_chain (c : Chip) (i j : StreamId) : ((c.attempt i).stream j).chain = (c.stream j).chain := by
  have e := congrArg StreamEntry.chain ((c.attempt_notices i).streams j)
  have e2 (x : StreamEntry) : x.clearLatches.chain = x.chain := rfl
  rwa [e2, e2] at e

/-- An evaluation of the occupancy monitor changes neither buffer DRAM nor the pool nor a chain. -/
theorem Chip.evalOccupancy_spec (c : Chip) (i : StreamId) :
    (c.evalOccupancy i).mem = c.mem ∧ (c.evalOccupancy i).pool = c.pool ∧
      ((c.evalOccupancy i).stream i).chain = (c.stream i).chain := by
  have h (st : StreamEntry) : ((c.setStream i st).attempt i).mem = c.mem ∧
      ((c.setStream i st).attempt i).pool = c.pool ∧ (((c.setStream i st).attempt i).stream i).chain = st.chain :=
    ⟨(Chip.attempt_notices _ i).mem, (Chip.attempt_notices _ i).pool, by
      rw [Chip.attempt_chain, Chip.setStream_stream_same]⟩
  unfold Chip.evalOccupancy
  simp only
  split
  · split
    · obtain ⟨h1, h2, h3⟩ := h
        { c.stream i with
          occupancy := (c.stream i).occupancyStep.1
          occLatch := some (OccLatch.absorb (c.stream i).occLatch (c.stream i).occupancyStep.1) }
      exact ⟨h1, h2, h3⟩
    · exact ⟨rfl, rfl, rfl⟩
  · exact ⟨rfl, rfl, rfl⟩

/-- An evaluation of the occupancy monitor changes of its stream the monitor's state and the latches alone, and neither the engine
nor the request table. -/
theorem Chip.evalOccupancy_entry (c : Chip) (i : StreamId) :
    ((c.evalOccupancy i).stream i).clearLatches =
      { (c.stream i).clearLatches with occupancy := ((c.evalOccupancy i).stream i).occupancy } ∧
    (c.evalOccupancy i).engine = c.engine ∧ (c.evalOccupancy i).rings.table = c.rings.table := by
  unfold Chip.evalOccupancy
  simp only
  split
  · split
    · have h (st : StreamEntry) := Chip.attempt_notices (c.setStream i st) i
      have g (st : StreamEntry) : (((c.setStream i st).attempt i).stream i).clearLatches = st.clearLatches := by
        rw [(h st).streams i, Chip.setStream_stream_same]
      have o (st : StreamEntry) : (((c.setStream i st).attempt i).stream i).occupancy = st.occupancy := by
        have e := congrArg StreamEntry.occupancy (g st)
        exact e
      refine ⟨?_, (h _).engine, Chip.attempt_table _ i⟩
      rw [g, o]
      rfl
    · exact ⟨rfl, rfl, rfl⟩
  · exact ⟨rfl, rfl, rfl⟩

theorem Chip.joinFree_stream (c : Chip) (p : Nat) (j : StreamId) : (c.joinFree p).stream j = c.stream j := by
  have e (x : Chip) (n : Option Nat) (o : Option StreamId) (q : Nat) : (x.writeLink q n o).stream j = x.stream j := rfl
  have h : (c.joinFree p).stream j = (match c.pool.tail with
      | none => c.writeLink p none none
      | some t => (c.writeLink p none none).writeLink t (some p) none).stream j := rfl
  rw [h]
  split
  · rw [e]
  · rw [e, e]

/-- The first page of a chain taken back joins the free list and leaves the rest of the chain. -/
theorem Joined.takeBack {skip : Nat → Prop} {c t : Chip} {ps : List Nat} (h : Joined skip c t ps) (i : StreamId) (p : Nat)
    (rest : List Nat) :
    Joined skip c (t.takeBack i p rest) (ps ++ [p]) ∧ ((t.takeBack i p rest).stream i).chain = rest := by
  have h1 : Joined skip c (t.modStream i fun st => { st with chain := rest }) ps :=
    h.same (.refl _) h.ok rfl rfl rfl rfl rfl
  have h2 := h1.joinFree p
  have h3 := Chip.evalOccupancy_spec ((t.modStream i fun st => { st with chain := rest }).joinFree p) i
  refine ⟨h2.same ?_ ?_ ?_ ?_ ?_ ?_ ?_, ?_⟩
  · exact ⟨congrArg BufferMemory.size h3.1, congrArg BufferMemory.cells h3.1⟩
  · exact (Chip.evalOccupancy_keeps _ i).mem h2.ok
  · exact congrArg Pool.usable h3.2.1
  · exact congrArg Pool.free h3.2.1
  · exact congrArg Pool.lost h3.2.1
  · exact congrArg Pool.tail h3.2.1
  · exact congrArg Pool.head h3.2.1
  · rw [Chip.takeBack, h3.2.2, Chip.joinFree_stream, Chip.modStream_stream_same]

/-- A run over the chain of a stream: the pages it returned are the first ones of the chain, in chain order, and have joined the
free list; a break leaves the page it was met at as the first of the chain. -/
theorem returnRun_spec (i : StreamId) (stops : Bool) (fuel : Nat) (c0 c : Chip) (n : Nat) (done : List Nat)
    (h : Joined (fun _ => False) c0 c done) :
    ∃ k, (returnRun i stops fuel c n).returned = n + k ∧ k ≤ (c.stream i).chain.length ∧
      ((returnRun i stops fuel c n).chip.stream i).chain = (c.stream i).chain.drop k ∧
      Joined (fun _ => False) c0 (returnRun i stops fuel c n).chip (done ++ (c.stream i).chain.take k) ∧
      (∀ p, (returnRun i stops fuel c n).broken = some p → ∃ q rest, (c.stream i).chain.drop k = p :: q :: rest) ∧
      (stops = false → (returnRun i stops fuel c n).broken = none → k = min fuel (c.stream i).chain.length) := by
  induction fuel generalizing c n done with
  | zero => exact ⟨0, rfl, Nat.zero_le _, by simp [returnRun], by simpa [returnRun] using h, by simp [returnRun], by simp⟩
  | succ fuel ih =>
    unfold returnRun
    split
    · rename_i hc
      refine ⟨0, rfl, Nat.zero_le _, by simp [hc], by simpa [hc] using h, by simp, by simp [hc]⟩
    · rename_i p rest hc
      split
      · rename_i hs
        refine ⟨0, rfl, Nat.zero_le _, by simp [hc], by simpa using h, by simp, fun h0 => ?_⟩
        simp [h0] at hs
      · split
        · have h1 := h.takeBack i p []
          obtain ⟨k, e1, e2, e3, e4, e5, e6⟩ := ih (c.takeBack i p []) (n + 1) (done ++ [p]) h1.1
          rw [h1.2] at e2 e3 e4 e5 e6
          have hk : k = 0 := by simpa using e2
          subst hk
          refine ⟨1, by rw [e1], by simp [hc], by rw [e3, hc]; rfl, by simpa [hc] using e4, fun q hq => ?_, fun _ _ => ?_⟩
          · obtain ⟨_, _, h⟩ := e5 q hq; cases h
          · simp [hc]
        · rename_i q more
          have hf := c.followChain_spec i p
          simp only
          split
          · rename_i hn
            refine ⟨0, rfl, Nat.zero_le _, ?_, ?_, fun x hx => ?_, fun _ hb => by cases hb⟩
            · rw [hf.1]; rfl
            · simp only [List.take_zero, List.append_nil]
              exact h.same hf.2.1 ((c.followChain_keeps i i p).mem h.ok) rfl rfl rfl rfl rfl
            · injection hx with hx
              subst hx
              exact ⟨q, more, by rw [hc]; rfl⟩
          · have h0 : Joined (fun _ => False) c0 (c.followChain i p).1 done :=
              h.same hf.2.1 ((c.followChain_keeps i i p).mem h.ok) rfl rfl rfl rfl rfl
            have h1 := h0.takeBack i p (q :: more)
            obtain ⟨k, e1, e2, e3, e4, e5, e6⟩ := ih ((c.followChain i p).1.takeBack i p (q :: more)) (n + 1)
              (done ++ [p]) h1.1
            rw [h1.2] at e2 e3 e4 e5 e6
            refine ⟨k + 1, by rw [e1]; omega, by simpa [hc] using e2, by rw [e3, hc]; rfl, by simpa [hc] using e4,
              fun x hx => ?_, fun a b => ?_⟩
            · rw [hc]; exact e5 x hx
            · rw [hc, e6 a b]; simp only [List.length_cons]; omega

/-! ### Tail truncation (R96) -/

/-- The walk up to the new tail page reads links and changes no data. -/
theorem followTo_spec (i : StreamId) (last : Nat) (l : List Nat) (c : Chip) :
    (followTo i last l c).1 = { c with mem := (followTo i last l c).1.mem } ∧
      SameData c.mem (followTo i last l c).1.mem ∧ (c.memOk → (followTo i last l c).1.memOk) := by
  induction l generalizing c with
  | nil => exact ⟨rfl, .refl _, id⟩
  | cons p rest ih =>
    have hf := c.followChain_spec i p
    have hk := (c.followChain_keeps i i p).mem
    unfold followTo
    split
    · exact ⟨rfl, .refl _, id⟩
    · simp only
      split
      · exact ⟨hf.1, hf.2.1, hk⟩
      · obtain ⟨h1, h2, h3⟩ := ih (c.followChain i p).1
        exact ⟨by rw [h1, hf.1], hf.2.1.trans h2, h3 ∘ hk⟩

/-- The pages after the new tail page join the free list in chain order and leave the chain; the new tail page's link is END. -/
theorem dropAfter_spec (i : StreamId) (last : Nat) (l : List Nat) (c0 c t : Chip) (done : List Nat) (hl : l ≠ [])
    (h : Joined (fun p => p = last) c0 c done) (ht : dropAfter i last l c = (t, none)) :
    Joined (fun p => p = last) c0 t (done ++ l) ∧ (t.stream i).chain = l.foldl List.erase (c.stream i).chain ∧
      t.mem.word (linkWord c0.pool.usable last) = encodeLink none (some i) := by
  induction l generalizing c done with
  | nil => exact absurd rfl hl
  | cons p rest ih =>
    have step (d : Chip) (hd : Joined (fun p => p = last) c0 d done) (n : Option Nat) :
        let x := ((d.modStream i fun st => { st with chain := st.chain.erase p }).joinFree p).writeLink last n (some i)
        Joined (fun p => p = last) c0 x (done ++ [p]) ∧ (x.stream i).chain = (d.stream i).chain.erase p ∧
          x.mem.word (linkWord c0.pool.usable last) = encodeLink n (some i) := by
      have h1 : Joined (fun p => p = last) c0 (d.modStream i fun st => { st with chain := st.chain.erase p }) done :=
        hd.same (.refl _) hd.ok rfl rfl rfl rfl rfl
      have h2 := h1.joinFree p
      have e (x : Chip) (n : Option Nat) (o : Option StreamId) (q : Nat) : (x.writeLink q n o).stream i = x.stream i := rfl
      refine ⟨h2.writeLink last n (some i) rfl, ?_, ?_⟩
      · rw [e, Chip.joinFree_stream, Chip.modStream_stream_same]
      · have e3 := Chip.writeLink_word _ last n (some i) h2.ok
        rwa [h2.usable] at e3
    cases rest with
    | nil =>
      unfold dropAfter at ht
      simp only [Prod.mk.injEq, and_true] at ht
      subst ht
      exact step c h none
    | cons q more =>
      unfold dropAfter at ht
      simp only at ht
      split at ht
      · cases ht
      · have hf := c.followChain_spec i p
        have h0 : Joined (fun p => p = last) c0 (c.followChain i p).1 done :=
          h.same hf.2.1 ((c.followChain_keeps i i p).mem h.ok) rfl rfl rfl rfl rfl
        obtain ⟨h1, h2, _⟩ := step _ h0 (some q)
        obtain ⟨k1, k2, k3⟩ := ih _ (done ++ [p]) (by simp) h1 ht
        refine ⟨by simpa using k1, ?_, k3⟩
        rw [k2, h2]
        rfl

/-! ### Breaks -/

theorem keepTo_eq_take (p : Nat) (l : List Nat) (h : p ∈ l) : keepTo p l = l.take (l.idxOf p + 1) := by
  induction l with
  | nil => cases h
  | cons q rest ih =>
    by_cases hq : q = p
    · simp [keepTo, hq]
    · have hp : p ∈ rest := (List.mem_cons.1 h).resolve_left (Ne.symm hq)
      simp [keepTo, hq, List.idxOf_cons_ne rest hq, ih hp]

/-- A break (R97): the chain up to its page, the pages beyond it counted lost, the tail offset of a full page when there are any
(R7), and one link table entry written. -/
theorem Chip.breakChain_spec (c : Chip) (i : StreamId) (p : Nat) (h : p ∈ (c.stream i).chain) :
    let st := c.stream i
    let kept := st.chain.take (st.chain.idxOf p + 1)
    let beyond := st.chain.length - kept.length
    c.breakChain i p =
      { c.setStream i { st with chain := kept, tail := if beyond = 0 then st.tail else 4096 } with
        pool := { c.pool with lost := c.pool.lost + beyond }
        mem := c.mem.writeLink c.pool.usable p none (some i) } := by
  simp only
  unfold Chip.breakChain
  rw [if_pos (List.elem_iff.2 h), keepTo_eq_take p _ h]
  rfl

theorem Chip.breakChain_none (c : Chip) (i : StreamId) (p : Nat) (h : p ∉ (c.stream i).chain) : c.breakChain i p = c :=
  if_neg fun k => h (List.elem_iff.1 k)

/-! ### A run page by page -/

theorem Chip.joinFree_frame (c : Chip) (p : Nat) :
    (c.joinFree p).ctl = c.ctl ∧ (c.joinFree p).rings = c.rings ∧ (c.joinFree p).link = c.link ∧
      (c.joinFree p).pool.free = c.pool.free + 1 := by
  have e (x : Chip) (n : Option Nat) (o : Option StreamId) (q : Nat) :
      (x.writeLink q n o).ctl = x.ctl ∧ (x.writeLink q n o).rings = x.rings ∧ (x.writeLink q n o).link = x.link ∧
        (x.writeLink q n o).pool = x.pool := ⟨rfl, rfl, rfl, rfl⟩
  unfold Chip.joinFree
  simp only
  split <;> simp only [e, and_self]

/-- One page taken back (R82): what stands before the occupancy monitor is evaluated, and the chain after. -/
theorem Chip.takeBack_spec (c : Chip) (i : StreamId) (p : Nat) (rest : List Nat) :
    (∃ x : Chip, c.takeBack i p rest = x.evalOccupancy i ∧ x.stream i = { c.stream i with chain := rest } ∧
      x.ctl = c.ctl ∧ x.rings = c.rings ∧ x.link = c.link ∧ x.pool.free = c.pool.free + 1) ∧
    ((c.takeBack i p rest).stream i).chain = rest := by
  have f := (c.modStream i fun st => { st with chain := rest }).joinFree_frame p
  have s : ((c.modStream i fun st => { st with chain := rest }).joinFree p).stream i =
      { c.stream i with chain := rest } := by
    rw [Chip.joinFree_stream, Chip.modStream_stream_same]
  exact ⟨⟨_, rfl, s, f.1, f.2.1, f.2.2.1, f.2.2.2⟩, by rw [Chip.takeBack, (Chip.evalOccupancy_spec _ i).2.2, s]⟩

/-- A page taken back, `c1` being `c` after its link was followed, and then the run `r` from there. -/
theorem RunEnd.trace_cons (i : StreamId) (n : Nat) (c c1 : Chip) (p : Nat) (rest : List Nat) (k : Nat) (after : Nat → Chip)
    (r : RunEnd) (hc : (c.stream i).chain = p :: rest) (e : c1 = { c with mem := c1.mem }) (hr : r.returned = n + 1 + k)
    (h0 : after 0 = c1.takeBack i p rest)
    (hs : ∀ m, m < k → ∃ x : Chip, after (m + 1) = x.evalOccupancy i ∧
      x.stream i = { (after m).stream i with chain := rest.drop (m + 1) } ∧
      x.ctl = (after m).ctl ∧ x.rings = (after m).rings ∧ x.link = (after m).link ∧
      x.pool.free = (after m).pool.free + 1)
    (hk : r.chip = after k) :
    ∃ (k : Nat) (after : Nat → Chip), r.returned = n + k ∧ after 0 = c ∧
      (∀ m, m < k → ∃ x : Chip, after (m + 1) = x.evalOccupancy i ∧
        x.stream i = { (after m).stream i with chain := (c.stream i).chain.drop (m + 1) } ∧
        x.ctl = (after m).ctl ∧ x.rings = (after m).rings ∧ x.link = (after m).link ∧
        x.pool.free = (after m).pool.free + 1) ∧ r.chip = after k := by
  refine ⟨k + 1, fun m => match m with | 0 => c | m + 1 => after m, by omega, rfl, fun m hm => ?_, hk⟩
  cases m with
  | zero =>
    obtain ⟨x, h⟩ := (c1.takeBack_spec i p rest).1
    refine ⟨x, h0.trans h.1, ?_, ?_, ?_, ?_, ?_⟩
    · rw [h.2.1, e, hc]; rfl
    · rw [h.2.2.1, e]
    · rw [h.2.2.2.1, e]
    · rw [h.2.2.2.2.1, e]
    · rw [h.2.2.2.2.2, e]
  | succ m => simpa [hc] using hs m (by omega)

/-- A run without a break takes single pages back, the occupancy monitor evaluated on the new held after each (R82, R109). -/
theorem returnRun_trace (i : StreamId) (stops : Bool) (fuel : Nat) (c : Chip) (n : Nat)
    (hb : (returnRun i stops fuel c n).broken = none) :
    ∃ (k : Nat) (after : Nat → Chip), (returnRun i stops fuel c n).returned = n + k ∧ after 0 = c ∧
      (∀ m, m < k → ∃ x : Chip, after (m + 1) = x.evalOccupancy i ∧
        x.stream i = { (after m).stream i with chain := (c.stream i).chain.drop (m + 1) } ∧
        x.ctl = (after m).ctl ∧ x.rings = (after m).rings ∧ x.link = (after m).link ∧
        x.pool.free = (after m).pool.free + 1) ∧
      (returnRun i stops fuel c n).chip = after k := by
  induction fuel generalizing c n with
  | zero => exact ⟨0, fun _ => c, rfl, rfl, fun m hm => absurd hm (Nat.not_lt_zero m), rfl⟩
  | succ fuel ih =>
    revert hb
    unfold returnRun
    split
    · exact fun _ => ⟨0, fun _ => c, rfl, rfl, fun m hm => absurd hm (Nat.not_lt_zero m), rfl⟩
    · rename_i p rest hc
      split
      · exact fun _ => ⟨0, fun _ => c, rfl, rfl, fun m hm => absurd hm (Nat.not_lt_zero m), rfl⟩
      · split
        · intro hb
          obtain ⟨k, after, h1, h2, h3, h4⟩ := ih (c.takeBack i p []) (n + 1) hb
          rw [(c.takeBack_spec i p []).2] at h3
          exact RunEnd.trace_cons i n c c p [] k after _ hc rfl h1 h2 h3 h4
        · rename_i q rest
          simp only
          split
          · exact fun hb => nomatch hb
          · intro hb
            obtain ⟨k, after, h1, h2, h3, h4⟩ := ih ((c.followChain i p).1.takeBack i p (q :: rest)) (n + 1) hb
            rw [((c.followChain i p).1.takeBack_spec i p (q :: rest)).2] at h3
            exact RunEnd.trace_cons i n c _ p _ k after _ hc (c.followChain_spec i p).1 h1 h2 h3 h4

end Sys2Proof.Machine
end

