-- ==== Sys2Proof/Laws/Breaks.lean ====
section
/-! SUPPORT. Where a walk over links meets an error: the free list at an allocation (R87, R95), and a chain at page return, at a
whole-chain return and at a tail truncation (R84, R96, R97). -/

namespace Sys2Proof.Machine

/-! ### The free list -/

theorem freeStep_none (usable : Nat) (m : BufferMemory) (n : Nat) :
    Nat.iterate (freeStep usable) n (none, m) = (none, m) := by
  induction n with
  | zero => rfl
  | succ n ih => exact ih

/-- What drawing `k` pages from the free list gives: nothing exactly when some place of the first `k` names no page or its link is
an error; else the pages at those places and the next place as the new head. -/
theorem takeFree_walk (usable k : Nat) (head : Option Nat) (m : BufferMemory) :
    let at_ : Nat → Option Nat × BufferMemory := fun n => Nat.iterate (freeStep usable) n (head, m)
    let bad : Nat → Prop := fun n => (at_ n).1 = none ∨ ∃ p, (at_ n).1 = some p ∧ ((at_ n).2.follow usable p none).2 = .error
    (takeFree usable k head m).1 = (at_ k).2 ∧
    ((takeFree usable k head m).2 = none ↔ ∃ n, n < k ∧ bad n) ∧
    ∀ g, (takeFree usable k head m).2 = some g → g.2 = (at_ k).1 ∧
      ∀ n, n < k → ∃ p, (at_ n).1 = some p ∧ g.1[n]? = some p := by
  intro at_ bad
  induction k generalizing head m with
  | zero =>
    refine ⟨rfl, ⟨nofun, fun ⟨n, h, _⟩ => absurd h (Nat.not_lt_zero n)⟩, fun g h => ?_⟩
    cases h
    exact ⟨rfl, fun n h => absurd h (Nat.not_lt_zero n)⟩
  | succ k ih =>
    cases head with
    | none =>
      refine ⟨?_, ⟨fun _ => ⟨0, by omega, .inl rfl⟩, fun _ => rfl⟩, fun g h => nomatch h⟩
      change m = (Nat.iterate (freeStep usable) (k + 1) (none, m)).2
      rw [freeStep_none]
    | some p =>
      have tail (h' : Option Nat) (he : (m.follow usable p none).2 ≠ .error)
          (hs : freeStep usable (some p, m) = (h', (m.follow usable p none).1))
          (t : BufferMemory × Option (List Nat × Option Nat))
          (ht : t = ((takeFree usable k h' (m.follow usable p none).1).1,
            (takeFree usable k h' (m.follow usable p none).1).2.map fun g => (p :: g.1, g.2))) :
          t.1 = (at_ (k + 1)).2 ∧ (t.2 = none ↔ ∃ n, n < k + 1 ∧ bad n) ∧
          ∀ g, t.2 = some g → g.2 = (at_ (k + 1)).1 ∧ ∀ n, n < k + 1 → ∃ q, (at_ n).1 = some q ∧ g.1[n]? = some q := by
        have e (n : Nat) : at_ (n + 1) = Nat.iterate (freeStep usable) n (h', (m.follow usable p none).1) := by
          change Nat.iterate (freeStep usable) n (freeStep usable (some p, m)) = _
          rw [hs]
        obtain ⟨i1, i2, i3⟩ := ih h' (m.follow usable p none).1
        subst ht
        refine ⟨by rw [e]; exact i1, ?_, fun g hg => ?_⟩
        · rw [Option.map_eq_none_iff, i2]
          constructor
          · rintro ⟨n, hn, hb⟩
            refine ⟨n + 1, by omega, ?_⟩
            change (at_ (n + 1)).1 = none ∨ _
            rw [e]
            exact hb
          · rintro ⟨n, hn, hb⟩
            cases n with
            | zero =>
              obtain hb | ⟨q, hq, hb⟩ := hb
              · cases hb
              · cases hq
                exact absurd hb he
            | succ n =>
              refine ⟨n, by omega, ?_⟩
              change (at_ (n + 1)).1 = none ∨ _ at hb
              rw [e] at hb
              exact hb
        · obtain ⟨g', h1, rfl⟩ := Option.map_eq_some_iff.1 hg
          obtain ⟨j1, j2⟩ := i3 g' h1
          refine ⟨by rw [e]; exact j1, fun n hn => ?_⟩
          cases n with
          | zero => exact ⟨p, rfl, rfl⟩
          | succ n =>
            obtain ⟨q, q1, q2⟩ := j2 n (by omega)
            exact ⟨q, by rw [e]; exact q1, by simpa using q2⟩
      unfold takeFree
      simp only
      split
      · rename_i hf
        have hs : freeStep usable (some p, m) = (none, (m.follow usable p none).1) := by simp only [freeStep, hf]
        refine ⟨?_, ⟨fun _ => ⟨0, by omega, .inr ⟨p, rfl, hf⟩⟩, fun _ => rfl⟩, fun g h => nomatch h⟩
        change _ = (Nat.iterate (freeStep usable) k (freeStep usable (some p, m))).2
        rw [hs, freeStep_none]
      · rename_i hf
        exact tail none (by rw [hf]; nofun) (by simp only [freeStep, hf]) _ rfl
      · rename_i q hf
        exact tail (some q) (by rw [hf]; nofun) (by simp only [freeStep, hf]) _ rfl

/-! ### A chain from its head -/

/-- One page taken back, written out (R82, R96): the chain, the pool, two link table entries, then the occupancy monitor. -/
theorem Chip.takeBack_eq (c : Chip) (i : StreamId) (p : Nat) (rest : List Nat) :
    c.takeBack i p rest =
      ({ c.setStream i { c.stream i with chain := rest } with
        pool := { c.pool with free := c.pool.free + 1, tail := some p, head := c.pool.head.or (some p) }
        mem := match c.pool.tail with
          | none => c.mem.writeLink c.pool.usable p none none
          | some t => (c.mem.writeLink c.pool.usable p none none).writeLink c.pool.usable t (some p) none } :
        Chip).evalOccupancy i := by
  unfold Chip.takeBack Chip.joinFree
  congr 1
  cases ht : c.pool.tail <;> cases hh : c.pool.head <;>
    simp [Chip.modStream, Chip.writeLink, Chip.setStream, ht, hh]

/-- Whether a page is a stop rests on nothing a page taken back changes. -/
theorem Chip.takeBack_isStop (c : Chip) (i : StreamId) (p q : Nat) (rest : List Nat) :
    ((c.takeBack i p rest).stream i).isStop q = (c.stream i).isStop q := by
  have e (x : StreamEntry) : x.clearLatches.isStop q = x.isStop q := rfl
  obtain ⟨x, h1, h2, -⟩ := (c.takeBack_spec i p rest).1
  rw [h1, ← e, (x.evalOccupancy_entry i).1, h2]
  rfl

/-- A run from the head of a chain: how many pages it takes back, where it stops, and the part it leaves. -/
structure RunEnd.Walked (i : StreamId) (stops : Bool) (c : Chip) (r : RunEnd) (n k : Nat) : Prop where
  returned : r.returned = n + k
  le : k ≤ (c.stream i).chain.length
  sound : ∀ m q, m < k → (c.stream i).chain[m]? = some q → (stops && (c.stream i).isStop q) = false ∧
    (m + 1 < (c.stream i).chain.length → ((c.headsTaken i m).followChain i q).2 ≠ none)
  broken : ∀ p, r.broken = some p ↔ (c.stream i).chain[k]? = some p ∧ (stops && (c.stream i).isStop p) = false ∧
    k + 1 < (c.stream i).chain.length ∧ ((c.headsTaken i k).followChain i p).2 = none
  chip : r.chip = match r.broken with
    | none => c.headsTaken i k
    | some p => ((c.headsTaken i k).followChain i p).1
  whole : stops = false → r.broken = none → k = (c.stream i).chain.length

theorem RunEnd.Walked.cons {i : StreamId} {stops : Bool} {c d : Chip} {r : RunEnd} {n k p : Nat} {rest : List Nat}
    (hc : (c.stream i).chain = p :: rest) (hs : (stops && (c.stream i).isStop p) = false)
    (hf : rest ≠ [] → (c.followChain i p).2 ≠ none) (hd : c.takeHead i = d) (hr : (d.stream i).chain = rest)
    (hq : ∀ q, (d.stream i).isStop q = (c.stream i).isStop q) (h : RunEnd.Walked i stops d r (n + 1) k) :
    RunEnd.Walked i stops c r n (k + 1) := by
  have e (m : Nat) : c.headsTaken i (m + 1) = d.headsTaken i m := by
    change Nat.iterate _ m (c.takeHead i) = _
    rw [hd]
    rfl
  have hl : (c.stream i).chain.length = (d.stream i).chain.length + 1 := by rw [hc, hr]; rfl
  refine ⟨by rw [h.returned]; omega, by have := h.le; omega, fun m q hm hq' => ?_, fun p' => ?_, ?_, fun a b => ?_⟩
  · cases m with
    | zero =>
      rw [hc] at hq'
      cases hq'
      refine ⟨hs, fun hlt => hf fun h0 => ?_⟩
      rw [hl, hr, h0] at hlt
      simp at hlt
    | succ m =>
      rw [hc, List.getElem?_cons_succ, ← hr] at hq'
      obtain ⟨a, b⟩ := h.sound m q (by omega) hq'
      rw [hq] at a
      exact ⟨a, fun hlt => by rw [e]; exact b (by omega)⟩
  · rw [h.broken p', e, hl, hq, hc, List.getElem?_cons_succ, hr]
    simp
  · rw [h.chip]
    split <;> rw [e]
  · rw [h.whole a b, hl]

theorem Chip.headsTaken_chain (c : Chip) (i : StreamId) (n : Nat) :
    ((c.headsTaken i n).stream i).chain = (c.stream i).chain.drop n := by
  induction n generalizing c with
  | zero => rfl
  | succ n ih =>
    change ((Chip.headsTaken i n (c.takeHead i)).stream i).chain = _
    rw [ih]
    unfold Chip.takeHead
    split <;> rename_i hc
    · simp [hc]
    · rw [(c.takeBack_spec i _ []).2, hc]; simp
    · rw [(Chip.takeBack_spec _ i _ _).2, hc]; rfl

/-- A run over a chain, page by page (R81, R82, R84). -/
theorem returnRun_walked (i : StreamId) (stops : Bool) (fuel : Nat) (c : Chip) (n : Nat)
    (h : (c.stream i).chain.length ≤ fuel) : ∃ k, RunEnd.Walked i stops c (returnRun i stops fuel c n) n k := by
  induction fuel generalizing c n with
  | zero =>
    have h0 : (c.stream i).chain = [] := List.length_eq_zero_iff.1 (Nat.le_zero.1 h)
    exact ⟨0, rfl, Nat.zero_le _, fun m q hm => absurd hm (Nat.not_lt_zero m), fun p => by simp [returnRun, h0], rfl,
      fun _ _ => by rw [h0]; rfl⟩
  | succ fuel ih =>
    unfold returnRun
    split
    · rename_i hc
      exact ⟨0, rfl, Nat.zero_le _, fun m q hm => absurd hm (Nat.not_lt_zero m), fun p => by simp [hc], rfl,
        fun _ _ => by rw [hc]; rfl⟩
    · rename_i p rest hc
      split
      · rename_i hs
        refine ⟨0, rfl, Nat.zero_le _, fun m q hm => absurd hm (Nat.not_lt_zero m), fun q => ?_, rfl, fun h0 => by simp [h0] at hs⟩
        refine ⟨nofun, fun ⟨hq, hn, _⟩ => ?_⟩
        rw [hc] at hq
        cases hq
        rw [hs] at hn
        cases hn
      · rename_i hs
        have hs : (stops && (c.stream i).isStop p) = false := by simpa using hs
        split
        · have hd : c.takeHead i = c.takeBack i p [] := by simp only [Chip.takeHead, hc]
          obtain ⟨k, hk⟩ := ih (c.takeBack i p []) (n + 1) (by rw [(c.takeBack_spec i p []).2]; exact Nat.zero_le _)
          exact ⟨k + 1, hk.cons hc hs (fun h => absurd rfl h) hd (c.takeBack_spec i p []).2
            (c.takeBack_isStop i p · [])⟩
        · rename_i q more
          simp only
          split
          · rename_i hn
            refine ⟨0, rfl, Nat.zero_le _, fun m q hm => absurd hm (Nat.not_lt_zero m), fun x => ?_, rfl, fun _ hb => nomatch hb⟩
            constructor
            · intro hx
              cases hx
              exact ⟨by rw [hc]; rfl, hs, by rw [hc]; simp, hn⟩
            · rintro ⟨hx, -⟩
              rw [hc] at hx
              cases hx
              rfl
          · rename_i hn
            have hd : c.takeHead i = (c.followChain i p).1.takeBack i p (q :: more) := by simp only [Chip.takeHead, hc]
            have hr := ((c.followChain i p).1.takeBack_spec i p (q :: more)).2
            obtain ⟨k, hk⟩ := ih ((c.followChain i p).1.takeBack i p (q :: more)) (n + 1) (by
              rw [hr]; rw [hc] at h; simpa using h)
            exact ⟨k + 1, hk.cons hc hs (fun _ => by rw [hn]; nofun) hd hr ((c.followChain i p).1.takeBack_isStop i p · _)⟩

/-- A run of page return (R81 to R84): no page it returns is a stop, each link it needs gives a page, and it is broken exactly at
the first one that does not. -/
theorem Chip.pageReturnRun_walked (c : Chip) (i : StreamId) :
    let st := c.stream i
    let r := c.pageReturnRun i
    r.returned ≤ st.chain.length ∧
    (∀ n p, n < r.returned → st.chain[n]? = some p → st.isStop p = false ∧
      (n + 1 < st.chain.length → ((c.headsTaken i n).followChain i p).2 ≠ none)) ∧
    (∀ p, r.broken = some p ↔
      FirstBreak i st.chain (st.chain.length - 1) (fun n => c.headsTaken i n) r.returned p ∧ st.isStop p = false) ∧
    (∀ p, r.broken = some p →
      r.chip = ((c.headsTaken i r.returned).followChain i p).1.startArbiterIf (r.returned != 0)) := by
  intro st r
  obtain ⟨k, h⟩ := returnRun_walked i true (c.stream i).chain.length c 0 le_rfl
  have hk : r.returned = k := h.returned.trans (Nat.zero_add k)
  rw [hk]
  refine ⟨h.le, fun n p hn hp => by simpa using h.sound n p hn hp, fun p => ?_, fun p hp => ?_⟩
  · refine (h.broken p).trans ⟨fun ⟨a, b, l, d⟩ =>
      ⟨⟨a, by simp only [st]; omega, d, fun m q hm hq => (h.sound m q hm hq).2 (by omega)⟩,
      by simpa using b⟩, fun ⟨f, b⟩ => ⟨f.page, by simpa using b, ?_, f.none⟩⟩
    have := f.within
    simp only [st] at this
    omega
  · have hb : (returnRun i true (c.stream i).chain.length c 0).broken = some p := hp
    have hc := h.chip
    rw [hb] at hc
    have ne : ((((c.headsTaken i k).followChain i p).1).stream i).chain ≠ [] := by
      rw [(Chip.followChain_spec _ i p).1]
      change ((c.headsTaken i k).stream i).chain ≠ []
      rw [c.headsTaken_chain i k, Ne, List.drop_eq_nil_iff]
      have := ((h.broken p).1 hb).2.2.1
      omega
    change (Chip.startArbiterIf _ _) = _
    rw [hc, h.returned, Nat.zero_add, if_neg]
    simpa using ne

/-- A whole chain returned (R18, R25, R97): broken exactly when a link in it gives no page, and what it leaves in each case. -/
theorem Chip.returnAll_walked (c : Chip) (i : StreamId) :
    let chain := (c.stream i).chain
    let all := c.returnAll i
    let first := FirstBreak i chain (chain.length - 1) fun n => c.headsTaken i n
    (all.2 = true ↔ ∃ n p, first n p) ∧
    (all.2 = false → all.1 = (c.headsTaken i chain.length).startArbiterIf (chain.length != 0)) ∧
    ∀ n p, first n p →
      all.1 = ((((c.headsTaken i n).followChain i p).1.breakChain i p).takeBack i p []).startArbiterIf true := by
  intro chain all first
  obtain ⟨k, h⟩ := returnRun_walked i false (c.stream i).chain.length c 0 le_rfl
  have hk : (returnRun i false (c.stream i).chain.length c 0).returned = k := by rw [h.returned, Nat.zero_add]
  have hbr (p : Nat) : (returnRun i false (c.stream i).chain.length c 0).broken = some p ↔ first k p := by
    refine (h.broken p).trans ⟨fun ⟨a, _, l, d⟩ => ⟨a, by simp only [chain]; omega, d, fun m q hm hq =>
      (h.sound m q hm hq).2 (by omega)⟩, fun f => ⟨f.page, by simp, ?_, f.none⟩⟩
    have := f.within
    simp only [chain] at this
    omega
  have huniq (n m p q : Nat) (f : first n p) (g : first m q) : n = m ∧ p = q := by
    have : n = m := by
      rcases lt_trichotomy n m with a | a | a
      · exact absurd f.none (g.before n p a f.page)
      · exact a
      · exact absurd g.none (f.before m q a g.page)
    subst this
    have := f.page.symm.trans g.page
    exact ⟨rfl, Option.some.inj this⟩
  have heq : all = match (returnRun i false (c.stream i).chain.length c 0).broken with
      | none => ((returnRun i false (c.stream i).chain.length c 0).chip.startArbiterIf
          ((returnRun i false (c.stream i).chain.length c 0).returned != 0), false)
      | some p =>
        let r2 := returnRun i false 1 ((returnRun i false (c.stream i).chain.length c 0).chip.breakChain i p)
          (returnRun i false (c.stream i).chain.length c 0).returned
        (r2.chip.startArbiterIf (r2.returned != 0), true) := rfl
  have hno (n p : Nat) (hb : (returnRun i false (c.stream i).chain.length c 0).broken = none) : ¬ first n p := fun f => by
    have hn := h.whole rfl hb
    have hlt := f.within
    simp only [chain] at hlt
    exact (h.sound n p (by omega) f.page).2 (by omega) f.none
  have hsome (p : Nat) (hb : (returnRun i false (c.stream i).chain.length c 0).broken = some p) :
      all = (((((c.headsTaken i k).followChain i p).1.breakChain i p).takeBack i p []).startArbiterIf true, true) := by
    have hc := h.chip
    rw [hb] at hc
    rw [heq, hb, hc, hk]
    have f := (hbr p).1 hb
    have hch : ((((c.headsTaken i k).followChain i p).1).stream i).chain = (c.stream i).chain.drop k := by
      rw [(Chip.followChain_spec _ i p).1]
      exact c.headsTaken_chain i k
    have hdrop : (c.stream i).chain.drop k = p :: (c.stream i).chain.drop (k + 1) := by
      have hlt := f.within
      simp only [chain] at hlt
      rw [List.drop_eq_getElem_cons (by omega)]
      have hp := f.page
      rw [List.getElem?_eq_getElem (by simp only [chain]; omega)] at hp
      rw [Option.some.inj hp]
    have hkept : ((((c.headsTaken i k).followChain i p).1.breakChain i p).stream i).chain = [p] := by
      have hm : p ∈ ((((c.headsTaken i k).followChain i p).1).stream i).chain := by rw [hch, hdrop]; exact List.mem_cons_self
      rw [Chip.breakChain_spec _ i p hm]
      change ((Chip.setStream _ i _).stream i).chain = _
      rw [Chip.setStream_stream_same, hch, hdrop]
      simp
    have hrun : returnRun i false 1 (((c.headsTaken i k).followChain i p).1.breakChain i p) k =
        { chip := (((c.headsTaken i k).followChain i p).1.breakChain i p).takeBack i p [], returned := k + 1,
          broken := none } := by
      unfold returnRun
      rw [hkept]
      rfl
    simp only [hrun]
    rfl
  cases hb : (returnRun i false (c.stream i).chain.length c 0).broken with
  | none =>
    have e : all = ((returnRun i false (c.stream i).chain.length c 0).chip.startArbiterIf
        ((returnRun i false (c.stream i).chain.length c 0).returned != 0), false) := by rw [heq, hb]
    have hc := h.chip
    rw [hb] at hc
    have hw := h.whole rfl hb
    refine ⟨⟨fun h1 => ?_, fun ⟨n, p, f⟩ => absurd f (hno n p hb)⟩, fun _ => ?_, fun n p f => absurd f (hno n p hb)⟩
    · rw [e] at h1; cases h1
    · rw [e, hc, hk, hw]
  | some p =>
    have e := hsome p hb
    have f := (hbr p).1 hb
    refine ⟨⟨fun _ => ⟨k, p, f⟩, fun _ => by rw [e]⟩, fun h1 => ?_, fun n q g => ?_⟩
    · rw [e] at h1; cases h1
    · obtain ⟨rfl, rfl⟩ := huniq n k q p g f
      rw [e]

/-! ### A tail truncation -/

/-- The walk up to the new tail page (R96): broken at the first link that gives no page, and else all its links followed. -/
theorem followTo_walked (i : StreamId) (last : Nat) (l : List Nat) (c : Chip) :
    let before := l.takeWhile fun p => p != last
    let x : Nat → Chip := fun n => c.linksFollowed i (before.take n)
    ((∀ n p, ¬ FirstBreak i before before.length x n p) → followTo i last l c = (x before.length, none)) ∧
    ∀ n p, FirstBreak i before before.length x n p → followTo i last l c = (((x n).followChain i p).1, some p) := by
  induction l generalizing c with
  | nil => exact ⟨fun _ => rfl, fun n p f => absurd f.within (Nat.not_lt_zero n)⟩
  | cons p rest ih =>
    intro before x
    by_cases hp : p = last
    · have hb : before = [] := by simp [before, hp]
      refine ⟨fun _ => ?_, fun n q f => absurd f.within (by rw [hb]; exact Nat.not_lt_zero n)⟩
      unfold followTo
      rw [if_pos hp]
      simp [x, hb, Chip.linksFollowed]
    · have hb : before = p :: rest.takeWhile fun q => q != last := by simp [before, hp]
      have hx (n : Nat) : x (n + 1) = Chip.linksFollowed i ((rest.takeWhile fun q => q != last).take n) (c.followChain i p).1 := by
        simp only [x, hb, List.take_succ_cons]
        rfl
      have hlen : before.length = (rest.takeWhile fun q => q != last).length + 1 := by rw [hb]; rfl
      unfold followTo
      rw [if_neg hp]
      simp only
      split
      · rename_i hn
        have f0 : FirstBreak i before before.length x 0 p :=
          ⟨by rw [hb]; rfl, by omega, hn, fun m q hm => absurd hm (Nat.not_lt_zero m)⟩
        refine ⟨fun h => absurd f0 (h 0 p), fun n q f => ?_⟩
        cases n with
        | zero =>
          have := f0.page.symm.trans f.page
          cases this
          rfl
        | succ n => exact absurd hn (f.before 0 p (by omega) f0.page)
      · rename_i q' hq
        obtain ⟨h1, h2⟩ := ih (c.followChain i p).1
        have lift (n q : Nat) : FirstBreak i before before.length x (n + 1) q ↔
            FirstBreak i (rest.takeWhile fun q => q != last) (rest.takeWhile fun q => q != last).length
              (fun n => Chip.linksFollowed i ((rest.takeWhile fun q => q != last).take n) (c.followChain i p).1) n q := by
          constructor
          · intro f
            refine ⟨?_, by have := f.within; omega, by rw [← hx]; exact f.none, fun m r hm hr => ?_⟩
            · have := f.page
              rw [hb, List.getElem?_cons_succ] at this
              exact this
            · rw [← hx]
              exact f.before (m + 1) r (by omega) (by rw [hb, List.getElem?_cons_succ]; exact hr)
          · intro f
            refine ⟨by rw [hb, List.getElem?_cons_succ]; exact f.page, by have := f.within; omega,
              by rw [hx]; exact f.none, fun m r hm hr => ?_⟩
            cases m with
            | zero =>
              rw [hb] at hr
              cases hr
              change (c.followChain i p).2 ≠ none
              rw [hq]
              nofun
            | succ m =>
              rw [hb, List.getElem?_cons_succ] at hr
              rw [hx]
              exact f.before m r (by omega) hr
        refine ⟨fun h => ?_, fun n q f => ?_⟩
        · rw [h1 fun n q f => h (n + 1) q ((lift n q).2 f), hlen, hx]
        · cases n with
          | zero =>
            have hpg := f.page
            rw [hb] at hpg
            cases hpg
            have := f.none
            change (c.followChain i p).2 = none at this
            rw [hq] at this
            cases this
          | succ n =>
            rw [h2 n q ((lift n q).1 f), hx]

/-- The pages after the new tail page given back (R96), up to the first link that gives no page. -/
theorem dropAfter_walked (i : StreamId) (last : Nat) (l : List Nat) (c : Chip) (hl : l ≠ []) :
    let x : Nat → Chip := fun n => c.tailDropped i last l n
    ((∀ n p, ¬ FirstBreak i l (l.length - 1) x n p) → dropAfter i last l c = (x l.length, none)) ∧
    ∀ n p, FirstBreak i l (l.length - 1) x n p → dropAfter i last l c = (((x n).followChain i p).1, some p) := by
  induction l generalizing c with
  | nil => exact absurd rfl hl
  | cons p rest ih =>
    intro x
    cases rest with
    | nil => exact ⟨fun _ => rfl, fun n q f => absurd f.within (Nat.not_lt_zero n)⟩
    | cons q more =>
      have hx (n : Nat) : x (n + 1) =
          Chip.tailDropped i last (q :: more) n ((c.followChain i p).1.dropPage i last p (some q)) := rfl
      have h0 : x 0 = c := rfl
      unfold dropAfter
      simp only
      split
      · rename_i hn
        have f0 : FirstBreak i (p :: q :: more) ((p :: q :: more).length - 1) x 0 p :=
          ⟨rfl, by simp, hn, fun m r hm => absurd hm (Nat.not_lt_zero m)⟩
        refine ⟨fun h => absurd f0 (h 0 p), fun n r f => ?_⟩
        cases n with
        | zero =>
          have := f.page
          cases this
          rfl
        | succ n => exact absurd hn (f.before 0 p (by omega) rfl)
      · rename_i q' hq
        obtain ⟨h1, h2⟩ := ih ((c.followChain i p).1.dropPage i last p (some q)) (by simp)
        have lift (n r : Nat) : FirstBreak i (p :: q :: more) ((p :: q :: more).length - 1) x (n + 1) r ↔
            FirstBreak i (q :: more) ((q :: more).length - 1)
              (fun n => Chip.tailDropped i last (q :: more) n ((c.followChain i p).1.dropPage i last p (some q))) n r := by
          constructor
          · intro f
            refine ⟨f.page, by have := f.within; simp at this ⊢; omega, by rw [← hx]; exact f.none, fun m r hm hr => ?_⟩
            rw [← hx]
            exact f.before (m + 1) r (by omega) hr
          · intro f
            refine ⟨f.page, by have := f.within; simp at this ⊢; omega, by rw [hx]; exact f.none, fun m r hm hr => ?_⟩
            cases m with
            | zero =>
              cases hr
              change (c.followChain i p).2 ≠ none
              rw [hq]
              nofun
            | succ m =>
              rw [hx]
              exact f.before m r (by omega) hr
        refine ⟨fun h => ?_, fun n r f => ?_⟩
        · exact h1 fun n r f => h (n + 1) r ((lift n r).2 f)
        · cases n with
          | zero =>
            have hpg := f.page
            cases hpg
            have := f.none
            change (c.followChain i p).2 = none at this
            rw [hq] at this
            cases this
          | succ n => exact h2 n r ((lift n r).1 f)

theorem pagesAfter_eq (last : Nat) (l : List Nat) : pagesAfter last l = (l.dropWhile fun p => p != last).drop 1 := by
  induction l with
  | nil => rfl
  | cons p rest ih =>
    by_cases hp : p = last <;> simp [pagesAfter, hp, ih]

/-- A tail truncation (R96): the links up to the new tail page, that page's own, then those of the pages given back; broken at the
first that gives no page. -/
theorem Chip.truncateTail_walked (c : Chip) (i : StreamId) (last : Nat) :
    let chain := (c.stream i).chain
    let before := chain.takeWhile fun p => p != last
    let ps := (chain.dropWhile fun p => p != last).drop 1
    let x : Nat → Chip := fun n => c.linksFollowed i (before.take n)
    let here := (x before.length).followChain i last
    let y : Nat → Chip := fun n => here.1.tailDropped i last ps n
    let t := c.truncateTail i last
    (∀ n p, FirstBreak i before before.length x n p → t = (((x n).followChain i p).1, some p)) ∧
    ((∀ n p, ¬ FirstBreak i before before.length x n p) →
      (ps = [] → t = (x before.length, none)) ∧
      (ps ≠ [] → here.2 = none → t = (here.1, some last)) ∧
      (ps ≠ [] → here.2 ≠ none →
        (∀ n p, FirstBreak i ps (ps.length - 1) y n p → t = (((y n).followChain i p).1, some p)) ∧
        ((∀ n p, ¬ FirstBreak i ps (ps.length - 1) y n p) → t = (y ps.length, none)))) := by
  intro chain before ps x here y t
  obtain ⟨h1, h2⟩ := followTo_walked i last chain c
  have ht : t = c.truncateTail i last := rfl
  refine ⟨fun n p f => ?_, fun h => ?_⟩
  · rw [ht, Chip.truncateTail, h2 n p f]
  · have e : followTo i last (c.stream i).chain c = (x before.length, none) := h1 h
    rw [ht, Chip.truncateTail]
    simp only [e]
    rw [pagesAfter_eq]
    refine ⟨fun h0 => ?_, fun h0 hn => ?_, fun h0 hn => ?_⟩
    · change ((c.stream i).chain.dropWhile fun p => p != last).drop 1 = [] at h0
      rw [h0]
    · split
      · rename_i h3; exact absurd h3 h0
      · change (match here.2 with | none => (here.1, some last) | some _ => _) = _
        rw [hn]
    · obtain ⟨k1, k2⟩ := dropAfter_walked i last ps here.1 h0
      have e2 : (match ((c.stream i).chain.dropWhile fun p => p != last).drop 1 with
          | [] => (x before.length, none)
          | later =>
            match here.2 with
            | none => (here.1, some last)
            | some _ => dropAfter i last later here.1) = dropAfter i last ps here.1 := by
        split
        · rename_i h3; exact absurd h3 h0
        · split
          · rename_i h3; exact absurd h3 hn
          · rfl
      refine ⟨fun n p f => ?_, fun h3 => ?_⟩
      · exact e2.trans (k2 n p f)
      · exact e2.trans (k1 h3)

end Sys2Proof.Machine
end

