-- ==== Sys2Proof/Laws/Sizing.lean ====
section
/-! SUPPORT. What the sizing walk of a grant finds (R54): the places it passes and the records it counts. -/

namespace Sys2Proof.Machine

/-- The page the stored link of page `p` names. -/
def Chip.linkOf (c : Chip) (p : Nat) : Nat := linkNext (c.mem.word (linkWord c.pool.usable p))

theorem Chip.linkOf_congr {c d : Chip} (hm : SameData c.mem d.mem) (hu : d.pool.usable = c.pool.usable) :
    d.linkOf = c.linkOf := by
  funext p
  rw [Chip.linkOf, Chip.linkOf, hu, hm.word]

/-- Only error marks and counters of buffer DRAM differ. -/
structure OnlyReads (c t : Chip) : Prop where
  same : t = { c with mem := t.mem }
  data : SameData c.mem t.mem

theorem OnlyReads.refl (c : Chip) : OnlyReads c c := ⟨rfl, .refl _⟩

theorem OnlyReads.trans {a b c : Chip} (h : OnlyReads a b) (k : OnlyReads b c) : OnlyReads a c :=
  ⟨by rw [k.same, h.same], h.data.trans k.data⟩

theorem OnlyReads.usable {a b : Chip} (h : OnlyReads a b) : b.pool.usable = a.pool.usable := by rw [h.same]

theorem OnlyReads.linkOf {a b : Chip} (h : OnlyReads a b) : b.linkOf = a.linkOf := Chip.linkOf_congr h.data h.usable

theorem Chip.followChain_reads (c : Chip) (i : StreamId) (p : Nat) : OnlyReads c (c.followChain i p).1 :=
  ⟨(c.followChain_spec i p).1, (c.followChain_spec i p).2.1⟩

/-- Pages passed: the offset is brought within a page, one link for every page left behind. -/
theorem passPages_spec (i : StreamId) (fuel : Nat) (c : Chip) (page pos : Nat) (h : 1 ≤ pos)
    (hf : (pos - 1) / 4096 ≤ fuel) :
    OnlyReads c (passPages i fuel c page pos).1 ∧ ∀ o, (passPages i fuel c page pos).2.2 = some o →
      o = pos - 4096 * ((pos - 1) / 4096) ∧
      (passPages i fuel c page pos).2.1 = Nat.iterate c.linkOf ((pos - 1) / 4096) page := by
  induction fuel generalizing c page pos with
  | zero =>
    have h0 : (pos - 1) / 4096 = 0 := by omega
    refine ⟨.refl c, fun o ho => ?_⟩
    rw [h0]
    exact ⟨(Option.some.inj ho).symm, rfl⟩
  | succ fuel ih =>
    unfold passPages
    split
    · rename_i hp
      simp only [Config.pageBytes] at hp
      have h0 : (pos - 1) / 4096 = 0 := by omega
      refine ⟨.refl c, fun o ho => ?_⟩
      rw [h0]
      exact ⟨(Option.some.inj ho).symm, rfl⟩
    · rename_i hp
      simp only [Config.pageBytes] at hp
      have hr := c.followChain_reads i page
      simp only
      split
      · exact ⟨hr, fun o ho => by cases ho⟩
      · rename_i q hq
        have hl := (c.followChain_spec i page).2.2 q hq
        have e : (pos - 1) / 4096 = (pos - 4096 - 1) / 4096 + 1 := by omega
        obtain ⟨k1, k2⟩ := ih (c.followChain i page).1 q (pos - 4096) (by omega) (by omega)
        refine ⟨hr.trans k1, fun o ho => ?_⟩
        obtain ⟨k3, k4⟩ := k2 o ho
        refine ⟨by omega, ?_⟩
        rw [e, Function.iterate_succ_apply]
        change _ = Nat.iterate c.linkOf _ (linkNext _)
        rw [hl, ← hr.linkOf]
        exact k4

/-- Where the record after one that ends `pos` bytes on from the start of `page` begins; `more` says that there is one. -/
def Chip.placeAfter (c : Chip) (more : Bool) (page pos : Nat) : Nat × Nat :=
  let hops := if more then pos / 4096 else (pos - 1) / 4096
  (Nat.iterate c.linkOf hops page, pos - 4096 * hops)

theorem nextPlace_reads (i : StreamId) (more : Bool) (c : Chip) (page pos : Nat) :
    OnlyReads c (nextPlace i more c page pos).1 := by
  unfold nextPlace
  split
  · have hr := c.followChain_reads i page
    simp only
    split <;> exact hr
  · exact .refl c

/-- The place after a record: pages passed, and the next page too when the record fills its page and another one follows. -/
theorem nextPlace_spec (i : StreamId) (more : Bool) (c : Chip) (page pos : Nat) (h : 1 ≤ pos) (hp : pos ≤ 4096) :
    OnlyReads c (nextPlace i more c page pos).1 ∧ ∀ o, (nextPlace i more c page pos).2.2 = some o →
      ((nextPlace i more c page pos).2.1, o) = c.placeAfter more page pos := by
  unfold nextPlace Chip.placeAfter
  by_cases hc : (more && pos == Config.pageBytes) = true
  · simp only [hc, if_true]
    simp only [Bool.and_eq_true, beq_iff_eq, Config.pageBytes] at hc
    obtain ⟨rfl, rfl⟩ := hc
    have hr := c.followChain_reads i page
    split
    · exact ⟨hr, fun o ho => by cases ho⟩
    · rename_i q hq
      have hl := (c.followChain_spec i page).2.2 q hq
      refine ⟨hr, fun o ho => ?_⟩
      injection ho with ho
      subst ho
      simp [Chip.linkOf, hl]
  · simp only [hc]
    refine ⟨.refl c, fun o ho => ?_⟩
    simp only [Bool.false_eq_true, if_false, Option.some.injEq] at ho ⊢
    subst ho
    have h0 : (if more = true then pos / 4096 else (pos - 1) / 4096) = 0 := by
      simp only [Bool.and_eq_true, beq_iff_eq, Config.pageBytes, not_and] at hc
      split
      · rename_i hm
        have := hc hm
        omega
      · omega
    simp [h0]

/-- A record's whole step of the walk. -/
theorem placeAfter_pass (c d : Chip) (hr : OnlyReads c d) (more : Bool) (page pos : Nat) (h : 1 ≤ pos) :
    d.placeAfter more (Nat.iterate c.linkOf ((pos - 1) / 4096) page) (pos - 4096 * ((pos - 1) / 4096)) =
      c.placeAfter more page pos := by
  unfold Chip.placeAfter
  rw [hr.linkOf]
  cases more
  · have e : (pos - 4096 * ((pos - 1) / 4096) - 1) / 4096 = 0 := by omega
    simp [e]
  · simp only [if_true]
    have e : pos / 4096 = (pos - 4096 * ((pos - 1) / 4096)) / 4096 + (pos - 1) / 4096 := by omega
    rw [← Function.iterate_add_apply, ← e]
    refine Prod.ext rfl ?_
    change pos - _ - _ = pos - _
    omega

/-- The header stored for sequence `seq` of stream `i` at a place, as its two words give it (R155). -/
def Chip.headerAt (c : Chip) (i : StreamId) (seq : Nat) (at_ : Nat × Nat) : Option Header :=
  judgeHeader (c.mem.word (wordAt at_.1 at_.2)) (c.mem.word (wordAt at_.1 at_.2 + 1)) i seq

/-- A sizing walk only reads, whatever it finds: no byte of buffer DRAM changes. -/
theorem sizeWalk_reads (i : StreamId) (capacity next fuel : Nat) (c : Chip) (seq page offset n total : Nat) (t : Chip)
    (h : (∃ m loc, sizeWalk i capacity next fuel c seq page offset n total = .sized t m loc) ∨
      (∃ f, sizeWalk i capacity next fuel c seq page offset n total = .small t f) ∨
      ∃ cause brk, sizeWalk i capacity next fuel c seq page offset n total = .broken t cause brk) : OnlyReads c t := by
  induction fuel generalizing c seq page offset n total with
  | zero =>
    obtain ⟨m, loc, e⟩ | ⟨f, e⟩ | ⟨cause, brk, e⟩ := h <;> cases e
    exact .refl _
  | succ fuel ih =>
    have hh := c.mem.readHeader_spec i seq page offset
    have hd : OnlyReads c { c with mem := (c.mem.readHeader i seq page offset).1 } := ⟨rfl, hh.1⟩
    have stop : ∀ d : Chip, OnlyReads c d → ∀ z : Sizing, (z = .sized d n (.at page offset) ∨ (∃ f, z = .small d f) ∨
        ∃ cause brk, z = .broken d cause brk) → (∃ m loc, z = .sized t m loc) ∨ (∃ f, z = .small t f) ∨
        (∃ cause brk, z = .broken t cause brk) → OnlyReads c t := by
      intro d hd z hz ht
      obtain rfl | ⟨f, rfl⟩ | ⟨cause, brk, rfl⟩ := hz <;>
        obtain ⟨m, loc, e⟩ | ⟨f, e⟩ | ⟨cause, brk, e⟩ := ht <;> cases e <;> exact hd
    unfold sizeWalk at h
    simp only at h
    split at h
    · exact stop _ hd _ (.inr (.inr ⟨_, _, rfl⟩)) h
    · rename_i hr _
      split at h
      · split at h
        · exact stop _ hd _ (.inr (.inl ⟨_, rfl⟩)) h
        · exact stop _ hd _ (.inl rfl) h
      · have h1 := hd.trans (passPages_spec i ((offset + footprint hr.length) / Config.pageBytes + 1)
          { c with mem := (c.mem.readHeader i seq page offset).1 } page (offset + footprint hr.length)
          (by simp only [footprint]; omega) (by simp only [Config.pageBytes]; omega)).1
        split at h
        · exact stop _ h1 _ (.inr (.inr ⟨_, _, rfl⟩)) h
        · rename_i pos hpos
          have h2 := fun page => h1.trans (nextPlace_reads i (decide (seq + 1 < next)) _ page pos)
          split at h
          · exact stop _ (h2 _) _ (.inr (.inr ⟨_, _, rfl⟩)) h
          · exact (h2 _).trans (ih _ _ _ _ _ _ h)

/-- The sizing walk counts records from `seq` on, each one's place following from the one before, as many as the capacity holds
and no more than its bound (R54). -/
theorem sizeWalk_spec (i : StreamId) (capacity next fuel : Nat) (c0 c : Chip) (seq page offset n total : Nat)
    (h0 : OnlyReads c0 c) (t : Chip) (m : Nat) (loc : Loc) (ht : total ≤ capacity)
    (h : sizeWalk i capacity next fuel c seq page offset n total = .sized t m loc) :
    ∃ (sizes : List Nat) (place : Nat → Nat × Nat),
      n ≤ m ∧ place 0 = (page, offset) ∧
      (∀ k f, sizes[k]? = some f → (∃ r, c0.headerAt i (seq + k) (place k) = some r ∧ f = footprint r.length) ∧
        (k < m - n → place (k + 1) = c0.placeAfter (decide (seq + k + 1 < next)) (place k).1 ((place k).2 + f))) ∧
      loc = .at (place (m - n)).1 (place (m - n)).2 ∧ total + (sizes.take (m - n)).sum ≤ capacity ∧
      (m - n = fuel ∧ sizes.length = m - n ∨
        m - n < fuel ∧ sizes.length = m - n + 1 ∧ capacity < total + sizes.sum ∧ m ≠ 0) := by
  induction fuel generalizing c seq page offset n total with
  | zero =>
    simp only [sizeWalk, Sizing.sized.injEq] at h
    obtain ⟨-, rfl, rfl⟩ := h
    exact ⟨[], fun _ => (page, offset), le_rfl, rfl, by simp, by simp, by simpa using ht, .inl (by simp)⟩
  | succ fuel ih =>
    unfold sizeWalk at h
    have hh := c.mem.readHeader_spec i seq page offset
    simp only at h
    split at h
    · cases h
    · rename_i r hr
      have hr' : c0.headerAt i seq (page, offset) = some r := by
        have := hh.2 r hr
        rwa [h0.data.word, h0.data.word] at this
      split at h
      · rename_i hcap
        split at h
        · cases h
        · rename_i hn
          simp only [Sizing.sized.injEq] at h
          obtain ⟨-, rfl, rfl⟩ := h
          refine ⟨[footprint r.length], fun _ => (page, offset), le_rfl, rfl, fun k f hk => ?_, by simp, by simpa using ht,
            .inr ⟨by simp, by simp, by simpa using hcap, hn⟩⟩
          cases k with
          | zero =>
            simp only [List.getElem?_cons_zero, Option.some.injEq] at hk
            exact ⟨⟨r, by simpa using hr', hk.symm⟩, by simp⟩
          | succ k => simp at hk
      · rename_i hcap
        have hf : 16 ≤ footprint r.length := by unfold footprint; omega
        have hd : OnlyReads c { c with mem := (c.mem.readHeader i seq page offset).1 } := ⟨rfl, hh.1⟩
        have hp := passPages_spec i ((offset + footprint r.length) / 4096 + 1)
          { c with mem := (c.mem.readHeader i seq page offset).1 } page (offset + footprint r.length) (by omega) (by omega)
        split at h
        · cases h
        · rename_i pos hpos
          obtain ⟨hp2, hp3⟩ := hp.2 pos hpos
          have h1 := (h0.trans hd).trans hp.1
          have hn := nextPlace_spec i (decide (seq + 1 < next))
            (passPages i ((offset + footprint r.length) / Config.pageBytes + 1)
              { c with mem := (c.mem.readHeader i seq page offset).1 } page (offset + footprint r.length)).1
            (passPages i ((offset + footprint r.length) / Config.pageBytes + 1)
              { c with mem := (c.mem.readHeader i seq page offset).1 } page (offset + footprint r.length)).2.1
            pos (by omega) (by omega)
          split at h
          · cases h
          · rename_i pos' hpos'
            have hn2 := hn.2 pos' hpos'
            obtain ⟨sizes, place, k1, k2, k3, k4, k5, k6⟩ := ih _ _ _ _ _ _ (h1.trans hn.1) (by omega) h
            have hplace : place 0 = c0.placeAfter (decide (seq + 1 < next)) page (offset + footprint r.length) := by
              rw [k2, hn2]
              have e1 := placeAfter_pass c0 _ h1 (decide (seq + 1 < next)) page (offset + footprint r.length) (by omega)
              rw [← e1]
              have e2 : Chip.linkOf { c with mem := (c.mem.readHeader i seq page offset).1 } = c0.linkOf :=
                (h0.trans hd).linkOf
              rw [e2] at hp3
              change Chip.placeAfter _ _ (passPages i ((offset + footprint r.length) / 4096 + 1) _ page
                (offset + footprint r.length)).2.1 pos = _
              rw [hp3, hp2]
              rfl
            have em : m - n = m - (n + 1) + 1 := by omega
            refine ⟨footprint r.length :: sizes, fun k => match k with | 0 => (page, offset) | k + 1 => place k, by omega,
              rfl, fun k f hk => ?_, ?_, ?_, ?_⟩
            · cases k with
              | zero =>
                simp only [List.getElem?_cons_zero, Option.some.injEq] at hk
                subst hk
                exact ⟨⟨r, hr', rfl⟩, fun _ => hplace⟩
              | succ k =>
                obtain ⟨a, b⟩ := k3 k f (by simpa using hk)
                refine ⟨by simpa only [Nat.add_right_comm, ← Nat.add_assoc] using a, fun hlt => ?_⟩
                have := b (by omega)
                simpa only [Nat.add_right_comm, ← Nat.add_assoc] using this
            · rw [em]; exact k4
            · rw [em, List.take_succ_cons, List.sum_cons]; omega
            · rcases k6 with ⟨a, b⟩ | ⟨a, b, d, e⟩
              · exact .inl ⟨by omega, by simp only [List.length_cons]; omega⟩
              · exact .inr ⟨by omega, by simp only [List.length_cons]; omega, by rw [List.sum_cons]; omega, e⟩

/-! ### The walk place by place -/

theorem WalkPlace.hop_succ (i : StreamId) (seq : Nat) (x : WalkPlace) (j : Nat) :
    x.hop i seq (j + 1) = (((x.hop i seq j).1.followChain i (x.hop i seq j).2).1,
      ((x.hop i seq j).1.followChain i (x.hop i seq j).2).2.getD (x.hop i seq j).2) :=
  Function.iterate_succ_apply' _ _ _

/-- Pages passed from hop `j` on: as many hops as pages are left behind, up to the first link that gives no page. -/
theorem passPages_walked (i : StreamId) (seq : Nat) (x : WalkPlace) (fuel j pos : Nat) (h : 1 ≤ pos)
    (hf : (pos - 1) / 4096 ≤ fuel) :
    ((∀ k, k < (pos - 1) / 4096 → x.link i seq (j + k) ≠ none) →
      passPages i fuel (x.hop i seq j).1 (x.hop i seq j).2 pos =
        ((x.hop i seq (j + (pos - 1) / 4096)).1, (x.hop i seq (j + (pos - 1) / 4096)).2,
          some (pos - 4096 * ((pos - 1) / 4096)))) ∧
    ∀ k, k < (pos - 1) / 4096 → x.link i seq (j + k) = none → (∀ m, m < k → x.link i seq (j + m) ≠ none) →
      passPages i fuel (x.hop i seq j).1 (x.hop i seq j).2 pos =
        (((x.hop i seq (j + k)).1.followChain i (x.hop i seq (j + k)).2).1, (x.hop i seq (j + k)).2, none) := by
  induction fuel generalizing j pos with
  | zero =>
    have h0 : (pos - 1) / 4096 = 0 := by omega
    rw [h0]
    exact ⟨fun _ => rfl, fun k hk => absurd hk (Nat.not_lt_zero k)⟩
  | succ fuel ih =>
    unfold passPages
    split
    · rename_i hp
      simp only [Config.pageBytes] at hp
      have h0 : (pos - 1) / 4096 = 0 := by omega
      rw [h0]
      exact ⟨fun _ => rfl, fun k hk => absurd hk (Nat.not_lt_zero k)⟩
    · rename_i hp
      simp only [Config.pageBytes] at hp
      have e : (pos - 1) / 4096 = (pos - 4096 - 1) / 4096 + 1 := by omega
      simp only
      split
      · rename_i hn
        have hn : x.link i seq j = none := hn
        refine ⟨fun hs => absurd hn (hs 0 (by omega)), fun k hk _ hm => ?_⟩
        cases k with
        | zero => rfl
        | succ k => exact absurd hn (hm 0 (by omega))
      · rename_i q hq
        have hj : x.hop i seq (j + 1) = (((x.hop i seq j).1.followChain i (x.hop i seq j).2).1, q) := by
          rw [x.hop_succ, hq]; rfl
        have hl : x.link i seq j ≠ none := by
          change ((x.hop i seq j).1.followChain i (x.hop i seq j).2).2 ≠ none
          rw [hq]
          nofun
        obtain ⟨h1, h2⟩ := ih (j + 1) (pos - 4096) (by omega) (by omega)
        rw [hj] at h1 h2
        refine ⟨fun hs => ?_, fun k hk hn hm => ?_⟩
        · have := h1 fun k hk => by have := hs (k + 1) (by omega); rwa [show j + (k + 1) = j + 1 + k by omega] at this
          rw [e, show j + ((pos - 4096 - 1) / 4096 + 1) = j + 1 + (pos - 4096 - 1) / 4096 by omega,
            show pos - 4096 * ((pos - 4096 - 1) / 4096 + 1) = pos - 4096 - 4096 * ((pos - 4096 - 1) / 4096) by omega]
          exact this
        · cases k with
          | zero => exact absurd hn hl
          | succ k =>
            rw [show j + (k + 1) = j + 1 + k by omega] at hn ⊢
            exact h2 k (by omega) hn fun m hm' => by
              have := hm (m + 1) (by omega)
              rwa [show j + (m + 1) = j + 1 + m by omega] at this

/-- The bytes of the records before the `n`-th one of a walk. -/
def WalkPlace.total (i : StreamId) (next first : Nat) (start : WalkPlace) (n : Nat) : Nat :=
  ((List.range n).map fun k => (start.after i next first k).size i (first + k)).sum

theorem WalkPlace.total_succ (i : StreamId) (next first : Nat) (start : WalkPlace) (n : Nat) :
    start.total i next first (n + 1) = start.total i next first n + (start.after i next first n).size i (first + n) := by
  simp [WalkPlace.total, List.range_succ]

/-- One record of a sizing walk (R54): its header, the capacity, the links to the place after it, in this order. -/
theorem sizeWalk_step (i : StreamId) (capacity next first fuel : Nat) (start : WalkPlace) (n : Nat) :
    let y := start.after i next first n
    let seq := first + n
    let read : Chip := { y.chip with mem := (y.header i seq).1 }
    let total := start.total i next first
    let walk := sizeWalk i capacity next (fuel + 1) y.chip seq y.page y.offset n (total n)
    ((y.header i seq).2 = none → walk = .broken read .recordHeader none) ∧
    ((y.header i seq).2 ≠ none → capacity < total (n + 1) →
      walk = if n = 0 then .small read (y.size i seq) else .sized read n (.at y.page y.offset)) ∧
    ((y.header i seq).2 ≠ none → total (n + 1) ≤ capacity → ∀ j, j < y.hops i next seq → y.link i seq j = none →
      (∀ m, m < j → y.link i seq m ≠ none) →
      walk = .broken ((y.hop i seq j).1.followChain i (y.hop i seq j).2).1 .chainLink (some (y.hop i seq j).2)) ∧
    (start.Counted i next first capacity n →
      walk = sizeWalk i capacity next fuel (start.after i next first (n + 1)).chip (first + (n + 1))
        (start.after i next first (n + 1)).page (start.after i next first (n + 1)).offset (n + 1) (total (n + 1))) := by
  intro y seq read total walk
  have hw : walk = sizeWalk i capacity next (fuel + 1) y.chip seq y.page y.offset n (total n) := rfl
  cases hh : (y.header i seq).2 with
  | none =>
    refine ⟨fun _ => ?_, fun h => absurd rfl h, fun h => absurd rfl h, fun h => absurd hh h.header⟩
    rw [hw, sizeWalk]
    change (match (y.header i seq).2 with | none => _ | some _ => _) = _
    rw [hh]
    rfl
  | some hd =>
    have hs : footprint hd.length = y.size i seq := by simp only [WalkPlace.size, hh]; rfl
    have hf : 16 ≤ y.size i seq := by rw [← hs]; unfold footprint; omega
    have ht : total (n + 1) = total n + y.size i seq := start.total_succ i next first n
    have e : walk = if capacity < total (n + 1) then
          (if n = 0 then .small read (y.size i seq) else .sized read n (.at y.page y.offset))
        else
          let r1 := passPages i ((y.offset + y.size i seq) / 4096 + 1) read y.page (y.offset + y.size i seq)
          match r1.2.2 with
          | none => .broken r1.1 .chainLink (some r1.2.1)
          | some pos =>
            let r2 := nextPlace i (decide (seq + 1 < next)) r1.1 r1.2.1 pos
            match r2.2.2 with
            | none => .broken r2.1 .chainLink (some r2.2.1)
            | some pos' => sizeWalk i capacity next fuel r2.1 (seq + 1) r2.2.1 pos' (n + 1) (total (n + 1)) := by
      rw [hw, sizeWalk]
      change (match (y.header i seq).2 with | none => _ | some _ => _) = _
      rw [hh, ht, ← hs]
      rfl
    refine ⟨nofun, fun _ hc => by rw [e, if_pos hc], ?_⟩
    -- What the hops find when the record fits.
    have hp := passPages_walked i seq y ((y.offset + y.size i seq) / 4096 + 1) 0 (y.offset + y.size i seq) (by omega) (by omega)
    simp only [Nat.zero_add] at hp
    have h0 : y.hop i seq 0 = (read, y.page) := rfl
    rw [h0] at hp
    obtain ⟨hp1, hp2⟩ := hp
    -- The record's whole run of links, when those to its own last byte give pages.
    have run (hc : total (n + 1) ≤ capacity) (hl : ∀ k, k < (y.offset + y.size i seq - 1) / 4096 → y.link i seq k ≠ none) :
        walk =
          let a := (y.offset + y.size i seq - 1) / 4096
          let pos := y.offset + y.size i seq - 4096 * a
          if seq + 1 < next ∧ pos = 4096 then
            match y.link i seq a with
            | none => .broken ((y.hop i seq a).1.followChain i (y.hop i seq a).2).1 .chainLink (some (y.hop i seq a).2)
            | some q => sizeWalk i capacity next fuel ((y.hop i seq a).1.followChain i (y.hop i seq a).2).1 (seq + 1) q 0
                (n + 1) (total (n + 1))
          else sizeWalk i capacity next fuel (y.hop i seq a).1 (seq + 1) (y.hop i seq a).2 pos (n + 1) (total (n + 1)) := by
      rw [e, if_neg (Nat.not_lt.2 hc)]
      simp only [hp1 hl, nextPlace, Config.pageBytes, Bool.and_eq_true, decide_eq_true_eq, beq_iff_eq]
      by_cases hmore : seq + 1 < next ∧ y.offset + y.size i seq - 4096 * ((y.offset + y.size i seq - 1) / 4096) = 4096
      · simp only [if_pos hmore]
        have hl' : y.link i seq ((y.offset + y.size i seq - 1) / 4096) =
            ((y.hop i seq ((y.offset + y.size i seq - 1) / 4096)).1.followChain i
              (y.hop i seq ((y.offset + y.size i seq - 1) / 4096)).2).2 := rfl
        rw [hl']
        cases ((y.hop i seq ((y.offset + y.size i seq - 1) / 4096)).1.followChain i
          (y.hop i seq ((y.offset + y.size i seq - 1) / 4096)).2).2 <;> rfl
      · simp only [if_neg hmore]
    have hhops : y.hops i next seq = (y.offset + y.size i seq - 1) / 4096 +
        if seq + 1 < next ∧ y.offset + y.size i seq - 4096 * ((y.offset + y.size i seq - 1) / 4096) = 4096 then 1 else 0 := by
      unfold WalkPlace.hops
      split <;> split <;> omega
    refine ⟨fun _ hc j hj hn hm => ?_, fun hcount => ?_⟩
    · by_cases ha : j < (y.offset + y.size i seq - 1) / 4096
      · rw [e, if_neg (Nat.not_lt.2 hc)]
        simp only [hp2 j ha hn hm]
      · rw [hhops] at hj
        split at hj
        · rename_i hmore
          have hj : j = (y.offset + y.size i seq - 1) / 4096 := by omega
          subst hj
          rw [run hc hm]
          simp only [if_pos hmore, hn]
        · omega
    · have hc : total (n + 1) ≤ capacity := hcount.fits
      have hl := hcount.links
      change ∀ j, j < y.hops i next seq → y.link i seq j ≠ none at hl
      have hafter : start.after i next first (n + 1) =
          { chip := (y.hop i seq (y.hops i next seq)).1, page := (y.hop i seq (y.hops i next seq)).2,
            offset := y.offset + y.size i seq - 4096 * y.hops i next seq } := rfl
      rw [hafter, run hc fun k hk => hl k (by rw [hhops]; omega)]
      by_cases hmore : seq + 1 < next ∧ y.offset + y.size i seq - 4096 * ((y.offset + y.size i seq - 1) / 4096) = 4096
      · rw [if_pos hmore] at hhops
        have hq := hl ((y.offset + y.size i seq - 1) / 4096) (by omega)
        obtain ⟨q, hq⟩ := Option.ne_none_iff_exists'.1 hq
        simp only [if_pos hmore, hq]
        have hq' : ((y.hop i seq ((y.offset + y.size i seq - 1) / 4096)).1.followChain i
            (y.hop i seq ((y.offset + y.size i seq - 1) / 4096)).2).2 = some q := hq
        rw [hhops, y.hop_succ, hq']
        simp only [Option.getD_some]
        rw [show y.offset + y.size i seq - 4096 * ((y.offset + y.size i seq - 1) / 4096 + 1) = 0 by omega]
        rfl
      · rw [if_neg hmore, Nat.add_zero] at hhops
        simp only [if_neg hmore, hhops]
        rfl

/-- A sizing walk stands where the records it has counted lead it. -/
theorem sizeWalk_counted (i : StreamId) (capacity next first bound : Nat) (start : WalkPlace) (n : Nat) (hn : n ≤ bound)
    (h : ∀ m, m < n → start.Counted i next first capacity m) :
    sizeWalk i capacity next bound start.chip first start.page start.offset 0 0 =
      sizeWalk i capacity next (bound - n) (start.after i next first n).chip (first + n) (start.after i next first n).page
        (start.after i next first n).offset n (start.total i next first n) := by
  induction n with
  | zero => rfl
  | succ n ih =>
    rw [ih (by omega) fun m hm => h m (by omega), show bound - n = bound - (n + 1) + 1 by omega]
    exact (sizeWalk_step i capacity next first (bound - (n + 1)) start n).2.2.2 (h n (by omega))

end Sys2Proof.Machine
end

