-- ==== Sys2Proof/Laws/Runs.lean ====
section
/-! SUPPORT. Where the accesses of a transfer lie in its run of segments (R143), the entries of an indirect list (R144), which write
of a ring ends first, what payload that arrives makes of the words of
buffer DRAM (R153), how payload pieces and checked words of a fetch copy stand in order, the one order R128 puts streams in, and
the taking of copy ends. -/

namespace Sys2Proof.Machine

/-! ### Runs of segments -/

/-- Accesses from an address on: each lies within the `len` bytes, and together they carry those bytes in order. -/
theorem chunks_spec {α : Type} (data : List α) (fuel : Nat) (addr : HostAddr) (pos len : Nat)
    (h : len ≤ 4096 * fuel) :
    ((chunks fuel addr pos len).map fun a => (data.drop a.2.1).take a.2.2).flatten = (data.drop pos).take len ∧
    ∀ a ∈ chunks fuel addr pos len, ∃ d, a.1 = addr + BitVec.ofNat 64 d ∧ a.2.1 = pos + d ∧ d + a.2.2 ≤ len := by
  induction fuel generalizing addr pos len with
  | zero =>
    have h0 : len = 0 := by omega
    subst h0
    simp [chunks]
  | succ fuel ih =>
    unfold chunks
    split
    · rename_i h0
      subst h0
      simp
    · split
      · refine ⟨by simp, fun a ha => ⟨0, ?_⟩⟩
        simp only [List.mem_singleton] at ha
        subst ha
        simp
      · rename_i hl
        simp only [Config.maxAccess] at hl ⊢
        obtain ⟨h1, h2⟩ := ih (addr + BitVec.ofNat 64 4096) (pos + 4096) (len - 4096) (by omega)
        refine ⟨?_, fun a ha => ?_⟩
        · rw [List.map_cons, List.flatten_cons, h1]
          simp only
          rw [← List.drop_drop, ← List.take_add, show 4096 + (len - 4096) = len by omega]
        · rcases List.mem_cons.1 ha with rfl | ha
          · exact ⟨0, by simp, rfl, by simp only; omega⟩
          · obtain ⟨d, d1, d2, d3⟩ := h2 a ha
            refine ⟨4096 + d, d1.trans ?_, by omega, by omega⟩
            exact (BitVec.add_assoc _ _ _).trans (congrArg _ (BitVec.ofNat_add 4096 d).symm)

/-- The accesses that cover `len` bytes of a run from byte `off` on: each lies in one segment, and together they carry the bytes
in order (R143). -/
theorem splitRun_spec {α : Type} (data : List α) (segs : List Segment) (off len pos : Nat)
    (h : off + len ≤ (segs.map Segment.len).sum ∨ len = 0) :
    ((splitRun segs off len pos).map fun a => (data.drop a.2.1).take a.2.2).flatten = (data.drop pos).take len ∧
    ∀ a ∈ splitRun segs off len pos, ∃ before seg after inside,
      segs = before ++ seg :: after ∧ inside + a.2.2 ≤ seg.len ∧ a.1 = seg.addr + BitVec.ofNat 64 inside ∧
      off + a.2.1 = (before.map Segment.len).sum + inside + pos ∧ pos ≤ a.2.1 ∧ a.2.1 + a.2.2 ≤ pos + len := by
  induction segs generalizing off len pos with
  | nil =>
    have h0 : len = 0 := by simp only [List.map_nil, List.sum_nil] at h; omega
    subst h0
    simp [splitRun]
  | cons s rest ih =>
    unfold splitRun
    simp only [List.map_cons, List.sum_cons] at h
    split
    · rename_i hs
      obtain ⟨h1, h2⟩ := ih (off - s.len) len pos (by omega)
      refine ⟨h1, fun a ha => ?_⟩
      obtain ⟨b, g, c, d, e1, e2, e3, e4, e5, e6⟩ := h2 a ha
      exact ⟨s :: b, g, c, d, by rw [e1]; rfl, e2, e3, by simp only [List.map_cons, List.sum_cons]; omega, e5, e6⟩
    · rename_i hs
      simp only
      have hc := chunks_spec data (min len (s.len - off) / Config.maxAccess + 1) (s.addr + BitVec.ofNat 64 off) pos
        (min len (s.len - off)) (by simp only [Config.maxAccess]; omega)
      have hd : ∀ a ∈ chunks (min len (s.len - off) / Config.maxAccess + 1) (s.addr + BitVec.ofNat 64 off) pos
          (min len (s.len - off)), ∃ before seg after inside,
          s :: rest = before ++ seg :: after ∧ inside + a.2.2 ≤ seg.len ∧ a.1 = seg.addr + BitVec.ofNat 64 inside ∧
          off + a.2.1 = (before.map Segment.len).sum + inside + pos ∧ pos ≤ a.2.1 ∧ a.2.1 + a.2.2 ≤ pos + len := by
        intro a ha
        obtain ⟨d, d1, d2, d3⟩ := hc.2 a ha
        refine ⟨[], s, rest, off + d, rfl, by omega, ?_, by simp only [List.map_nil, List.sum_nil]; omega, by omega,
          by omega⟩
        rw [d1, BitVec.add_assoc, ← BitVec.ofNat_add]
      split
      · rename_i hl
        rw [List.append_nil]
        refine ⟨?_, hd⟩
        rw [hc.1, show min len (s.len - off) = len by omega]
      · rename_i hl
        obtain ⟨h1, h2⟩ := ih 0 (len - min len (s.len - off)) (pos + min len (s.len - off)) (by omega)
        refine ⟨?_, fun a ha => ?_⟩
        · rw [List.map_append, List.flatten_append, hc.1, h1, ← List.drop_drop, ← List.take_add]
          congr 1
          omega
        · rcases List.mem_append.1 ha with ha | ha
          · exact hd a ha
          · obtain ⟨b, g, c, d, e1, e2, e3, e4, e5, e6⟩ := h2 a ha
            exact ⟨s :: b, g, c, d, by rw [e1]; rfl, e2, e3, by simp only [List.map_cons, List.sum_cons]; omega,
              by omega, by omega⟩

/-- The payload reads of an append copy lie each in one segment, and together cover bytes 0 to `length` of the run (R143, R147). -/
theorem payloadReads_spec (segs : List Segment) (length : Nat) (h : length ≤ (segs.map Segment.len).sum) :
    ((payloadReads segs length).map fun r => (List.range r.len).map fun k => r.off + k).flatten = List.range length ∧
    ∀ r ∈ payloadReads segs length, r.list = false ∧ ∃ before seg after inside,
      segs = before ++ seg :: after ∧ inside + r.len ≤ seg.len ∧ r.addr = seg.addr + BitVec.ofNat 64 inside ∧
      r.off = (before.map Segment.len).sum + inside := by
  obtain ⟨h1, h2⟩ := splitRun_spec (List.range length) segs 0 length 0 (.inl (by omega))
  constructor
  · rw [List.drop_zero, List.take_of_length_le (by simp)] at h1
    refine Eq.trans ?_ h1
    unfold payloadReads
    rw [List.map_map]
    congr 1
    refine List.map_congr_left fun a ha => ?_
    obtain ⟨_, _, _, _, _, _, _, _, _, h6⟩ := h2 a ha
    apply List.ext_getElem
    · simp; omega
    · intro n _ _
      simp
  · intro r hr
    obtain ⟨a, ha, rfl⟩ := List.mem_map.1 hr
    obtain ⟨b, g, c, d, e1, e2, e3, e4, _, _⟩ := h2 a ha
    exact ⟨rfl, b, g, c, d, e1, e2, e3, by simpa using e4⟩

/-! ### Lists and figures of a transfer -/

/-- The number little-endian bytes spell, as a fold over them. -/
theorem bytesToNat_eq_foldr (l : List Byte) : bytesToNat l = l.foldr (fun b rest => b.toNat + 256 * rest) 0 := by
  induction l with
  | nil => rfl
  | cons b rest ih => rw [bytesToNat, ih, List.foldr_cons]

/-- Entry `n` of an indirect list: its address in bytes 16n to 16n + 7, its length in the four after them (R144). -/
theorem listEntries_eq (count : Nat) (bytes : List Byte) :
    listEntries count bytes = (List.range count).map fun n =>
      { addr := BitVec.ofNat 64 (bytesToNat ((bytes.drop (16 * n)).take 8))
        len := bytesToNat ((bytes.drop (16 * n + 8)).take 4) } := by
  induction count generalizing bytes with
  | zero => rfl
  | succ n ih =>
    rw [listEntries, ih, List.range_succ_eq_map, List.map_cons, List.map_map]
    congr 1
    refine List.map_congr_left fun k _ => ?_
    simp only [List.drop_drop, Function.comp, Nat.succ_eq_add_one]
    rw [show 16 + 16 * k = 16 * (k + 1) by omega, show 16 + (16 * k + 8) = 16 * (k + 1) + 8 by omega]

/-- The records written in full are the longest run from the first on with every write sent (R148). -/
theorem writtenInFull_eq (l : List Issued) :
    writtenInFull l = l.takeWhile fun r => r.unsent == 0 && !r.failed := by
  induction l with
  | nil => rfl
  | cons r rest ih =>
    rw [writtenInFull, List.takeWhile_cons, ih]
    by_cases h : r.unsent = 0 ∧ r.failed = false <;> simp_all

/-! ### Completion writes -/

/-- The write taken is the first of the ring in the list; the others keep their order. -/
theorem takeWrite_first (n : RingId) (before after : List CmpWrite) (w : CmpWrite) (hw : w.ring = n)
    (hb : ∀ v ∈ before, v.ring ≠ n) : takeWrite n (before ++ w :: after) = some (w, before ++ after) := by
  induction before with
  | nil => simp [takeWrite, hw]
  | cons v rest ih =>
    rw [List.cons_append, takeWrite, if_neg (hb v (.head _)), ih fun x hx => hb x (.tail _ hx)]
    rfl

/-- No write is taken of a ring that has none. -/
theorem takeWrite_none (n : RingId) (l : List CmpWrite) (h : ∀ w ∈ l, w.ring ≠ n) : takeWrite n l = none := by
  induction l with
  | nil => rfl
  | cons v rest ih => rw [takeWrite, if_neg (h v (.head _)), ih fun x hx => h x (.tail _ hx)]; rfl

/-! ### Payload in whole words -/

theorem sparseGet_filter {α : Type} (l : List (Nat × α)) (f : Nat → Bool) (k : Nat) :
    sparseGet (l.filter fun e => f e.1) k = if f k then sparseGet l k else none := by
  induction l with
  | nil => simp [sparseGet]
  | cons e rest ih =>
    obtain ⟨j, v⟩ := e
    rw [List.filter_cons]
    by_cases hj : k = j
    · subst hj
      by_cases hf : f k = true
      · simp [hf, sparseGet]
      · simpa [hf] using ih
    · by_cases hf : f j = true
      · simp [hf, sparseGet, hj, ih]
      · simp [hf, sparseGet, hj, ih]

theorem sparseGet_append {α : Type} (l r : List (Nat × α)) (k : Nat) :
    sparseGet (l ++ r) k = (sparseGet l k).or (sparseGet r k) := by
  induction l with
  | nil => rfl
  | cons e rest ih =>
    obtain ⟨j, v⟩ := e
    simp only [List.cons_append, sparseGet]
    split
    · rfl
    · exact ih

/-- Data numbered from `off` on, looked up. -/
theorem sparseGet_numbered {α : Type} (off : Nat) (l : List α) (k : Nat) :
    sparseGet ((List.range l.length).zipWith (fun n b => (off + n, b)) l) k =
      if off ≤ k then l[k - off]? else none := by
  induction l generalizing off with
  | nil => simp [sparseGet]
  | cons a rest ih =>
    rw [List.length_cons, List.range_succ_eq_map, List.zipWith_cons_cons, sparseGet]
    have e : List.zipWith (fun n b => (off + n, b)) (List.map Nat.succ (List.range rest.length)) rest =
        List.zipWith (fun n b => (off + 1 + n, b)) (List.range rest.length) rest := by
      rw [List.zipWith_map_left]
      congr 1
      funext n b
      rw [Nat.succ_eq_add_one, Nat.add_assoc, Nat.add_comm 1]
    rw [e, ih]
    by_cases hk : k = off + 0
    · simp [hk]
    · simp only [hk, if_false]
      by_cases h1 : off + 1 ≤ k
      · rw [if_pos h1, if_pos (by omega), show k - off = k - (off + 1) + 1 by omega, List.getElem?_cons_succ]
      · rw [if_neg h1, if_neg (by omega)]

/-- What payload data does (R147, R153): the words it touches that are now whole are the ones written, and the bytes of the other
words are kept. -/
theorem Context.gather_spec (x : Context) (length off : Nat) (bytes : List Byte) :
    ∃ first last : Nat,
      (∀ w, first ≤ w ∧ w < last ↔ off < 8 * w + 8 ∧ 8 * w < off + bytes.length ∧
        ∀ b, b < 8 → payloadByte x.gathered length off bytes (8 * w + b) ≠ none) ∧
      x.gather length off bytes =
        { x with
          gathered := (x.gather length off bytes).gathered
          bufWrites := x.bufWrites ++ wordsWrite (payloadByte x.gathered length off bytes) length first last } ∧
      ∀ n, n < length → sparseGet (x.gather length off bytes).gathered n =
        if first ≤ n / 8 ∧ n / 8 < last then none else payloadByte x.gathered length off bytes n := by
  have whole (w : Nat) : wordWhole (payloadByte x.gathered length off bytes) w = true ↔
      ∀ b, b < 8 → payloadByte x.gathered length off bytes (8 * w + b) ≠ none := by
    simp [wordWhole, Option.isSome_iff_ne_none]
  have inner (w b : Nat) (h1 : off ≤ 8 * w + b) (h2 : 8 * w + b < off + bytes.length) :
      payloadByte x.gathered length off bytes (8 * w + b) ≠ none := by
    unfold payloadByte
    split
    · simp
    · rw [if_pos ⟨h1, h2⟩]
      simp only [ne_eq, List.getElem?_eq_none_iff, not_le]
      omega
  refine ⟨if wordWhole (payloadByte x.gathered length off bytes) (off / 8) then off / 8 else off / 8 + 1,
    if wordWhole (payloadByte x.gathered length off bytes) ((off + bytes.length + 7) / 8 - 1) then
      (off + bytes.length + 7) / 8 else (off + bytes.length + 7) / 8 - 1, fun w => ?_, rfl, fun n hn => ?_⟩
  · rw [← whole w]
    constructor
    · rintro ⟨h1, h2⟩
      have h3 : off / 8 ≤ w := by split at h1 <;> omega
      have h4 : w < (off + bytes.length + 7) / 8 := by split at h2 <;> omega
      refine ⟨by omega, by omega, ?_⟩
      rcases Nat.lt_or_ge (off / 8) w with h5 | h5
      · rcases Nat.lt_or_ge (w + 1) ((off + bytes.length + 7) / 8) with h6 | h6
        · exact (whole w).2 fun b hb => inner w b (by omega) (by omega)
        · have : w = (off + bytes.length + 7) / 8 - 1 := by omega
          rw [this]
          by_contra hc
          rw [if_neg hc] at h2
          omega
      · have : w = off / 8 := by omega
        rw [this]
        by_contra hc
        rw [if_neg hc] at h1
        omega
    · rintro ⟨h1, h2, h3⟩
      constructor
      · split
        · omega
        · rename_i hc
          have : w ≠ off / 8 := fun he => hc (he ▸ h3)
          omega
      · split
        · omega
        · rename_i hc
          have : w ≠ (off + bytes.length + 7) / 8 - 1 := fun he => hc (he ▸ h3)
          omega
  · have hp : payloadByte x.gathered length off bytes n =
        (if off ≤ n then bytes[n - off]? else none).or (sparseGet x.gathered n) := by
      unfold payloadByte
      rw [if_neg (by omega : ¬ length ≤ n)]
      by_cases h1 : off ≤ n
      · by_cases h2 : n < off + bytes.length
        · simp [h1, h2, List.getElem?_eq_getElem (by omega : n - off < bytes.length)]
        · simp [h1, h2, List.getElem?_eq_none (by omega : bytes.length ≤ n - off)]
      · simp [h1]
    unfold Context.gather
    simp only
    rw [sparseGet_filter _ (fun k => !(decide (_ ≤ k / 8) && decide (k / 8 < _))), sparseGet_append, sparseGet_numbered,
      ← hp]
    generalize (if wordWhole (payloadByte x.gathered length off bytes) (off / 8) = true then _ else _) = first
    generalize (if wordWhole (payloadByte x.gathered length off bytes) _ = true then _ else _) = last
    by_cases h : first ≤ n / 8 ∧ n / 8 < last
    · simp [h]
    · rw [if_neg h]
      simp only [not_and] at h
      simp only [Bool.not_eq_true', Bool.and_eq_false_iff, decide_eq_false_iff_not]
      rw [if_pos]
      by_cases h1 : first ≤ n / 8
      · exact .inr (h h1)
      · exact .inl h1

/-! ### Pieces and checked runs -/

/-- A piece put among pieces in rising order of their places leaves them so, and adds it alone. -/
theorem insertPiece_spec (piece : Nat × List Byte) (l : List (Nat × List Byte)) :
    (insertPiece piece l).Perm (piece :: l) ∧
    (l.Pairwise (fun a b => a.1 ≤ b.1) → (insertPiece piece l).Pairwise fun a b => a.1 ≤ b.1) := by
  induction l with
  | nil => exact ⟨.refl _, fun _ => List.pairwise_singleton _ _⟩
  | cons q rest ih =>
    unfold insertPiece
    split
    · rename_i h
      refine ⟨.refl _, fun hs => List.pairwise_cons.2 ⟨fun b hb => ?_, hs⟩⟩
      rcases List.mem_cons.1 hb with rfl | hb
      · exact h
      · exact h.trans ((List.pairwise_cons.1 hs).1 b hb)
    · rename_i h
      refine ⟨(ih.1.cons q).trans (.swap _ _ _), fun hs => ?_⟩
      have hs := List.pairwise_cons.1 hs
      refine List.pairwise_cons.2 ⟨fun b hb => ?_, ih.2 hs.2⟩
      rcases List.mem_cons.1 (ih.1.mem_iff.1 hb) with rfl | hb
      · omega
      · exact hs.1 b hb

/-- The checks of a run are the checks of its words, in order. -/
theorem BufferMemory.checkRun_words (m : BufferMemory) (w n : Nat) (b : Bool) :
    (List.range n).foldl (fun r k => ((r.1.check (w + k)).1, r.2 && (r.1.check (w + k)).2.isSome)) (m, b) =
      ((m.checkRun w n).1, b && (m.checkRun w n).2) := by
  induction n generalizing m w b with
  | zero => simp [BufferMemory.checkRun]
  | succ n ih =>
    rw [List.range_succ_eq_map, List.foldl_cons, List.foldl_map]
    have e : ∀ k, w + 1 + k = w + (k + 1) := fun k => by omega
    have h := ih (m.check w).1 (w + 1) (b && (m.check w).2.isSome)
    simp only [e] at h
    simp only [Nat.add_zero, Nat.succ_eq_add_one, h, BufferMemory.checkRun, Bool.and_assoc]

/-! ### The order of R128 -/

theorem Chip.serviceRank_inj (c : Chip) (i j : StreamId) (h : c.serviceRank i = c.serviceRank j) : i = j := by
  have hi := i.isLt
  have hj := j.isLt
  unfold Chip.serviceRank at h
  cases hn : (c.stream i).noticeRing with
  | none =>
    cases hm : (c.stream j).noticeRing with
    | none => simp only [hn, hm] at h; exact Fin.ext (by omega)
    | some m => have := m.isLt; simp only [hn, hm] at h; omega
  | some n =>
    have hn' := n.isLt
    cases hm : (c.stream j).noticeRing with
    | none => simp only [hn, hm] at h; omega
    | some m =>
      have hm' := m.isLt
      simp only [hn, hm] at h
      have e : n = m := Fin.ext (by omega)
      subst e
      have := (c.cmpRing n).service.isLt
      exact Fin.ext (by omega)

/-- The streams in service order are the given ones, in the one order that rises in rank. -/
theorem Chip.inServiceOrder_spec (c : Chip) (is : List StreamId) :
    (c.inServiceOrder is).Perm is ∧ (c.inServiceOrder is).Pairwise (fun i j => c.serviceRank i ≤ c.serviceRank j) ∧
      ∀ order : List StreamId, order.Perm is → order.Pairwise (fun i j => c.serviceRank i ≤ c.serviceRank j) →
        order = c.inServiceOrder is := by
  have total : Std.Total fun i j : StreamId => c.serviceRank i ≤ c.serviceRank j := ⟨fun i j => Nat.le_total _ _⟩
  have trans : IsTrans StreamId fun i j => c.serviceRank i ≤ c.serviceRank j := ⟨fun _ _ _ => Nat.le_trans⟩
  have hp : (c.inServiceOrder is).Perm is := List.perm_insertionSort _ is
  have hs : (c.inServiceOrder is).Pairwise (fun i j => c.serviceRank i ≤ c.serviceRank j) :=
    List.pairwise_insertionSort _ is
  refine ⟨hp, hs, fun order h1 h2 => ?_⟩
  exact List.Perm.eq_of_pairwise (fun i j _ _ a b => c.serviceRank_inj i j (Nat.le_antisymm a b)) h2 hs
    (h1.trans hp.symm)

/-! ### Copy ends -/

/-- Outside ACTIVE an append copy's end is discarded (R45, R46). -/
theorem Chip.appendCopyEnd_inactive (c : Chip) (id : Nat) (h : c.isActive = false) :
    c.appendCopyEnd id = c ∨ c.appendCopyEnd id = c.dropEnd .append id := by
  unfold Chip.appendCopyEnd
  split
  · exact .inl rfl
  · exact .inr (if_neg (by rw [show (c.dropEnd .append id).isActive = c.isActive from rfl, h]; decide))

/-- Outside ACTIVE a fetch copy's end is discarded (R66, R67). -/
theorem Chip.fetchCopyEnd_inactive (c : Chip) (id : Nat) (h : c.isActive = false) :
    c.fetchCopyEnd id = c ∨ c.fetchCopyEnd id = c.dropEnd .fetch id := by
  unfold Chip.fetchCopyEnd
  split
  · exact .inl rfl
  · exact .inr (if_neg (by rw [show (c.dropEnd .fetch id).isActive = c.isActive from rfl, h]; decide))

/-- What holds of a part and is kept by the taking of a copy end holds when all copy ends are taken. -/
theorem Chip.takeCopyEnds_induct (P : Chip → Prop) (c : Chip) (h : P c)
    (ha : ∀ (x : Chip) (id : Nat), P x → P (x.appendCopyEnd id)) (hf : ∀ (x : Chip) (id : Nat), P x → P (x.fetchCopyEnd id)) :
    P c.takeCopyEnds := by
  have step : ∀ (l : List EndReport) (x : Chip), P x → P (l.foldl Chip.takeCopyEnd x) := by
    intro l
    induction l with
    | nil => exact fun _ hx => hx
    | cons e rest ih =>
      intro x hx
      refine ih _ ?_
      unfold Chip.takeCopyEnd
      split
      · exact ha x _ hx
      · exact hf x _ hx
      · exact hx
      · exact hx
  exact step _ c h

/-! ### The requests a RING_DELETE cancels -/

/-- A list without repetition, in the order of R128, of the streams whose requests a RING_DELETE cancels is the one it follows. -/
theorem Chip.inServiceOrder_streamsOf (c : Chip) (ids : List Nat) (order : List StreamId) (hn : order.Nodup)
    (hm : ∀ i, i ∈ order ↔ ∃ id ∈ ids, c.slotStream id = some i)
    (hs : order.Pairwise fun i j => c.serviceRank i ≤ c.serviceRank j) :
    c.inServiceOrder (c.streamsOf ids) = order := by
  refine ((c.inServiceOrder_spec (c.streamsOf ids)).2.2 order ?_ hs).symm
  refine (List.perm_ext_iff_of_nodup hn (List.nodup_dedup _)).2 fun i => ?_
  rw [hm, List.mem_dedup, List.mem_filterMap]

end Sys2Proof.Machine
end

