-- ==== Sys2Proof/Laws/Stored.lean ====
section
/-! SUPPORT. The bits of the words buffer DRAM holds for headers and links (R87, R154; places log 13), what reading a stored header
gives after one is written or rewritten, and what an admission sets (R33). -/

namespace Sys2Proof.Machine

/-! ### Bits of stored words -/

/-- Bits 0 to 31 of a link entry: the next page, all ones for END (log 13). -/
theorem encodeLink_next (next : Option Nat) (owner : Option StreamId) (h : ∀ p, next = some p → p < 2 ^ 32) :
    ((encodeLink next owner).extractLsb' 0 32).toNat = next.getD (2 ^ 32 - 1) := by
  unfold encodeLink
  cases next with
  | none => cases owner <;> (rw [BitVec.extractLsb'_append_eq_right]; rfl)
  | some p =>
    have := h p rfl
    cases owner <;> (rw [BitVec.extractLsb'_append_eq_right]; simp; omega)

/-- Bits 32 to 63 of a link entry: the owner, all ones for FREE (log 13). -/
theorem encodeLink_owner (next : Option Nat) (owner : Option StreamId) :
    ((encodeLink next owner).extractLsb' 32 32).toNat = (owner.map Fin.val).getD (2 ^ 32 - 1) := by
  unfold encodeLink
  rw [BitVec.extractLsb'_append_eq_left]
  cases owner with
  | none => rfl
  | some i => simp; omega

/-- The first word of a stored header as a number (log 13). -/
theorem headerWord0_toNat (seq : Nat) (kind : RecordKind) (h : seq < 2 ^ 48) :
    (headerWord0 seq kind).toNat = kind.code.toNat * 2 ^ 48 + seq := by
  unfold headerWord0
  rw [BitVec.toNat_append, BitVec.toNat_append, BitVec.toNat_ofNat, Nat.mod_eq_of_lt h,
    ← Nat.shiftLeft_add_eq_or_of_lt (by omega)]
  cases kind <;> simp [RecordKind.code]

/-! ### Error marks and checked reads -/

/-- The error marks after a word is written: that word's is gone (R156). -/
theorem BufferMemory.writeWord_marks (m : BufferMemory) (w : Nat) (v : DWord) (h : m.wf = true) (k : Nat) :
    sparseGet (m.writeWord w v).marks k = if k = w then none else sparseGet m.marks k := by
  have hs := ((m.wf_iff).1 h).2.2
  have e (a : Nat) (l : List Byte) (n : BufferMemory) (hn : sparseSorted n.marks = true)
      (ha : ∀ j, j < l.length → (a + j) / 8 = w) :
      sparseGet (n.writeBytes a l).marks k =
        if l ≠ [] ∧ k = w then none else sparseGet n.marks k := by
    induction l generalizing n a with
    | nil => simp [BufferMemory.writeBytes]
    | cons b rest ih =>
      have h0 : a / 8 = w := by simpa using ha 0 (by simp)
      have hm : (n.writeByte a b).marks = sparsePut n.marks w none := by rw [← h0]; rfl
      rw [BufferMemory.writeBytes, ih (a + 1) (n.writeByte a b) (by rw [hm]; exact sparsePut_sorted _ _ _ hn)
        fun j hj => by rw [Nat.add_assoc, Nat.add_comm 1]; exact ha (j + 1) (by simpa using hj), hm]
      by_cases hk : k = w
      · subst hk
        simp [sparseGet_put_same _ _ _ hn]
      · simp [hk, sparseGet_put_ne _ _ _ _ hk]
  rw [BufferMemory.writeWord, e _ _ m hs fun j hj => by simp only [wordBytes, List.length_cons, List.length_nil] at hj; omega]
  simp [wordBytes]

/-- A run of bytes written leaves the corrected-error counter. -/
@[simp] theorem BufferMemory.writeBytes_corrected (m : BufferMemory) (a : Nat) (l : List Byte) :
    (m.writeBytes a l).corrected = m.corrected := by
  induction l generalizing m a with
  | nil => rfl
  | cons b rest ih => simp [BufferMemory.writeBytes, ih]; rfl

/-- A run of bytes written leaves the damaged-record counter. -/
@[simp] theorem BufferMemory.writeBytes_damaged (m : BufferMemory) (a : Nat) (l : List Byte) :
    (m.writeBytes a l).damaged = m.damaged := by
  induction l generalizing m a with
  | nil => rfl
  | cons b rest ih => simp [BufferMemory.writeBytes, ih]; rfl

/-- A word with no error mark is read as it is. -/
theorem BufferMemory.check_clean (m : BufferMemory) (w : Nat) (h : sparseGet m.marks w = none) :
    m.check w = (m, some (m.word w)) := by
  unfold BufferMemory.check
  rw [h]

/-- What a checked read gives depends on the word and its mark alone. -/
theorem BufferMemory.check_value (m : BufferMemory) (w : Nat) :
    (m.check w).2 = if sparseGet m.marks w = some .multi then none else some (m.word w) := by
  unfold BufferMemory.check
  split <;> simp_all

/-- A checked read changes no other word's mark. -/
theorem BufferMemory.check_marks (m : BufferMemory) (w k : Nat) (h : k ≠ w) :
    sparseGet (m.check w).1.marks k = sparseGet m.marks k := by
  unfold BufferMemory.check
  split
  · rfl
  · exact sparseGet_put_ne _ _ _ _ h
  · rfl

/-- What a read of a stored header gives depends on its two words and their marks alone. -/
theorem BufferMemory.readHeader_value (m : BufferMemory) (i : StreamId) (seq page offset : Nat) :
    (m.readHeader i seq page offset).2 =
      if sparseGet m.marks (wordAt page offset) = some .multi ∨ sparseGet m.marks (wordAt page offset + 1) = some .multi
      then none else judgeHeader (m.word (wordAt page offset)) (m.word (wordAt page offset + 1)) i seq := by
  unfold BufferMemory.readHeader
  simp only
  rw [BufferMemory.check_value, BufferMemory.check_value, BufferMemory.check_marks _ _ _ (by omega),
    (m.check_spec (wordAt page offset)).1.word]
  by_cases h0 : sparseGet m.marks (wordAt page offset) = some .multi
  · simp [h0]
  · by_cases h1 : sparseGet m.marks (wordAt page offset + 1) = some .multi
    · simp [h0, h1]
    · simp [h0, h1]

/-! ### Stored headers -/

/-- A kind's code stands for that kind. -/
theorem RecordKind.ofCode_code (k : RecordKind) : RecordKind.ofCode k.code = some k := by cases k <;> rfl

/-- Bits 0 to 47 of a header's first word: the sequence (log 13). -/
theorem headerWord0_seq (seq : Nat) (kind : RecordKind) (h : seq < 2 ^ 48) :
    ((headerWord0 seq kind).extractLsb' 0 48).toNat = seq := by
  unfold headerWord0
  rw [BitVec.extractLsb'_append_eq_right, BitVec.toNat_ofNat, Nat.mod_eq_of_lt h]

/-- Bits 48 to 55 of a header's first word: the kind (log 13). -/
theorem headerWord0_kind (seq : Nat) (kind : RecordKind) : (headerWord0 seq kind).extractLsb' 48 8 = kind.code := by
  unfold headerWord0
  apply BitVec.eq_of_getLsbD_eq
  intro j hj
  simp only [BitVec.getLsbD_extractLsb', BitVec.getLsbD_append]
  interval_cases j <;> simp

/-- A header whose kind is rewritten reads back with the new kind and its old length and tag (R154). -/
theorem BufferMemory.readHeader_rewriteKind (m : BufferMemory) (i : StreamId) (seq page offset : Nat) (kind : RecordKind)
    (hm : m.wf = true) (hs : seq < 2 ^ 48) (h : Header) (hr : (m.readHeader i seq page offset).2 = some h) :
    ((m.rewriteKind page offset seq kind).readHeader i seq page offset).2 =
      some { kind := kind, length := h.length, tag := h.tag } := by
  rw [BufferMemory.readHeader_value] at hr ⊢
  split at hr
  · cases hr
  rename_i hc
  unfold BufferMemory.rewriteKind
  have hn : wordAt page offset + 1 ≠ wordAt page offset := by omega
  simp only [BufferMemory.writeWord_marks _ _ _ hm, BufferMemory.word_writeWord _ _ _ hm,
    BufferMemory.word_writeWord_ne _ _ _ _ hn, hn, if_true, if_false]
  rw [if_neg fun h => h.elim (fun h => by cases h) fun h => hc (.inr h)]
  unfold judgeHeader at hr ⊢
  rw [headerWord0_kind, RecordKind.ofCode_code, headerWord0_seq seq kind hs]
  simp only at hr ⊢
  split at hr
  · cases hr
  · split at hr
    · rename_i hj
      rw [if_pos ⟨trivial, hj.2⟩]
      injection hr with hr
      rw [← hr]
    · cases hr

/-- The header an admission writes reads back sound and NORMAL (R33, R154). -/
theorem BufferMemory.readHeader_writeHeader (m : BufferMemory) (i : StreamId) (seq page offset length : Nat) (tag : Word)
    (hm : m.wf = true) (hs : seq < 2 ^ 48) (h1 : 1 ≤ length) (h2 : length ≤ 32768) :
    ((m.writeHeader page offset seq length tag i).readHeader i seq page offset).2 =
      some { kind := .normal, length := length, tag := tag } := by
  have hw := m.writeWord_wf (wordAt page offset) (headerWord0 seq .normal) hm
  rw [BufferMemory.readHeader_value]
  unfold BufferMemory.writeHeader
  have hn : wordAt page offset ≠ wordAt page offset + 1 := by omega
  simp only [BufferMemory.writeWord_marks _ _ _ hw, BufferMemory.writeWord_marks _ _ _ hm,
    BufferMemory.word_writeWord _ _ _ hw, BufferMemory.word_writeWord _ _ _ hm, BufferMemory.word_writeWord_ne _ _ _ _ hn,
    hn, if_true, if_false]
  rw [if_neg fun h => h.elim (fun h => by cases h) fun h => by cases h]
  have e0 : (headerWord1 length tag i).extractLsb' 0 16 = BitVec.ofNat 16 length := by
    unfold headerWord1; exact BitVec.extractLsb'_append_eq_right
  have e1 : (headerWord1 length tag i).extractLsb' 16 32 = tag := by
    unfold headerWord1
    apply BitVec.eq_of_getLsbD_eq
    intro j hj
    simp only [BitVec.getLsbD_extractLsb', BitVec.getLsbD_append]
    simp [hj]
  have e2 : (headerWord1 length tag i).extractLsb' 48 16 = BitVec.ofNat 16 i.val := by
    unfold headerWord1
    apply BitVec.eq_of_getLsbD_eq
    intro j hj
    simp only [BitVec.getLsbD_extractLsb', BitVec.getLsbD_append]
    interval_cases j <;> simp
  unfold judgeHeader
  rw [headerWord0_kind, RecordKind.ofCode_code, headerWord0_seq seq _ hs, e0, e1, e2]
  simp only [BitVec.toNat_ofNat]
  rw [if_pos]
  · congr 2; omega
  · simp only [Config.maxLength]
    refine ⟨trivial, ?_, ?_, ?_⟩ <;> omega

/-! ### Admission -/

/-- What an admission sets (R33): the entry, the stored header, the phase and the transfer, and then one evaluation of the
occupancy monitor when it took pages. -/
theorem Chip.admitAppend_spec (c : Chip) (i : StreamId) (st : StreamEntry) (ps : List Nat) (id length : Nat) (tag : Word)
    (src : Source) : ∃ x : Chip,
    c.admitAppend i st ps id length tag src = (if ps = [] then x else x.evalOccupancy i) ∧
    x.stream i = st.afterAdmission ps length id ∧ (∀ j, j ≠ i → x.stream j = c.stream j) ∧ x.ctl = c.ctl ∧
    x.pool = c.pool ∧ x.rings.table = (c.setPhase id .admitted).rings.table ∧
    x.mem = c.mem.writeHeader (((st.rangeOf ps).1.head?).getD 0) (st.rangeOf ps).2 st.next length tag i ∧
    x.engine = { c.engine with
      queue := c.engine.queue ++
        [{ slot := id, work := .appendCopy length src (st.rangeOf ps).1 (st.rangeOf ps).2 }] } := by
  refine ⟨(({ c.setStream i (st.afterAdmission ps length id) with
      mem := c.mem.writeHeader (((st.rangeOf ps).1.head?).getD 0) (st.rangeOf ps).2 st.next length tag i }.setPhase id
        .admitted).place { slot := id, work := .appendCopy length src (st.rangeOf ps).1 (st.rangeOf ps).2 }),
    ?_, c.setStream_stream_same i _, fun j hj => c.setStream_stream_ne _ hj, rfl, rfl, rfl, rfl, rfl⟩
  unfold Chip.admitAppend
  cases ps <;> rfl

end Sys2Proof.Machine
end

