-- ==== Sys2Proof/WellFormed.lean ====
section
/-! DEFINITION. Which commands name things the part has: rings and vectors 0 to 31, contexts 0 to 63, slots 0 to 2,047,
DRAM words of a 4 GiB bank, window offsets 0 to 4,095, write widths of 8, 16, 32 or 64 bits. -/

namespace Sys2Proof

/-- Every word named lies in the largest bank, 4 GiB of 8-byte words (R86). -/
def Upsets.wf (u : Upsets) : Bool := u.all fun e => decide (e.1 < 536870912)

/-- The bytes of one host read are at most `Config.maxAccess`. -/
def HostReadEnd.wf : HostReadEnd → Bool
  | .data bytes => decide (bytes.length ≤ Config.maxAccess)
  | .error => true
  | .timeout => true

/-- The write widths a host access can have. -/
def wfBits (bits : Nat) : Bool := bits == 8 || bits == 16 || bits == 32 || bits == 64

/-- A command names only what the part has. -/
def Instr.wf : Instr → Bool
  | .fullReset => true
  | .initEnd _ _ => true
  | .ctrlEnable _ => true
  | .controllerReset _ u => u.wf
  | .ctrlDisable _ u => u.wf
  | .quiesceEnd u => u.wf
  | .reqPutWrite n _ => decide (n < 32)
  | .cmpTakeWrite n _ => decide (n < 32)
  | .registerWrite offset bits _ u => decide (offset < 4096) && wfBits bits && u.wf
  | .vectorMask n => decide (n < 32)
  | .vectorUnmask n => decide (n < 32)
  | .ringTakeStart => true
  | .entryReadEnd n _ => decide (n < 32)
  | .append u => u.wf
  | .fetch u => u.wf
  | .mark => true
  | .rewind u => u.wf
  | .release u => u.wf
  | .streamOpen => true
  | .streamSet => true
  | .streamFlush u => u.wf
  | .streamClose u => u.wf
  | .streamResume => true
  | .streamReport => true
  | .poolReport => true
  | .describe => true
  | .ringCreate => true
  | .ringDeleteRequestRing u => u.wf
  | .ringDeleteCompletionRing => true
  | .cancel u => u.wf
  | .appendDeadline slot => decide (slot < Config.tableSlots)
  | .fetchDeadline slot u => decide (slot < Config.tableSlots) && u.wf
  | .transferStart => true
  | .hostReadEnd ctx _ r => decide (ctx < 64) && r.wf
  | .hostWriteEnd ctx _ => decide (ctx < 64)
  | .bufferReadEnd ctx _ u => decide (ctx < 64) && u.wf
  | .appendCopyEnd slot u => decide (slot < Config.tableSlots) && u.wf
  | .fetchCopyEnd slot u => decide (slot < Config.tableSlots) && u.wf
  | .listReadEnd slot u => decide (slot < Config.tableSlots) && u.wf
  | .reportWriteEnd slot => decide (slot < Config.tableSlots)
  | .grantArbiterStart => true
  | .completionWriteEnd n => decide (n < 32)
  | .coalesceTimerExpiry n => decide (n < 32)
  | .bufferWriteEnd ctx _ => decide (ctx < 64)
  | .grantArbiterVisit u => u.wf
  | .hostLinkAccessChange _ _ => true

end Sys2Proof
end

