-- ==== Sys2Proof/Tests/Slice0.lean ====
section
/-! SUPPORT. Ill-formed commands the check refuses, one-step tests of commands, and for each statement of OBLIGATIONS.json
states and operands that meet its hypotheses, clause by clause. -/

set_option Elab.async false

namespace Sys2Proof.Machine.Tests

/-! ### Small states -/

/-- An ACTIVE controller after INIT with a bank of 1 GiB, with rings 0 and 1 made, 16 entries each. -/
def up : Chip :=
  let ring : CompletionRing := { CompletionRing.absent with state := .active, base := 8192, size := 16, batch := 1, interrupt := true }
  let req : RequestRing := { RequestRing.absent with state := .active, base := 4096, size := 16 }
  ((((({ Chip.reset with
    ctl := { Controller.reset with state := .active, enable := true, reqBase := 4096, cmpBase := 8192, sizes := 0x100010 }
    pool := { Pool.reset with usable := 260096, free := 260096, head := some 0, tail := some 260095 }
    mem := { BufferMemory.reset with size := some .gib1 } }).setReqRing 0 req).setCmpRing 0 ring).setReqRing 1
      { req with bound := 1 }).setCmpRing 1 ring)

/-- An OPEN stream in RETAIN with a quota of 16 pages, bound to ring 1. -/
def opened : StreamEntry := { StreamEntry.closed with state := .opened, noticeRing := some 1, quota := 16 }

/-- The state with a part and nothing waiting. -/
def alone (c : Chip) : State := { c with pending := [] }

/-- A request with body `b` for stream `sid`. -/
def req (b : Body) (sid : BitVec 16) (wait : Nat) : Request := { commandId := 7, streamId := sid, wait := wait, body := b }

/-- The ring a body is valid on. -/
def ringFor (b : Body) : RingId := if b.isIO then 1 else 0

/-- A slot with a request in it. -/
def slotOf (id : Nat) (n : RingId) (ph : Phase) (q : Request) : Slot :=
  { id := id, ring := n, phase := ph, request := some q, segments := [], snapA := 0, snapB := 0 }

/-- The part `c` with request `q` in slot 0, at its owner, and stream 5 as `e`. -/
def asked (c : Chip) (q : Request) (e : StreamEntry) : State :=
  alone (({ c with rings := { c.rings with table := [slotOf 0 (ringFor q.body) .decoding q], arrived := [0] } }).setStream 5 e)

theorem asked_serving (c : Chip) (q : Request) (e : StreamEntry) (h : c.isActive = true) :
    (asked c q e).toChip.Serving q.body.owner 0 q :=
  ⟨h, by simp [asked, alone, Chip.current, Chip.ownedBy, Chip.slot?, slotOf]⟩

theorem asked_stream (c : Chip) (q : Request) (e : StreamEntry) : (asked c q e).toChip.stream 5 = e := by
  simp [asked, alone]

/-- A request of stream 5 at the Stream Controller, at a state with property `P`. -/
def Meets (c : Chip) (b : Body) (wait : Nat) (e : StreamEntry) (P : State → Prop) : Prop :=
  (asked c (req b 5 wait) e).toChip.ServingStream 0 (req b 5 wait) 5 ∧ P (asked c (req b 5 wait) e)

theorem meets {c : Chip} {b : Body} {wait : Nat} {e : StreamEntry} {P : State → Prop} (h : c.isActive = true)
    (ho : b.owner = .streamController) (hp : P (asked c (req b 5 wait) e)) : Meets c b wait e P :=
  ⟨⟨ho ▸ asked_serving c (req b 5 wait) e h, rfl⟩, hp⟩

/-- A request at its owner, at a state with property `P`. -/
def Asked (c : Chip) (q : Request) (P : State → Prop) : Prop :=
  (asked c q opened).toChip.Serving q.body.owner 0 q ∧ P (asked c q opened)

theorem askedAt {c : Chip} {q : Request} {P : State → Prop} (h : c.isActive = true) (hp : P (asked c q opened)) :
    Asked c q P := ⟨asked_serving c q opened h, hp⟩

/-- A command's next state meets `p`. -/
def gives (o : Host.Outcome State Fault Refusal) (p : State → Bool) : Bool :=
  match o with
  | .next t => p t
  | .fault _ => false
  | .refused _ => false

/-- The part in controller state `k`. -/
def inState (k : CtlState) : Chip :=
  { up with ctl := { up.ctl with state := k, cause := if k = .halted then .controlRing else .none } }

/-- A part with stream 5 as `e`. -/
def holding (e : StreamEntry) : Chip := up.setStream 5 e

/-- A part whose page 0 holds one record of 16 bytes with tag 9, sequence 0, of stream 5. -/
def stocked : Chip :=
  { up with
    mem := up.mem.writeHeader 0 0 0 16 9 5
    pool := { up.pool with free := 260095, head := some 1 } }

/-- The OPEN stream that holds that record, not yet granted. -/
def filled : StreamEntry :=
  { opened with frontier := 1, next := 1, tail := 32, chain := [0], baseLoc := .at 0 0, readLoc := .at 0 0 }

/-- That stream with the record granted and awaiting release. -/
def granted : StreamEntry := { filled with read := 1, readLoc := .at 0 32, marks := [{ pos := 1, loc := .at 0 32 }] }

/-- A waiting append of 16 bytes in slot `id`. -/
def waitsA (id : Nat) : WaitingAppend := { slot := id, length := 16, deadline := some 3 }

/-- A waiting fetch in slot `id`. -/
def waitsF (id least capacity wait : Nat) : WaitingFetch :=
  { slot := id, maxRecords := 4, minRecords := least, capacity := capacity, wait := wait, deadline := some wait }

/-- An admitted append in slot 0, sequence `seq`. -/
def inWindow (seq : Nat) (complete : Bool) : Admitted :=
  { seq := seq, page := 0, offset := 0, footprint := 32, pages := [0], complete := complete, failed := none, slot := 0 }

/-- The active fetch of slot 0 over the record. -/
def fetching (stopped : Bool) : ActiveFetch :=
  { first := 0, endSeq := 1, firstLoc := .at 0 0, endLoc := .at 0 32, pin := 0, slot := 0, short := false,
    stopped := stopped }

/-- An end reported for slot 0. -/
def ending (k : EndKind) (o : CopyOutcome) : EndReport :=
  { slot := 0, kind := k, outcome := o, segments := [{ addr := 0, len := 4096 }], count := 1, bytes := 32, voids := 0,
    converted := false, anyConverted := false }

/-- A part with ends reported. -/
def reported (c : Chip) (k : EndKind) (o : CopyOutcome) : Chip := { c with engine := { c.engine with ends := [ending k o] } }

/-- A part whose context 0 is `x`. -/
def busy (c : Chip) (x : Context) : Chip := c.setCtx 0 x

/-- One 16-byte segment at host address 4,096. -/
def seg : Segment := { addr := 4096, len := 16 }

/-- An APPEND of 16 bytes with tag 9. -/
def appendBody : Body := .append 16 9 (.direct [seg])

/-- A FETCH of at most 4 records into 4,096 bytes. -/
def fetchBody (least : Nat) : Body := .fetch 4 least (.direct [{ addr := 4096, len := 4096 }])

/-- The settings block of an OPEN with quota 16, bound to ring 1. -/
def block : SettingsBlock :=
  { mode := 0, durable := 1, noticeRing := 1, reserve := 2, quota := 16, readyLevel := 1, pressureLevel := 4,
    reliefLevel := 3, initial := 281474976710654 }

/-- A ring parameters block of type `t` for ring `id`. -/
def ringBlock (t id : Nat) : RingBlock :=
  { ringType := t, id := id, bound := 1, enable := true, batch := 1, delay := 0, size := 2, base := 4096 }

/-- An allocation is refused. -/
def isRefused : Allocation → Bool
  | .refused => true
  | .linkError _ => false
  | .pages _ _ => false

/-- An allocation meets a link error. -/
def isLinkError : Allocation → Bool
  | .refused => false
  | .linkError _ => true
  | .pages _ _ => false

/-- The pages an allocation gives. -/
def pagesOf : Allocation → Option (List Nat)
  | .refused => none
  | .linkError _ => none
  | .pages _ ps => some ps

/-- What a sizing walk finds: 0 a break, 1 too small, 2 a size. -/
def sizingCase : Sizing → Nat
  | .broken _ _ _ => 0
  | .small _ _ => 1
  | .sized _ _ _ => 2

/-- The part with an uncorrectable error in the first link of the free list. -/
def badFreeList : Chip := { up with mem := up.mem.upset (260096 * 512, .multi) }

/-! ### Ill-formed commands -/

theorem test_wf_refuses_upset :
    [Instr.append [(536870912, .single)], .fetch [(536870912, .multi)], .rewind [(536870912, .single)],
      .release [(536870912, .single)], .streamFlush [(536870912, .single)], .streamClose [(536870912, .single)],
      .ringDeleteRequestRing [(536870912, .single)], .cancel [(536870912, .single)],
      .controllerReset true [(536870912, .single)], .ctrlDisable true [(536870912, .single)],
      .quiesceEnd [(536870912, .single)], .grantArbiterVisit [(536870912, .single)],
      .fetchDeadline 0 [(536870912, .single)], .bufferReadEnd 0 0 [(536870912, .single)],
      .appendCopyEnd 0 [(536870912, .single)], .fetchCopyEnd 0 [(536870912, .single)],
      .listReadEnd 0 [(536870912, .single)], .registerWrite 0 32 0 [(536870912, .single)]].all
      (fun i => !i.wf) = true := by decide

theorem test_wf_refuses_ring :
    [Instr.reqPutWrite 32 0, .cmpTakeWrite 32 0, .vectorMask 32, .vectorUnmask 32, .entryReadEnd 32 .error,
      .completionWriteEnd 32, .coalesceTimerExpiry 32].all (fun i => !i.wf) = true := by decide

theorem test_wf_refuses_slot :
    [Instr.appendDeadline 2048, .fetchDeadline 2048 [], .appendCopyEnd 2048 [], .fetchCopyEnd 2048 [],
      .listReadEnd 2048 [], .reportWriteEnd 2048].all (fun i => !i.wf) = true := by decide

theorem test_wf_refuses_context :
    [Instr.hostReadEnd 64 0 .error, .hostWriteEnd 64 0, .bufferReadEnd 64 0 [], .bufferWriteEnd 64 0].all
      (fun i => !i.wf) = true := by decide

theorem test_wf_refuses_offset : (Instr.registerWrite 4096 32 0 []).wf = false := by decide

theorem test_wf_refuses_width : (Instr.registerWrite 0 24 0 []).wf = false := by decide

theorem test_wf_refuses_long_read (bytes : List Byte) (h : bytes.length = 4097) :
    (Instr.hostReadEnd 0 0 (.data bytes)).wf = false := by
  simp [Instr.wf, HostReadEnd.wf, Config.maxAccess, h]

/-! ### One step of each command -/

/-- The read of entry 0 of a ring whose base is 4,096, for slot 0. -/
def entry0 : EntryFetch := { slot := 0, addr := 4096 }

/-- A part that reads an entry of ring `n` for slot 0. -/
def reading (n : RingId) : Chip :=
  let c := up.setReqRing n { up.reqRing n with put := 2, reading := some entry0, outstanding := 1 }
  { c with rings := { c.rings with table := [{ slotOf 0 n .decoding (req .mark 5 0) with request := none }] } }

/-- A CANCEL in slot 1 for a waiting append in slot 0. -/
def cancelling : State :=
  alone
    (({ up with
      rings := { up.rings with
        table := [slotOf 0 1 .waiting (req appendBody 5 3), slotOf 1 0 .decoding (req (.cancel 1 7) 0 0)]
        arrived := [1] } }).setStream 5 { opened with waitA := [waitsA 0] })

/-- A MARK in slot 0 of ring 1, which drains for the RING_DELETE in slot 1 after two requests were cancelled. -/
def drainingMark : State :=
  alone
    (({ up with
      rings := { up.rings with
        table := [slotOf 0 1 .decoding (req .mark 5 0), slotOf 1 0 .admitted (req (.ringDelete (ringBlock 0 1)) 0 0)]
        arrived := [0] } }.setReqRing 1
          { up.reqRing 1 with state := .draining, outstanding := 1, deleter := some 1, cancelled := 2 }).setStream 5 granted)

/-- The copy of an append of 16 bytes into page 0. -/
def copyIn : Transfer := { slot := 0, work := .appendCopy 16 (.direct [seg]) [0] 0 }

/-- The copy of an append of 8 bytes from segments of 3 and 5 bytes. -/
def copyParts : Transfer :=
  { slot := 0, work := .appendCopy 8 (.direct [{ addr := 4096, len := 3 }, { addr := 8192, len := 5 }]) [0] 0 }

/-- That copy with its first read ended. -/
def partRead : Context :=
  { Context.start copyParts with
    reads := [{ addr := 8192, off := 3, len := 5, list := false }], gathered := [(0, 1), (1, 2), (2, 3)] }

/-- The copy of the record out to a fetch buffer. -/
def copyOut : Transfer :=
  { slot := 0, work := .fetchCopy 5 0 1 (.at 0 0) 4096 [{ addr := 4096, len := 4096 }] }

/-- A report of two bytes. -/
def writeOut : Transfer := { slot := 0, work := .reportWrite 4096 [1, 2] }

/-- A fetch copy with the record's header read. -/
def inHand : Progress :=
  { Progress.start with header := some { kind := .normal, length := 16, tag := 9 }, walkOff := 32, left := 0 }

/-- A part with one completion write of ring 1 outstanding, the link up or not. -/
def writing (linkUp : Bool) : Chip :=
  { up with link := { up.link with up := linkUp, cmpWrites := [{ ring := 1, addr := 8192, data := 3, live := true }] } }

/-- The part with `n` entries posted on ring 1 and not taken. -/
def posted (n : Nat) : Chip := up.setCmpRing 1 { up.cmpRing 1 with put := n, posted := n }

/-- Every stream of the part is CLOSED. -/
theorem up_stream (i : StreamId) : up.stream i = StreamEntry.closed := by
  simp [up, Chip.stream, Chip.setCmpRing, Chip.setReqRing, Chip.reset]

theorem test_cmpTakeWrite :
    exec (.cmpTakeWrite 1 2) (alone (posted 2)) =
      .next (alone ((posted 2).setCmpRing 1 { (posted 2).cmpRing 1 with take := 2, posted := 0 })) := by
  have h := Chip.service_idle ((posted 2).setCmpRing 1 { (posted 2).cmpRing 1 with take := 2, posted := 0 }) 1
    (by decide) fun i => by
      change (up.stream i).latched = false
      rw [up_stream]
      rfl
  exact congrArg (fun c => Host.Outcome.next (alone c)) h

theorem test_registerWrite_outside (s : State) :
    exec (.registerWrite 4096 32 0 []) s = .fault .outsideWindow := rfl

theorem test_fullReset :
    gives (exec .fullReset (alone (inState .halted))) (fun t =>
      t.ctl.state == .init && t.ctl.cause == .none && t.toChip.readReg 24 == 0) = true := by decide +kernel

theorem test_initEnd :
    gives (exec (.initEnd (some 1024) true) (State.reset)) (fun t =>
      t.ctl.state == .disabled && t.pool.free == 260096 && t.mem.word (260096 * 512 + 7) == 0xFFFFFFFF00000008) = true := by decide +kernel

theorem test_initEnd_fails :
    gives (exec (.initEnd (some 1023) true) (State.reset)) (fun t =>
      t.ctl.state == .halted && t.ctl.cause == .memoryInit) = true := by decide +kernel

theorem test_ctrlEnable :
    gives (exec (.ctrlEnable true) (alone (inState .disabled))) (fun t =>
      t.ctl.state == .active && t.ctl.preserve && (t.toChip.cmpRing 0).size == 16) = true := by decide +kernel

theorem test_controllerReset :
    gives (exec (.controllerReset true []) (alone (holding { opened with durable := true }))) (fun t =>
      t.ctl.state == .disabled && t.ctl.lastPreserved && (t.toChip.stream 5).state == .held) = true := by decide +kernel

theorem test_ctrlDisable :
    gives (exec (.ctrlDisable false []) (alone { inState .disabled with ctl := { up.ctl with state := .disabled, ringError := true } })) (fun t =>
      !t.ctl.ringError && !t.ctl.enable) = true := by decide +kernel

theorem test_quiesceEnd :
    gives (exec (.quiesceEnd []) (alone (inState .quiescing))) (fun t =>
      t.ctl.state == .active && (t.toChip.reqRing 1).state == .absent && (t.toChip.reqRing 0).size == 16) = true := by decide +kernel

theorem test_reqPutWrite :
    gives (exec (.reqPutWrite 1 0xABCD000F) (alone up)) (fun t =>
      (t.toChip.reqRing 1).put == 15) = true := by decide +kernel

theorem test_reqPutWrite_stops :
    gives (exec (.reqPutWrite 1 16) (alone up)) (fun t =>
      (t.toChip.reqRing 1).state == .stopped && (t.toChip.cmpRing 0).posted == 1) = true := by decide +kernel

theorem test_registerWrite :
    gives (exec (.registerWrite 24 32 0xFFFFFFFF []) (alone up)) (fun t =>
      t.toChip.readReg 24 == 0x1FFF1FFF && t.ctl.sizes == 0xFFFFFFFF) = true := by decide +kernel

theorem test_vectorMask :
    gives (exec (.vectorMask 31) (alone up)) (fun t =>
      t.link.masked.get 31) = true := by decide +kernel

theorem test_vectorUnmask :
    gives (exec (.vectorUnmask 3) (alone { up with link := { up.link with masked := up.link.masked.set 3 true, msiPending := up.link.msiPending.set 3 true } })) (fun t =>
      t.link.out == [.message 3] && !t.link.msiPending.get 3) = true := by decide +kernel

theorem test_ringTakeStart :
    gives (exec .ringTakeStart (alone (up.setReqRing 1 { up.reqRing 1 with put := 4, take := 3 }))) (fun t =>
      (t.toChip.reqRing 1).reading == some { slot := 0, addr := 4288 } && (t.toChip.cmpRing 1).reserved == 1 && t.rings.ioPtr == 1) = true := by decide +kernel

theorem test_entryReadEnd_mark :
    gives (exec (.entryReadEnd 1 (.data 0x000500070003)) (alone (reading 1))) (fun t =>
      t.rings.arrived == [0] && (t.toChip.slotRequest 0) == some (req .mark 5 0) && (t.toChip.reqRing 1).take == 1) = true := by decide +kernel

theorem test_entryReadEnd_badKind :
    gives (exec (.entryReadEnd 1 (.data 0x0700FF)) (alone (reading 1))) (fun t =>
      t.rings.table.isEmpty && t.link.cmpWrites.length == 1) = true := by decide +kernel

theorem test_append :
    gives (exec (.append []) (asked up (req appendBody 5 0) opened)) (fun t =>
      (t.toChip.stream 5).next == 1 && (t.toChip.stream 5).chain == [0] && (t.toChip.stream 5).tail == 32 && t.pool.free == 260095) = true := by decide +kernel

theorem test_append_no_room :
    gives (exec (.append []) (asked up (req (.append 32768 9 (.indirect 4096 256)) 5 0) { opened with quota := 9, chain := [7], tail := 4096 })) (fun t =>
      t.link.cmpWrites.map (fun w => w.data.extractLsb' 32 16) == [0x0118]) = true := by decide +kernel

theorem test_fetch :
    gives (exec (.fetch []) (asked stocked (req (fetchBody 1) 5 0) filled)) (fun t =>
      (t.toChip.stream 5).read == 1 && (t.toChip.stream 5).readLoc == .at 0 32 && t.engine.queue.length == 1) = true := by decide +kernel

theorem test_mark :
    gives (exec .mark (asked up (req .mark 5 0) granted)) (fun t =>
      (t.toChip.stream 5) == granted && t.rings.table.isEmpty) = true := by decide +kernel

theorem test_mark_added :
    gives (exec .mark (asked up (req .mark 5 0) { granted with marks := [] })) (fun t =>
      (t.toChip.stream 5) == granted) = true := by decide +kernel

theorem test_rewind :
    gives (exec (.rewind []) (asked up (req (.rewind 3 0) 5 0) granted)) (fun t =>
      (t.toChip.stream 5).read == 0 && (t.toChip.stream 5).marks.isEmpty) = true := by decide +kernel

theorem test_release :
    gives (exec (.release []) (asked stocked (req (.release 1 0) 5 0) granted)) (fun t =>
      (t.toChip.stream 5).base == 1 && (t.toChip.stream 5).chain.isEmpty && t.pool.free == 260096 && t.pool.tail == some 0) = true := by decide +kernel

theorem test_streamOpen :
    gives (exec .streamOpen (asked up (req (.streamOpen block) 5 0) StreamEntry.closed)) (fun t =>
      (t.toChip.stream 5).state == .opened && (t.toChip.stream 5).base == 281474976710654 && t.toChip.sharedFree == 260094) = true := by decide +kernel

theorem test_streamSet :
    gives (exec .streamSet (asked up (req (.streamSet block) 5 0) filled)) (fun t =>
      (t.toChip.stream 5).backlog == .atOrAbove && !(t.toChip.stream 5).readyLatch && (t.toChip.stream 5).reserve == 2) = true := by decide +kernel

theorem test_streamFlush :
    gives (exec (.streamFlush []) (asked stocked (req .streamFlush 5 0) granted)) (fun t =>
      (t.toChip.stream 5).state == .opened && (t.toChip.stream 5).base == 1 && (t.toChip.stream 5).chain.isEmpty) = true := by decide +kernel

theorem test_streamClose :
    gives (exec (.streamClose []) (asked stocked (req .streamClose 5 0) granted)) (fun t =>
      (t.toChip.stream 5) == StreamEntry.closed && t.pool.free == 260096) = true := by decide +kernel

theorem test_streamResume :
    gives (exec .streamResume (asked up (req (.streamResume 1) 5 0) { filled with state := .held, noticeRing := none })) (fun t =>
      (t.toChip.stream 5) == filled) = true := by decide +kernel

theorem test_streamReport :
    gives (exec .streamReport (asked up (req (.streamReport { addr := 0, len := 128 }) 5 0) filled)) (fun t =>
      t.engine.queue.length == 1 && (streamReportBytes filled).length == 128) = true := by decide +kernel

theorem test_poolReport :
    gives (exec .poolReport (asked up (req (.poolReport { addr := 0, len := 64 }) 0 0) opened)) (fun t =>
      t.engine.queue.length == 1 && up.poolReportBytes.length == 64) = true := by decide +kernel

theorem test_describe :
    gives (exec .describe (asked up (req (.describe { addr := 0, len := 64 }) 0 0) opened)) (fun t =>
      t.engine.queue.length == 1 && up.describeBytes.length == 64) = true := by decide +kernel

theorem test_ringCreate :
    gives (exec .ringCreate (asked up (req (.ringCreate (ringBlock 0 31)) 0 0) opened)) (fun t =>
      (t.toChip.reqRing 31).state == .active && (t.toChip.reqRing 31).bound == 1) = true := by decide +kernel

theorem test_ringDeleteRequestRing :
    gives (exec (.ringDeleteRequestRing []) (asked up (req (.ringDelete (ringBlock 0 1)) 0 0) opened)) (fun t =>
      (t.toChip.reqRing 1).state == .absent && t.rings.table.isEmpty) = true := by decide +kernel

theorem test_ringDeleteCompletionRing :
    gives (exec .ringDeleteCompletionRing (asked (up.setReqRing 1 RequestRing.absent) (req (.ringDelete (ringBlock 1 1)) 0 0) StreamEntry.closed)) (fun t =>
      (t.toChip.cmpRing 1).state == .absent) = true := by decide +kernel

theorem test_cancel :
    gives (exec (.cancel []) (cancelling)) (fun t =>
      (t.toChip.stream 5).waitA.isEmpty && t.rings.table.isEmpty && t.link.cmpWrites.length == 2 && t.pool.starts == 1) = true := by decide +kernel

theorem test_appendDeadline :
    gives (exec (.appendDeadline 0) (asked up (req appendBody 5 3) { opened with waitA := [waitsA 0] })) (fun t =>
      (t.toChip.stream 5).waitA.isEmpty && t.rings.table.isEmpty && t.pool.starts == 1) = true := by decide +kernel

theorem test_fetchDeadline :
    gives (exec (.fetchDeadline 0 []) (asked stocked (req (fetchBody 2) 5 3) { filled with waitF := [waitsF 0 2 4096 3] })) (fun t =>
      (t.toChip.stream 5).waitF.isEmpty && (t.toChip.stream 5).active.any (fun a => a.short && a.endSeq == 1)) = true := by decide +kernel

theorem test_transferStart :
    gives (exec .transferStart (alone { up with engine := { up.engine with queue := [copyIn] } })) (fun t =>
      t.engine.queue.isEmpty && (t.toChip.ctx 0).reads == [{ addr := 4096, off := 0, len := 16, list := false }]) = true := by decide +kernel

theorem test_hostReadEnd :
    gives (exec (.hostReadEnd 0 0 (.data (List.replicate 16 3))) (alone (busy up (Context.start copyIn)))) (fun t =>
      (t.toChip.ctx 0).bufWrites.length == 1 && (t.toChip.ctx 0).reads.isEmpty) = true := by decide +kernel

theorem test_hostReadEnd_part_of_a_word :
    gives (exec (.hostReadEnd 0 0 (.data [1, 2, 3])) (alone (busy up (Context.start copyParts)))) (fun t =>
      (t.toChip.ctx 0).bufWrites.isEmpty && (t.toChip.ctx 0).gathered == [(0, 1), (1, 2), (2, 3)]) = true := by decide +kernel

theorem test_hostReadEnd_whole_word :
    gives (exec (.hostReadEnd 0 0 (.data [4, 5, 6, 7, 8])) (alone (busy up partRead))) (fun t =>
      (t.toChip.ctx 0).bufWrites == [{ areaOff := 0, data := [1, 2, 3, 4, 5, 6, 7, 8] ++ List.replicate 8 0 }] && (t.toChip.ctx 0).gathered.isEmpty) = true := by decide +kernel

theorem test_hostReadEnd_fails :
    gives (exec (.hostReadEnd 0 0 .timeout) (alone (busy up (Context.start copyIn)))) (fun t =>
      (t.toChip.ctx 0).state == .free && t.engine.ends.map EndReport.outcome == [.hostReadError]) = true := by decide +kernel

theorem test_hostWriteEnd :
    gives (exec (.hostWriteEnd 0 0) (alone (busy up (Context.start writeOut)))) (fun t =>
      t.link.out == [.bytes 4096 [1, 2]] && t.engine.ends.map EndReport.outcome == [.ok]) = true := by decide +kernel

theorem test_bufferReadEnd :
    gives (exec (.bufferReadEnd 0 0 []) (alone (busy stocked (Context.start copyOut)))) (fun t =>
      (t.toChip.ctx 0).bufReads == [.payload 0 16 0 16]) = true := by decide +kernel

theorem test_bufferReadEnd_damaged :
    gives (exec (.bufferReadEnd 0 0 [(2, .multi)]) (alone (busy stocked { Context.start copyOut with bufReads := [.payload 0 16 0 16], progress := inHand }))) (fun t =>
      t.mem.damaged == 1 && (t.toChip.ctx 0).progress.converted == false && (t.toChip.ctx 0).progress.anyConverted) = true := by decide +kernel

theorem test_bufferWriteEnd :
    gives (exec (.bufferWriteEnd 0 0) (alone (busy up { Context.start copyIn with reads := [], bufWrites := [{ areaOff := 0, data := [5, 6] }] }))) (fun t =>
      t.mem.readBytes 16 2 == [5, 6] && t.mem.readByte 18 == 0 && t.engine.ends.length == 1) = true := by decide +kernel

theorem test_appendCopyEnd :
    gives (exec (.appendCopyEnd 0 []) (asked (reported stocked .append .ok) (req appendBody 5 0) { filled with frontier := 0, admitted := [inWindow 0 false] })) (fun t =>
      (t.toChip.stream 5).frontier == 1 && (t.toChip.stream 5).admitted.isEmpty && t.pool.starts == 1) = true := by decide +kernel

theorem test_fetchCopyEnd :
    gives (exec (.fetchCopyEnd 0 []) (asked (reported stocked .fetch .ok) (req (fetchBody 1) 5 0) { granted with mode := .consume, marks := [], active := some (fetching false) })) (fun t =>
      (t.toChip.stream 5).base == 1 && (t.toChip.stream 5).active.isNone && (t.toChip.stream 5).chain.isEmpty) = true := by decide +kernel

theorem test_listReadEnd :
    gives (exec (.listReadEnd 0 []) (asked (reported stocked .list .ok) (req (.fetch 4 1 (.indirect 4096 1)) 5 0) filled)) (fun t =>
      (t.toChip.stream 5).read == 1 && t.engine.queue.length == 1) = true := by decide +kernel

theorem test_reportWriteEnd :
    gives (exec (.reportWriteEnd 0) (asked (reported up .report .ok) (req (.poolReport { addr := 0, len := 64 }) 0 0) opened)) (fun t =>
      t.rings.table.isEmpty && t.link.cmpWrites.map (fun w => w.data.extractLsb' 192 32) == [64]) = true := by decide +kernel

theorem test_grantArbiterStart :
    gives (exec .grantArbiterStart (alone { up with pool := { up.pool with starts := 1 } })) (fun t =>
      t.pool.run == some { cursor := 0, count := 0 } && t.pool.starts == 0) = true := by decide +kernel

theorem test_completionWriteEnd :
    gives (exec (.completionWriteEnd 1) (alone (writing true))) (fun t =>
      t.link.cmpWrites.isEmpty && t.link.out == [.entry 8192 3]) = true := by decide +kernel

theorem test_coalesceTimerExpiry :
    gives (exec (.coalesceTimerExpiry 1) (alone (up.setCmpRing 1 { up.cmpRing 1 with unsignalled := 1, batch := 4, timer := true }))) (fun t =>
      t.link.out == [.message 1] && (t.toChip.cmpRing 1).unsignalled == 0) = true := by decide +kernel

theorem test_grantArbiterVisit :
    gives (exec (.grantArbiterVisit []) (asked { up with pool := { up.pool with run := some { cursor := 5, count := 9 } } } (req appendBody 5 3) { opened with waitA := [waitsA 0] })) (fun t =>
      (t.toChip.stream 5).next == 1 && (t.toChip.stream 5).waitA.isEmpty && t.pool.grantPtr == 5) = true := by decide +kernel

theorem test_controllerReset_takes_copy_ends :
    gives (exec (.controllerReset true []) (asked (reported stocked .append .ok) (req appendBody 5 0) { filled with frontier := 0, admitted := [inWindow 0 false] })) (fun t =>
      t.ctl.state == .quiescing && (t.toChip.stream 5).frontier == 1 && t.link.cmpWrites.length == 1 && t.pool.starts == 0) = true := by decide +kernel

theorem test_appendCopyEnd_quiescing :
    gives (exec (.appendCopyEnd 0 []) (asked (reported { stocked with ctl := (inState .quiescing).ctl } .append .ok) (req appendBody 5 0) { filled with frontier := 0, admitted := [inWindow 0 false] })) (fun t =>
      (t.toChip.stream 5).frontier == 0 && t.engine.ends.isEmpty) = true := by decide +kernel

theorem test_entryReadEnd_drains_in_quiescing :
    gives (exec (.entryReadEnd 1 (.data 0)) (alone (({ reading 1 with ctl := (inState .quiescing).ctl, rings := { (reading 1).rings with table := (reading 1).rings.table ++ [slotOf 1 0 .admitted (req (.ringDelete (ringBlock 0 1)) 0 0)] } } : Chip).setReqRing 1 { (reading 1).reqRing 1 with state := .draining, deleter := some 1 }))) (fun t =>
      (t.toChip.reqRing 1).state == .absent && (t.toChip.reqRing 1).put == 0 && t.rings.table.map (fun sl => (sl.id, sl.phase)) == [(1, .posting)] && t.link.cmpWrites.isEmpty && t.ctl.state == .quiescing) = true := by decide +kernel

theorem test_ringDelete_drained_later :
    gives (exec .mark (drainingMark)) (fun t =>
      (t.toChip.reqRing 1).state == .absent && t.rings.table.isEmpty && t.link.cmpWrites.map (fun w => (w.ring, w.data.extractLsb' 32 8, w.data.extractLsb' 176 16)) == [(1, 0, 0), (0, 0, 2)]) = true := by decide +kernel

theorem test_bufferReadEnd_abandoned :
    gives (exec (.bufferReadEnd 0 0 [(2, .multi)]) (alone (busy { stocked with ctl := (inState .quiescing).ctl } { Context.start copyOut with state := .abandoning, bufReads := [.payload 0 16 0 16], progress := inHand }))) (fun t =>
      t.mem.damaged == 1 && (t.toChip.ctx 0).state == .free && t.engine.ends.isEmpty) = true := by decide +kernel

theorem test_hostWriteEnd_oldest_first :
    gives (exec (.hostWriteEnd 0 0) (alone (busy up { Context.start writeOut with writes := [{ addr := 0, data := [1], record := 0 }, { addr := 0, data := [2], record := 0 }] }))) (fun t =>
      t.link.out == [.bytes 0 [1]] && (t.toChip.ctx 0).writes == [{ addr := 0, data := [2], record := 0 }]) = true := by decide +kernel

theorem test_hostWriteEnd_later_waits :
    gives (exec (.hostWriteEnd 0 1) (alone (busy up { Context.start writeOut with writes := [{ addr := 0, data := [1], record := 0 }, { addr := 0, data := [2], record := 0 }] }))) (fun t =>
      t.link.out.isEmpty && (t.toChip.ctx 0).writes.length == 2) = true := by decide +kernel

theorem test_hostLinkAccessChange :
    gives (exec (.hostLinkAccessChange false true) (alone up)) (fun t =>
      !t.link.canSend) = true := by decide +kernel

theorem test_registerWrite_ctrl :
    gives (exec (.registerWrite 0 32 3 []) (alone (inState .disabled))) (fun t =>
      t.ctl.state == .active && t.ctl.preserve) = true := by decide +kernel

/-! ### Witnesses: states that meet the hypotheses of the statements -/

/-- The part with an entry waiting on request ring 0. -/
def pendingOn0 : Chip := up.setReqRing 0 { up.reqRing 0 with put := 1 }

/-- The part with an entry waiting on request ring 1. -/
def reading1Free : Chip := up.setReqRing 1 { up.reqRing 1 with put := 1 }

/-- The part with one post of four counted on ring 1 and its timer running. -/
def delayed : Chip := up.setCmpRing 1 { up.cmpRing 1 with unsignalled := 1, batch := 4, delay := 2, timer := true }

/-- A part in QUIESCING with the preserve flag set and stream 5 durable in state `k`. -/
def keeping (k : StreamState) : Chip :=
  let c := inState .quiescing
  ({ c with ctl := { c.ctl with preserveFlag := true } }).setStream 5 { filled with state := k, durable := true }

/-- A part whose page 0 links to page 1, both of stream 5. -/
def linked : Chip := (up.writeLink 0 (some 1) (some 5)).writeLink 1 none (some 5)

/-- Nothing outstanding: the conditions of R170. -/
abbrev Still (c : Chip) : Prop :=
  (∀ k, (c.ctx k).state = .free) ∧ (∀ n, (c.reqRing n).reading = none) ∧ c.link.cmpWrites = []

/-- A part in QUIESCING with the preserve flag set, nothing outstanding, and stream 5 durable. -/
abbrev Kept (c : Chip) : Prop :=
  c.ctl.state = .quiescing ∧ Still c ∧ c.ctl.preserveFlag = true ∧ (c.stream 5).durable = true

/-- Such a part with `m` as its buffer DRAM and stream 5 as `e`. -/
def kept (m : BufferMemory) (e : StreamEntry) : Chip := { keeping .opened with mem := m }.setStream 5 e

/-- A part about to settle stream 5. -/
def beforeFive (c : Chip) : Chip :=
  (streamIds.take 5).foldl Chip.settleStream { c with rings := RingEngine.reset }

/-- The tail truncation of stream 5, OPEN, meets a break. -/
def truncationBroken (c : Chip) : Bool :=
  (c.stream 5).state == .opened && ((beforeFive c).heldTruncation 5).2.isSome

/-- The page return of stream 5's entry into HELD meets a break. -/
def returnBroken (c : Chip) : Bool :=
  let cut := if (c.stream 5).state = .opened then ((beforeFive c).heldTruncation 5).1 else beforeFive c
  ((cut.modStream 5 StreamEntry.enterHeld).pageReturnRun 5).broken.isSome

/-- An OPEN stream with a committed record in page 0 and an admitted append of 16 bytes at the start of page 1. -/
def twoPages : StreamEntry :=
  { filled with
    durable := true, next := 2, chain := [0, 1]
    admitted := [{ inWindow 1 false with page := 1, pages := [1] }] }

/-- A RING_DELETE of ring 1 in slot 1, with a waiting append of that ring in slot 0. -/
def deleting : State :=
  alone
    (({ up with
      rings := { up.rings with
        table := [slotOf 0 1 .waiting (req appendBody 5 3), slotOf 1 0 .decoding (req (.ringDelete (ringBlock 0 1)) 0 0)]
        arrived := [1] } }).setStream 5 { opened with waitA := [waitsA 0] })

/-- A RING_DELETE of ring 1 in slot 2, with appends of that ring waiting on stream 7 and then on stream 5. -/
def deleting2 : State :=
  alone
    ((({ up with
      rings := { up.rings with
        table := [slotOf 0 1 .waiting (req appendBody 7 3), slotOf 1 1 .waiting (req appendBody 5 3),
          slotOf 2 0 .decoding (req (.ringDelete (ringBlock 0 1)) 0 0)]
        arrived := [2] } }).setStream 5 { opened with waitA := [waitsA 1] }).setStream 7
          { opened with waitA := [waitsA 0] })

/-- A RING_DELETE of ring 1 in slot 2, with two fetches of that ring waiting on stream 5, the later taken one first. -/
def deletingFetches : State :=
  alone
    (({ up with
      rings := { up.rings with
        table := [slotOf 0 1 .waiting (req (fetchBody 2) 5 3), slotOf 1 1 .waiting { req (fetchBody 2) 5 3 with commandId := 8 },
          slotOf 2 0 .decoding (req (.ringDelete (ringBlock 0 1)) 0 0)]
        arrived := [2] } }.setReqRing 1 { up.reqRing 1 with outstanding := 2 }).setStream 5
          { opened with waitF := [waitsF 1 2 4096 3, waitsF 0 2 4096 3] })

/-- A stream whose flush has nothing left in flight. -/
def flushing : StreamEntry :=
  { granted with state := .flushing, base := 1, baseLoc := .at 0 32, marks := [], pendingEnd := some 0 }

/-- The part with one free page left, the last. -/
def lastFree : Chip := { up with pool := { up.pool with free := 1, head := some 260095 } }

/-- The head of the free list an allocation leaves. -/
def headAfter : Allocation → Option Nat
  | .refused => none
  | .linkError _ => none
  | .pages c _ => c.pool.head

/-- An OPEN stream with an OCCUPANCY and a READY latch pending. -/
def latchedBoth : StreamEntry := { opened with readyLatch := true, occLatch := some { state := .pressed, count := 2 } }

/-- The part with both latches of ring 1 pending. -/
def faultyRings : Chip :=
  let c := up.setReqRing 1 { up.reqRing 1 with state := .stopped, fault := some { detail := 2, posA := 0, posB := 16 } }
  c.setCmpRing 1 { c.cmpRing 1 with state := .stopped, fault := some { detail := 4, posA := 0, posB := 16 } }

/-- The part with a full ring 1 and a READY latch of stream 5 pending. -/
def fullRing : Chip := (posted 15).setStream 5 { opened with readyLatch := true }

/-- A CANCEL in slot 1 for an append whose copy runs, in slot 0. -/
def cancellingCopy : State :=
  alone
    { up with
      rings := { up.rings with
        table := [slotOf 0 1 .copying (req appendBody 5 3), slotOf 1 0 .decoding (req (.cancel 1 7) 0 0)]
        arrived := [1] } }

/-- The part as a flush at `s` leaves it before its page return. -/
def flushedOf (s : State) : Chip :=
  (((s.taking [] 0).setStream 5 ((s.toChip.stream 5).flushed 0)).setPhase 0 .admitted).refuseWaiting 5 .flushed

/-- An append copy with nothing outstanding, in state `k`. -/
def doneIn (k : CtxState) : Context := { Context.start copyIn with state := k, reads := [] }

/-- A list read of one entry. -/
def listIn : Transfer := { slot := 0, work := .listRead 4096 1 }

theorem witness_StepRunsTheFrontCommand :
    ({ State.reset with pending := [.mark, .fullReset] } : State).pending = .mark :: [.fullReset] ∧
    State.reset.pending = [] := ⟨rfl, rfl⟩

theorem witness_StepKeepsMemoryCanonical :
    ∃ s t : State, s.toChip.memOk ∧ s.mem.cells ≠ [] ∧ step s = .next t :=
  ⟨{ alone stocked with pending := [.mark] }, _, by unfold Chip.memOk; decide +kernel, by decide +kernel, rfl⟩

theorem witness_StepKeepsHaltCause :
    ∃ s t : State, s.toChip.causeOk ∧ s.ctl.state = .halted ∧ step s = .next t :=
  ⟨{ alone (inState .halted) with pending := [.mark] }, _, by unfold Chip.causeOk; decide +kernel, rfl, rfl⟩

/-- Every context of the halted part is FREE. -/
theorem halted_quiet (k : CtlState) (l : List Instr) : ({ alone (inState k) with pending := l } : State).toChip.quietOk :=
  fun _ => ⟨rfl, fun j => Or.inl (by
    simp [inState, alone, up, Chip.ctx, Chip.setCmpRing, Chip.setReqRing, Chip.reset, Engine.reset, Context.free])⟩

theorem witness_StepKeepsEngineQuiet :
    ∃ s t : State, s.toChip.quietOk ∧ s.ctl.state ≠ .active ∧ step s = .next t :=
  ⟨{ alone (inState .halted) with pending := [.mark] }, _, halted_quiet _ _, by decide +kernel, rfl⟩

/-- The streams of the part that holds one record. -/
theorem asked_filled_stream (i : StreamId) :
    (asked stocked (req .mark 5 0) filled).toChip.stream i = if i = 5 then filled else StreamEntry.closed := by
  refine (Chip.setStream_stream _ 5 i filled).trans ?_
  split
  · rfl
  · exact up_stream i

theorem witness_StepKeepsPositionsInOrder :
    ∃ s t : State, s.toChip.orderOk ∧ s.toChip.boundsOk ∧ step s = .next t := by
  refine ⟨{ asked stocked (req .mark 5 0) filled with pending := [.fullReset] }, _, ?_, ⟨?_, by decide +kernel⟩, rfl⟩
  · intro i
    change ((asked stocked (req .mark 5 0) filled).toChip.stream i).Ordered
    rw [asked_filled_stream]
    split
    · exact ⟨by decide, by decide, by decide, by decide, by decide, by decide, by decide, by simp [filled, opened, StreamEntry.closed]⟩
    · exact ⟨by decide, by decide, by decide, by decide, by decide, by decide, by decide, by simp [StreamEntry.closed]⟩
  · intro i
    change ((asked stocked (req .mark 5 0) filled).toChip.stream i).Bounded
    rw [asked_filled_stream]
    split
    · exact ⟨by decide, by decide, by decide, by decide⟩
    · exact ⟨by decide, by decide, by decide, by decide⟩

theorem witness_StepConservesPages :
    ∃ s t : State, s.toChip.quietOk ∧ s.toChip.PagesOk ∧ s.pool.free ≠ s.pool.usable ∧ step s = .next t := by
  refine ⟨{ asked stocked (req .mark 5 0) filled with pending := [.fullReset] }, _, fun h => absurd rfl h,
    ⟨?_, fun h => absurd h (by decide +kernel), fun _ => by decide +kernel, fun _ => by decide +kernel⟩, by decide +kernel, rfl⟩
  intro i
  change ((asked stocked (req .mark 5 0) filled).toChip.stream i).state = .closed →
    ((asked stocked (req .mark 5 0) filled).toChip.stream i).chain = []
  rw [asked_filled_stream]
  split
  · exact fun h => absurd h (by decide)
  · exact fun _ => rfl

theorem witness_InitEndBuildsThePoolOrHalts :
    (State.reset.ctl.state = .init) ∧
    (DramSize.ofMib 1024 = some .gib1) ∧
    (DramSize.ofMib 2048 = some .gib2) ∧
    (DramSize.ofMib 4096 = some .gib4) ∧
    (DramSize.gib1.usable = 260096) ∧
    ((1023 : Nat) ≠ 1024 ∧ (1023 : Nat) ≠ 2048 ∧ (1023 : Nat) ≠ 4096) := by
  decide +kernel

theorem witness_CtrlWriteByState :
    ((inState .init).ctl.state = .init) ∧
    ((inState .active).ctl.state = .active) ∧
    ((inState .quiescing).ctl.state = .quiescing) ∧
    ((inState .halted).ctl.state = .halted) ∧
    ((inState .disabled).ctl.state = .disabled ∧ (inState .disabled).ctl.placementOk = true) ∧
    (Controller.reset.placementOk = false) ∧
    (({ up.ctl with sizes := 0x10000002 } : Controller).placementOk = true) ∧
    (({ up.ctl with sizes := 0x00021000 } : Controller).placementOk = true) ∧
    (({ up.ctl with sizes := 0x00021001 } : Controller).placementOk = false) := by
  decide +kernel

theorem witness_ControllerResetStartsTheQuiesce :
    (up.ctl.state = .active ∧ up.engine.ends = []) ∧
    ((reported up .append .ok).ctl.state = .active ∧ (reported up .append .ok).engine.ends ≠ []) ∧
    ((inState .quiescing).drained = true) ∧
    ((({ inState .quiescing with link := (writing true).link } : Chip)).drained = false) := by
  decide +kernel

theorem witness_QuiesceEndMakesTheRestart :
    ((inState .quiescing).ctl.state = .quiescing ∧ Still (inState .quiescing) ∧ (inState .quiescing).ctl.preserveFlag = false) ∧
    (¬ Still ({ inState .quiescing with link := (writing true).link } : Chip)) ∧
    (¬ Still (busy (inState .quiescing) { Context.start copyIn with state := .abandoning })) ∧
    (¬ Still ((inState .quiescing).setReqRing 1 ((reading 1).reqRing 1))) ∧
    ((inState .quiescing).ctl.enable = true ∧ (inState .quiescing).ctl.placementOk = true) := by
  decide +kernel

theorem witness_QuiesceEndMakesTheRestart_states :
    (Kept (keeping .held) ∧ ((keeping .held).stream 5).state = .held) ∧
    (Kept (keeping .closing) ∧ ((keeping .closing).stream 5).state = .closing) ∧
    (Kept (keeping .faulted) ∧ ((keeping .faulted).stream 5).state = .faulted) ∧
    (Kept (keeping .closed) ∧ ((keeping .closed).stream 5).state = .closed) ∧
    (Kept (keeping .opened) ∧ ((keeping .opened).stream 5).state = .opened) ∧
    (Kept (keeping .flushing) ∧ ((keeping .flushing).stream 5).state = .flushing) := by
  decide +kernel

theorem witness_QuiesceEndMakesTheRestart_truncation :
    (Kept (kept up.mem { filled with durable := true }) ∧ truncationBroken (kept up.mem { filled with durable := true }) = false ∧ returnBroken (kept up.mem { filled with durable := true }) = false ∧ filled.base < filled.frontier ∧ filled.admitted = [] ∧ filled.chain.getLast? = some 0) ∧
    (Kept (kept up.mem { opened with durable := true }) ∧ truncationBroken (kept up.mem { opened with durable := true }) = false ∧ returnBroken (kept up.mem { opened with durable := true }) = false ∧ opened.frontier ≤ opened.base) ∧
    (Kept (kept up.mem { filled with durable := true, state := .flushing }) ∧ truncationBroken (kept up.mem { filled with durable := true, state := .flushing }) = false ∧ returnBroken (kept up.mem { filled with durable := true, state := .flushing }) = false ∧ filled.base ≠ filled.next) ∧
    (Kept (kept up.mem { filled with durable := true, admitted := [{ inWindow 1 false with offset := 32 }], next := 2, tail := 64 }) ∧ truncationBroken (kept up.mem { filled with durable := true, admitted := [{ inWindow 1 false with offset := 32 }], next := 2, tail := 64 }) = false ∧ returnBroken (kept up.mem { filled with durable := true, admitted := [{ inWindow 1 false with offset := 32 }], next := 2, tail := 64 }) = false ∧ (0 : Nat) ∈ filled.chain ∧ (32 : Nat) ≠ 0) := by
  decide +kernel

theorem witness_QuiesceEndMakesTheRestart_links :
    (Kept (kept linked.mem twoPages) ∧ truncationBroken (kept linked.mem twoPages) = false ∧ returnBroken (kept linked.mem twoPages) = false ∧ twoPages.admitted.head?.map Admitted.offset = some 0 ∧ twoPages.chain[0]? = some 0 ∧ twoPages.chain[0 + 1]? = some 1) ∧
    (Kept (kept (linked.mem.upset (260096 * 512, .multi)) twoPages) ∧ truncationBroken (kept (linked.mem.upset (260096 * 512, .multi)) twoPages) = true ∧ returnBroken (kept (linked.mem.upset (260096 * 512, .multi)) twoPages) = false ∧ twoPages.state = .opened) ∧
    (Kept (kept (linked.mem.upset (260096 * 512, .multi)) { twoPages with state := .flushing, base := 2, read := 2, frontier := 2, admitted := [] }) ∧ truncationBroken (kept (linked.mem.upset (260096 * 512, .multi)) { twoPages with state := .flushing, base := 2, read := 2, frontier := 2, admitted := [] }) = false ∧ returnBroken (kept (linked.mem.upset (260096 * 512, .multi)) { twoPages with state := .flushing, base := 2, read := 2, frontier := 2, admitted := [] }) = true ∧ twoPages.next = 2) ∧
    (Kept (kept linked.mem { twoPages with state := .flushing, base := 2, read := 2, frontier := 2, admitted := [] }) ∧ truncationBroken (kept linked.mem { twoPages with state := .flushing, base := 2, read := 2, frontier := 2, admitted := [] }) = false ∧ returnBroken (kept linked.mem { twoPages with state := .flushing, base := 2, read := 2, frontier := 2, admitted := [] }) = false ∧ twoPages.next = 2) := by
  decide +kernel

theorem witness_HaltedKeepsItsState :
    ∃ s t : State, s.ctl.state = .halted ∧ s.toChip.quietOk ∧ exec (.reqPutWrite 1 99) s = .next t :=
  ⟨{ alone (inState .halted) with pending := [] }, _, rfl, halted_quiet _ _, rfl⟩

theorem witness_RegisterReadsGiveTheFields :
    (((28 ≤ 28 ∧ 28 < 256) ∨ 512 ≤ 28)) ∧
    (((28 ≤ 255 ∧ 255 < 256) ∨ 512 ≤ 255)) ∧
    (((28 ≤ 512 ∧ 512 < 256) ∨ 512 ≤ 512)) ∧
    (up.readReg 260 = 0 ∧ (up.reqRing 1).state ≠ .absent ∧ (up.reqRing 31).state = .absent) := by
  decide +kernel

theorem witness_RegisterWriteByOffsetAndWidth :
    ((8 : Nat) ≠ 32 ∧ (8 : Nat) ≠ 64 ∧ 4095 < 4096) ∧
    (256 = 256 + 8 * (0 : RingId).val) ∧
    (504 = 256 + 8 * (31 : RingId).val) ∧
    (260 = 260 + 8 * (0 : RingId).val) ∧
    (508 = 260 + 8 * (31 : RingId).val) ∧
    ((alone up).ctl.state ≠ .halted) ∧
    ((alone (inState .halted)).ctl.state = .halted) ∧
    ((255 : Nat) < 256 ∧ 28 ≤ 255 ∧ 512 ≤ 4095 ∧ 258 % 4 ≠ 0) := by
  decide +kernel

theorem witness_ReqPutWriteSetsPutOrStops :
    ((alone up).ctl.state = .active ∧ ((alone up).toChip.reqRing 1).state = .active ∧ ((15 : Word).extractLsb' 0 16).toNat < ((alone up).toChip.reqRing 1).size) ∧
    (((alone up).toChip.reqRing 1).size ≤ ((16 : Word).extractLsb' 0 16).toNat) ∧
    (((alone up).toChip.reqRing 0).state = .active ∧ ((alone up).toChip.reqRing 0).size ≤ ((16 : Word).extractLsb' 0 16).toNat) ∧
    ((alone (inState .quiescing)).ctl.state ≠ .active) ∧
    (((alone up).toChip.reqRing 2).state ≠ .active) := by
  decide +kernel

theorem witness_CmpTakeWriteTakesOrStops :
    (up.ctl.state = .active ∧ ((posted 2).cmpRing 1).state = .active ∧ ((posted 2).cmpRing 1).take = 0 ∧ ((posted 2).cmpRing 1).posted = 2 ∧ 2 < ((posted 2).cmpRing 1).size) ∧
    (((posted 2).cmpRing 1).posted < 3) ∧
    (((posted 2).cmpRing 1).size ≤ 16) ∧
    (((posted 2).reqRing 1).state = .active ∧ ((posted 2).reqRing 1).bound = 1) ∧
    ((up.cmpRing 0).state = .active ∧ (up.cmpRing 0).posted < 1) ∧
    ((up.cmpRing 2).state ≠ .active) := by
  decide +kernel

theorem witness_RingTakeStartClaimsAndReserves :
    (pendingOn0.eligible 0 = true) ∧
    ((reading1Free).eligible 1 = true ∧ reading1Free.eligible 0 = false ∧ ((List.range 31).map fun k => ((Fin.ofNat 32 (1 + (reading1Free.rings.ioPtr.val + k) % 31) : RingId))).find? reading1Free.eligible = some 1) := by
  decide +kernel

theorem witness_EntryReadEndTakesOrDiscards :
    ((reading 1).ctl.state = .active ∧ ((reading 1).reqRing 1).reading = some entry0 ∧ ((reading 1).reqRing 1).state = .active) ∧
    (bodyOf 0x0700FF = none) ∧
    (bodyOf 0x000500070003 = some .mark ∧ Body.mark.isIO = ((1 : RingId) != 0) ∧ Body.mark.isIO = ((0 : RingId) == 0)) ∧
    (((reading 0).reqRing 0).reading = some entry0 ∧ ((reading 0).reqRing 0).state = .active) ∧
    ((((reading 1).setReqRing 1 { (reading 1).reqRing 1 with state := .stopped }).reqRing 1).state ≠ .active ∧ (((reading 1).setReqRing 1 { (reading 1).reqRing 1 with state := .stopped }).reqRing 1).reading = some entry0) ∧
    (({ reading 1 with ctl := (inState .quiescing).ctl } : Chip).ctl.state = .quiescing) ∧
    (({ reading 1 with ctl := (inState .halted).ctl } : Chip).ctl.state = .halted) := by
  decide +kernel

theorem witness_CompletionIsWrittenOrDropped :
    ((reading 1).isActive = true ∧ ((reading 1).slot? 0).isSome = true ∧ ((reading 1).cmpRing 1).state = .active) ∧
    ((((reading 1).setCmpRing 1 { up.cmpRing 1 with state := .stopped }).cmpRing 1).state = .stopped ∧ (((reading 1).setCmpRing 1 { up.cmpRing 1 with state := .stopped }).slot? 0).isSome = true) := by
  decide +kernel

theorem witness_CompletionWriteEndSendsOrStops :
    ((writing true).link.cmpWrites = [] ++ { ring := 1, addr := 8192, data := 3, live := true } :: [] ∧ ∀ w ∈ (writing true).link.cmpWrites, w.ring ≠ 2) ∧
    ((writing true).link.up = true ∧ (writing true).link.access = true) ∧
    ((writing false).link.up = false ∧ (writing false).ctl.state = .active ∧ ((writing false).cmpRing 1).state = .active) ∧
    ((((writing false).setCmpRing 1 { up.cmpRing 1 with state := .stopped }).cmpRing 1).state ≠ .active ∧ (1 : RingId) ≠ 0) ∧
    (({ writing false with ctl := (inState .halted).ctl } : Chip).ctl.state = .halted) ∧
    (({ ring := 1, addr := 8192, data := 3, live := false } : CmpWrite).live = false) := by
  decide +kernel

/-- The writes of one ring end oldest first, past the writes of other rings. -/
theorem test_completionWriteEnd_oldest (a b c : CmpWrite) (ha : a.ring = 2) (hb : b.ring = 1) :
    takeWrite 1 [a, b, c] = some (b, [a, c]) :=
  by simp [takeWrite, ha, hb]

theorem witness_InterruptsVectorsAndLinkInputs :
    ((up.cmpRing 2).interrupt = false) ∧
    ((up.cmpRing 1).interrupt = true ∧ (up.cmpRing 1).unsignalled + 1 = (up.cmpRing 1).batch) ∧
    ((delayed.cmpRing 1).interrupt = true ∧ (delayed.cmpRing 1).unsignalled + 1 ≠ (delayed.cmpRing 1).batch ∧ (delayed.cmpRing 1).timer = true ∧ delayed.ctl.state = .active) ∧
    (up.link.masked.get 1 = false ∧ up.link.msiPending.get 1 = false) ∧
    ((up.maskVector 1).link.masked.get 1 = true) ∧
    (((up.maskVector 1).sendMessage 1).link.msiPending.get 1 = true) := by
  decide +kernel

theorem witness_RingCreateMakesTheRing :
    Asked up (req (.ringCreate (ringBlock 2 31)) 0 0) (fun s => 1 < (ringBlock 2 31).ringType ∧ s.ctl.state = .active) ∧
    Asked up (req (.ringCreate (ringBlock 0 32)) 0 0) (fun s => 31 < (ringBlock 0 32).id ∧ s.ctl.state = .active) ∧
    Asked up (req (.ringCreate { ringBlock 0 31 with bound := 2 }) 0 0) (fun s => (s.toChip.cmpRing 2).state ≠ .active) ∧
    Asked up (req (.ringCreate { ringBlock 1 31 with batch := 0 }) 0 0) (fun s => s.ctl.state = .active) ∧
    Asked up (req (.ringCreate (ringBlock 0 31)) 0 0) (fun s => (s.toChip.reqRing 31).state = .absent ∧ (s.toChip.cmpRing 1).state = .active) ∧
    Asked up (req (.ringCreate { ringBlock 0 1 with size := 4096 }) 0 0) (fun s => (s.toChip.reqRing 1).state ≠ .absent ∧ (s.toChip.cmpRing 1).state = .active) ∧
    Asked up (req (.ringCreate (ringBlock 1 31)) 0 0) (fun s => (s.toChip.cmpRing 31).state = .absent) ∧
    Asked up (req (.ringCreate (ringBlock 1 1)) 0 0) (fun s => (s.toChip.cmpRing 1).state ≠ .absent) :=
  ⟨askedAt (by decide +kernel) (by decide +kernel), askedAt (by decide +kernel) (by decide +kernel), askedAt (by decide +kernel) (by decide +kernel), askedAt (by decide +kernel) (by decide +kernel), askedAt (by decide +kernel) (by decide +kernel), askedAt (by decide +kernel) (by decide +kernel), askedAt (by decide +kernel) (by decide +kernel), askedAt (by decide +kernel) (by decide +kernel)⟩

theorem witness_RingDeleteDrainsOrRemoves :
    Asked up (req (.ringDelete (ringBlock 0 0)) 0 0) (fun s => s.ctl.state = .active) ∧
    Asked up (req (.ringDelete (ringBlock 0 31)) 0 0) (fun s => (s.toChip.reqRing 31).state = .absent) ∧
    Asked (up.setReqRing 1 { up.reqRing 1 with state := .draining }) (req (.ringDelete (ringBlock 0 1)) 0 0) (fun s => (s.toChip.reqRing 1).state = .draining) ∧
    Asked up (req (.ringDelete (ringBlock 0 1)) 0 0) (fun s => (s.toChip.reqRing 1).state = .active ∧ s.toChip.waitingOf 1 = [] ∧ (s.toChip.reqRing 1).outstanding = 0) ∧
    Asked (up.setReqRing 1 { up.reqRing 1 with state := .stopped, outstanding := 1 }) (req (.ringDelete (ringBlock 0 1)) 0 0) (fun s => (s.toChip.reqRing 1).state = .stopped ∧ s.toChip.waitingOf 1 = [] ∧ (s.toChip.reqRing 1).outstanding ≠ 0) ∧
    Asked up (req (.ringDelete (ringBlock 2 1)) 0 0) (fun s => 1 < (ringBlock 2 1).ringType ∧ s.ctl.state = .active) ∧
    Asked up (req (.ringDelete (ringBlock 1 32)) 0 0) (fun s => 31 < (ringBlock 1 32).id ∧ s.ctl.state = .active) ∧
    Asked up (req (.ringDelete (ringBlock 1 31)) 0 0) (fun s => (s.toChip.cmpRing 31).state = .absent) ∧
    Asked up (req (.ringDelete (ringBlock 1 1)) 0 0) (fun s => (s.toChip.cmpRing 1).state ≠ .absent ∧ s.toChip.ringBound 1 = true) ∧
    Asked (up.setCmpRing 2 (up.cmpRing 1)) (req (.ringDelete (ringBlock 1 2)) 0 0) (fun s => (s.toChip.cmpRing 2).state ≠ .absent ∧ s.toChip.ringBound 2 = false ∧ s.toChip.streamBound 2 = false) :=
  ⟨askedAt (by decide +kernel) (by decide +kernel), askedAt (by decide +kernel) (by decide +kernel), askedAt (by decide +kernel) (by decide +kernel), askedAt (by decide +kernel) (by decide +kernel), askedAt (by decide +kernel) (by decide +kernel), askedAt (by decide +kernel) (by decide +kernel), askedAt (by decide +kernel) (by decide +kernel), askedAt (by decide +kernel) (by decide +kernel), askedAt (by decide +kernel) (by decide +kernel), askedAt (by decide +kernel) (by decide +kernel)⟩

theorem witness_RingDeleteDrainsOrRemoves_waiting :
    deleting.toChip.Serving .ringEngine 1 (req (.ringDelete (ringBlock 0 1)) 0 0) ∧ deleting.toChip.waitingOf 1 = [0] :=
  ⟨⟨by decide +kernel, by decide +kernel⟩, by decide +kernel⟩

theorem witness_CancelReachesTheEarliestMatch :
    Asked up (req (.cancel 32 7) 0 0) (fun s => s.ctl.state = .active) ∧
    Asked up (req (.cancel 1 7) 0 0) (fun s => s.toChip.cancelTarget 0 1 7 = none) :=
  ⟨askedAt (by decide +kernel) (by decide +kernel), askedAt (by decide +kernel) (by decide +kernel)⟩

theorem witness_CancelReachesTheEarliestMatch_waiting :
    cancelling.toChip.Serving .ringEngine 1 (req (.cancel 1 7) 0 0) ∧
    cancelling.toChip.cancelTarget 1 1 7 = some (slotOf 0 1 .waiting (req appendBody 5 3)) ∧
    cancelling.toChip.slot? 0 = some (slotOf 0 1 .waiting (req appendBody 5 3)) ∧ (req appendBody 5 3).stream = some 5 ∧
    cancellingCopy.toChip.Serving .ringEngine 1 (req (.cancel 1 7) 0 0) ∧
    cancellingCopy.toChip.cancelTarget 1 1 7 = some (slotOf 0 1 .copying (req appendBody 5 3)) :=
  ⟨⟨by decide +kernel, by decide +kernel⟩, by decide +kernel, by decide +kernel, rfl,
    ⟨by decide +kernel, by decide +kernel⟩, by decide +kernel⟩

theorem witness_StreamRequestRefusedByState :
    (∀ b : Body, b.owner = .streamController → (asked up (req b 512 0) opened).toChip.Serving .streamController 0 (req b 512 0)) ∧
    512 ≤ (req .mark 512 0).streamId.toNat ∧ Body.mark.group = some .io ∧
    Meets up .mark 0 StreamEntry.closed (fun s => stateCheck .io (s.toChip.stream 5).state = some .badStream) ∧
    Meets up (.streamOpen block) 0 opened (fun s => stateCheck .open_ (s.toChip.stream 5).state = some .inUse) ∧
    Meets up (.streamSet block) 0 { opened with state := .closing } (fun s =>
      stateCheck .set_ (s.toChip.stream 5).state = some .streamBusy) ∧
    Meets up .streamFlush 0 { opened with state := .held } (fun s =>
      stateCheck .flush (s.toChip.stream 5).state = some .streamHeld) :=
  ⟨fun b h => h ▸ asked_serving up (req b 512 0) opened rfl, by decide, rfl, meets (by decide +kernel) rfl (by decide +kernel),
    meets (by decide +kernel) rfl (by decide +kernel), meets (by decide +kernel) rfl (by decide +kernel),
    meets (by decide +kernel) rfl (by decide +kernel)⟩

theorem witness_StreamOpenChecksAndMakesTheEntry :
    Meets up (.streamOpen block) 0 StreamEntry.closed (fun s => (s.toChip.stream 5).state = .closed ∧ block.initial ≤ 2 ^ 48 - 2 ∧ block.reserve ≤ s.toChip.sharedFree ∧ (s.toChip.cmpRing 1).state = .active ∧ block.quota ≤ s.pool.usable) ∧
    Meets up (.streamOpen { block with initial := 281474976710655 }) 0 StreamEntry.closed (fun s => (s.toChip.stream 5).state = .closed ∧ ¬ (281474976710655 ≤ 2 ^ 48 - 2)) ∧
    Meets { up with pool := { up.pool with free := 1 } } (.streamOpen block) 0 StreamEntry.closed (fun s => (s.toChip.stream 5).state = .closed ∧ s.toChip.sharedFree < block.reserve ∧ block.quota ≤ s.pool.usable) :=
  ⟨meets (by decide +kernel) rfl (by decide +kernel), meets (by decide +kernel) rfl (by decide +kernel), meets (by decide +kernel) rfl (by decide +kernel)⟩

theorem witness_StreamSetChecksAndReplacesTheSettings :
    Meets up (.streamSet block) 0 filled (fun s => (s.toChip.stream 5).state = .opened ∧ (s.toChip.stream 5).chain.length ≤ block.quota ∧ (s.toChip.stream 5).growth block ≤ s.toChip.sharedFree ∧ (s.toChip.cmpRing 1).state = .active) ∧
    Meets up (.streamSet { block with mode := 1, noticeRing := 255 }) 0 { filled with state := .held } (fun s => (s.toChip.stream 5).state = .held ∧ (s.toChip.stream 5).chain.length ≤ block.quota ∧ (s.toChip.stream 5).growth block ≤ s.toChip.sharedFree) ∧
    Meets up (.streamSet { block with quota := 0 }) 0 filled (fun s => (s.toChip.stream 5).state = .opened ∧ ¬ (1 ≤ ({ block with quota := 0 } : SettingsBlock).quota)) ∧
    Meets up (.streamSet { block with quota := 4 }) 0 { filled with chain := [0, 1, 2, 3, 4] } (fun s => (s.toChip.stream 5).state = .opened ∧ 4 < (s.toChip.stream 5).chain.length ∧ (s.toChip.cmpRing 1).state = .active) ∧
    Meets { up with pool := { up.pool with free := 0 } } (.streamSet block) 0 filled (fun s => (s.toChip.stream 5).state = .opened ∧ s.toChip.sharedFree < (s.toChip.stream 5).growth block ∧ (s.toChip.stream 5).chain.length ≤ block.quota) :=
  ⟨meets (by decide +kernel) rfl (by decide +kernel), meets (by decide +kernel) rfl (by decide +kernel), meets (by decide +kernel) rfl (by decide +kernel), meets (by decide +kernel) rfl (by decide +kernel), meets (by decide +kernel) rfl (by decide +kernel)⟩

theorem witness_StreamFlushDiscardsAndEnds :
    Meets stocked .streamFlush 0 granted (fun s => (s.toChip.stream 5).state = .opened ∧ (s.toChip.stream 5).admitted = [] ∧ (s.toChip.stream 5).active = none ∧ ((flushedOf s).pageReturnRun 5).broken = none) ∧
    Meets stocked .streamFlush 0 { granted with active := some (fetching false) } (fun s => (s.toChip.stream 5).state = .opened ∧ (s.toChip.stream 5).active ≠ none ∧ ((flushedOf s).pageReturnRun 5).broken = none) :=
  ⟨meets (by decide +kernel) rfl (by decide +kernel), meets (by decide +kernel) rfl (by decide +kernel)⟩

theorem witness_StreamCloseEndsOrWaits :
    Meets stocked .streamClose 0 granted (fun s => (s.toChip.stream 5).state = .opened ∧ (s.toChip.stream 5).admitted = [] ∧ (s.toChip.stream 5).active = none) ∧
    Meets stocked .streamClose 0 { granted with state := .held } (fun s => (s.toChip.stream 5).state = .held ∧ (s.toChip.stream 5).admitted = [] ∧ (s.toChip.stream 5).active = none) ∧
    Meets stocked .streamClose 0 { granted with state := .faulted, active := some (fetching true) } (fun s => (s.toChip.stream 5).state = .faulted ∧ (s.toChip.stream 5).active ≠ none) :=
  ⟨meets (by decide +kernel) rfl (by decide +kernel), meets (by decide +kernel) rfl (by decide +kernel), meets (by decide +kernel) rfl (by decide +kernel)⟩

theorem witness_StreamResumeOpensTheHeldStream :
    Meets up (.streamResume 32) 0 { filled with state := .held } (fun s => (s.toChip.stream 5).state = .held ∧ 31 < 32) ∧
    Meets up (.streamResume 31) 0 { filled with state := .held } (fun s => (s.toChip.stream 5).state = .held ∧ (s.toChip.cmpRing 31).state ≠ .active) ∧
    Meets up (.streamResume 1) 0 { filled with state := .held } (fun s => (s.toChip.stream 5).state = .held ∧ (s.toChip.cmpRing 1).state = .active) ∧
    Meets up (.streamResume 1) 0 { filled with state := .faulted } (fun s => (s.toChip.stream 5).state = .faulted) :=
  ⟨meets (by decide +kernel) rfl (by decide +kernel), meets (by decide +kernel) rfl (by decide +kernel), meets (by decide +kernel) rfl (by decide +kernel), meets (by decide +kernel) rfl (by decide +kernel)⟩

theorem witness_ReportsAreSnapshotsThenCompletions :
    Meets up (.streamReport { addr := 0, len := 128 }) 0 filled (fun s => (s.toChip.stream 5).state ≠ .closed ∧ (0 : HostAddr).toNat % 16 = 0 ∧ 128 ≤ 128) ∧
    Meets up (.streamReport { addr := 8, len := 112 }) 0 filled (fun s => (s.toChip.stream 5).state ≠ .closed ∧ ¬ ((8 : HostAddr).toNat % 16 = 0)) :=
  ⟨meets (by decide +kernel) rfl (by decide +kernel), meets (by decide +kernel) rfl (by decide +kernel)⟩

theorem witness_ReportsAreSnapshotsThenCompletions_others :
    Asked up (req (.poolReport { addr := 0, len := 64 }) 0 0) (fun s => s.ctl.state = .active) ∧
    Asked up (req (.describe { addr := 0, len := 48 }) 0 0) (fun s => ¬ (64 ≤ 48) ∧ s.ctl.state = .active) ∧
    Asked (reported up .report .ok) (req (.describe { addr := 0, len := 64 }) 0 0) (fun s => (s.toChip.endOf .report 0).isSome = true ∧ (s.toChip.slotRequest 0).isSome = true) ∧
    Asked (reported up .report .hostWriteError) (req (.poolReport { addr := 0, len := 64 }) 0 0) (fun s => (s.toChip.endOf .report 0) = some (ending .report .hostWriteError)) :=
  ⟨askedAt (by decide +kernel) (by decide +kernel), askedAt (by decide +kernel) (by decide +kernel), askedAt (by decide +kernel) (by decide +kernel), askedAt (by decide +kernel) (by decide +kernel)⟩

theorem witness_AppendChecksInOrder :
    Meets up (.append 0 9 (.direct [seg])) 0 opened (fun s => (s.toChip.stream 5).state = .opened) ∧
    Meets up (.append 32769 9 (.direct [seg])) 0 opened (fun s => (s.toChip.stream 5).state = .opened) ∧
    Meets up (.append 16 9 (.direct [])) 0 opened (fun s => (s.toChip.stream 5).state = .opened) ∧
    Meets up (.append 16 9 (.indirect 8 1)) 0 opened (fun s => (s.toChip.stream 5).state = .opened ∧ ¬ ((8 : HostAddr).toNat % 16 = 0)) ∧
    Meets up (.append 32768 9 (.indirect 4096 256)) 0 { opened with quota := 8 } (fun s => (s.toChip.stream 5).state = .opened ∧ ¬ ((footprint 32768 + 4095) / 4096 ≤ (s.toChip.stream 5).quota)) ∧
    Meets up appendBody 0 { opened with next := 281474976710655 } (fun s => (s.toChip.stream 5).state = .opened ∧ (s.toChip.stream 5).next = 2 ^ 48 - 1 ∧ (footprint 16 + 4095) / 4096 ≤ (s.toChip.stream 5).quota) ∧
    Meets up appendBody 0 { opened with waitA := [waitsA 1] } (fun s => (s.toChip.stream 5).state = .opened ∧ (s.toChip.stream 5).waitA ≠ [] ∧ (s.toChip.stream 5).waitA.length < 8 ∧ (s.taking [] 0).slotDraining 0 = false) ∧
    Meets up appendBody 9 { opened with waitA := List.replicate 8 (waitsA 1) } (fun s => (s.toChip.stream 5).state = .opened ∧ 8 ≤ (s.toChip.stream 5).waitA.length) ∧
    Meets (up.setReqRing 1 { up.reqRing 1 with state := .draining }) appendBody 9 { opened with waitA := [waitsA 1] } (fun s => (s.toChip.stream 5).state = .opened ∧ (s.taking [] 0).slotDraining 0 = true ∧ (s.toChip.stream 5).waitA.length < 8) ∧
    Meets up appendBody 0 { opened with admitted := List.replicate 8 (inWindow 0 false) } (fun s => (s.toChip.stream 5).state = .opened ∧ (s.toChip.stream 5).waitA = [] ∧ 8 ≤ (s.toChip.stream 5).admitted.length) ∧
    Meets up appendBody 65535 { opened with quota := 1, chain := [7], tail := 4096 } (fun s => (s.toChip.stream 5).state = .opened ∧ (s.toChip.stream 5).waitA = [] ∧ (s.toChip.stream 5).admitted.length < 8 ∧ isRefused ((s.taking [] 0).allocate 5 ((s.toChip.stream 5).need (footprint 16))) = true) ∧
    Meets badFreeList appendBody 0 opened (fun s => (s.toChip.stream 5).state = .opened ∧ (s.toChip.stream 5).waitA = [] ∧ isLinkError ((s.taking [] 0).allocate 5 ((s.toChip.stream 5).need (footprint 16))) = true) :=
  ⟨meets (by decide +kernel) rfl (by decide +kernel), meets (by decide +kernel) rfl (by decide +kernel), meets (by decide +kernel) rfl (by decide +kernel), meets (by decide +kernel) rfl (by decide +kernel), meets (by decide +kernel) rfl (by decide +kernel), meets (by decide +kernel) rfl (by decide +kernel), meets (by decide +kernel) rfl (by decide +kernel), meets (by decide +kernel) rfl (by decide +kernel), meets (by decide +kernel) rfl (by decide +kernel), meets (by decide +kernel) rfl (by decide +kernel), meets (by decide +kernel) rfl (by decide +kernel), meets (by decide +kernel) rfl (by decide +kernel)⟩

theorem witness_AppendAdmissionGivesSequenceAndPages :
    Meets up appendBody 0 opened (fun s => (s.toChip.stream 5).state = .opened ∧ s.toChip.mem.wf = true ∧ (s.toChip.stream 5).waitA = [] ∧ (s.toChip.stream 5).admitted.length < 8 ∧ (s.toChip.stream 5).next < 2 ^ 48 - 1 ∧ appendSourceOk 16 (.direct [seg]) = true ∧ pagesOf ((s.taking [] 0).allocate 5 ((s.toChip.stream 5).need (footprint 16))) = some [0]) ∧
    Meets stocked appendBody 0 filled (fun s => (s.toChip.stream 5).state = .opened ∧ s.toChip.mem.wf = true ∧ pagesOf ((s.taking [] 0).allocate 5 ((s.toChip.stream 5).need (footprint 16))) = some []) ∧
    Meets up (.append 32768 9 (.indirect 4096 256)) 0 { opened with quota := 9 } (fun s => (s.toChip.stream 5).state = .opened ∧ appendSourceOk 32768 (.indirect 4096 256) = true ∧ (footprint 32768 + 4095) / 4096 ≤ (s.toChip.stream 5).quota ∧ pagesOf ((s.taking [] 0).allocate 5 ((s.toChip.stream 5).need (footprint 32768))) = some [0, 1, 2, 3, 4, 5, 6, 7, 8]) :=
  ⟨meets (by decide +kernel) rfl (by decide +kernel), meets (by decide +kernel) rfl (by decide +kernel), meets (by decide +kernel) rfl (by decide +kernel)⟩

theorem witness_PageNeedByTailOffset :
    (opened.chain = [] ∧ opened.need 32784 = 9) ∧
    (filled.chain.getLast? = some 0 ∧ filled.tail ≤ 4096 ∧ 4064 ≤ 4096 - filled.tail ∧ filled.need 4064 = 0) ∧
    (4096 - filled.tail < 4080 ∧ filled.need 4080 = 1) ∧
    (({ filled with tail := 4096 } : StreamEntry).need 32 = 1) := by
  decide +kernel

theorem witness_AllocationByQuotaAndRoom :
    (pagesOf ((holding opened).allocate 5 0) = some []) ∧
    (pagesOf ((holding opened).allocate 5 16) = some [0, 1, 2, 3, 4, 5, 6, 7, 8, 9, 10, 11, 12, 13, 14, 15]) ∧
    (isRefused ((holding opened).allocate 5 17) = true) ∧
    (isLinkError ((badFreeList.setStream 5 opened).allocate 5 1) = true) ∧
    (1 ≤ ({ opened with reserve := 2 } : StreamEntry).unmet ∧ ({ opened with reserve := 2 } : StreamEntry).chain.length + 1 ≤ opened.quota) := by
  decide +kernel

theorem witness_DeadlinesEndTheWait :
    Meets up appendBody 3 { opened with waitA := [waitsA 0] } (fun s => s.ctl.state = .active ∧ s.toChip.slotStream 0 = some 5 ∧ (waitsA 0).deadline ≠ none) ∧
    Meets up (fetchBody 2) 3 { filled with waitF := [waitsF 0 2 4096 3] } (fun s => (s.toChip.stream 5).state = .opened ∧ s.toChip.slotStream 0 = some 5 ∧ (s.toChip.stream 5).active = none ∧ (s.toChip.stream 5).read < (s.toChip.stream 5).frontier) ∧
    Meets up (fetchBody 2) 3 { opened with waitF := [waitsF 0 2 4096 3] } (fun s => (s.toChip.stream 5).state = .opened ∧ (s.toChip.stream 5).frontier ≤ (s.toChip.stream 5).read) ∧
    Meets up (fetchBody 2) 3 { opened with waitF := [waitsF 1 2 4096 3, waitsF 0 2 4096 3] } (fun s => (s.toChip.stream 5).state = .opened ∧ s.toChip.slotStream 0 = some 5 ∧ (waitsF 1 2 4096 3).slot ≠ 0) :=
  ⟨meets (by decide +kernel) rfl (by decide +kernel), meets (by decide +kernel) rfl (by decide +kernel), meets (by decide +kernel) rfl (by decide +kernel), meets (by decide +kernel) rfl (by decide +kernel)⟩

theorem witness_AppendCopyEndMarksAndWalks :
    Meets (reported stocked .append .ok) appendBody 0 { filled with frontier := 0, admitted := [inWindow 0 false] } (fun s => s.ctl.state = .active ∧ s.toChip.endOf .append 0 = some (ending .append .ok) ∧ s.toChip.slotStream 0 = some 5 ∧ (s.toChip.stream 5).admitted.find? (fun a => a.slot == 0) = some (inWindow 0 false)) ∧
    Meets (reported stocked .append .hostReadError) appendBody 0 { filled with frontier := 0, admitted := [inWindow 0 false] } (fun s => s.ctl.state = .active ∧ s.toChip.endOf .append 0 = some (ending .append .hostReadError) ∧ s.toChip.slotStream 0 = some 5 ∧ (s.toChip.stream 5).admitted.find? (fun a => a.slot == 0) = some (inWindow 0 false)) ∧
    Meets (reported stocked .append .badField) appendBody 0 { filled with frontier := 0, admitted := [inWindow 0 false] } (fun s => s.ctl.state = .active ∧ s.toChip.endOf .append 0 = some (ending .append .badField) ∧ s.toChip.slotStream 0 = some 5 ∧ (s.toChip.stream 5).admitted.find? (fun a => a.slot == 0) = some (inWindow 0 false)) :=
  ⟨meets (by decide +kernel) rfl (by decide +kernel), meets (by decide +kernel) rfl (by decide +kernel), meets (by decide +kernel) rfl (by decide +kernel)⟩

theorem witness_WalksOverTheAppendWindow :
    ((opened.state = .opened ∧ committable 0 [inWindow 0 true, inWindow 1 false] = [inWindow 0 true])) ∧
    (committable 0 [inWindow 1 true] = []) ∧
    (discardable [inWindow 0 true, inWindow 1 false] = [inWindow 0 true] ∧ discardable [inWindow 0 false] = []) ∧
    (((holding { opened with state := .closing, closeFromFault := true }).stream 5).state = .closing ∧ ((holding { opened with state := .closing, closeFromFault := true }).stream 5).closeFromFault = true) ∧
    ((inWindow 0 true).failed = none ∧ ({ inWindow 0 true with failed := some .badList } : Admitted).failed = some .badList) := by
  decide +kernel

theorem witness_FetchChecksAndArrives :
    Meets up (fetchBody 1) 0 opened (fun s => (s.toChip.stream 5).state = .opened) ∧
    Meets up (.fetch 4 1 (.indirect 4096 256)) 0 opened (fun s => (s.toChip.stream 5).state = .opened) ∧
    Meets up (.fetch 257 1 (.indirect 4096 256)) 0 opened (fun s => (s.toChip.stream 5).state = .opened) ∧
    Meets up (.fetch 256 257 (.indirect 4096 1)) 0 opened (fun s => (s.toChip.stream 5).state = .opened) ∧
    Meets up (.fetch 4 1 (.direct [])) 0 opened (fun s => (s.toChip.stream 5).state = .opened) ∧
    Meets (reported up .list .hostReadError) (.fetch 4 1 (.indirect 4096 256)) 0 opened (fun s => s.ctl.state = .active ∧ s.toChip.endOf .list 0 = some (ending .list .hostReadError) ∧ (s.toChip.slotRequest 0).isSome = true ∧ (s.toChip.stream 5).state = .opened) ∧
    Meets (reported up .list .badField) (.fetch 4 1 (.indirect 4096 256)) 0 opened (fun s => s.ctl.state = .active ∧ s.toChip.endOf .list 0 = some (ending .list .badField) ∧ (s.toChip.slotRequest 0).isSome = true ∧ (s.toChip.stream 5).state = .opened) ∧
    Meets (reported up .list .ok) (.fetch 4 1 (.indirect 4096 256)) 0 opened (fun s => s.ctl.state = .active ∧ s.toChip.endOf .list 0 = some (ending .list .ok) ∧ (s.toChip.slotRequest 0).isSome = true ∧ (s.toChip.stream 5).state = .opened) ∧
    Meets (reported up .list .ok) (.fetch 4 1 (.indirect 4096 256)) 0 StreamEntry.closed (fun s => s.ctl.state = .active ∧ s.toChip.endOf .list 0 = some (ending .list .ok) ∧ (s.toChip.slotRequest 0).isSome = true ∧ stateCheck .io (s.toChip.stream 5).state = some .badStream) :=
  ⟨meets (by decide +kernel) rfl (by decide +kernel), meets (by decide +kernel) rfl (by decide +kernel), meets (by decide +kernel) rfl (by decide +kernel), meets (by decide +kernel) rfl (by decide +kernel), meets (by decide +kernel) rfl (by decide +kernel), meets (by decide +kernel) rfl (by decide +kernel), meets (by decide +kernel) rfl (by decide +kernel), meets (by decide +kernel) rfl (by decide +kernel), meets (by decide +kernel) rfl (by decide +kernel)⟩

theorem witness_FetchChecksAndArrives_arrival :
    (8 ≤ ({ opened with waitF := List.replicate 8 (waitsF 1 1 32 0) } : StreamEntry).waitF.length) ∧
    ((asked (up.setReqRing 1 { up.reqRing 1 with state := .draining }) (req (fetchBody 1) 5 0) opened).toChip.slotDraining 0 = true) ∧
    ((asked up (req (fetchBody 1) 5 0) opened).toChip.slotDraining 0 = false) := by
  decide +kernel

theorem witness_HeadEvaluationDecides :
    ((holding { filled with waitF := [waitsF 1 1 32 0], active := some (fetching false) }).isActive = true ∧ ((holding { filled with waitF := [waitsF 1 1 32 0], active := some (fetching false) }).stream 5).state = .opened ∧ ((holding { filled with waitF := [waitsF 1 1 32 0], active := some (fetching false) }).stream 5).active ≠ none) ∧
    ((holding { filled with waitF := [waitsF 1 1 32 0] }).isActive = true ∧ ((holding { filled with waitF := [waitsF 1 1 32 0] }).stream 5).state = .opened ∧ filled.active = none ∧ 1 ≤ filled.frontier - filled.read) ∧
    ((holding { filled with waitF := [waitsF 1 2 32 0] }).isActive = true ∧ ((holding { filled with waitF := [waitsF 1 2 32 0] }).stream 5).state = .opened ∧ filled.frontier - filled.read < 2 ∧ 1 ≤ filled.frontier - filled.read) ∧
    ((holding { opened with waitF := [waitsF 1 2 32 0] }).isActive = true ∧ ((holding { opened with waitF := [waitsF 1 2 32 0] }).stream 5).state = .opened ∧ opened.frontier - opened.read < 2 ∧ opened.frontier - opened.read = 0) ∧
    ((holding { filled with waitF := [waitsF 1 2 32 9] }).isActive = true ∧ ((holding { filled with waitF := [waitsF 1 2 32 9] }).stream 5).state = .opened ∧ (waitsF 1 2 32 9).wait ≠ 0 ∧ filled.frontier - filled.read < 2) := by
  decide +kernel

theorem witness_GrantByItsSizing :
    (sizingCase (sizeWalk 5 32 1 1 (stocked.setStream 5 filled) 0 0 0 0 0) = 2) ∧
    (sizingCase (sizeWalk 5 16 1 1 (stocked.setStream 5 filled) 0 0 0 0 0) = 1) ∧
    (sizingCase (sizeWalk 5 32 1 1 (holding filled) 0 0 0 0 0) = 0) := by
  decide +kernel

theorem witness_FetchCopyEndByOutcome :
    Meets (reported stocked .fetch .ok) (fetchBody 1) 0 { granted with mode := .consume, active := some (fetching false) } (fun s => s.toChip.endOf .fetch 0 = some (ending .fetch .ok) ∧ s.toChip.slotStream 0 = some 5 ∧ (s.toChip.stream 5).active ≠ none ∧ (s.toChip.stream 5).state = .opened ∧ (s.toChip.stream 5).mode = .consume) ∧
    Meets (reported stocked .fetch .ok) (fetchBody 1) 0 { granted with active := some (fetching false) } (fun s => s.toChip.endOf .fetch 0 = some (ending .fetch .ok) ∧ s.toChip.slotStream 0 = some 5 ∧ (s.toChip.stream 5).active ≠ none ∧ (s.toChip.stream 5).mode = .retain) ∧
    Meets (reported stocked .fetch .hostWriteError) (fetchBody 1) 0 { granted with active := some (fetching false) } (fun s => s.toChip.endOf .fetch 0 = some (ending .fetch .hostWriteError) ∧ s.toChip.slotStream 0 = some 5 ∧ (s.toChip.stream 5).active ≠ none ∧ (s.toChip.stream 5).read = 1) ∧
    Meets (reported stocked .fetch .stopped) (fetchBody 1) 0 { granted with state := .closing, active := some (fetching true) } (fun s => s.toChip.endOf .fetch 0 = some (ending .fetch .stopped) ∧ s.toChip.slotStream 0 = some 5 ∧ (s.toChip.stream 5).active ≠ none ∧ (s.toChip.stream 5).state = .closing) ∧
    Meets (reported stocked .fetch .stopped) (fetchBody 1) 0 { granted with state := .faulted, active := some (fetching true) } (fun s => s.toChip.endOf .fetch 0 = some (ending .fetch .stopped) ∧ s.toChip.slotStream 0 = some 5 ∧ (s.toChip.stream 5).active ≠ none ∧ (s.toChip.stream 5).state ≠ .closing) :=
  ⟨meets (by decide +kernel) rfl (by decide +kernel), meets (by decide +kernel) rfl (by decide +kernel), meets (by decide +kernel) rfl (by decide +kernel), meets (by decide +kernel) rfl (by decide +kernel), meets (by decide +kernel) rfl (by decide +kernel)⟩

theorem witness_MarkPlacesAMarkAtRead :
    Meets up .mark 0 { opened with mode := .consume } (fun s => (s.toChip.stream 5).state = .opened ∧ (s.toChip.stream 5).mode = .consume) ∧
    Meets up .mark 0 granted (fun s => (s.toChip.stream 5).state = .opened ∧ (s.toChip.stream 5).mode = .retain ∧ ((s.toChip.stream 5).marks.getLast?.map Mark.pos) = some (s.toChip.stream 5).read) ∧
    Meets up .mark 0 { granted with marks := List.replicate 8 { pos := 0, loc := .at 0 0 } } (fun s => (s.toChip.stream 5).state = .opened ∧ (s.toChip.stream 5).mode = .retain ∧ ((s.toChip.stream 5).marks.getLast?.map Mark.pos) ≠ some (s.toChip.stream 5).read ∧ 8 ≤ (s.toChip.stream 5).marks.length) ∧
    Meets up .mark 0 { granted with marks := List.replicate 7 { pos := 0, loc := .at 0 0 } } (fun s => (s.toChip.stream 5).state = .opened ∧ (s.toChip.stream 5).mode = .retain ∧ ((s.toChip.stream 5).marks.getLast?.map Mark.pos) ≠ some (s.toChip.stream 5).read ∧ (s.toChip.stream 5).marks.length < 8) :=
  ⟨meets (by decide +kernel) rfl (by decide +kernel), meets (by decide +kernel) rfl (by decide +kernel), meets (by decide +kernel) rfl (by decide +kernel), meets (by decide +kernel) rfl (by decide +kernel)⟩

theorem witness_RewindLowersReadToItsTarget :
    Meets up (.rewind 1 0) 0 { opened with mode := .consume } (fun s => (s.toChip.stream 5).state = .opened ∧ (s.toChip.stream 5).mode = .consume) ∧
    Meets up (.rewind 0 0) 0 granted (fun s => (s.toChip.stream 5).state = .opened ∧ (s.toChip.stream 5).mode = .retain) ∧
    Meets up (.rewind 1 0) 0 { granted with marks := [] } (fun s => (s.toChip.stream 5).state = .opened ∧ (s.toChip.stream 5).mode = .retain ∧ (s.toChip.stream 5).marks = []) ∧
    Meets up (.rewind 2 0) 0 granted (fun s => (s.toChip.stream 5).state = .opened ∧ (s.toChip.stream 5).mode = .retain ∧ ¬ (0 < (s.toChip.stream 5).base ∨ (s.toChip.stream 5).read < 0) ∧ ∀ m ∈ (s.toChip.stream 5).marks, m.pos ≠ 0) ∧
    Meets up (.rewind 2 2) 0 granted (fun s => (s.toChip.stream 5).state = .opened ∧ (s.toChip.stream 5).mode = .retain ∧ (s.toChip.stream 5).read < 2) ∧
    Meets up (.rewind 1 0) 0 granted (fun s => (s.toChip.stream 5).state = .opened ∧ (s.toChip.stream 5).mode = .retain ∧ (s.toChip.stream 5).marks.getLast? = some { pos := 1, loc := .at 0 32 }) ∧
    Meets up (.rewind 2 1) 0 granted (fun s => (s.toChip.stream 5).state = .opened ∧ (s.toChip.stream 5).mode = .retain ∧ (s.toChip.stream 5).marks.find? (fun m => m.pos == 1) = some { pos := 1, loc := .at 0 32 } ∧ (s.toChip.stream 5).read = 1 ∧ (s.toChip.stream 5).base < 1) ∧
    Meets up (.rewind 3 0) 0 granted (fun s => (s.toChip.stream 5).state = .opened ∧ (s.toChip.stream 5).mode = .retain ∧ (s.toChip.stream 5).base ≠ (s.toChip.stream 5).read) :=
  ⟨meets (by decide +kernel) rfl (by decide +kernel), meets (by decide +kernel) rfl (by decide +kernel), meets (by decide +kernel) rfl (by decide +kernel), meets (by decide +kernel) rfl (by decide +kernel), meets (by decide +kernel) rfl (by decide +kernel), meets (by decide +kernel) rfl (by decide +kernel), meets (by decide +kernel) rfl (by decide +kernel), meets (by decide +kernel) rfl (by decide +kernel)⟩

theorem witness_ReleaseRaisesBaseToItsTarget :
    Meets up (.release 1 0) 0 { opened with mode := .consume } (fun s => (s.toChip.stream 5).state = .opened ∧ (s.toChip.stream 5).mode = .consume) ∧
    Meets up (.release 0 0) 0 granted (fun s => (s.toChip.stream 5).state = .opened ∧ (s.toChip.stream 5).mode = .retain) ∧
    Meets up (.release 1 0) 0 { granted with marks := [] } (fun s => (s.toChip.stream 5).state = .opened ∧ (s.toChip.stream 5).mode = .retain ∧ (s.toChip.stream 5).marks = []) ∧
    Meets up (.release 2 0) 0 granted (fun s => (s.toChip.stream 5).state = .opened ∧ (s.toChip.stream 5).mode = .retain ∧ ¬ (0 < (s.toChip.stream 5).base ∨ (s.toChip.stream 5).read < 0) ∧ ∀ m ∈ (s.toChip.stream 5).marks, m.pos ≠ 0) ∧
    Meets up (.release 2 2) 0 granted (fun s => (s.toChip.stream 5).state = .opened ∧ (s.toChip.stream 5).mode = .retain ∧ (s.toChip.stream 5).read < 2) ∧
    Meets up (.release 1 0) 0 granted (fun s => (s.toChip.stream 5).state = .opened ∧ (s.toChip.stream 5).mode = .retain ∧ (s.toChip.stream 5).marks.head? = some { pos := 1, loc := .at 0 32 }) ∧
    Meets up (.release 2 1) 0 granted (fun s => (s.toChip.stream 5).state = .opened ∧ (s.toChip.stream 5).mode = .retain ∧ (s.toChip.stream 5).marks.find? (fun m => m.pos == 1) = some { pos := 1, loc := .at 0 32 } ∧ (s.toChip.stream 5).read = 1 ∧ (s.toChip.stream 5).base < 1) ∧
    Meets up (.release 3 0) 0 { granted with base := 1 } (fun s => (s.toChip.stream 5).state = .opened ∧ (s.toChip.stream 5).mode = .retain ∧ (s.toChip.stream 5).read ≤ (s.toChip.stream 5).base) :=
  ⟨meets (by decide +kernel) rfl (by decide +kernel), meets (by decide +kernel) rfl (by decide +kernel), meets (by decide +kernel) rfl (by decide +kernel), meets (by decide +kernel) rfl (by decide +kernel), meets (by decide +kernel) rfl (by decide +kernel), meets (by decide +kernel) rfl (by decide +kernel), meets (by decide +kernel) rfl (by decide +kernel), meets (by decide +kernel) rfl (by decide +kernel)⟩

theorem witness_PageReturnReturnsUpToTheFirstStop :
    (((stocked.setStream 5 { granted with base := 1, baseLoc := .at 0 32 }).pageReturnRun 5).broken = none ∧ ((stocked.setStream 5 { granted with base := 1, baseLoc := .at 0 32 }).pageReturnRun 5).returned = 1) ∧
    (((stocked.setStream 5 granted).pageReturnRun 5).broken = none ∧ ((stocked.setStream 5 granted).pageReturnRun 5).returned = 0) ∧
    (({ granted with active := some (fetching false), baseLoc := .chainStart } : StreamEntry).isStop 0 = true ∧ ({ granted with next := 2, state := .closing, baseLoc := .chainStart, admitted := [inWindow 1 false] } : StreamEntry).isStop 0 = true) := by
  decide +kernel

theorem witness_FaultDropsWaitingWork :
    ((0 : Nat) ∈ ((holding filled).stream 5).chain) ∧
    (({ filled with noticeRing := none } : StreamEntry).noticeRing = none) ∧
    ((inState .quiescing).isActive = false) := by
  decide +kernel

theorem witness_BacklogMonitorEvaluation :
    ((inState .halted).isActive = false ∧ (holding opened).isActive = true ∧ ((holding opened).stream 5).state = .opened ∧ opened.readyLevel = 0) ∧
    (({ filled with readyLevel := 1 } : StreamEntry).backlog = .below ∧ 1 ≤ filled.frontier - filled.read) ∧
    (({ filled with readyLevel := 1, readyLatch := true } : StreamEntry).readyLatch = true) ∧
    (({ filled with readyLevel := 2 } : StreamEntry).backlog = .below ∧ filled.frontier - filled.read < 2) ∧
    (({ filled with readyLevel := 2, backlog := .atOrAbove } : StreamEntry).backlog = .atOrAbove) := by
  decide +kernel

theorem witness_OccupancyMonitorEvaluation :
    (((holding filled).stream 5).state = .opened ∧ filled.pressureLevel = 0) ∧
    (({ filled with pressureLevel := 1 } : StreamEntry).occupancy = .calm ∧ 1 ≤ filled.chain.length) ∧
    (filled.chain.length < 2) ∧
    (({ filled with pressureLevel := 3, reliefLevel := 1, occupancy := .pressed } : StreamEntry).occupancy = .pressed ∧ filled.chain.length ≤ 1) ∧
    (0 < filled.chain.length) ∧
    (((holding { filled with state := .flushing }).stream 5).state = .flushing) := by
  decide +kernel

theorem witness_GrantArbiterStartsAndVisits :
    Meets { up with pool := { up.pool with run := some { cursor := 5, count := 511 } } } appendBody 3 opened (fun s => s.ctl.state = .active ∧ s.pool.run = some { cursor := 5, count := 511 } ∧ (s.toChip.stream 5).waitA = []) ∧
    Meets { up with pool := { up.pool with run := some { cursor := 5, count := 511 } } } appendBody 3 { opened with waitA := [waitsA 0], next := 281474976710655 } (fun s => s.ctl.state = .active ∧ s.pool.run = some { cursor := 5, count := 511 } ∧ (s.toChip.stream 5).state = .opened ∧ (s.toChip.stream 5).waitA ≠ [] ∧ (s.toChip.stream 5).next = 2 ^ 48 - 1) ∧
    Meets { up with pool := { up.pool with run := some { cursor := 5, count := 511 } } } appendBody 3 { opened with waitA := [waitsA 0], admitted := List.replicate 8 (inWindow 0 false) } (fun s => s.ctl.state = .active ∧ s.pool.run = some { cursor := 5, count := 511 } ∧ (s.toChip.stream 5).state = .opened ∧ 8 ≤ (s.toChip.stream 5).admitted.length) ∧
    Meets { up with pool := { up.pool with run := some { cursor := 5, count := 511 } } } appendBody 3 { opened with waitA := [waitsA 0] } (fun s => s.ctl.state = .active ∧ s.pool.run = some { cursor := 5, count := 511 } ∧ (s.toChip.stream 5).state = .opened ∧ (s.toChip.stream 5).waitA = [waitsA 0] ∧ (s.toChip.stream 5).next ≠ 2 ^ 48 - 1 ∧ (s.toChip.stream 5).admitted.length < 8 ∧ s.toChip.slotRequest 0 = some (req appendBody 5 3) ∧ pagesOf (s.toChip.allocate 5 ((s.toChip.stream 5).need (footprint 16))) = some [0] ∧ s.mem.wf = true ∧ (s.toChip.stream 5).next < 2 ^ 48) ∧
    Meets { up with pool := { up.pool with run := some { cursor := 5, count := 511 } } } appendBody 3 { opened with waitA := [waitsA 0], quota := 0 } (fun s => s.ctl.state = .active ∧ s.pool.run = some { cursor := 5, count := 511 } ∧ (s.toChip.stream 5).state = .opened ∧ (s.toChip.stream 5).waitA = [waitsA 0] ∧ (s.toChip.stream 5).next ≠ 2 ^ 48 - 1 ∧ (s.toChip.stream 5).admitted.length < 8 ∧ s.toChip.slotRequest 0 = some (req appendBody 5 3) ∧ isRefused (s.toChip.allocate 5 ((s.toChip.stream 5).need (footprint 16))) = true) ∧
    Meets { badFreeList with pool := { up.pool with run := some { cursor := 5, count := 511 } } } appendBody 3 { opened with waitA := [waitsA 0] } (fun s => s.ctl.state = .active ∧ s.pool.run = some { cursor := 5, count := 511 } ∧ (s.toChip.stream 5).state = .opened ∧ (s.toChip.stream 5).waitA = [waitsA 0] ∧ (s.toChip.stream 5).next ≠ 2 ^ 48 - 1 ∧ (s.toChip.stream 5).admitted.length < 8 ∧ s.toChip.slotRequest 0 = some (req appendBody 5 3) ∧ isLinkError (s.toChip.allocate 5 ((s.toChip.stream 5).need (footprint 16))) = true) :=
  ⟨meets (by decide +kernel) rfl (by decide +kernel), meets (by decide +kernel) rfl (by decide +kernel), meets (by decide +kernel) rfl (by decide +kernel), meets (by decide +kernel) rfl (by decide +kernel), meets (by decide +kernel) rfl (by decide +kernel), meets (by decide +kernel) rfl (by decide +kernel)⟩

theorem witness_GrantArbiterStartsAndVisits_start :
    (({ up with pool := { up.pool with starts := 1 } } : Chip).pool.starts ≠ 0 ∧ up.pool.run = none ∧ up.ctl.state = .active) := by
  decide +kernel

theorem witness_TransfersStartAndEnd :
    (({ up with engine := { up.engine with queue := [copyIn] } } : Chip).engine.queue = [copyIn] ∧ (up.ctx 0).state = .free ∧ ∀ j : CtxId, j < 0 → (up.ctx j).state ≠ .free) ∧
    (((busy up (Context.start copyIn)).ctx 1).state = .free ∧ ∀ j : CtxId, j < 1 → ((busy up (Context.start copyIn)).ctx j).state ≠ .free) ∧
    ((Context.start copyIn).transfer = some copyIn ∧ (Context.start copyIn).quiet = false) ∧
    ((doneIn .running).quiet = true ∧ (doneIn .running).workDone = true) ∧
    ((doneIn .abandoning).quiet = true ∧ (doneIn .finishing).quiet = true) ∧
    (({ Context.start copyOut with bufReads := [] } : Context).workDone = false ∧ (Context.start copyOut).state = .running) := by
  decide +kernel

theorem witness_HostAccessEnds :
    ((Context.start copyIn).reads[0]? = some { addr := 4096, off := 0, len := 16, list := false } ∧ (Context.start copyIn).state = .running ∧ (List.replicate 16 (0 : Byte)).length = 16) ∧
    ((Context.start listIn).reads[0]? = some { addr := 4096, off := 0, len := 16, list := true }) ∧
    ((Context.start { slot := 0, work := .appendCopy 16 (.indirect 4096 1) [0] 0 }).reads[0]? = some { addr := 4096, off := 0, len := 16, list := true }) ∧
    (({ Context.start copyIn with state := .abandoning } : Context).reads[0]? = some { addr := 4096, off := 0, len := 16, list := false }) ∧
    ((Context.start writeOut).writes = [{ addr := 4096, data := [1, 2], record := 0 }] ∧ (Context.start writeOut).state = .running) ∧
    (up.link.up = true ∧ up.link.access = true ∧ (writing false).link.up = false) := by
  decide +kernel

theorem witness_BufferReadEndOfAFetchCopy :
    ((Context.start copyOut).bufReads[0]? = some (.header 0 0) ∧ (Context.start copyOut).state = .running ∧ (Context.start copyOut).transfer = some copyOut) ∧
    ((stocked.mem.readHeader 5 0 0 0).2 = some { kind := .normal, length := 16, tag := 9 }) ∧
    ((up.mem.readHeader 5 0 0 0).2 = none) ∧
    ((up.mem.checkRun 2 2).2 = true ∧ ((up.mem.upset (3, .multi)).checkRun 2 2).2 = false) ∧
    (inHand.converted = false ∧ inHand.convert.converted = true) ∧
    (((linked.setStream 5 filled).followChain 5 0).2 = some 1 ∧ ((holding filled).followChain 5 260095).2 = none) := by
  decide +kernel

theorem witness_BufferWriteEndStoresTheBytes :
    (({ Context.start copyIn with bufWrites := [{ areaOff := 0, data := [5, 6] }] } : Context).bufWrites[0]? = some { areaOff := 0, data := [5, 6] } ∧ (Context.start copyIn).transfer = some copyIn ∧ up.mem.wf = true) := by
  decide +kernel

theorem witness_CheckedReadsAndSoundHeaders :
    (sparseGet up.mem.marks 3 = none) ∧
    (sparseGet (up.mem.upset (3, .single)).marks 3 = some .single ∧ (up.mem.upset (3, .single)).wf = true) ∧
    (sparseGet (up.mem.upset (3, .multi)).marks 3 = some .multi) ∧
    (judgeHeader (headerWord0 281474976710654 .voidDamaged) (headerWord1 32768 7 511) 511 281474976710654 = some { kind := .voidDamaged, length := 32768, tag := 7 }) ∧
    (judgeHeader (headerWord0 0 .normal) (headerWord1 0 7 5) 5 0 = none) := by
  decide +kernel

theorem witness_FramesOfRequestsAndRingEvents :
    Meets up .mark 0 granted (fun s => gives (exec (Body.mark.command []) s) (fun _ => true) = true) ∧
    Meets badFreeList appendBody 0 opened (fun s => gives (exec (appendBody.command []) s) (fun t => t.ctl.state == .halted) = true) :=
  ⟨meets (by decide +kernel) rfl (by decide +kernel), meets (by decide +kernel) rfl (by decide +kernel)⟩

theorem witness_FramesOfRequestsAndRingEvents_events :
    ([Instr.reqPutWrite 0 16, .reqPutWrite 1 1, .cmpTakeWrite 0 1, .vectorMask 1, .vectorUnmask 1, .ringTakeStart, .entryReadEnd 1 .error, .completionWriteEnd 1, .coalesceTimerExpiry 1, .hostLinkAccessChange true false].all (fun i => gives (exec i (alone up)) (fun _ => true)) = true) := by
  decide +kernel

theorem witness_EntryReadEndTakesOrDiscards_kinds :
    ([0x01, 0x02, 0x03, 0x04, 0x05, 0x10, 0x11, 0x12, 0x13, 0x14, 0x15, 0x16, 0x17, 0x18, 0x19, 0x1A].all (fun k => ((BitVec.ofNat 512 k).extractLsb' (8 * 0) (8 * 1)).toNat == k && (bodyOf (BitVec.ofNat 512 k)).isSome) = true) ∧
    ([0, 0x06, 0x0F, 0x1B, 0xFF].all (fun k => (k == 0 || (decide (0x05 < k) && decide (k < 0x10)) || decide (0x1A < k)) && (bodyOf (BitVec.ofNat 512 k)).isNone) = true) ∧
    ((BitVec.ofNat 512 0x101).getLsbD 8 = true ∧ (BitVec.ofNat 512 0x001).getLsbD 8 = false) := by
  decide +kernel

theorem witness_RingDeleteDrainsOrRemoves_order :
    (deleting2.toChip.waitingOf 1 = [0, 1] ∧ deleting2.toChip.streamsOf [0, 1] = [7, 5] ∧ ([5, 7] : List StreamId).Nodup ∧ [0, 1].map deleting2.toChip.slotStream = [some 7, some 5]) ∧
    ((deleting2.toChip.stream 5).noticeRing = some 1 ∧ (deleting2.toChip.stream 7).noticeRing = some 1 ∧ 512 * 1 + (5 + 511 - (deleting2.toChip.cmpRing 1).service.val) % 512 ≤ 512 * 1 + (7 + 511 - (deleting2.toChip.cmpRing 1).service.val) % 512) := by
  decide +kernel

/-- A RING_DELETE cancels in the order the requests were taken, whatever the order of their list (R136). -/
theorem test_ringDelete_cancels_as_taken :
    gives (exec (.ringDeleteRequestRing []) deletingFetches) (fun t =>
      (t.link.cmpWrites.filter fun w => w.ring == 1).map (fun w => w.data.extractLsb' 0 16) == [7, 8] &&
        (t.toChip.stream 5).waitF.isEmpty) = true := by
  decide +kernel

theorem witness_RingDeleteDrainsOrRemoves_lists :
    (deletingFetches.toChip.waitingOf 1 = [0, 1] ∧ [0, 1].map deletingFetches.toChip.slotStream = [some 5, some 5] ∧ (deletingFetches.toChip.stream 5).waitF.map WaitingFetch.slot = [1, 0]) ∧
    ((drainingMark.toChip.reqRing 1).deleter = some 1 ∧ (drainingMark.toChip.reqRing 1).state = .draining ∧ (drainingMark.toChip.reqRing 1).outstanding ≠ 0 ∧ (drainingMark.toChip.slotRequest 1).isSome = true) ∧
    (((drainingMark.toChip.setReqRing 1 { drainingMark.toChip.reqRing 1 with outstanding := 0 }).reqRing 1).outstanding = 0 ∧ (up.reqRing 1).deleter = none ∧ (up.reqRing 1).state ≠ .draining) := by
  decide +kernel

theorem witness_CompletionIsWrittenOrDropped_handed :
    (({ reading 1 with ctl := (inState .quiescing).ctl } : Chip).isActive = false ∧ (({ reading 1 with ctl := (inState .quiescing).ctl } : Chip).slot? 0).isSome = true) ∧
    ((drainingMark.toChip.slot? 0).isSome = true ∧ (drainingMark.toChip.slotRequest 0).isSome = true) := by
  decide +kernel

theorem witness_BufferReadEndOfAFetchCopy_ended :
    (({ Context.start copyOut with state := .finishing } : Context).bufReads[0]? = some (.header 0 0) ∧ ({ Context.start copyOut with state := .abandoning } : Context).transfer = some copyOut) ∧
    (inHand.converted = false ∧ inHand.convert.converted = true ∧ (up.mem.checkRun 2 2).2 = true ∧ ((up.mem.upset (3, .multi)).checkRun 2 2).2 = false) ∧
    ((stocked.mem.readHeader 5 0 0 0).2.isSome = true ∧ (up.mem.readHeader 5 0 0 0).2 = none) ∧
    (((linked.setStream 5 filled).followChain 5 0).2.isSome = true ∧ ((holding filled).followChain 5 260095).2 = none) := by
  decide +kernel

theorem witness_StreamSetChecksAndReplacesTheSettings_starts :
    Meets up (.streamSet { block with reserve := 0 }) 0 filled (fun s => (s.toChip.stream 5).state = .opened ∧ ¬ ((s.toChip.stream 5).quota < 16 ∨ (s.toChip.stream 5).reserve < 0 ∨ 0 - (s.toChip.stream 5).chain.length < (s.toChip.stream 5).reserve - (s.toChip.stream 5).chain.length ∨ (s.toChip.stream 5).waitA.head? ≠ none)) ∧
    Meets up (.streamSet block) 0 { filled with quota := 15 } (fun s => (s.toChip.stream 5).state = .opened ∧ (s.toChip.stream 5).quota < block.quota) ∧
    Meets up (.streamSet { block with reserve := 0 }) 0 { filled with reserve := 2 } (fun s => (s.toChip.stream 5).state = .opened ∧ 0 - (s.toChip.stream 5).chain.length < (s.toChip.stream 5).reserve - (s.toChip.stream 5).chain.length) ∧
    Meets up (.streamSet { block with quota := 8 }) 0 { filled with waitA := [{ waitsA 1 with length := 32768 }] } (fun s => (s.toChip.stream 5).state = .opened ∧ (s.toChip.stream 5).waitA.head?.any (fun w => decide (8 < (footprint w.length + 4095) / 4096)) = true) ∧
    Meets up (.streamSet { block with noticeRing := 0 }) 0 filled (fun s => (s.toChip.stream 5).state = .opened ∧ (s.toChip.cmpRing 0).state = .active ∧ (s.toChip.stream 5).noticeRing ≠ some 0) :=
  ⟨meets (by decide +kernel) rfl (by decide +kernel), meets (by decide +kernel) rfl (by decide +kernel), meets (by decide +kernel) rfl (by decide +kernel), meets (by decide +kernel) rfl (by decide +kernel), meets (by decide +kernel) rfl (by decide +kernel)⟩

theorem witness_StreamFlushDiscardsAndEnds_end :
    (((stocked.setStream 5 flushing).stream 5).state = .flushing ∧ flushing.pendingEnd = some 0 ∧ flushing.admitted = [] ∧ flushing.active = none ∧ ((stocked.setStream 5 flushing).pageReturnRun 5).broken = none) := by
  decide +kernel

theorem witness_AppendAdmissionGivesSequenceAndPages_links :
    (up.mem.wf = true ∧ pagesOf ((holding opened).allocate 5 2) = some [0, 1]) ∧
    (stocked.mem.wf = true ∧ pagesOf ((stocked.setStream 5 filled).allocate 5 1) = some [1] ∧ filled.chain.getLast? = some 0) ∧
    (pagesOf ((lastFree.setStream 5 opened).allocate 5 1) = some [260095] ∧ headAfter ((lastFree.setStream 5 opened).allocate 5 1) = none ∧ headAfter ((holding opened).allocate 5 2) = some 2) := by
  decide +kernel

theorem witness_PageReturnReturnsUpToTheFirstStop_links :
    (stocked.mem.wf = true ∧ ((stocked.setStream 5 { granted with base := 1, baseLoc := .at 0 32 }).pageReturnRun 5).returned = 1) ∧
    (((linked.setStream 5 twoPages).returnAll 5).2 = false ∧ ((linked.setStream 5 twoPages).returnAll 5).1.pool.free = linked.pool.free + 2) ∧
    (((({ linked with mem := (linked.mem.upset (260096 * 512, .multi)) } : Chip).setStream 5 twoPages).returnAll 5).2 = true ∧ ((({ linked with mem := (linked.mem.upset (260096 * 512, .multi)) } : Chip).setStream 5 twoPages).returnAll 5).1.pool.lost = 1) ∧
    (((linked.setStream 5 twoPages).truncateTail 5 0).2 = none ∧ (((linked.setStream 5 twoPages).truncateTail 5 0).1.stream 5).chain = [0] ∧ linked.mem.wf = true) ∧
    (((linked.setStream 5 twoPages).truncateTail 5 1).2 = none) := by
  decide +kernel

theorem witness_FaultDropsWaitingWork_states :
    ([StreamState.opened, .flushing, .closing, .faulted, .closed, .held].all (fun k => ((holding { twoPages with state := k }).stream 5).state == k) = true) ∧
    ((0 : Nat) ∈ twoPages.chain ∧ (9 : Nat) ∉ twoPages.chain) ∧
    (((({ linked with mem := (linked.mem.upset (260096 * 512, .multi)) } : Chip).setStream 5 { twoPages with state := .flushing, base := 2, read := 2, frontier := 2, admitted := [] }).pageReturnRun 5).broken = some 0) ∧
    (((({ linked with mem := (linked.mem.upset (260096 * 512, .multi)) } : Chip).setStream 5 { { twoPages with state := .flushing, base := 2, read := 2, frontier := 2, admitted := [] } with state := .closing }).pageReturnRun 5).broken = some 0) ∧
    (((({ linked with mem := (linked.mem.upset (260096 * 512, .multi)) } : Chip).setStream 5 { { twoPages with state := .flushing, base := 2, read := 2, frontier := 2, admitted := [] } with state := .opened }).pageReturnRun 5).broken = some 0) ∧
    (((stocked.setStream 5 granted).pageReturnRun 5).broken = none) := by
  decide +kernel

/-- A break at the first of two pages leaves a full last page; one at the last page cuts off nothing. -/
theorem test_breakChain :
    let cut := fun p => ((linked.setStream 5 twoPages).breakChain 5 p)
    ((cut 0).stream 5).chain = [0] ∧ ((cut 0).stream 5).tail = 4096 ∧ (cut 0).pool.lost = 1 ∧
    ((cut 1).stream 5).chain = [0, 1] ∧ ((cut 1).stream 5).tail = twoPages.tail ∧ (cut 1).pool.lost = 0 := by
  decide +kernel

theorem witness_FaultDropsWaitingWork_break :
    ((0 : Nat) ∈ ((linked.setStream 5 twoPages).stream 5).chain ∧ (linked.setStream 5 twoPages).mem.wf = true) ∧
    ((9 : Nat) ∉ ((linked.setStream 5 twoPages).stream 5).chain) := by
  decide +kernel

theorem witness_StreamCloseEndsOrWaits_later :
    (((holding { granted with state := .closing, pendingEnd := some 0 }).stream 5).state = .closing ∧ ((holding { granted with state := .closing, pendingEnd := some 0 }).stream 5).pendingEnd = some 0 ∧ granted.admitted = [] ∧ granted.active = none) ∧
    (((holding { granted with state := .closing, pendingEnd := some 0, active := some (fetching true) }).stream 5).active ≠ none) := by
  decide +kernel

theorem witness_BufferReadEndOfAFetchCopy_next_page :
    ((Context.start copyOut).progress.header = none ∧ (Context.start copyOut).progress.seq < 1) ∧
    (([(0, [1]), (8, [2])] : List (Nat × List Byte)).Pairwise (fun a b => a.1 ≤ b.1)) ∧
    ((1 : Nat) ≤ inHand.seq + 1 ∧ ({ inHand with converted := true } : Progress).converted = true) := by
  decide +kernel

theorem witness_CheckedReadsAndSoundHeaders_links :
    ((up.mem.check 0).2.isSome = true ∧ ((up.mem.upset (0, .multi)).check 0).2 = none) ∧
    (((linked.mem.check (260096 * 512)).2.map fun v => (v.extractLsb' 0 32).toNat) = some 1 ∧ ((linked.mem.check (260096 * 512 + 1)).2.map fun v => (v.extractLsb' 32 32).toNat) = some 5) ∧
    ((linked.mem.follow 260096 0 (some 6)) = (linked.mem, .error) ∧ (linked.mem.follow 260096 0 (some 5)) = (linked.mem, .page 1)) ∧
    ((linked.mem.follow 1 0 (some 5)).2 ≠ .page 1 ∧ ((linked.mem.writeLink 260096 0 none (some 5)).follow 260096 0 (some 5)).2 = .fin) ∧
    (((linked.mem.writeLink 260096 0 (some 260096) (some 5)).follow 260096 0 (some 5)).2 = .error) ∧
    (((linked.mem.upset (260096 * 512 + 1, .multi)).follow 260096 0 (some 5)).2 = .error) := by
  decide +kernel

theorem witness_FaultDropsWaitingWork_stop :
    (({ up with engine := { up.engine with queue := [copyOut] } } : Chip).engine.queue.any (fun t => t.slot == 0) = true) ∧
    (up.engine.queue = [] ∧ (busy up (Context.start copyOut)).engine.queue = []) ∧
    (((busy up (Context.start copyOut)).ctx 0).transfer = some copyOut ∧ copyOut.slot = 0 ∧ ((busy up (Context.start copyOut)).ctx 0).state = .running) ∧
    (((busy up { Context.start copyOut with state := .finishing }).ctx 0).state ≠ .running) := by
  decide +kernel

theorem witness_HostAccessEnds_words :
    ((Context.start copyParts).reads[0]? = some { addr := 4096, off := 0, len := 3, list := false } ∧ (Context.start copyParts).state = .running ∧ (Context.start copyParts).transfer = some copyParts) ∧
    (partRead.reads[0]? = some { addr := 8192, off := 3, len := 5, list := false } ∧ partRead.state = .running ∧ partRead.transfer = some copyParts) ∧
    (({ Context.start writeOut with state := .finishing } : Context).writes = { addr := 4096, data := [1, 2], record := 0 } :: [] ∧ (writing false).link.up = false) ∧
    ((4096 : HostAddr) ≠ 8192 ∧ ([1, 2, 3] : List Byte).length = 3 ∧ ([4, 5, 6, 7, 8] : List Byte).length = 5) := by
  decide +kernel

theorem witness_BufferReadEndOfAFetchCopy_delivery :
    (inHand.header = some { kind := .normal, length := 16, tag := 9 } ∧ inHand.left = 0) ∧
    ((Context.start copyOut).bufReads ≠ []) ∧
    (({ inHand with left := 8 } : Progress).left ≠ 0 ∧ inHand.seq + 1 ≤ 1) ∧
    ((1 : Nat) ≤ 0 + 1 ∧ RecordKind.voidDamaged ≠ .normal) ∧
    (16 + ([1, 2] : List Byte).length ≤ (([seg, seg].map Segment.len).sum)) ∧
    (([5, 6] : List Byte).length + 30 ≤ ([seg, seg].map Segment.len).sum ∧ runWrites [seg, { addr := 8192, len := 16 }] 15 [5, 6] 3 = [{ addr := 4111, data := [5], record := 3 }, { addr := 8192, data := [6], record := 3 }]) := by
  decide +kernel

theorem witness_NoticesArePostedAndServed :
    ((posted 14).canPost 1 = true ∧ (posted 15).canPost 1 = false ∧ (inState .quiescing).canPost 1 = false) ∧
    (13 + 0 + 2 < ((posted 13).cmpRing 1).size) ∧
    (¬ (14 + 0 + 2 < ((posted 14).cmpRing 1).size)) ∧
    (((holding { opened with noticeRing := none }).stream 5).noticeRing = none) ∧
    (((holding latchedBoth).stream 5).noticeRing = some 1 ∧ (holding latchedBoth).canPost 1 = true ∧ latchedBoth.readyLatch = true ∧ latchedBoth.occLatch ≠ none ∧ latchedBoth.faultLatch = none) ∧
    (({ latchedBoth with readyLatch := false } : StreamEntry).readyLatch = false) ∧
    (({ latchedBoth with occLatch := none } : StreamEntry).occLatch = none) ∧
    (({ opened with state := .faulted, faultLatch := some .chainLink } : StreamEntry).occLatch = none ∧ opened.readyLatch = false) ∧
    (faultyRings.canPost 0 = true ∧ (faultyRings.reqRing 1).fault ≠ none ∧ (faultyRings.cmpRing 1).fault ≠ none ∧ (up.reqRing 1).fault = none ∧ (up.cmpRing 1).fault = none) ∧
    ((1 : RingId) ≠ 0 ∧ (0 : RingId) = 0) := by
  decide +kernel

/-- A full ring's service posts nothing, so a latch stays pending after it. -/
theorem witness_NoticesArePostedAndServed_full :
    ∃ i, (((fullRing.service 1).stream i).noticeRing = some 1 ∧ ((fullRing.service 1).stream i).readyLatch = true) ∧
      (fullRing.service 1).canPost 1 = false := by
  have h : fullRing.canPost 1 = false := by decide +kernel
  rw [Chip.service_full fullRing 1 (by decide) h]
  exact ⟨5, by decide +kernel, h⟩

theorem witness_InitEndBuildsThePoolOrHalts_link :
    ((260095 : Nat) < 2 ^ 32 ∧ (1046527 : Nat) < 2 ^ 32) ∧
    (encodeLink (some 1) (some 5) = 0x0000000500000001 ∧ encodeLink none none = 0xFFFFFFFFFFFFFFFF) := by
  decide +kernel

theorem witness_AllocationByQuotaAndRoom_unmet :
    (opened.state = .opened ∧ ({ opened with reserve := 2 } : StreamEntry).unmet = 2 ∧ ({ filled with reserve := 2 } : StreamEntry).unmet = 1 ∧ ({ twoPages with reserve := 1 } : StreamEntry).unmet = 0) ∧
    (({ filled with state := .closing, reserve := 2 } : StreamEntry).unmet = 0 ∧ ({ filled with state := .held, reserve := 2 } : StreamEntry).unmet = 1) := by
  decide +kernel

theorem witness_AppendCopyEndMarksAndWalks_rewrite :
    (stocked.mem.wf = true ∧ (stocked.mem.readHeader 5 0 0 0).2 = some { kind := .normal, length := 16, tag := 9 } ∧ 0 < 2 ^ 48) ∧
    (((stocked.mem.rewriteKind 0 0 0 .voidDamaged).readHeader 5 0 0 0).2 = some { kind := .voidDamaged, length := 16, tag := 9 }) := by
  decide +kernel

theorem witness_TransfersStartAndEnd_run :
    (16 ≤ ([seg].map Segment.len).sum) ∧
    (payloadReads [{ addr := 4096, len := 3 }, { addr := 0, len := 0 }, { addr := 8192, len := 5 }] 8 = [{ addr := 4096, off := 0, len := 3, list := false }, { addr := 8192, off := 3, len := 5, list := false }]) := by
  decide +kernel

/-- The figures of a fetch copy's end count the records up to the first one not written in full. -/
theorem test_endReport_figures :
    let sent : Issued := { footprint := 32, isVoid := true, converted := true, unsent := 0, failed := false }
    let x : Context :=
      { Context.start copyOut with
        progress := { Progress.start with
          issued := [sent, { sent with isVoid := false, converted := false, footprint := 48 }, { sent with failed := true }, sent] } }
    (x.endReport copyOut).count = 2 ∧ (x.endReport copyOut).bytes = 80 ∧ (x.endReport copyOut).voids = 1 ∧
      (x.endReport copyOut).converted = true := by
  decide +kernel

theorem witness_HostAccessEnds_list :
    (listEntries 1 [0, 16, 0, 0, 0, 0, 0, 0, 48, 0, 0, 0, 9, 9, 9, 9] = [{ addr := 4096, len := 48 }] ∧ ([0, 16, 0, 0, 0, 0, 0, 0, 48, 0, 0, 0, 9, 9, 9, 9] : List Byte).length = 16) ∧
    (listEntries 2 ([0, 16, 0, 0, 0, 0, 0, 0, 48, 0, 0, 0, 9, 9, 9, 9] ++ [0, 0, 1, 0, 0, 0, 0, 128, 0, 1, 0, 0, 0, 0, 0, 0]) = [{ addr := 4096, len := 48 }, { addr := 0x8000000000010000, len := 256 }]) ∧
    (appendSegmentsOk 48 [{ addr := 4096, len := 48 }] = true ∧ appendSegmentsOk 48 [{ addr := 4097, len := 48 }] = false ∧ appendSegmentsOk 47 [{ addr := 4096, len := 48 }] = false) ∧
    (fetchSegmentsOk [{ addr := 4096, len := 48 }] = true ∧ fetchSegmentsOk [{ addr := 4096, len := 0 }] = false) := by
  decide +kernel

theorem witness_AppendAdmissionGivesSequenceAndPages_moved :
    (let st : StreamEntry := { filled with tail := 4096, read := 1, readLoc := .at 0 4096, marks := [{ pos := 1, loc := .at 0 4096 }], active := some { fetching false with endLoc := .at 0 4096 } }; let e := st.afterAdmission [1] 16 0; e.readLoc = .at 1 0 ∧ e.baseLoc = .at 0 0 ∧ e.marks = [{ pos := 1, loc := .at 1 0 }] ∧ e.active.map ActiveFetch.endLoc = some (.at 1 0) ∧ e.tail = 32) ∧
    ((opened.afterAdmission [3] 16 0).baseLoc = .at 3 0) := by
  decide +kernel

theorem witness_StreamFlushDiscardsAndEnds_tail :
    (opened.chain.getLast? = none) ∧
    (filled.chain.getLast? = some 0 ∧ filled.tail = 32) := by
  decide +kernel

/-! ### Breaks, link errors and unsound headers -/

/-- A part whose pages 0, 1 and 2 are a chain of stream 5, OPEN; the link table entries of the pages in `bad` are
uncorrectable, and with each the link that names its page (R87). -/
def threePages (bad : List Nat) : Chip :=
  let c := ((up.writeLink 0 (some 1) (some 5)).writeLink 1 (some 2) (some 5)).writeLink 2 none (some 5)
  ({ c with mem := bad.foldl (fun m p => m.upset (260096 * 512 + p, .multi)) c.mem }).setStream 5
    { twoPages with chain := [0, 1, 2], base := 2, read := 2, frontier := 2, admitted := [], state := .flushing }

/-- A break at the first page of a list. -/
theorem firstBreak_head {i : StreamId} {pages : List Nat} {linked p : Nat} {x : Nat → Chip} (h : pages[0]? = some p)
    (hl : 0 < linked) (hn : ((x 0).followChain i p).2 = none) : FirstBreak i pages linked x 0 p :=
  ⟨h, hl, hn, fun m _ hm => absurd hm (Nat.not_lt_zero m)⟩

/-- A break at the second page of a list. -/
theorem firstBreak_next {i : StreamId} {pages : List Nat} {linked p q : Nat} {x : Nat → Chip} (h0 : pages[0]? = some q)
    (h : pages[1]? = some p) (hl : 1 < linked) (hq : ((x 0).followChain i q).2 ≠ none)
    (hn : ((x 1).followChain i p).2 = none) : FirstBreak i pages linked x 1 p :=
  ⟨h, hl, hn, fun m r hm hr => by
    obtain rfl : m = 0 := by omega
    rw [h0] at hr
    cases hr
    exact hq⟩

theorem witness_PageReturnReturnsUpToTheFirstStop_break :
    FirstBreak 5 [0, 1, 2] 2 (fun n => (threePages [1]).headsTaken 5 n) 0 0 ∧
    FirstBreak 5 [0, 1, 2] 2 (fun n => (threePages [2]).headsTaken 5 n) 1 1 ∧
    (((threePages [1]).stream 5).isStop 0 = false ∧ ((threePages [2]).stream 5).isStop 1 = false) ∧
    (((threePages [1]).pageReturnRun 5).broken = some 0 ∧ ((threePages [1]).pageReturnRun 5).returned = 0) ∧
    (((threePages [2]).pageReturnRun 5).broken = some 1 ∧ ((threePages [2]).pageReturnRun 5).returned = 1) ∧
    (((threePages []).pageReturnRun 5).broken = none ∧ ((threePages []).pageReturnRun 5).returned = 3) ∧
    (((threePages [2]).returnAll 5).2 = true ∧ ((threePages [2]).returnAll 5).1.pool.lost = 1 ∧
      ((threePages []).returnAll 5).2 = false) := by
  refine ⟨firstBreak_head ?_ ?_ ?_, firstBreak_next (q := 0) ?_ ?_ ?_ ?_ ?_, ?_⟩ <;> decide +kernel

theorem witness_PageReturnReturnsUpToTheFirstStop_truncation :
    FirstBreak 5 [0, 1] 2 (fun n => (threePages [2]).linksFollowed 5 ([0, 1].take n)) 1 1 ∧
    (((threePages [2]).truncateTail 5 2).2 = some 1 ∧ ((threePages [1]).truncateTail 5 1).2 = some 0) ∧
    (((threePages []).truncateTail 5 2).2 = none ∧ [0, 1, 2].takeWhile (fun p => p != 2) = [0, 1]) ∧
    ((((threePages [2]).linksFollowed 5 [0]).followChain 5 1).2 = none ∧ ((threePages [2]).truncateTail 5 1).2 = some 1) ∧
    FirstBreak 5 [1, 2] 1 (fun n => ((threePages [2]).followChain 5 0).1.tailDropped 5 0 [1, 2] n) 0 1 ∧
    (((threePages [2]).truncateTail 5 0).2 = some 1 ∧ ((threePages []).truncateTail 5 0).2 = none) := by
  refine ⟨firstBreak_next (q := 0) ?_ ?_ ?_ ?_ ?_, ?_, ?_, ?_, firstBreak_head ?_ ?_ ?_, ?_⟩ <;> decide +kernel

theorem witness_AllocationByQuotaAndRoom_linkError :
    ((badFreeList.freeAt 0).1 = some 0 ∧ ((badFreeList.freeAt 0).2.follow 260096 0 none).2 = .error) ∧
    (let c : Chip := { up with mem := up.mem.upset (260096 * 512 + 1, .multi) };
      isLinkError ((c.setStream 5 opened).allocate 5 1) = true ∧ isLinkError ((c.setStream 5 opened).allocate 5 2) = true ∧
        (c.freeAt 1).1 = none) ∧
    (let c : Chip := { up with mem := up.mem.upset (260096 * 512 + 2, .multi) };
      isLinkError ((c.setStream 5 opened).allocate 5 1) = false ∧ isLinkError ((c.setStream 5 opened).allocate 5 2) = true ∧
        (c.freeAt 1).1 = some 1 ∧ ((c.freeAt 1).2.follow 260096 1 none).2 = .error) ∧
    (let c : Chip := { lastFree with pool := { lastFree.pool with free := 2 } };
      isLinkError ((c.setStream 5 opened).allocate 5 2) = true ∧ (c.freeAt 0).1 = some 260095 ∧ (c.freeAt 1).1 = none) ∧
    (opened.quota = 16 ∧ opened.unmet = 0 ∧ (lastFree.freeAt 1).1 = none ∧ (up.freeAt 16).1 = some 16) := by
  decide +kernel

/-- A part whose page 0 ends with record 0 of stream 5, footprint 32, and whose page 1 begins with record 1. -/
def pageEnd (c : Chip) : Chip := { c with mem := (c.mem.writeHeader 0 4064 0 16 9 5).writeHeader 1 0 1 16 9 5 }

/-- Where a walk over those records starts. -/
def pageEndStart (c : Chip) : WalkPlace := { chip := pageEnd c, page := 0, offset := 4064 }

theorem witness_GrantByItsSizing_walk :
    (((pageEndStart linked).header 5 0).2.isSome = true ∧ (pageEndStart linked).size 5 0 = 32 ∧
      (pageEndStart linked).hops 5 2 0 = 1 ∧ (pageEndStart linked).hops 5 1 0 = 0 ∧
      (pageEndStart linked).link 5 0 0 = some 1) ∧
    (((pageEndStart linked).after 5 2 0 1).page = 1 ∧ ((pageEndStart linked).after 5 2 0 1).offset = 0 ∧
      (((pageEndStart linked).after 5 2 0 1).header 5 1).2.isSome = true) ∧
    (sizingCase (sizeWalk 5 64 2 2 (pageEnd linked) 0 0 4064 0 0) = 2 ∧
      sizingCase (sizeWalk 5 32 2 2 (pageEnd linked) 0 0 4064 0 0) = 2 ∧
      sizingCase (sizeWalk 5 31 2 2 (pageEnd linked) 0 0 4064 0 0) = 1) ∧
    ((pageEndStart up).link 5 0 0 = none ∧ ((pageEndStart up).header 5 0).2.isSome = true ∧
      sizingCase (sizeWalk 5 64 2 2 (pageEnd up) 0 0 4064 0 0) = 0 ∧
      sizingCase (sizeWalk 5 64 1 1 (pageEnd up) 0 0 4064 0 0) = 2) ∧
    (((pageEndStart linked).header 5 1).2 = none ∧ sizingCase (sizeWalk 5 63 3 3 (pageEnd linked) 0 0 4064 0 0) = 2 ∧
      sizingCase (sizeWalk 5 96 3 3 (pageEnd linked) 0 0 4064 0 0) = 0) := by
  decide +kernel

/-! ### Abandoned contexts, reported ends, and requests at their owners -/

theorem witness_ControllerResetStartsTheQuiesce_abandon :
    (Context.free.state = .free ∧ (doneIn .abandoning).state = .abandoning) ∧
    ((Context.start copyIn).state = .running ∧ (Context.start copyIn).reads ≠ [] ∧
      (Context.start copyIn).abandon.state = .abandoning ∧ (Context.start copyIn).abandon.reads = (Context.start copyIn).reads) ∧
    ((doneIn .finishing).state = .finishing ∧ (doneIn .finishing).reads = [] ∧ (doneIn .finishing).writes = [] ∧
      (doneIn .finishing).bufReads = [] ∧ (doneIn .finishing).bufWrites = [] ∧ (doneIn .finishing).abandon = Context.free) ∧
    (gives (exec (.controllerReset false []) (alone (busy up (Context.start copyIn)))) fun t =>
      t.ctl.state == .quiescing && (t.toChip.ctx 0).state == .abandoning) = true := by
  decide +kernel

theorem witness_RegisterReadsGiveTheFields_unnamed :
    ((27 : Nat) % 4 ≠ 0 ∧ (258 : Nat) % 4 ≠ 0 ∧ (511 : Nat) % 4 ≠ 0 ∧ (1 : Nat) % 4 ≠ 0) ∧
    ((inState .halted).readReg 4 = 52 ∧ (inState .quiescing).readReg 4 = 3 ∧ up.readReg 0 = 1) := by
  decide +kernel

theorem witness_TransfersStartAndEnd_ends :
    (((reported up .append .ok).report (ending .fetch .ok)).engine.ends = [ending .append .ok, ending .fetch .ok]) ∧
    (let c := ((reported up .append .ok).report (ending .fetch .ok)).report (ending .report .ok);
      c.endOf .fetch 0 = some (ending .fetch .ok) ∧ c.endOf .list 0 = none ∧ c.endOf .fetch 1 = none ∧
        (c.dropEnd .fetch 0).engine.ends = [ending .append .ok, ending .report .ok] ∧
        c.engine.ends = [ending .append .ok] ++ ending .fetch .ok :: [ending .report .ok]) := by
  decide +kernel

/-- The part with requests of three owners handed over, the Stream Controller's two in slots 1 and 0, in this order. -/
def handedOver : Chip :=
  { up with
    rings := { up.rings with
      table := [slotOf 0 1 .decoding (req .mark 5 0), slotOf 1 1 .decoding (req appendBody 5 3),
        slotOf 2 0 .decoding (req (.cancel 1 7) 0 0)]
      arrived := [2, 1, 0] } }

theorem witness_EntryReadEndTakesOrDiscards_owners :
    (handedOver.current .streamController = some (1, req appendBody 5 3) ∧
      handedOver.current .ringEngine = some (2, req (.cancel 1 7) 0 0) ∧ handedOver.current .controller = none) ∧
    (handedOver.rings.arrived = [2] ++ 1 :: [0] ∧ 1 ∉ [2] ∧ 1 ∉ [0] ∧
      ((alone handedOver).taking [] 1).rings.arrived = [2, 0] ∧
      ((alone handedOver).taking [] 1).current .streamController = some (0, req .mark 5 0)) := by
  decide +kernel

end Sys2Proof.Machine.Tests
end

section
/-! STREAM_OPEN of a CLOSED stream (R9 to R11), on facts that serve every request handed to an owner: what an owner with a request
does, what it finds, when the stream checks pass, and what the checks of a settings block say. -/

namespace Sys2Proof.Machine

/-! ### A request at its owner -/

/-- The owner of the oldest request does what its action gives for that request. -/
theorem Chip.serve_of_serving {c t : Chip} {o : Owner} {id : Nat} {q : Request}
    {act : Nat → Request → Chip → Option Chip} (h : c.Serving o id q) (ht : act id q (c.dropArrived id) = some t) :
    c.serve o act = t := by
  simp [Chip.serve, h.active, h.current, ht]

/-- A request that passes the stream id and state checks gets its action (R8, R9). -/
theorem Chip.onStream_of_passes {c : Chip} {id : Nat} {q : Request} {g : RequestGroup} {act : StreamId → Chip} {i : StreamId}
    (hq : q.stream = some i) (h : stateCheck g (c.stream i).state = none) : c.onStream id q g act = act i := by
  simp [Chip.onStream, hq, h]

@[simp] theorem State.taking_pool (s : State) (u : Upsets) (id : Nat) : (s.taking u id).pool = s.toChip.pool := rfl
@[simp] theorem State.taking_stream (s : State) (u : Upsets) (id : Nat) (j : StreamId) :
    (s.taking u id).stream j = s.toChip.stream j := rfl
@[simp] theorem State.taking_cmpRing (s : State) (u : Upsets) (id : Nat) (n : RingId) :
    (s.taking u id).cmpRing n = s.toChip.cmpRing n := rfl
@[simp] theorem State.taking_sharedFree (s : State) (u : Upsets) (id : Nat) :
    (s.taking u id).sharedFree = s.toChip.sharedFree := rfl

/-! ### Ring numbers and settings blocks (R4) -/

@[simp] theorem ringOf_val (r : RingId) : ringOf r.val = some r := by simp [ringOf, r.isLt]

theorem ringOf_eq_some_iff {n : Nat} {r : RingId} : ringOf n = some r ↔ n = r.val := by
  constructor
  · intro h
    unfold ringOf at h
    split at h
    · exact congrArg Fin.val (Option.some.inj h)
    · cases h
  · rintro rfl
    exact ringOf_val r

theorem Chip.cmpActive_iff (c : Chip) (n : Nat) :
    c.cmpActive n = true ↔ ∃ r : RingId, n = r.val ∧ (c.cmpRing r).state = .active := by
  simp only [← ringOf_eq_some_iff]
  cases h : ringOf n <;> simp [Chip.cmpActive, h]

theorem SettingsBlock.inRange_iff (b : SettingsBlock) (usable : Nat) :
    b.inRange usable = true ↔
      (b.mode = 0 ∨ b.mode = 1) ∧ (b.durable = 0 ∨ b.durable = 1) ∧ 1 ≤ b.quota ∧ b.quota ≤ usable ∧
        b.reserve ≤ b.quota ∧ b.pressureLevel ≤ b.quota ∧ (b.pressureLevel = 0 → b.reliefLevel = 0) ∧
        (b.pressureLevel ≠ 0 → b.reliefLevel < b.pressureLevel) := by
  by_cases hp : b.pressureLevel = 0 <;> simp [SettingsBlock.inRange, hp, Nat.le_one_iff_eq_zero_or_eq_one, and_assoc]

/-! ### STREAM_OPEN -/

theorem Chip.openBlockOk_iff (c : Chip) (b : SettingsBlock) :
    c.openBlockOk b = true ↔ b.inRange c.pool.usable = true ∧ b.initial ≤ 2 ^ 48 - 2 ∧
      ∃ r : RingId, b.noticeRing = r.val ∧ (c.cmpRing r).state = .active := by
  have hmax : Config.maxInitial = 2 ^ 48 - 2 := rfl
  simp only [Chip.openBlockOk, Bool.and_eq_true, decide_eq_true_iff, Chip.cmpActive_iff, hmax, and_assoc]

theorem Chip.openStream_badField {c : Chip} {i : StreamId} {id : Nat} {b : SettingsBlock} (h : c.openBlockOk b = false) :
    c.openStream i id b = c.refuse id .badField := by
  simp [Chip.openStream, h]

theorem Chip.openStream_noReserve {c : Chip} {i : StreamId} {id : Nat} {b : SettingsBlock} (h : c.openBlockOk b = true)
    (hr : c.sharedFree < b.reserve) : c.openStream i id b = c.refuse id .noReserve := by
  simp [Chip.openStream, h, hr]

theorem Chip.openStream_opens {c : Chip} {i : StreamId} {id : Nat} {b : SettingsBlock} (h : c.openBlockOk b = true)
    (hr : b.reserve ≤ c.sharedFree) :
    c.openStream i id b = (c.setStream i b.opened).answer id fun q => q.positions .ok b.initial b.initial := by
  simp [Chip.openStream, h, Nat.not_lt.mpr hr]

/-- STREAM_OPEN on a CLOSED stream runs the checks and the open of R10 and R11 on the part its owner finds. -/
theorem exec_streamOpen_of_closed {s : State} {id : Nat} {q : Request} {i : StreamId} {b : SettingsBlock}
    (hs : s.toChip.ServingStream id q i) (hq : q.body = .streamOpen b) (hc : (s.toChip.stream i).state = .closed) :
    exec .streamOpen s = .next (s.withChip ((s.taking [] id).openStream i id b)) := by
  have hpass : stateCheck .open_ ((s.taking [] id).stream i).state = none := by rw [State.taking_stream, hc]; rfl
  have hact : streamOpenAct id q (s.taking [] id) = some ((s.taking [] id).openStream i id b) := by
    simp only [streamOpenAct, hq, Chip.onStream_of_passes hs.stream hpass]
  have hserve := Chip.serve_of_serving hs.serving hact
  calc exec .streamOpen s
      = .next (s.withChip (s.toChip.serve .streamController streamOpenAct)) := rfl
    _ = .next (s.withChip ((s.taking [] id).openStream i id b)) := by rw [hserve]

/-- Settles O29: the settings block is judged by `Chip.openBlockOk_iff`, and each outcome is the branch of the open it selects. -/
theorem streamOpenChecksAndMakesTheEntry : Obligations.StreamOpenChecksAndMakesTheEntry := by
  intro s id q i b hs hq hc c valid
  have hexec : exec .streamOpen s = .next (s.withChip (c.openStream i id b)) := exec_streamOpen_of_closed hs hq hc
  have hfree : c.sharedFree = s.toChip.sharedFree := s.taking_sharedFree [] id
  have hvalid : c.openBlockOk b = true ↔ valid := by
    rw [Chip.openBlockOk_iff, SettingsBlock.inRange_iff]
    simp only [valid, c, State.taking_pool, State.taking_cmpRing, and_assoc]
  refine ⟨fun hv => ?badField, fun hv hr => ?noReserve, fun n hv hr hn => ?opens⟩
  case badField =>
    rw [hexec, Chip.openStream_badField (Bool.eq_false_iff.mpr fun h => hv (hvalid.mp h))]
  case noReserve =>
    rw [hexec, Chip.openStream_noReserve (hvalid.mpr hv) (hfree ▸ hr)]
  case opens =>
    rw [hexec, Chip.openStream_opens (hvalid.mpr hv) (hfree ▸ hr), SettingsBlock.opened, hn, ringOf_val]
    rfl

end Sys2Proof.Machine
end

section
/-! The placement of a record at the tail of a stream (R32), on what each function of the rule says: the page count of a byte
count, the bytes left in the last page, the page need, the new tail offset, and the run of pages the record takes. -/

namespace Sys2Proof.Machine

/-! ### Page counts -/

theorem pagesFor_eq (n : Nat) : pagesFor n = (n + 4095) / 4096 := rfl

theorem pagesFor_eq_zero_iff (n : Nat) : pagesFor n = 0 ↔ n = 0 := by rw [pagesFor_eq]; omega

/-- Of `n ≥ 1` bytes that fill pages from byte 0, the last page holds 1 to 4,096. -/
theorem bytesInLastPage_mem {n : Nat} (h : 1 ≤ n) :
    1 ≤ n - (pagesFor n - 1) * 4096 ∧ n - (pagesFor n - 1) * 4096 ≤ 4096 := by
  rw [pagesFor_eq]; omega

/-! ### Bytes left in the last page -/

theorem StreamEntry.room_of_chain_nil {st : StreamEntry} (h : st.chain = []) : st.room = 0 := by
  simp [StreamEntry.room, h]

theorem StreamEntry.room_of_last {st : StreamEntry} {last : Nat} (h : st.chain.getLast? = some last) :
    st.room = 4096 - st.tail := by
  have hne : st.chain ≠ [] := fun hnil => by simp [hnil] at h
  simp [StreamEntry.room, hne, Config.pageBytes]

theorem StreamEntry.room_le (st : StreamEntry) : st.room ≤ 4096 - st.tail := by
  unfold StreamEntry.room
  split
  · exact Nat.zero_le _
  · exact Nat.le_refl _

/-! ### Page need and new tail offset -/

theorem StreamEntry.need_eq (st : StreamEntry) (f : Nat) : st.need f = (f - st.room + 4095) / 4096 := rfl

theorem StreamEntry.need_eq_zero_iff (st : StreamEntry) (f : Nat) : st.need f = 0 ↔ f ≤ st.room :=
  (pagesFor_eq_zero_iff _).trans Nat.sub_eq_zero_iff_le

theorem StreamEntry.tailAfter_of_fits {st : StreamEntry} {f : Nat} (h : f ≤ st.room) : st.tailAfter f = st.tail + f :=
  if_pos ((st.need_eq_zero_iff f).mpr h)

theorem StreamEntry.tailAfter_of_runsOver {st : StreamEntry} {f : Nat} (h : st.room < f) :
    st.tailAfter f = f - st.room - (st.need f - 1) * 4096 :=
  if_neg fun h0 => Nat.not_le.mpr h ((st.need_eq_zero_iff f).mp h0)

/-- A record that fits ends inside the last page; one that runs over ends inside its last new page. -/
theorem StreamEntry.tailAfter_mem {st : StreamEntry} {f : Nat} (hf : 1 ≤ f) :
    1 ≤ st.tailAfter f ∧ st.tailAfter f ≤ 4096 := by
  rcases Nat.lt_or_ge st.room f with hover | hfits
  · rw [tailAfter_of_runsOver hover]
    exact bytesInLastPage_mem (Nat.sub_pos_of_lt hover)
  · have hroom := st.room_le
    rw [tailAfter_of_fits hfits]
    omega

/-! ### The place of a record -/

theorem StreamEntry.rangeOf_of_chain_nil {st : StreamEntry} (h : st.chain = []) (ps : List Nat) :
    st.rangeOf ps = (ps, 0) := by
  simp [StreamEntry.rangeOf, h]

theorem StreamEntry.rangeOf_of_lastFull {st : StreamEntry} {last : Nat} (h : st.chain.getLast? = some last)
    (ht : st.tail = 4096) (ps : List Nat) : st.rangeOf ps = (ps, 0) := by
  simp [StreamEntry.rangeOf, h, ht, Config.pageBytes]

theorem StreamEntry.rangeOf_of_lastNotFull {st : StreamEntry} {last : Nat} (h : st.chain.getLast? = some last)
    (ht : st.tail < 4096) (ps : List Nat) : st.rangeOf ps = (last :: ps, st.tail) := by
  simp [StreamEntry.rangeOf, h, Nat.ne_of_lt ht, Config.pageBytes]

/-- Settles O37: an empty chain has no room and a last page has `4096 - tail`, which gives the three cases of R32; the tail range
is `StreamEntry.tailAfter_mem`. -/
theorem pageNeedByTailOffset : Obligations.PageNeedByTailOffset := by
  intro st f hf k tail room
  refine ⟨fun hnil => ?emptyChain, fun last hlast _ hfits => ?fits, fun last hlast _ hover => ?runsOver,
    fun _ => StreamEntry.tailAfter_mem hf⟩
  case emptyChain =>
    have hroom : st.room = 0 := StreamEntry.room_of_chain_nil hnil
    have htail := StreamEntry.tailAfter_of_runsOver (st := st) (f := f) (hroom ▸ hf)
    have hneed := st.need_eq f
    rw [hroom] at hneed htail
    exact ⟨hneed, htail, StreamEntry.rangeOf_of_chain_nil hnil⟩
  case fits =>
    have hroom : st.room = room := StreamEntry.room_of_last hlast
    have hnotFull : st.tail < 4096 := Nat.lt_of_sub_pos (Nat.lt_of_lt_of_le hf hfits)
    exact ⟨(st.need_eq_zero_iff f).mpr (hroom ▸ hfits), StreamEntry.tailAfter_of_fits (hroom ▸ hfits),
      StreamEntry.rangeOf_of_lastNotFull hlast hnotFull []⟩
  case runsOver =>
    have hroom : st.room = room := StreamEntry.room_of_last hlast
    have htail := StreamEntry.tailAfter_of_runsOver (st := st) (f := f) (hroom ▸ hover)
    have hneed := st.need_eq f
    rw [hroom] at hneed htail
    exact ⟨hneed, htail, StreamEntry.rangeOf_of_lastNotFull hlast, StreamEntry.rangeOf_of_lastFull hlast⟩

end Sys2Proof.Machine
end

section
/-! One evaluation of the head of the waiting-fetch list (R53): a head that leaves the list leaves the rest of it behind, so the
evaluation of the new head is again an evaluation of the stream's head. -/

namespace Sys2Proof.Machine

/-! ### What is left of the list when its head completes -/

/-- Answering the request of the head that left the list changes no stream entry. -/
@[simp] theorem Chip.answer_stream (c : Chip) (id : Nat) (f : Request → Completion) (j : StreamId) :
    (c.answer id f).stream j = c.stream j := (c.answer_rings id f).stream j

theorem Chip.modStream_answer_waitF (c : Chip) (i : StreamId) (rest : List WaitingFetch) (id : Nat)
    (f : Request → Completion) :
    (((c.modStream i fun st => { st with waitF := rest }).answer id f).stream i).waitF = rest := by simp

/-- A grant asks for a new head only when the footprint exceeded the capacity, and the head has then left the list (R54). -/
theorem Chip.grant_waitF {c : Chip} {i : StreamId} {h : WaitingFetch} {rest : List WaitingFetch} {short : Bool}
    (hnew : (c.grant i h rest short).2 = true) : ((c.grant i h rest short).1.stream i).waitF = rest := by
  revert hnew
  unfold Chip.grant
  dsimp only
  split
  case h_1 => exact nofun
  case h_2 c1 f _ => exact fun _ => c1.modStream_answer_waitF i rest h.slot _
  case h_3 => exact nofun

/-! ### The fuel of an evaluation is the length of the list -/

theorem evalHeads_eq_evalHead {d : Chip} {i : StreamId} {ws : List WaitingFetch} (h : (d.stream i).waitF = ws) :
    evalHeads ws.length i d = d.evalHead i := by rw [Chip.evalHead, h]

/-- The evaluation of the new head after a grant, when the grant asks for it. -/
def Chip.evalNewHead (i : StreamId) (r : Chip × Bool) : Chip := if r.2 then r.1.evalHead i else r.1

theorem Chip.evalHeads_grant (c : Chip) (i : StreamId) (h : WaitingFetch) (rest : List WaitingFetch) (short : Bool) :
    (if (c.grant i h rest short).2 then evalHeads rest.length i (c.grant i h rest short).1
      else (c.grant i h rest short).1) = Chip.evalNewHead i (c.grant i h rest short) := by
  unfold Chip.evalNewHead
  split
  next hnew => exact evalHeads_eq_evalHead (Chip.grant_waitF hnew)
  next => rfl

/-! ### The decision (R53) -/

/-- With a fetch active no head is evaluated, whatever the fuel. -/
theorem evalHeads_of_fetchActive {c : Chip} {i : StreamId} (h : (c.stream i).active ≠ none) (fuel : Nat) :
    evalHeads fuel i c = c := by
  cases fuel with
  | zero => rfl
  | succ fuel => exact if_neg fun hready => h hready.2.2

/-- Stream `i` has the waiting-fetch head `h` and nothing keeps it from being evaluated. -/
structure Chip.HeadReady (c : Chip) (i : StreamId) (h : WaitingFetch) (rest : List WaitingFetch) : Prop where
  active : c.isActive = true
  opened : (c.stream i).state = .opened
  idle : (c.stream i).active = none
  waiting : (c.stream i).waitF = h :: rest

/-- The NO_DATA completion of the head `h` at the read position (R53, R64). -/
def Chip.answerNoData (c : Chip) (i : StreamId) (h : WaitingFetch) (rest : List WaitingFetch) : Chip :=
  (c.modStream i fun st => { st with waitF := rest }).answer h.slot fun q =>
    { code := Status.noData.code, commandId := q.commandId, streamId := q.streamId, posA := (c.stream i).read }

theorem Chip.answerNoData_waitF (c : Chip) (i : StreamId) (h : WaitingFetch) (rest : List WaitingFetch) :
    ((c.answerNoData i h rest).stream i).waitF = rest := c.modStream_answer_waitF i rest h.slot _

theorem Chip.HeadReady.evalHead_eq {c : Chip} {i : StreamId} {h : WaitingFetch} {rest : List WaitingFetch}
    (r : c.HeadReady i h rest) :
    c.evalHead i =
      if h.minRecords ≤ (c.stream i).frontier - (c.stream i).read then Chip.evalNewHead i (c.grant i h rest false)
      else if h.wait = 0 then
        if 1 ≤ (c.stream i).frontier - (c.stream i).read then Chip.evalNewHead i (c.grant i h rest true)
        else (c.answerNoData i h rest).evalHead i
      else c := by
  have hready : c.isActive = true ∧ (c.stream i).state = .opened ∧ (c.stream i).active = none :=
    ⟨r.active, r.opened, r.idle⟩
  rw [← c.evalHeads_grant, ← c.evalHeads_grant, ← evalHeads_eq_evalHead (c.answerNoData_waitF i h rest),
    Chip.evalHead, r.waiting, List.length_cons, evalHeads]
  simp only [if_pos hready, r.waiting]
  rfl

/-- Settles O43: an active fetch stops the evaluation, and without one each clause is the branch of `Chip.HeadReady.evalHead_eq`
that its premises select. -/
theorem headEvaluationDecides : Obligations.HeadEvaluationDecides := by
  intro c i h rest st available hactive hopened hwaiting again
  have decision (hidle : st.active = none) := Chip.HeadReady.evalHead_eq ⟨hactive, hopened, hidle, hwaiting⟩
  refine ⟨fun hfetch => ?fetchActive, fun hidle hmin => ?granted, fun hidle hmin hwait hsome => ?grantedShort,
    fun hidle hmin hwait hnone => ?noData, fun hidle hmin hwait => ?stays⟩
  case fetchActive => exact evalHeads_of_fetchActive hfetch _
  case granted => exact (decision hidle).trans (if_pos hmin)
  case grantedShort =>
    rw [decision hidle, if_neg (Nat.not_le.mpr hmin), if_pos hwait, if_pos hsome]
    rfl
  case noData =>
    rw [decision hidle, if_neg (Nat.not_le.mpr hmin), if_pos hwait, if_neg (Nat.not_le.mpr (Nat.lt_one_iff.mpr hnone))]
    rfl
  case stays => rw [decision hidle, if_neg (Nat.not_le.mpr hmin), if_neg hwait]

end Sys2Proof.Machine
end

section
/-! MARK and REWIND on an OPEN stream in RETAIN (R71, R73 to R75): what the Stream Controller does with a request it takes, then one
fact for each row of the rules. -/

namespace Sys2Proof.Machine

/-! ### A stream request taken by the Stream Controller -/

/-- Bit errors of buffer DRAM leave the Stream Controller's oldest request as it is. -/
theorem Chip.ServingStream.upset {c : Chip} {id : Nat} {q : Request} {i : StreamId} (h : c.ServingStream id q i)
    (u : Upsets) : (c.upset u).ServingStream id q i := ⟨⟨h.serving.active, h.serving.current⟩, h.stream⟩

/-- A stream request that its state check passes gets its own action, on the part its owner finds (R8, R9, R125). -/
theorem State.onChip_serve_onStream {s : State} {u : Upsets} {id : Nat} {q : Request} {i : StreamId} {g : RequestGroup}
    {act : Nat → Request → Chip → Option Chip} {f : StreamId → Chip} (hs : s.toChip.ServingStream id q i)
    (hpass : stateCheck g (s.toChip.stream i).state = none)
    (hact : act id q (s.taking u id) = some ((s.taking u id).onStream id q g f)) :
    (s.onChip fun c => (c.upset u).serve .streamController act) = .next (s.withChip (f i)) := by
  have honStream : (s.taking u id).onStream id q g f = f i := Chip.onStream_of_passes hs.stream hpass
  have hserve : (s.toChip.upset u).serve .streamController act = f i :=
    Chip.serve_of_serving (hs.upset u).serving (hact.trans (congrArg some honStream))
  rw [State.onChip, hserve]
  rfl

theorem stateCheck_io_of_opened {st : StreamState} (h : st = .opened) : stateCheck .io st = none := by
  rw [h]
  rfl

theorem exec_mark_of_opened {s : State} {id : Nat} {q : Request} {i : StreamId} (hs : s.toChip.ServingStream id q i)
    (hq : q.body = .mark) (ho : (s.toChip.stream i).state = .opened) :
    exec .mark s = .next (s.withChip ((s.taking [] id).mark i id)) :=
  State.onChip_serve_onStream (u := []) (act := markAct) (f := fun i => (s.taking [] id).mark i id) hs
    (stateCheck_io_of_opened ho) (by simp only [markAct, hq])

theorem exec_rewind_of_opened {s : State} {id : Nat} {q : Request} {i : StreamId} {variant target : Nat} (u : Upsets)
    (hs : s.toChip.ServingStream id q i) (hq : q.body = .rewind variant target)
    (ho : (s.toChip.stream i).state = .opened) :
    exec (.rewind u) s = .next (s.withChip ((s.taking u id).rewind i id variant target)) :=
  State.onChip_serve_onStream (act := rewindAct) (f := fun i => (s.taking u id).rewind i id variant target) hs
    (stateCheck_io_of_opened ho) (by simp only [rewindAct, hq])

/-- A stream in RETAIN passes the mode check of R71. -/
theorem Mode.ne_consume_of_retain {m : Mode} (h : m = .retain) : m ≠ .consume := by
  rw [h]
  exact nofun

/-! ### MARK (R73) -/

theorem StreamEntry.latestMark_at_read_iff (st : StreamEntry) :
    (st.latestMark.any fun m => m.pos == st.read) = true ↔ st.marks.getLast?.map Mark.pos = some st.read := by
  simp [StreamEntry.latestMark, Option.any_eq_true]

section
variable {c : Chip} {i : StreamId} (id : Nat)

theorem Chip.mark_wrongMode (hm : (c.stream i).mode = .consume) : c.mark i id = c.refuse id .wrongMode := if_pos hm

theorem Chip.mark_of_highest_eq_read (hm : (c.stream i).mode = .retain)
    (hlast : (c.stream i).marks.getLast?.map Mark.pos = some (c.stream i).read) :
    c.mark i id = c.answer id fun q => q.positions .ok (c.stream i).read (c.stream i).read := by
  simp only [Chip.mark, if_neg (Mode.ne_consume_of_retain hm), StreamEntry.latestMark_at_read_iff, if_pos hlast]

theorem Chip.mark_markLimit (hm : (c.stream i).mode = .retain)
    (hlast : (c.stream i).marks.getLast?.map Mark.pos ≠ some (c.stream i).read) (hfull : 8 ≤ (c.stream i).marks.length) :
    c.mark i id = c.answer id fun q => q.spanRefusal .markLimit (c.stream i) := by
  simp only [Chip.mark, if_neg (Mode.ne_consume_of_retain hm), StreamEntry.latestMark_at_read_iff, if_neg hlast,
    if_pos (show Config.maxMarks ≤ (c.stream i).marks.length from hfull)]

theorem Chip.mark_adds (hm : (c.stream i).mode = .retain)
    (hlast : (c.stream i).marks.getLast?.map Mark.pos ≠ some (c.stream i).read) (hroom : (c.stream i).marks.length < 8) :
    c.mark i id =
      (c.setStream i { c.stream i with
        marks := (c.stream i).marks ++ [{ pos := (c.stream i).read, loc := (c.stream i).readLoc }] }).answer id fun q =>
          q.positions .ok (c.stream i).read (c.stream i).read := by
  simp only [Chip.mark, if_neg (Mode.ne_consume_of_retain hm), StreamEntry.latestMark_at_read_iff, if_neg hlast,
    if_neg (show ¬ Config.maxMarks ≤ (c.stream i).marks.length from Nat.not_le.mpr hroom)]

end

/-- Settles O46: the part finds the stream as it was, and each clause is one outcome of R73. -/
theorem markPlacesAMarkAtRead : Obligations.MarkPlacesAMarkAtRead := by
  intro s id q i hs hq ho st c done
  have hexec : exec .mark s = .next (s.withChip (c.mark i id)) := exec_mark_of_opened hs hq ho
  rw [hexec]
  refine ⟨fun hm => ?consume, fun hm hlast => ?atRead, fun hm hlast hfull => ?full, fun hm hlast hroom => ?added⟩
  case consume => rw [Chip.mark_wrongMode (c := c) id hm]
  case atRead =>
    rw [Chip.mark_of_highest_eq_read (c := c) id hm hlast]
    rfl
  case full =>
    rw [Chip.mark_markLimit (c := c) id hm hlast hfull]
    rfl
  case added =>
    rw [Chip.mark_adds (c := c) id hm hlast hroom]
    rfl

/-! ### The target of a variant (R74) -/

section
variable {st : StreamEntry} {target : Nat} {m : Mark}

theorem StreamEntry.atMark_badTarget (h : target < st.base ∨ st.read < target) :
    st.atMark target = .error .badTarget := if_pos h

theorem StreamEntry.atMark_noMark (h : ¬ (target < st.base ∨ st.read < target)) (hm : ∀ m ∈ st.marks, m.pos ≠ target) :
    st.atMark target = .error .noMark := by
  have hnone : st.markAt target = none := by simpa [StreamEntry.markAt] using hm
  rw [StreamEntry.atMark, if_neg h, hnone]

theorem StreamEntry.atMark_found (h : ¬ (target < st.base ∨ st.read < target))
    (hm : st.marks.find? (fun m => m.pos == target) = some m) : st.atMark target = .ok m := by
  have hsome : st.markAt target = some m := hm
  rw [StreamEntry.atMark, if_neg h, hsome]

theorem StreamEntry.rewindTarget_latest_noMark (h : st.marks = []) : st.rewindTarget 1 target = .error .noMark := by
  simp [StreamEntry.rewindTarget, StreamEntry.latestMark, h]

theorem StreamEntry.rewindTarget_latest_found (h : st.marks.getLast? = some m) : st.rewindTarget 1 target = .ok m := by
  simp [StreamEntry.rewindTarget, StreamEntry.latestMark, h]

theorem StreamEntry.rewindTarget_atMark : st.rewindTarget 2 target = st.atMark target := rfl

theorem StreamEntry.rewindTarget_toBase :
    st.rewindTarget 3 target = .ok { pos := st.base, loc := st.baseLoc } := rfl

end

/-! ### REWIND (R75) -/

section
variable {c : Chip} {i : StreamId} (id : Nat) {variant target : Nat}

theorem Chip.rewind_wrongMode (hm : (c.stream i).mode = .consume) :
    c.rewind i id variant target = c.refuse id .wrongMode := if_pos hm

theorem Chip.rewind_badField (hm : (c.stream i).mode = .retain) : c.rewind i id 0 target = c.refuse id .badField :=
  if_neg (Mode.ne_consume_of_retain hm)

theorem Chip.rewind_of_noTarget {e : Status} (hm : (c.stream i).mode = .retain) (hv : variant ≠ 0)
    (ht : (c.stream i).rewindTarget variant target = .error e) :
    c.rewind i id variant target = c.answer id fun q => q.spanRefusal e (c.stream i) := by
  simp only [Chip.rewind, if_neg (Mode.ne_consume_of_retain hm), if_neg hv, ht]

theorem Chip.rewind_of_target {m : Mark} (hm : (c.stream i).mode = .retain) (hv : variant ≠ 0)
    (ht : (c.stream i).rewindTarget variant target = .ok m) : c.rewind i id variant target = c.rewindTo i id m := by
  simp only [Chip.rewind, if_neg (Mode.ne_consume_of_retain hm), if_neg hv, ht]

theorem Chip.rewindTo_read {m : Mark} (h : m.pos = (c.stream i).read) :
    c.rewindTo i id m = c.answer id fun q => q.moved (c.stream i).read (c.stream i).read 0 := by
  rw [Chip.rewindTo, if_pos h, h, Nat.sub_self]

theorem Chip.rewindTo_lowers {m : Mark} (h : m.pos ≠ (c.stream i).read) :
    c.rewindTo i id m =
      (((c.setStream i ((c.stream i).rewound m)).evalBacklog i).evalHead i).answer id fun q =>
        q.moved (c.stream i).read m.pos ((c.stream i).read - m.pos) := if_neg h

end

/-- Settles O47: the variant's row of R74 gives the target or the refusal, and the target decides between the two outcomes of
R75. -/
theorem rewindLowersReadToItsTarget : Obligations.RewindLowersReadToItsTarget := by
  intro s u id q i variant target hs hq ho st c done outside
  have hexec : exec (.rewind u) s = .next (s.withChip (c.rewind i id variant target)) :=
    exec_rewind_of_opened u hs hq ho
  rw [hexec]
  refine ⟨fun hm => ?consume, fun hm hv => ?badField, fun hm hnone => ?noMark, fun hm hv hout => ?badTarget,
    fun m hm hfound => ?found⟩
  case consume => rw [Chip.rewind_wrongMode (c := c) id hm]
  case badField =>
    subst hv
    rw [Chip.rewind_badField (c := c) id hm]
  case noMark =>
    obtain ⟨hvariant, htarget⟩ : variant ≠ 0 ∧ st.rewindTarget variant target = .error .noMark := by
      obtain ⟨rfl, hempty⟩ | ⟨rfl, hin, hnot⟩ := hnone
      · exact ⟨one_ne_zero, StreamEntry.rewindTarget_latest_noMark hempty⟩
      · exact ⟨two_ne_zero, StreamEntry.atMark_noMark hin hnot⟩
    rw [Chip.rewind_of_noTarget (c := c) id hm hvariant htarget]
    rfl
  case badTarget =>
    subst hv
    rw [Chip.rewind_of_noTarget (c := c) id hm two_ne_zero (StreamEntry.atMark_badTarget hout)]
    rfl
  case found =>
    obtain ⟨hvariant, htarget⟩ : variant ≠ 0 ∧ st.rewindTarget variant target = .ok m := by
      obtain ⟨rfl, hlast⟩ | ⟨rfl, hin, hmark⟩ | ⟨rfl, rfl⟩ := hfound
      · exact ⟨one_ne_zero, StreamEntry.rewindTarget_latest_found hlast⟩
      · exact ⟨two_ne_zero, StreamEntry.atMark_found hin hmark⟩
      · exact ⟨three_ne_zero, StreamEntry.rewindTarget_toBase⟩
    rw [Chip.rewind_of_target (c := c) id hm hvariant htarget]
    refine ⟨fun hread => ?stays, fun hread => ?falls⟩
    case stays =>
      rw [Chip.rewindTo_read (c := c) id hread]
      rfl
    case falls =>
      rw [Chip.rewindTo_lowers (c := c) id hread]
      rfl

end Sys2Proof.Machine
end

section
/-! The two monitors that act (R106, R108): what one step of each answers in each cell of its rule's table, what an evaluation
makes of that answer, then the two statements. -/

namespace Sys2Proof.Machine

/-- Writing back the entry a stream has changes nothing. -/
theorem Chip.setStream_self (c : Chip) (i : StreamId) : c.setStream i (c.stream i) = c := by
  simp [Chip.setStream, Chip.stream, Vector.get_eq_getElem]

/-! ### The backlog monitor (R106, R111) -/

section
variable {st : StreamEntry}

theorem StreamEntry.backlogStep_off (h : st.readyLevel = 0) : st.backlogStep = (st.backlog, false) := if_pos h

theorem StreamEntry.backlogStep_reached (hl : 1 ≤ st.readyLevel) (h : st.readyLevel ≤ st.available) :
    st.backlogStep = (.atOrAbove, st.backlog == .below) := by
  rw [StreamEntry.backlogStep, if_neg (Nat.ne_zero_of_lt hl), if_pos h]

theorem StreamEntry.backlogStep_short (hl : 1 ≤ st.readyLevel) (h : st.available < st.readyLevel) :
    st.backlogStep = (.below, false) := by
  rw [StreamEntry.backlogStep, if_neg (Nat.ne_zero_of_lt hl), if_neg (Nat.not_le.mpr h)]

end

section
variable {c : Chip} {i : StreamId} {b : Backlog}

theorem Chip.evalBacklog_frozen (h : c.isActive = false ∨ (c.stream i).state ≠ .opened) : c.evalBacklog i = c :=
  if_neg fun ⟨hactive, hopen⟩ => h.elim (ne_false_of_eq_true hactive) fun hne => hne hopen

/-- A step that is no rise moves the monitor alone and leaves READY as it is. -/
theorem Chip.evalBacklog_silent (ha : c.isActive = true) (ho : (c.stream i).state = .opened)
    (hstep : (c.stream i).backlogStep = (b, false)) :
    c.evalBacklog i = c.setStream i { c.stream i with backlog := b } := by
  simp [Chip.evalBacklog, ha, ho, hstep]

theorem Chip.evalBacklog_stays (ha : c.isActive = true) (ho : (c.stream i).state = .opened)
    (hstep : (c.stream i).backlogStep = ((c.stream i).backlog, false)) : c.evalBacklog i = c :=
  (Chip.evalBacklog_silent ha ho hstep).trans (c.setStream_self i)

theorem Chip.evalBacklog_rises (ha : c.isActive = true) (ho : (c.stream i).state = .opened)
    (hstep : (c.stream i).backlogStep = (b, true)) :
    c.evalBacklog i =
      if (c.stream i).readyLatch = false then
        (c.setStream i { c.stream i with backlog := b, readyLatch := true }).attempt i
      else c.setStream i { c.stream i with backlog := b, readyLatch := true } := by
  simp [Chip.evalBacklog, ha, ho, hstep]

end

/-- Settles O51: the monitor's step by the cells of R106, and an evaluation by that step. -/
theorem backlogMonitorEvaluation : Obligations.BacklogMonitorEvaluation := by
  intro c i st unread risen
  refine ⟨Chip.evalBacklog_frozen, fun ha ho => ⟨fun hoff => ?off, fun hl hb hreached => ?rises,
    fun hl hb hshort => ?staysBelow, fun hl hb hreached => ?staysAbove, fun hl _ hshort => ?falls⟩⟩
  case off => exact Chip.evalBacklog_stays ha ho (StreamEntry.backlogStep_off hoff)
  case rises =>
    have hstep : st.backlogStep = (.atOrAbove, true) := by
      rw [StreamEntry.backlogStep_reached hl hreached, hb]
      rfl
    rw [Chip.evalBacklog_rises ha ho hstep]
    exact ⟨fun hclear => if_pos hclear, fun hpending => if_neg (ne_false_of_eq_true hpending)⟩
  case staysBelow =>
    refine Chip.evalBacklog_stays ha ho ?_
    rw [StreamEntry.backlogStep_short hl hshort, hb]
  case staysAbove =>
    refine Chip.evalBacklog_stays ha ho ?_
    rw [StreamEntry.backlogStep_reached hl hreached, hb]
    rfl
  case falls => exact Chip.evalBacklog_silent ha ho (StreamEntry.backlogStep_short hl hshort)

/-! ### The occupancy monitor (R108, R112) -/

section
variable {st : StreamEntry}

theorem StreamEntry.occupancyStep_off (h : st.pressureLevel = 0) : st.occupancyStep = (st.occupancy, false) := if_pos h

theorem StreamEntry.occupancyStep_calm (hl : 1 ≤ st.pressureLevel) (hcalm : st.occupancy = .calm) :
    st.occupancyStep = if st.pressureLevel ≤ st.heldPages then (.pressed, true) else (.calm, false) := by
  rw [StreamEntry.occupancyStep, if_neg (Nat.ne_zero_of_lt hl), hcalm]

theorem StreamEntry.occupancyStep_pressed (hl : 1 ≤ st.pressureLevel) (hpressed : st.occupancy = .pressed) :
    st.occupancyStep = if st.heldPages ≤ st.reliefLevel then (.calm, true) else (.pressed, false) := by
  rw [StreamEntry.occupancyStep, if_neg (Nat.ne_zero_of_lt hl), hpressed]

end

section
variable {c : Chip} {i : StreamId} {o : Occupancy}

theorem Chip.evalOccupancy_frozen
    (h : c.isActive = false ∨ ((c.stream i).state ≠ .opened ∧ (c.stream i).state ≠ .flushing)) :
    c.evalOccupancy i = c :=
  if_neg fun ⟨hactive, hstate⟩ => h.elim (ne_false_of_eq_true hactive) fun ⟨hopen, hflush⟩ => hstate.elim hopen hflush

theorem Chip.evalOccupancy_stays (ha : c.isActive = true)
    (hs : (c.stream i).state = .opened ∨ (c.stream i).state = .flushing)
    (hstep : (c.stream i).occupancyStep = (o, false)) : c.evalOccupancy i = c := by
  simp [Chip.evalOccupancy, ha, hs, hstep]

/-- A transition updates the OCCUPANCY latch, and the stream's latches are attempted. -/
theorem Chip.evalOccupancy_enters (ha : c.isActive = true)
    (hs : (c.stream i).state = .opened ∨ (c.stream i).state = .flushing)
    (hstep : (c.stream i).occupancyStep = (o, true)) :
    c.evalOccupancy i =
      (c.setStream i { c.stream i with
        occupancy := o, occLatch := some (OccLatch.absorb (c.stream i).occLatch o) }).attempt i := by
  simp [Chip.evalOccupancy, ha, hs, hstep]

end

/-- Settles O52: the monitor's step by the cells of R108, and an evaluation by that step; R112's latch is
`OccLatch.absorb`. -/
theorem occupancyMonitorEvaluation : Obligations.OccupancyMonitorEvaluation := by
  intro c i st held latched entered
  refine ⟨Chip.evalOccupancy_frozen, fun ha hs => ⟨fun hoff => ?off, fun hl hcalm hreached => ?presses,
    fun hl hcalm hshort => ?staysCalm, fun hl hpressed hrelieved => ?relieves,
    fun hl hpressed hheld => ?staysPressed⟩⟩
  case off => exact Chip.evalOccupancy_stays ha hs (StreamEntry.occupancyStep_off hoff)
  case presses =>
    exact Chip.evalOccupancy_enters ha hs ((StreamEntry.occupancyStep_calm hl hcalm).trans (if_pos hreached))
  case staysCalm =>
    exact Chip.evalOccupancy_stays ha hs
      ((StreamEntry.occupancyStep_calm hl hcalm).trans (if_neg (Nat.not_le.mpr hshort)))
  case relieves =>
    exact Chip.evalOccupancy_enters ha hs ((StreamEntry.occupancyStep_pressed hl hpressed).trans (if_pos hrelieved))
  case staysPressed =>
    exact Chip.evalOccupancy_stays ha hs
      ((StreamEntry.occupancyStep_pressed hl hpressed).trans (if_neg (Nat.not_le.mpr hheld)))

end Sys2Proof.Machine
end

section
/-! RING_CREATE (R135): which ring numbers and blocks pass its checks, what it makes of a ring id whose block passes, and what the
Ring Engine answers in each case. -/

namespace Sys2Proof.Machine

/-! ### The Ring Engine's request -/

@[simp] theorem State.taking_reqRing (s : State) (u : Upsets) (id : Nat) (n : RingId) :
    (s.taking u id).reqRing n = s.toChip.reqRing n := rfl

/-- An owner whose command brings no bit errors acts on its oldest request, on the part it finds (R125). -/
theorem State.onChip_serve_of_serving {s : State} {o : Owner} {id : Nat} {q : Request}
    {act : Nat → Request → Chip → Option Chip} {t : Chip} (hs : s.toChip.Serving o id q)
    (hact : act id q (s.taking [] id) = some t) : (s.onChip fun c => c.serve o act) = .next (s.withChip t) :=
  congrArg (fun c => Host.Outcome.next (s.withChip c)) (Chip.serve_of_serving hs hact)

/-! ### The checks -/

theorem ioRing_isSome_iff (n : Nat) : (ioRing n).isSome = true ↔ n ≠ 0 ∧ n ≤ 31 := by
  rcases Nat.eq_zero_or_pos n with rfl | hpos
  · simp [ioRing]
  · have hne : n ≠ 0 := Nat.ne_zero_of_lt hpos
    by_cases hn : n < 32
    · simp [ioRing, ringOf, hne, hn, Nat.le_of_lt_succ hn]
    · simp [ioRing, ringOf, hne, hn, Nat.lt_of_succ_le (Nat.not_lt.mp hn)]

theorem ioRing_val {n : RingId} (h : n ≠ 0) : ioRing n.val = some n :=
  (if_neg (Fin.val_ne_of_ne h)).trans (ringOf_val n)

theorem RingBlock.inRange_iff (b : RingBlock) :
    b.inRange = true ↔
      b.ringType ≤ 1 ∧ (b.id ≠ 0 ∧ b.id ≤ 31) ∧ b.base.toNat % 4096 = 0 ∧ 2 ≤ b.size ∧ b.size ≤ 4096 := by
  have hmax : Config.maxRing = 4096 := rfl
  simp only [RingBlock.inRange, Bool.and_eq_true, decide_eq_true_iff, beq_iff_eq, ioRing_isSome_iff, hmax, and_assoc]

section
variable {c : Chip} {b : RingBlock}

theorem Chip.ringBlockOk_request_iff (ht : b.ringType = 0) :
    c.ringBlockOk b = true ↔
      b.inRange = true ∧ b.bound ≠ 0 ∧ ∃ m : RingId, b.bound = m.val ∧ (c.cmpRing m).state = .active := by
  simp only [Chip.ringBlockOk, if_pos ht, Bool.and_eq_true, bne_iff_ne, Chip.cmpActive_iff]

theorem Chip.ringBlockOk_completion_iff (ht : b.ringType = 1) :
    c.ringBlockOk b = true ↔ b.inRange = true ∧ b.batch ≠ 0 := by
  simp only [Chip.ringBlockOk, if_neg (ht ▸ one_ne_zero : b.ringType ≠ 0), Bool.and_eq_true, bne_iff_ne]

theorem Chip.inRange_of_ringBlockOk (h : c.ringBlockOk b = true) : b.inRange = true := (Bool.and_eq_true_iff.mp h).1

/-! ### The ring it makes -/

variable {n : RingId} (id : Nat)

theorem Chip.createRing_request_inUse (ht : b.ringType = 0) (hn : (c.reqRing n).state ≠ .absent) :
    c.createRing id n b = c.answer id fun q => q.plain .inUse := (if_pos ht).trans (if_neg hn)

theorem Chip.createRing_request_makes (ht : b.ringType = 0) (hn : (c.reqRing n).state = .absent) :
    c.createRing id n b =
      (c.setReqRing n (newRequestRing b.base b.size (Fin.ofNat 32 b.bound) (c.reqRing n).fault)).answer id fun q =>
        q.ringReply .ok n.val b.size 0 := (if_pos ht).trans (if_pos hn)

theorem Chip.createRing_completion_inUse (ht : b.ringType = 1) (hn : (c.cmpRing n).state ≠ .absent) :
    c.createRing id n b = c.answer id fun q => q.plain .inUse :=
  (if_neg (ht ▸ one_ne_zero)).trans (if_neg hn)

theorem Chip.createRing_completion_makes (ht : b.ringType = 1) (hn : (c.cmpRing n).state = .absent) :
    c.createRing id n b =
      (c.setCmpRing n (newCompletionRing b.base b.size b.enable b.batch b.delay (c.cmpRing n).fault)).answer id fun q =>
        q.ringReply .ok n.val b.size 0 := (if_neg (ht ▸ one_ne_zero)).trans (if_pos hn)

end

/-! ### The command -/

section
variable {s : State} {id : Nat} {q : Request} {b : RingBlock}

theorem exec_ringCreate_badField (hs : s.toChip.Serving .ringEngine id q) (hq : q.body = .ringCreate b)
    (hbad : (s.taking [] id).ringBlockOk b ≠ true) :
    exec .ringCreate s = .next (s.withChip ((s.taking [] id).answer id fun q => q.plain .badField)) :=
  State.onChip_serve_of_serving (act := ringCreateAct) hs (by simp only [ringCreateAct, hq, if_neg hbad])

theorem exec_ringCreate_creates {n : RingId} (hs : s.toChip.Serving .ringEngine id q) (hq : q.body = .ringCreate b)
    (hok : (s.taking [] id).ringBlockOk b = true) (hid : ioRing b.id = some n) :
    exec .ringCreate s = .next (s.withChip ((s.taking [] id).createRing id n b)) :=
  State.onChip_serve_of_serving (act := ringCreateAct) hs (by simp only [ringCreateAct, hq, if_pos hok, hid])

end

/-- Settles O25: a block with a failing check is refused by `exec_ringCreate_badField`, and one that passes makes its ring or
finds it in use as `Chip.createRing` says for its type. -/
theorem ringCreateMakesTheRing : Obligations.RingCreateMakesTheRing := by
  intro s id q b hs hq c refused made common
  have hbad : c.ringBlockOk b ≠ true → exec .ringCreate s = refused .badField := exec_ringCreate_badField hs hq
  have hinRange {n : RingId} (hc : common) (hn : n ≠ 0) (hid : b.id = n.val) : b.inRange = true := by
    obtain ⟨htype, hbase, hlow, hhigh⟩ := hc
    exact b.inRange_iff.mpr ⟨htype, hid ▸ ⟨Fin.val_ne_of_ne hn, Nat.le_of_lt_succ n.isLt⟩, hbase, hlow, hhigh⟩
  have hcreates {n : RingId} (hok : c.ringBlockOk b = true) (hn : n ≠ 0) (hid : b.id = n.val) :
      exec .ringCreate s = .next (s.withChip (c.createRing id n b)) :=
    exec_ringCreate_creates hs hq hok (hid ▸ ioRing_val hn)
  refine ⟨fun hout => hbad fun hok => ?range, fun ht hout => hbad fun hok => ?boundNumber,
    fun ht m hm hstate => hbad fun hok => ?boundState, fun ht hzero => hbad fun hok => ?batch,
    fun n m hc ht hn hid hm hbound hactive => ?request, fun n hc ht hn hid hbatch => ?completion⟩
  case range =>
    obtain ⟨htype, ⟨hid, hidMax⟩, hbase, hlow, hhigh⟩ := b.inRange_iff.mp (Chip.inRange_of_ringBlockOk hok)
    omega
  case boundNumber =>
    obtain ⟨-, hne, m, hm, -⟩ := (Chip.ringBlockOk_request_iff ht).mp hok
    have := m.isLt
    omega
  case boundState =>
    obtain ⟨-, -, m', hm', hactive⟩ := (Chip.ringBlockOk_request_iff ht).mp hok
    obtain rfl : m' = m := Fin.ext (hm'.symm.trans hm)
    exact hstate hactive
  case batch =>
    obtain ⟨-, hbatch⟩ := (Chip.ringBlockOk_completion_iff ht).mp hok
    exact hbatch hzero
  case request =>
    have hok : c.ringBlockOk b = true :=
      (Chip.ringBlockOk_request_iff ht).mpr
        ⟨hinRange hc hn hid, hbound ▸ Fin.val_ne_of_ne hm, m, hbound, hactive⟩
    rw [hcreates hok hn hid]
    refine ⟨fun hused => ?used, fun hfree => ?free⟩
    case used =>
      rw [Chip.createRing_request_inUse (c := c) id ht hused]
      rfl
    case free =>
      rw [Chip.createRing_request_makes (c := c) id ht hfree, hbound, Fin.ofNat_val_eq_self]
      rfl
  case completion =>
    have hok : c.ringBlockOk b = true := (Chip.ringBlockOk_completion_iff ht).mpr ⟨hinRange hc hn hid, hbatch⟩
    rw [hcreates hok hn hid]
    refine ⟨fun hused => ?used, fun hfree => ?free⟩
    case used =>
      rw [Chip.createRing_completion_inUse (c := c) id ht hused]
      rfl
    case free =>
      rw [Chip.createRing_completion_makes (c := c) id ht hfree]
      rfl

end Sys2Proof.Machine
end

section
/-! Pages are conserved by every operation on a stream (R90, R91): the free pages, the pages held in chains and the lost pages
add up to the usable pages, and the free pages cover the unmet reserves. -/

namespace Sys2Proof.Machine

/-! ### Sums over the streams -/

theorem sum_map_toList {α : Type} {n : Nat} (f : α → Nat) (v : Vector α n) :
    (v.toList.map f).sum = ∑ i : Fin n, f (v.get i) := by
  have h : v.toList.map f = List.ofFn fun i : Fin n => f (v.get i) :=
    List.ext_getElem (by simp) fun k h1 h2 => by simp [Vector.get]
  rw [h, List.sum_ofFn]

theorem Chip.sumHeld_eq (c : Chip) : c.sumHeld = ∑ i : StreamId, (c.stream i).heldPages := sum_map_toList _ _

theorem Chip.sumUnmet_eq (c : Chip) : c.sumUnmet = ∑ i : StreamId, (c.stream i).unmet := sum_map_toList _ _

/-- Two sums over the streams that differ at one stream alone. -/
theorem sum_of_others {c t : Chip} {i : StreamId} (f : StreamEntry → Nat)
    (h : ∀ j : StreamId, j ≠ i → t.stream j = c.stream j) :
    (∑ j : StreamId, f (t.stream j)) + f (c.stream i) = (∑ j : StreamId, f (c.stream j)) + f (t.stream i) := by
  have hr : ∑ j ∈ Finset.univ.erase i, f (t.stream j) = ∑ j ∈ Finset.univ.erase i, f (c.stream j) :=
    Finset.sum_congr rfl fun j hj => by rw [h j (Finset.ne_of_mem_erase hj)]
  have ht := Finset.add_sum_erase Finset.univ (fun j => f (t.stream j)) (Finset.mem_univ i)
  have hc := Finset.add_sum_erase Finset.univ (fun j => f (c.stream j)) (Finset.mem_univ i)
  omega

/-- The pages outside INIT: a CLOSED stream holds none, every usable page is free, held or lost (R90), and the free ones cover the
unmet reserves (R91). -/
structure Chip.PagesCounted (c : Chip) : Prop where
  closed : ∀ i : StreamId, (c.stream i).state = .closed → (c.stream i).chain = []
  conserved : c.pool.free + c.sumHeld + c.pool.lost = c.pool.usable
  covered : c.sumUnmet ≤ c.pool.free

/-- Pages are counted alike where streams differ neither in their state, reserve and held pages, nor the pool in its counts. -/
theorem Chip.PagesCounted.congr {c t : Chip} (h : c.PagesCounted)
    (hs : ∀ j : StreamId, (t.stream j).state = (c.stream j).state ∧ (t.stream j).reserve = (c.stream j).reserve ∧
      (t.stream j).chain = (c.stream j).chain)
    (hf : t.pool.free = c.pool.free) (hl : t.pool.lost = c.pool.lost) (hu : t.pool.usable = c.pool.usable) :
    t.PagesCounted := by
  have hheld : t.sumHeld = c.sumHeld := by
    simp only [Chip.sumHeld_eq, StreamEntry.heldPages, (hs _).2.2]
  have hunmet : t.sumUnmet = c.sumUnmet := by
    simp only [Chip.sumUnmet_eq, StreamEntry.unmet, StreamEntry.heldPages, (hs _).1, (hs _).2.1, (hs _).2.2]
  exact ⟨fun j hj => by rw [(hs j).2.2]; exact h.closed j ((hs j).1 ▸ hj), by rw [hf, hl, hu, hheld]; exact h.conserved,
    by rw [hf, hunmet]; exact h.covered⟩

/-- Pages stay counted when one stream and the pool change by the same pages, and the free pages grow by what its unmet reserve
does. -/
theorem Chip.PagesCounted.stream {c t : Chip} (h : c.PagesCounted) {i : StreamId}
    (ho : ∀ j : StreamId, j ≠ i → t.stream j = c.stream j) (hu : t.pool.usable = c.pool.usable)
    (hc : (t.stream i).state = .closed → (t.stream i).chain = [])
    (hp : t.pool.free + (t.stream i).heldPages + t.pool.lost = c.pool.free + (c.stream i).heldPages + c.pool.lost)
    (hr : (t.stream i).unmet + c.sumUnmet ≤ (c.stream i).unmet + t.pool.free) : t.PagesCounted := by
  have hheld := sum_of_others StreamEntry.heldPages ho
  have hunmet := sum_of_others StreamEntry.unmet ho
  simp only [← Chip.sumHeld_eq, ← Chip.sumUnmet_eq] at hheld hunmet
  refine ⟨fun j hj => ?_, ?_, ?_⟩
  · by_cases e : j = i
    · subst e; exact hc hj
    · rw [ho j e] at hj ⊢; exact h.closed j hj
  · have := h.conserved; omega
  · omega

theorem OnlyRings.pages {c t : Chip} (h : OnlyRings c t) (p : c.PagesCounted) : t.PagesCounted :=
  p.congr (fun j => by rw [h.stream j]; exact ⟨rfl, rfl, rfl⟩) (by rw [h.pool]) (by rw [h.pool]) (by rw [h.pool])

theorem OnlyNotices.pages {c t : Chip} (h : OnlyNotices c t) (p : c.PagesCounted) : t.PagesCounted :=
  p.congr (fun j => ⟨(congrArg StreamEntry.state (h.streams j) :), (congrArg StreamEntry.reserve (h.streams j) :),
    (congrArg StreamEntry.chain (h.streams j) :)⟩) (by rw [h.pool]) (by rw [h.pool]) (by rw [h.pool])

theorem Chip.setStream_pages {c : Chip} {i : StreamId} {st : StreamEntry} (p : c.PagesCounted)
    (hs : st.state = (c.stream i).state) (hr : st.reserve = (c.stream i).reserve) (hc : st.chain = (c.stream i).chain) :
    (c.setStream i st).PagesCounted :=
  p.congr (fun j => by
    rw [Chip.setStream_stream]
    split
    · rename_i e; subst e; exact ⟨hs, hr, hc⟩
    · exact ⟨rfl, rfl, rfl⟩) rfl rfl rfl

/-- A stream that keeps its pages and does not ask for more, and holds none when CLOSED. -/
theorem Chip.setStream_pages_of_unmet {c : Chip} {i : StreamId} {st : StreamEntry} (p : c.PagesCounted)
    (hc : st.state = .closed → st.chain = []) (hh : st.heldPages = (c.stream i).heldPages)
    (hu : st.unmet ≤ (c.stream i).unmet) : (c.setStream i st).PagesCounted :=
  p.stream (fun j hj => c.setStream_stream_ne st hj) rfl (by simpa using hc) (by simpa using hh)
    (by have := p.covered; simp; omega)

theorem Chip.attempt_pages {c : Chip} (i : StreamId) (p : c.PagesCounted) : (c.attempt i).PagesCounted :=
  (c.attempt_notices i).pages p

/-! ### The monitors, buffer DRAM and the engine -/

theorem Chip.setMem_pages {c : Chip} (m : BufferMemory) (p : c.PagesCounted) :
    ({ c with mem := m } : Chip).PagesCounted := p.congr (fun _ => ⟨rfl, rfl, rfl⟩) rfl rfl rfl

theorem Chip.setEngine_pages {c : Chip} (e : Engine) (p : c.PagesCounted) :
    ({ c with engine := e } : Chip).PagesCounted := p.congr (fun _ => ⟨rfl, rfl, rfl⟩) rfl rfl rfl

theorem Chip.evalBacklog_pages {c : Chip} (i : StreamId) (p : c.PagesCounted) : (c.evalBacklog i).PagesCounted := by
  have h (b : Backlog) (r : Bool) : (c.setStream i { c.stream i with backlog := b, readyLatch := r }).PagesCounted :=
    Chip.setStream_pages p rfl rfl rfl
  unfold Chip.evalBacklog
  simp only
  split
  · split
    · exact Chip.attempt_pages i (h _ _)
    · exact h _ _
  · exact p

theorem Chip.evalOccupancy_pages {c : Chip} (i : StreamId) (p : c.PagesCounted) : (c.evalOccupancy i).PagesCounted := by
  have h (o : Occupancy) (l : Option OccLatch) :
      (c.setStream i { c.stream i with occupancy := o, occLatch := l }).PagesCounted :=
    Chip.setStream_pages p rfl rfl rfl
  unfold Chip.evalOccupancy
  simp only
  split
  · split
    · exact Chip.attempt_pages i (h _ _)
    · exact p
  · exact p

theorem Chip.startArbiterIf_pages {c : Chip} (b : Bool) (p : c.PagesCounted) : (c.startArbiterIf b).PagesCounted := by
  unfold Chip.startArbiterIf Chip.startArbiter
  split
  · split
    · exact p.congr (fun _ => ⟨rfl, rfl, rfl⟩) rfl rfl rfl
    · exact p
  · exact p

theorem Chip.startArbiter_pages {c : Chip} (p : c.PagesCounted) : c.startArbiter.PagesCounted :=
  Chip.startArbiterIf_pages true p

theorem Chip.settle_engine (c : Chip) (k : CtxId) : c.settle k = { c with engine := (c.settle k).engine } := by
  unfold Chip.settle
  simp only
  split
  · split
    · rfl
    · split
      · rfl
      · split <;> rfl
      · rfl
      · rfl
  · rfl

theorem Chip.stopCopy_engine (c : Chip) (id : Nat) : c.stopCopy id = { c with engine := (c.stopCopy id).engine } := by
  unfold Chip.stopCopy
  split
  · rfl
  · split
    · rfl
    · rw [Chip.settle_engine]; rfl

theorem Chip.stopCopy_pages {c : Chip} (id : Nat) (p : c.PagesCounted) : (c.stopCopy id).PagesCounted := by
  rw [Chip.stopCopy_engine]; exact Chip.setEngine_pages _ p

/-! ### Pages taken back -/

theorem Chip.joinFree_counts (c : Chip) (p : Nat) :
    (c.joinFree p).pool.usable = c.pool.usable ∧ (c.joinFree p).pool.free = c.pool.free + 1 ∧
      (c.joinFree p).pool.lost = c.pool.lost := by
  unfold Chip.joinFree
  simp only
  split <;> exact ⟨rfl, rfl, rfl⟩

/-- An unmet reserve falls by no more than the pages that join the chain. -/
theorem StreamEntry.unmet_shorter (st : StreamEntry) (l : List Nat) (h : l.length + 1 = st.chain.length) :
    ({ st with chain := l } : StreamEntry).unmet ≤ st.unmet + 1 := by
  unfold StreamEntry.unmet
  simp only [StreamEntry.heldPages]
  split <;> omega

/-- A page that leaves a chain and joins the free list: one page less held, one more free. -/
theorem Chip.joinFree_pages {c : Chip} {i : StreamId} {q : Nat} {l : List Nat} (p : c.PagesCounted)
    (hl : l.length + 1 = (c.stream i).chain.length) :
    ((c.modStream i fun st => { st with chain := l }).joinFree q).PagesCounted := by
  obtain ⟨hu, hf, hlost⟩ := (c.modStream i fun st => { st with chain := l }).joinFree_counts q
  have hs : ((c.modStream i fun st => { st with chain := l }).joinFree q).stream i = { c.stream i with chain := l } := by
    rw [Chip.joinFree_stream, Chip.modStream_stream_same]
  have hunmet := (c.stream i).unmet_shorter l hl
  have hcov := p.covered
  refine p.stream (i := i) (fun j hj => by rw [Chip.joinFree_stream, Chip.modStream_stream_ne _ _ hj]) hu ?_ ?_ ?_
  · intro h
    rw [hs] at h
    simp [p.closed i h] at hl
  · rw [hs, hf, hlost]
    simp only [StreamEntry.heldPages, Chip.modStream_pool]
    omega
  · rw [hs, hf]
    simp only [Chip.modStream_pool]
    omega

theorem Chip.takeBack_pages {c : Chip} {i : StreamId} {q : Nat} {rest : List Nat} (p : c.PagesCounted)
    (hc : (c.stream i).chain = q :: rest) : (c.takeBack i q rest).PagesCounted :=
  Chip.evalOccupancy_pages i (Chip.joinFree_pages p (by rw [hc, List.length_cons]))

theorem returnRun_pages {i : StreamId} {stops : Bool} (fuel : Nat) {c : Chip} (n : Nat) (p : c.PagesCounted) :
    (returnRun i stops fuel c n).chip.PagesCounted := by
  induction fuel generalizing c n with
  | zero => exact p
  | succ fuel ih =>
    unfold returnRun
    split
    · exact p
    · rename_i q rest hc
      split
      · exact p
      · split
        · exact ih _ (Chip.takeBack_pages p hc)
        · simp only
          have pf : (c.followChain i q).1.PagesCounted := Chip.setMem_pages _ p
          split
          · exact pf
          · exact ih _ (Chip.takeBack_pages pf hc)

theorem Chip.pageReturnRun_pages {c : Chip} (i : StreamId) (p : c.PagesCounted) :
    (c.pageReturnRun i).chip.PagesCounted := by
  have h := returnRun_pages (i := i) (stops := true) (c.stream i).chain.length 0 p
  unfold Chip.pageReturnRun
  simp only
  refine Chip.startArbiterIf_pages _ ?_
  split
  · exact Chip.setStream_pages h rfl rfl rfl
  · exact h

/-- What a break does to the counts: the pages cut off a chain are lost (R97). -/
structure CutCounts (i : StreamId) (c t : Chip) : Prop where
  usable : t.pool.usable = c.pool.usable
  free : t.pool.free = c.pool.free
  held : (t.stream i).heldPages + t.pool.lost = (c.stream i).heldPages + c.pool.lost
  state : (t.stream i).state = (c.stream i).state
  empty : (c.stream i).chain = [] → (t.stream i).chain = []

theorem Chip.breakChain_counts (c : Chip) (i : StreamId) (q : Nat) : CutCounts i c (c.breakChain i q) := by
  have hsetPool (d : Chip) (p : Pool) : ({ d with pool := p } : Chip).stream i = d.stream i := rfl
  unfold Chip.breakChain
  simp only
  split
  · rename_i hq
    have hlen : (keepTo q (c.stream i).chain).length ≤ (c.stream i).chain.length := by
      rw [keepTo_eq_take q _ (List.elem_iff.1 hq)]; exact List.length_take_le' _ _
    refine ⟨rfl, rfl, ?_, ?_, fun h => ?_⟩
    · simp only [Chip.writeLink_stream, Chip.writeLink_pool, hsetPool, Chip.setStream_stream_same, StreamEntry.heldPages,
        Chip.setStream_pool]
      omega
    · simp only [Chip.writeLink_stream, hsetPool, Chip.setStream_stream_same]
    · simp [h] at hq
  · exact ⟨rfl, rfl, rfl, rfl, id⟩

theorem Chip.cut_counts (c : Chip) (i : StreamId) (brk : Option Nat) : CutCounts i c (c.cut i brk) := by
  cases brk with
  | none => exact ⟨rfl, rfl, rfl, rfl, id⟩
  | some q => exact c.breakChain_counts i q

/-- A break met by a stream that reserves no page afterwards. -/
theorem Chip.cut_pages {c : Chip} {i : StreamId} (brk : Option Nat) (f : StreamEntry → StreamEntry) (p : c.PagesCounted)
    (hf : ∀ st, (f st).chain = st.chain) (hs : ∀ st : StreamEntry, (f st).state = .closed → st.state = .closed)
    (hu : ∀ st : StreamEntry, st.state = (c.stream i).state → (f st).unmet = 0) :
    ((c.cut i brk).modStream i f).PagesCounted := by
  have k := c.cut_counts i brk
  have hcov := p.covered
  refine p.stream (i := i) (fun j hj => (Chip.modStream_stream_ne _ _ hj).trans ((c.cut_keeps i brk).others j hj)) k.usable
    (fun h => ?_) ?_ ?_
  · rw [Chip.modStream_stream_same] at h ⊢
    rw [hf]
    exact k.empty (p.closed i (k.state ▸ hs _ h))
  · have hh : (((c.cut i brk).modStream i f).stream i).heldPages = ((c.cut i brk).stream i).heldPages := by
      rw [Chip.modStream_stream_same, StreamEntry.heldPages, hf]; rfl
    have := k.held
    have hfree := k.free
    simp only [Chip.modStream_pool, hh]
    omega
  · rw [Chip.modStream_stream_same, hu _ k.state]
    have hfree := k.free
    simp only [Chip.modStream_pool]
    omega

theorem Chip.stopActive_pages {c : Chip} (i : StreamId) (p : c.PagesCounted) : (c.stopActive i).PagesCounted := by
  unfold Chip.stopActive
  split
  · exact p
  · exact Chip.stopCopy_pages _ (Chip.setStream_pages p rfl rfl rfl)

theorem Chip.refuseWaiting_pages {c : Chip} (i : StreamId) (s : Status) (p : c.PagesCounted) :
    (c.refuseWaiting i s).PagesCounted :=
  (Chip.refuseAll_rings _ _ s).pages (Chip.setStream_pages p rfl rfl rfl)

theorem Chip.refusePending_pages {c : Chip} (d : Option Nat) (p : c.PagesCounted) : (c.refusePending d).PagesCounted := by
  unfold Chip.refusePending
  split
  · exact p
  · exact (c.refuse_rings _ _).pages p

theorem Chip.faultStream_pages {c : Chip} {i : StreamId} (cause : FaultCause) (brk : Option Nat) (p : c.PagesCounted) :
    (c.faultStream i cause brk).PagesCounted := by
  unfold Chip.faultStream
  simp only
  refine Chip.startArbiterIf_pages _ (Chip.attempt_pages i (Chip.refusePending_pages _ (Chip.refuseWaiting_pages i _
    (Chip.stopActive_pages i ?_))))
  exact Chip.cut_pages brk _ p (fun _ => rfl) (fun _ h => by cases h) fun _ _ => rfl

theorem Chip.closeBroken_pages {c : Chip} {i : StreamId} (brk : Option Nat) (p : c.PagesCounted)
    (hs : (c.stream i).state = .closing) : (c.closeBroken i brk).PagesCounted :=
  Chip.cut_pages brk _ p (fun _ => rfl) (fun _ h => h) fun st h => by
    simp only [StreamEntry.unmet, h, hs]

/-- A chain is cut alike in CLOSING and in FAULTED, where no page is reserved. -/
theorem Chip.cut_pages_of_ending {c : Chip} {i : StreamId} (brk : Option Nat) (p : c.PagesCounted)
    (hs : (c.stream i).state = .closing ∨ (c.stream i).state = .faulted) : (c.cut i brk).PagesCounted := by
  have h := Chip.cut_pages (i := i) brk id p (fun _ => rfl) (fun _ h => h) fun st h => by
    rcases hs with hs | hs <;> simp only [StreamEntry.unmet, id, h, hs]
  rwa [Chip.modStream, id, Chip.setStream_self] at h

theorem Chip.breakChain_pages {c : Chip} {i : StreamId} (q : Nat) (p : c.PagesCounted)
    (hs : (c.stream i).state = .closing) : (c.breakChain i q).PagesCounted := Chip.cut_pages_of_ending (some q) p (.inl hs)

theorem Chip.pageReturn_pages {c : Chip} (i : StreamId) (p : c.PagesCounted) : (c.pageReturn i).PagesCounted := by
  have h := Chip.pageReturnRun_pages i p
  unfold Chip.pageReturn
  simp only
  split
  · exact h
  · split
    · exact Chip.faultStream_pages _ _ h
    · exact Chip.faultStream_pages _ _ h
    · rename_i hs; exact Chip.closeBroken_pages _ h hs
    all_goals exact h

/-! ### A whole chain returned -/

/-- Pages taken back from the head of a chain change of the entry the chain, the occupancy monitor and the latches alone. -/
theorem Chip.takeHead_entry (c : Chip) (i : StreamId) :
    ((c.takeHead i).stream i).clearLatches = { (c.stream i).clearLatches with
      chain := ((c.takeHead i).stream i).chain, occupancy := ((c.takeHead i).stream i).occupancy } := by
  have h (d : Chip) (hd : d.stream i = c.stream i) (p : Nat) (rest : List Nat) :
      ((d.takeBack i p rest).stream i).clearLatches = { (c.stream i).clearLatches with
        chain := ((d.takeBack i p rest).stream i).chain, occupancy := ((d.takeBack i p rest).stream i).occupancy } := by
    obtain ⟨⟨x, hx, hs, -⟩, hc⟩ := d.takeBack_spec i p rest
    rw [hc, hx, (x.evalOccupancy_entry i).1, hs, hd]
    rfl
  unfold Chip.takeHead
  split
  · rfl
  · exact h c rfl _ _
  · exact h (c.followChain i _).1 rfl _ _

theorem Chip.headsTaken_succ (c : Chip) (i : StreamId) (n : Nat) :
    c.headsTaken i (n + 1) = (c.headsTaken i n).takeHead i := Function.iterate_succ_apply' _ _ _

theorem Chip.headsTaken_entry (c : Chip) (i : StreamId) (n : Nat) :
    ((c.headsTaken i n).stream i).clearLatches = { (c.stream i).clearLatches with
      chain := ((c.headsTaken i n).stream i).chain, occupancy := ((c.headsTaken i n).stream i).occupancy } := by
  induction n with
  | zero => rfl
  | succ n ih => rw [c.headsTaken_succ, Chip.takeHead_entry, ih]

theorem Chip.headsTaken_state (c : Chip) (i : StreamId) (n : Nat) :
    ((c.headsTaken i n).stream i).state = (c.stream i).state :=
  (congrArg StreamEntry.state (c.headsTaken_entry i n) :)

theorem Chip.headsTaken_pages {c : Chip} (i : StreamId) (n : Nat) (p : c.PagesCounted) :
    (c.headsTaken i n).PagesCounted := by
  induction n with
  | zero => exact p
  | succ n ih =>
    rw [c.headsTaken_succ]
    unfold Chip.takeHead
    split
    · exact ih
    · rename_i hc; exact Chip.takeBack_pages ih hc
    · rename_i hc; exact Chip.takeBack_pages (Chip.setMem_pages _ ih) hc

/-- A break at the head of a chain leaves the head alone. -/
theorem Chip.breakChain_head {c : Chip} {i : StreamId} {p : Nat} {rest : List Nat} (h : (c.stream i).chain = p :: rest) :
    ((c.breakChain i p).stream i).chain = [p] := by
  have hsetPool (d : Chip) (q : Pool) : ({ d with pool := q } : Chip).stream i = d.stream i := rfl
  unfold Chip.breakChain
  simp only
  rw [if_pos (by simp [h])]
  simp only [Chip.writeLink_stream, hsetPool, Chip.setStream_stream_same, h, keepTo, if_true]

theorem Chip.startArbiterIf_stream (c : Chip) (b : Bool) (j : StreamId) : (c.startArbiterIf b).stream j = c.stream j := by
  unfold Chip.startArbiterIf Chip.startArbiter
  split
  · split <;> rfl
  · rfl

/-- What a whole-chain return leaves: pages taken back to the end of the chain, or to a break and the page of the break after the
cut. -/
theorem Chip.returnAll_cases (c : Chip) (i : StreamId) :
    (∃ b, (c.returnAll i).1 = (c.headsTaken i (c.stream i).chain.length).startArbiterIf b) ∨
    ∃ n p rest, ((c.headsTaken i n).stream i).chain = p :: rest ∧ (c.returnAll i).1 =
      ((((c.headsTaken i n).followChain i p).1.breakChain i p).takeBack i p []).startArbiterIf true := by
  obtain ⟨hb, hwhole, hbreak⟩ := c.returnAll_walked i
  cases h : (c.returnAll i).2 with
  | false => exact .inl ⟨_, hwhole h⟩
  | true =>
    obtain ⟨n, p, f⟩ := hb.1 h
    refine .inr ⟨n, p, (c.stream i).chain.drop (n + 1), ?_, hbreak n p f⟩
    obtain ⟨hn, hp⟩ := List.getElem?_eq_some_iff.1 f.page
    rw [c.headsTaken_chain, List.drop_eq_getElem_cons hn, hp]

theorem Chip.returnAll_chain (c : Chip) (i : StreamId) : ((c.returnAll i).1.stream i).chain = [] := by
  obtain ⟨b, h⟩ | ⟨n, p, rest, -, h⟩ := c.returnAll_cases i
  · rw [h, Chip.startArbiterIf_stream, c.headsTaken_chain, List.drop_length]
  · rw [h, Chip.startArbiterIf_stream, (Chip.takeBack_spec _ i p []).2]

theorem Chip.returnAll_pages {c : Chip} {i : StreamId} (p : c.PagesCounted) (hs : (c.stream i).state = .closing) :
    (c.returnAll i).1.PagesCounted := by
  obtain ⟨b, h⟩ | ⟨n, q, rest, hc, h⟩ := c.returnAll_cases i
  · rw [h]; exact Chip.startArbiterIf_pages b (Chip.headsTaken_pages i _ p)
  · have hpages : ((c.headsTaken i n).followChain i q).1.PagesCounted :=
      Chip.setMem_pages _ (Chip.headsTaken_pages i n p)
    rw [h]
    exact Chip.startArbiterIf_pages true (Chip.takeBack_pages
      (Chip.breakChain_pages q hpages ((c.headsTaken_state i n).trans hs)) (Chip.breakChain_head hc))

/-- A stream closed once its chain is returned. -/
theorem Chip.closed_pages {c : Chip} {i : StreamId} (p : c.PagesCounted) (h : (c.stream i).chain = []) :
    (c.setStream i StreamEntry.closed).PagesCounted :=
  Chip.setStream_pages_of_unmet p (fun _ => rfl) (by rw [StreamEntry.heldPages, StreamEntry.heldPages, h]; rfl)
    (Nat.zero_le _)

/-! ### Ends -/

theorem Chip.flushEnd_pages {c : Chip} (i : StreamId) (p : c.PagesCounted) : (c.flushEnd i).PagesCounted := by
  have h := Chip.pageReturn_pages i p
  unfold Chip.flushEnd
  simp only
  split
  · rename_i hs
    have h2 : ((c.pageReturn i).setStream i
        { (c.pageReturn i).stream i with state := .opened, pendingEnd := none }).PagesCounted :=
      Chip.setStream_pages_of_unmet h (fun h => by cases h) rfl (by simp only [StreamEntry.unmet, hs]; exact le_rfl)
    split
    · exact h2
    · exact (Chip.answer_rings _ _ _).pages h2
  · exact h

theorem Chip.closeEnd_pages {c : Chip} {i : StreamId} (p : c.PagesCounted) (hs : (c.stream i).state = .closing) :
    (c.closeEnd i).PagesCounted := by
  have h := Chip.closed_pages (Chip.returnAll_pages p hs) (c.returnAll_chain i)
  unfold Chip.closeEnd
  simp only
  split
  · exact h
  · exact (Chip.answer_rings _ _ _).pages h

theorem Chip.endCheck_pages {c : Chip} (i : StreamId) (p : c.PagesCounted) : (c.endCheck i).PagesCounted := by
  unfold Chip.endCheck
  simp only
  split
  · split
    · exact Chip.flushEnd_pages i p
    · rename_i hs; exact Chip.closeEnd_pages p hs
    all_goals exact p
  · exact p

/-! ### Admission -/

theorem takeFree_length {usable k : Nat} {head : Option Nat} {m : BufferMemory} {g : List Nat × Option Nat}
    (h : (takeFree usable k head m).2 = some g) : g.1.length = k := ((takeFree_spec usable k head m).2 g h).1

theorem Chip.unmet_le_sumUnmet (c : Chip) (i : StreamId) : (c.stream i).unmet ≤ c.sumUnmet := by
  rw [Chip.sumUnmet_eq]
  exact Finset.single_le_sum (f := fun j => (c.stream j).unmet) (fun _ _ => Nat.zero_le _) (Finset.mem_univ i)

/-- What an allocation of pages takes from the pool: pages the quota and the room allow (R93, R94). -/
theorem Chip.allocate_counts {c t : Chip} {i : StreamId} {k : Nat} {ps : List Nat} (h : c.allocate i k = .pages t ps) :
    ps.length = k ∧ t.pool.usable = c.pool.usable ∧ t.pool.free = c.pool.free - k ∧ t.pool.lost = c.pool.lost ∧
      (k = 0 ∨ k ≤ (c.stream i).unmet + c.sharedFree) := by
  have hpool (d : Chip) (l : List Nat) : (linkPages i d l).pool = d.pool := by
    induction l generalizing d with
    | nil => rfl
    | cons p rest ih =>
      cases rest with
      | nil => rfl
      | cons q more => rw [linkPages, ih]; rfl
  have hafter (d : Chip) (l : List Nat) : (d.linkAfter i l).pool = d.pool := by
    unfold Chip.linkAfter; split <;> rfl
  unfold Chip.allocate at h
  split at h
  · rename_i hk
    cases h
    exact ⟨hk.symm, rfl, hk ▸ rfl, rfl, .inl hk⟩
  · split at h
    · rename_i ha
      simp only at h
      split at h
      · cases h
      · rename_i g hg
        injection h with h1 h2
        subst h1 h2
        simp only [Chip.canAllocate, Bool.and_eq_true, decide_eq_true_iff] at ha
        refine ⟨takeFree_length hg, ?_, ?_, ?_, .inr ha.2⟩ <;>
          simp only [Chip.modStream_pool, hpool, hafter]
    · cases h

/-- Pages allocated: as many fewer free as held more, taken from the stream's unmet reserve and the shared free pages. -/
theorem Chip.allocate_keeps_pages {c t : Chip} {i : StreamId} {k : Nat} {ps : List Nat} (p : c.PagesCounted)
    (h : c.allocate i k = .pages t ps) (hs : (c.stream i).state = .opened) : t.PagesCounted := by
  obtain ⟨hps, hu, hf, hl, hk⟩ := Chip.allocate_counts h
  obtain ⟨k, hst⟩ := c.allocate_pages i _ t ps h
  have hheld : (t.stream i).heldPages = (c.stream i).heldPages + ps.length := by
    rw [hst, StreamEntry.heldPages, List.length_append]; rfl
  have hunmet (st : StreamEntry) (h : st.state = .opened) : st.unmet = st.reserve - st.heldPages := by
    simp only [StreamEntry.unmet, h]
  have hopened : (t.stream i).state = .opened := by rw [hst]; exact hs
  have hreserve : (t.stream i).reserve = (c.stream i).reserve := by rw [hst]
  have hcov := p.covered
  have hshared : c.sharedFree = c.pool.free - c.sumUnmet := rfl
  refine p.stream k.others hu (fun h => by rw [hopened] at h; cases h) ?_ ?_
  · rw [hheld, hf, hl, hps]
    have := c.unmet_le_sumUnmet i
    omega
  · have hle := c.unmet_le_sumUnmet i
    rw [hunmet _ hs] at hk hle
    rw [hunmet _ hopened, hunmet _ hs]
    omega

end Sys2Proof.Machine
end

section
/-! What an operation on a stream keeps (`SafeOn`): the controller, the other streams, the transfer contexts, a canonical memory,
the order and bounds of the stream itself, and the count of the pages. The rules for the shared operations. -/

namespace Sys2Proof.Machine

/-- What an operation on stream `i` keeps: the Controller's registers, every other stream, buffer DRAM's canonical form, dormant
contexts, the bound of the request table, the order and the bounds of the stream, and the count of the pages. -/
structure SafeOn (i : StreamId) (c t : Chip) : Prop where
  ctl : t.ctl = c.ctl
  others : ∀ j : StreamId, j ≠ i → t.stream j = c.stream j
  mem : c.memOk → t.memOk
  ctx : ∀ k : CtxId, (c.ctx k).dormant → (t.ctx k).dormant
  table : t.rings.table.length ≤ c.rings.table.length
  stream : (c.stream i).Ordered → (c.stream i).Bounded → (t.stream i).Ordered ∧ (t.stream i).Bounded
  pages : c.PagesCounted → t.PagesCounted

namespace SafeOn
variable {i : StreamId} {a b c t : Chip}

theorem refl (i : StreamId) (c : Chip) : SafeOn i c c := ⟨rfl, fun _ _ => rfl, id, fun _ => id, le_rfl, fun o b => ⟨o, b⟩, id⟩

theorem trans (h : SafeOn i a b) (k : SafeOn i b c) : SafeOn i a c :=
  ⟨k.ctl.trans h.ctl, fun j hj => (k.others j hj).trans (h.others j hj), k.mem ∘ h.mem, fun j => k.ctx j ∘ h.ctx j,
    k.table.trans h.table, fun o w => k.stream (h.stream o w).1 (h.stream o w).2, k.pages ∘ h.pages⟩

theorem of_keeps (h : Keeps i c t) (p : c.PagesCounted → t.PagesCounted) : SafeOn i c t :=
  ⟨h.ctl, h.others, h.mem, h.ctx, h.table, fun o b => ⟨h.order o, h.bounds b⟩, p⟩

theorem onlyStream (h : SafeOn i c t) : OnlyStream i c t := ⟨h.ctl, h.others⟩

end SafeOn

theorem OnlyRings.safeOn {c t : Chip} (h : OnlyRings c t) (i : StreamId) : SafeOn i c t := .of_keeps (h.keeps i) h.pages

/-- The entry of the stream replaced. -/
theorem Chip.setStream_safeOn (c : Chip) (i : StreamId) (st : StreamEntry)
    (hs : (c.stream i).Ordered → (c.stream i).Bounded → st.Ordered ∧ st.Bounded)
    (hp : c.PagesCounted → (c.setStream i st).PagesCounted) : SafeOn i c (c.setStream i st) :=
  ⟨rfl, fun _ h => c.setStream_stream_ne st h, id, fun _ => id, le_rfl, by simpa using hs, hp⟩

theorem Chip.answer_safeOn (c : Chip) (i : StreamId) (id : Nat) (f : Request → Completion) : SafeOn i c (c.answer id f) :=
  (c.answer_rings id f).safeOn i

theorem Chip.refuse_safeOn (c : Chip) (i : StreamId) (id : Nat) (s : Status) : SafeOn i c (c.refuse id s) :=
  c.answer_safeOn i id _

theorem Chip.evalBacklog_safeOn (c : Chip) (i : StreamId) : SafeOn i c (c.evalBacklog i) :=
  .of_keeps (c.evalBacklog_keeps i) (Chip.evalBacklog_pages i)

theorem Chip.evalOccupancy_safeOn (c : Chip) (i : StreamId) : SafeOn i c (c.evalOccupancy i) :=
  .of_keeps (c.evalOccupancy_keeps i) (Chip.evalOccupancy_pages i)

theorem Chip.attempt_safeOn (c : Chip) (i : StreamId) : SafeOn i c (c.attempt i) :=
  .of_keeps (c.attempt_keeps i) (Chip.attempt_pages i)

theorem Chip.startArbiter_safeOn (c : Chip) (i : StreamId) : SafeOn i c c.startArbiter :=
  .of_keeps (c.startArbiter_keeps i) Chip.startArbiter_pages

theorem Chip.startArbiterIf_safeOn (c : Chip) (i : StreamId) (b : Bool) : SafeOn i c (c.startArbiterIf b) :=
  .of_keeps (c.startArbiterIf_keeps i b) (Chip.startArbiterIf_pages b)

theorem Chip.setMem_safeOn (c : Chip) (i : StreamId) (m : BufferMemory) (h : c.mem.wf = true → m.wf = true) :
    SafeOn i c { c with mem := m } := .of_keeps (c.setMem_keeps i m h) (Chip.setMem_pages m)

theorem Chip.place_safeOn (c : Chip) (i : StreamId) (t : Transfer) : SafeOn i c (c.place t) :=
  .of_keeps (c.place_keeps i t) (Chip.setEngine_pages _)

theorem Chip.faultStream_safeOn (c : Chip) (i : StreamId) (cause : FaultCause) (brk : Option Nat) :
    SafeOn i c (c.faultStream i cause brk) := .of_keeps (c.faultStream_keeps i cause brk) (Chip.faultStream_pages cause brk)

theorem Chip.reportMedia_safeOn (c : Chip) (i : StreamId) (cause : FaultCause) (brk : Option Nat) :
    SafeOn i c (c.reportMedia i cause brk) := by
  refine .of_keeps (c.reportMedia_keeps i cause brk) fun p => ?_
  unfold Chip.reportMedia
  split
  · exact Chip.faultStream_pages cause brk p
  · exact Chip.faultStream_pages cause brk p
  · rename_i hs; exact Chip.stopActive_pages i (Chip.closeBroken_pages brk p hs)
  · rename_i hs; exact Chip.cut_pages_of_ending brk p (.inr hs)
  all_goals exact p

theorem Chip.pageReturn_safeOn (c : Chip) (i : StreamId) : SafeOn i c (c.pageReturn i) :=
  .of_keeps (c.pageReturn_keeps i) (Chip.pageReturn_pages i)

theorem Chip.endCheck_safeOn (c : Chip) (i : StreamId) : SafeOn i c (c.endCheck i) :=
  .of_keeps (c.endCheck_keeps i) (Chip.endCheck_pages i)

theorem Chip.refuseWaiting_safeOn (c : Chip) (i : StreamId) (s : Status) : SafeOn i c (c.refuseWaiting i s) :=
  .of_keeps (c.refuseWaiting_keeps i s) (Chip.refuseWaiting_pages i s)

/-! ### Admission -/

/-- An append admitted where the window has room and next is not at its end (R33). -/
theorem Chip.tryAdmit_safeOn {c t : Chip} {i : StreamId} {id length : Nat} {tag : Word} {src : Source}
    (hn : (c.stream i).next ≠ Config.seqEnd) (hw : (c.stream i).admitted.length < Config.maxWindow)
    (hs : (c.stream i).state = .opened) (h : c.tryAdmit i id length tag src = .done t) : SafeOn i c t := by
  unfold Chip.tryAdmit at h
  simp only at h
  split at h
  · cases h
  · cases h
  · rename_i c1 ps he
    injection h with h
    subst h
    obtain ⟨k, hst⟩ := c.allocate_pages i _ c1 ps he
    have h1 : SafeOn i c c1 := .of_keeps k fun p => Chip.allocate_keeps_pages p he hs
    have hchain : ((c.stream i).afterAdmission ps length id).chain = (c1.stream i).chain := by rw [hst]; rfl
    have h2 : SafeOn i c (c1.setStream i ((c.stream i).afterAdmission ps length id)) := by
      refine ⟨k.ctl, fun j hj => (c1.setStream_stream_ne _ hj).trans (k.others j hj), h1.mem, h1.ctx, h1.table,
        fun o b => ?_, fun p => Chip.setStream_pages (h1.pages p) ?_ ?_ hchain⟩
      · rw [Chip.setStream_stream_same]
        exact ⟨(c.stream i).afterAdmission_ordered ps length id (lt_of_le_of_ne o.nextEnd hn) o,
          (c.stream i).afterAdmission_bounded ps length id hw b⟩
      · rw [hst]; rfl
      · rw [hst]; rfl
    have h3 := ((h2.trans (Chip.setMem_safeOn _ i _ (BufferMemory.writeHeader_wf _
      (((c.stream i).rangeOf ps).1.head?.getD 0) ((c.stream i).rangeOf ps).2 (c.stream i).next length tag i))).trans
      ((Chip.setPhase_rings _ id .admitted).safeOn i)).trans (Chip.place_safeOn _ i
        { slot := id, work := .appendCopy length src ((c.stream i).rangeOf ps).1 ((c.stream i).rangeOf ps).2 })
    unfold Chip.admitAppend
    simp only
    split
    · exact h3
    · exact h3.trans (Chip.evalOccupancy_safeOn _ i)

/-! ### The waiting-fetch head -/

/-- The rest of a waiting-fetch list in place of the list. -/
theorem Chip.setWaitF_safeOn (c : Chip) (i : StreamId) {l : List WaitingFetch}
    (hl : l.length ≤ (c.stream i).waitF.length) : SafeOn i c (c.modStream i fun st => { st with waitF := l }) :=
  c.setStream_safeOn i _ (fun o b => ⟨⟨o.baseRead, o.readFrontier, o.frontierNext, o.nextEnd, o.marks, o.consume, o.window, o.fetch⟩,
    b.marks, b.appends, hl.trans b.fetches, b.window⟩) fun p => Chip.setStream_pages p rfl rfl rfl

theorem OnlyReads.pages {c t : Chip} (h : OnlyReads c t) (p : c.PagesCounted) : t.PagesCounted := by
  rw [h.same]; exact Chip.setMem_pages _ p

/-- What a sizing walk leaves is the part with the reads it made. -/
theorem sizeWalk_chip (i : StreamId) (capacity next fuel : Nat) (c : Chip) (seq page offset n total : Nat) :
    OnlyReads c (sizeWalk i capacity next fuel c seq page offset n total).chip := by
  cases h : sizeWalk i capacity next fuel c seq page offset n total with
  | broken t cause brk => exact sizeWalk_reads _ _ _ _ _ _ _ _ _ _ _ (.inr (.inr ⟨_, _, h⟩))
  | small t f => exact sizeWalk_reads _ _ _ _ _ _ _ _ _ _ _ (.inr (.inl ⟨_, h⟩))
  | sized t m loc => exact sizeWalk_reads _ _ _ _ _ _ _ _ _ _ _ (.inl ⟨_, _, h⟩)

theorem sizeWalk_safeOn (i j : StreamId) (capacity next fuel : Nat) (c : Chip) (seq page offset n total : Nat) :
    SafeOn i c (sizeWalk j capacity next fuel c seq page offset n total).chip :=
  .of_keeps (sizeWalk_keeps i j capacity next fuel c seq page offset n total) (sizeWalk_chip _ _ _ _ _ _ _ _ _ _).pages

/-- A grant of the head of the waiting-fetch list. -/
theorem Chip.grant_safeOn {c : Chip} {i : StreamId} {h : WaitingFetch} {rest : List WaitingFetch} (short : Bool)
    (hw : (c.stream i).waitF = h :: rest) : SafeOn i c (c.grant i h rest short).1 := by
  have hl : rest.length ≤ (c.stream i).waitF.length := by rw [hw, List.length_cons]; exact Nat.le_succ _
  have hsafe := sizeWalk_safeOn i i h.capacity (c.stream i).next (min h.maxRecords (c.stream i).available) c
    (c.stream i).read (c.stream i).readLoc.place.1 (c.stream i).readLoc.place.2 0 0
  have hsame := congrArg (·.get i) (sizeWalk_stream i h.capacity (c.stream i).next
    (min h.maxRecords (c.stream i).available) c (c.stream i).read (c.stream i).readLoc.place.1
    (c.stream i).readLoc.place.2 0 0)
  have hcount := sizeWalk_count i h.capacity (c.stream i).next (min h.maxRecords (c.stream i).available) c
    (c.stream i).read (c.stream i).readLoc.place.1 (c.stream i).readLoc.place.2 0 0
  unfold Chip.grant
  simp only
  split
  · rename_i c1 cause brk he
    rw [he] at hsafe
    exact hsafe.trans (c1.faultStream_safeOn i cause brk)
  · rename_i c1 f he
    rw [he] at hsafe hsame
    have hst : c1.stream i = c.stream i := hsame
    exact (hsafe.trans (c1.setWaitF_safeOn i (hst ▸ hl))).trans (Chip.answer_safeOn _ i _ _)
  · rename_i c1 n loc he
    rw [he] at hsafe hsame
    have hst : c1.stream i = c.stream i := hsame
    have hn : n ≤ (c1.stream i).available := by
      have := hcount c1 n loc he
      rw [hst]
      omega
    have hgrant : SafeOn i c1 (c1.modStream i fun st => st.granted h rest short n loc) :=
      c1.setStream_safeOn i _ (fun o b => ⟨(c1.stream i).granted_ordered h rest short n loc hn o,
        b.marks, b.appends, (hst ▸ hl).trans b.fetches, b.window⟩) fun p => Chip.setStream_pages p rfl rfl rfl
    exact ((hsafe.trans hgrant).trans (((Chip.setPhase_rings _ _ _).safeOn i).trans (Chip.place_safeOn _ i _))).trans
      (Chip.evalBacklog_safeOn _ i)

theorem evalHeads_safeOn (fuel : Nat) (i : StreamId) (c : Chip) : SafeOn i c (evalHeads fuel i c) := by
  induction fuel generalizing c with
  | zero => exact .refl i c
  | succ fuel ih =>
    have again (r : Chip × Bool) (h : SafeOn i c r.1) : SafeOn i c (if r.2 then evalHeads fuel i r.1 else r.1) := by
      split
      · exact h.trans (ih r.1)
      · exact h
    unfold evalHeads
    simp only
    split
    · split
      · exact .refl i c
      · rename_i h rest hw
        split
        · exact again _ (Chip.grant_safeOn false hw)
        · split
          · split
            · exact again _ (Chip.grant_safeOn true hw)
            · exact ((c.setWaitF_safeOn i (by simp [hw])).trans (Chip.answer_safeOn _ i _ _)).trans (ih _)
          · exact .refl i c
    · exact .refl i c

theorem Chip.evalHead_safeOn (c : Chip) (i : StreamId) : SafeOn i c (c.evalHead i) := evalHeads_safeOn _ i c

/-! ### Waiting lists and the walks over the append window -/

theorem Chip.joinAppends_safeOn (c : Chip) (i : StreamId) (id length wait : Nat) :
    SafeOn i c (c.joinAppends i id length wait) := by
  refine .of_keeps (c.joinAppends_keeps i id length wait) fun p => ?_
  unfold Chip.joinAppends
  split
  · exact (c.refuse_rings _ _).pages p
  · split
    · exact (c.cancelInstead_rings id).pages p
    · exact (Chip.setPhase_rings _ _ _).pages (Chip.setStream_pages p rfl rfl rfl)

theorem Chip.joinFetches_safeOn (c : Chip) (i : StreamId) (id maxRecords minRecords wait : Nat) (segs : List Segment) :
    SafeOn i c (c.joinFetches i id maxRecords minRecords wait segs) := by
  unfold Chip.joinFetches
  split
  · exact c.refuse_safeOn i _ _
  · rename_i hl
    split
    · exact (c.cancelInstead_rings id).safeOn i
    · have join (w : WaitingFetch) : SafeOn i c ((c.modStream i fun st =>
          { st with waitF := st.waitF ++ [w] }).modSlot id fun sl => { sl with phase := .waiting, segments := segs }) :=
        (c.setStream_safeOn i { c.stream i with waitF := (c.stream i).waitF ++ [w] }
          (fun o b => ⟨⟨o.baseRead, o.readFrontier, o.frontierNext, o.nextEnd, o.marks, o.consume, o.window, o.fetch⟩,
            b.marks, b.appends, by rw [List.length_append, List.length_singleton]; omega, b.window⟩)
          fun p => Chip.setStream_pages p rfl rfl rfl).trans ((Chip.modSlot_rings _ _ _).safeOn i)
      simp only
      split
      · exact (join _).trans (Chip.evalHead_safeOn _ i)
      · exact join _

theorem foldl_answer_safeOn {α : Type} (i : StreamId) (slot : α → Nat) (f : α → Request → Completion) (l : List α) (c : Chip) :
    SafeOn i c (l.foldl (fun d a => d.answer (slot a) (f a)) c) :=
  (foldl_onlyRings _ (fun d a => d.answer_rings (slot a) (f a)) l c).safeOn i

theorem Chip.inOrderWalk_safeOn (c : Chip) (i : StreamId) : SafeOn i c (c.inOrderWalk i) := by
  unfold Chip.inOrderWalk
  simp only
  split
  · exact .refl i c
  · refine .trans (.trans (.trans (.trans ?_ (foldl_answer_safeOn i _ _ _ _)) (Chip.evalBacklog_safeOn _ i))
      (Chip.evalHead_safeOn _ i)) (Chip.startArbiter_safeOn _ i)
    refine c.setStream_safeOn i _ (fun o b => ⟨⟨o.baseRead, le_trans o.readFrontier (Nat.le_add_right _ _),
      committable_length _ _ _ o.window o.frontierNext, o.nextEnd, o.marks, o.consume,
      fun a ha => o.window a (List.mem_of_mem_drop ha),
      fun a ha => ⟨(o.fetch a ha).1, le_trans (o.fetch a ha).2 (Nat.le_add_right _ _)⟩⟩,
      b.marks, b.appends, b.fetches, ?_⟩) fun p => Chip.setStream_pages p rfl rfl rfl
    exact (List.drop_sublist _ _).length_le.trans b.window

theorem Chip.discardWalk_safeOn (c : Chip) (i : StreamId) : SafeOn i c (c.discardWalk i) := by
  unfold Chip.discardWalk
  simp only
  split
  · exact .refl i c
  · refine .trans (.trans ?_ (Chip.startArbiter_safeOn _ i)) (Chip.endCheck_safeOn _ i)
    have hdrop := (c.setStream_safeOn i
      { c.stream i with admitted := (c.stream i).admitted.drop (discardable (c.stream i).admitted).length }
      (fun o b => ⟨⟨o.baseRead, o.readFrontier, o.frontierNext, o.nextEnd, o.marks, o.consume,
        fun a ha => o.window a (List.mem_of_mem_drop ha), o.fetch⟩,
        b.marks, b.appends, b.fetches, (List.drop_sublist _ _).length_le.trans b.window⟩)
      fun p => Chip.setStream_pages p rfl rfl rfl).trans
      (foldl_answer_safeOn i Admitted.slot (fun a => a.discarded (c.stream i).discardStatus)
        (discardable (c.stream i).admitted) _)
    split
    · exact hdrop
    · exact hdrop.trans (Chip.pageReturn_safeOn _ i)

theorem Chip.walk_safeOn (c : Chip) (i : StreamId) : SafeOn i c (c.walk i) := by
  unfold Chip.walk
  split
  · exact c.inOrderWalk_safeOn i
  · exact c.discardWalk_safeOn i
  · exact c.discardWalk_safeOn i
  · exact c.discardWalk_safeOn i
  · exact .refl i c
  · exact .refl i c

end Sys2Proof.Machine
end

section
/-! What each request on one stream, and each end reported to it, keeps of the part: `SafeOn` for each command's effect, but for an
APPEND that halts the controller (R95). -/

namespace Sys2Proof.Machine

theorem stateCheck_io_eq_none {s : StreamState} (h : stateCheck .io s = none) : s = .opened := by
  cases s <;> simp [stateCheck] at h ⊢

theorem stateCheck_open_eq_none {s : StreamState} (h : stateCheck .open_ s = none) : s = .closed := by
  cases s <;> simp [stateCheck] at h ⊢

theorem stateCheck_set_eq_none {s : StreamState} (h : stateCheck .set_ s = none) : s = .opened ∨ s = .held := by
  cases s <;> simp [stateCheck] at h ⊢

theorem stateCheck_flush_eq_none {s : StreamState} (h : stateCheck .flush s = none) : s = .opened := by
  cases s <;> simp [stateCheck] at h ⊢

theorem stateCheck_resume_eq_none {s : StreamState} (h : stateCheck .resume s = none) : s = .held := by
  cases s <;> simp [stateCheck] at h ⊢

/-! ### APPEND (R27) -/

theorem Chip.appendWaits_safeOn (c : Chip) (i : StreamId) (id length wait detail : Nat) :
    SafeOn i c (c.appendWaits i id length wait detail) := by
  unfold Chip.appendWaits
  split
  · exact c.answer_safeOn i id _
  · exact c.joinAppends_safeOn i id length wait

/-- An admission keeps what an operation on a stream keeps, or halts the controller on a free-list link error (R95). -/
def SafeOrFreeListHalt (i : StreamId) (c t : Chip) : Prop :=
  SafeOn i c t ∨ ∃ m : BufferMemory, t = ({ c with mem := m } : Chip).halt .freeList ∧ (c.memOk → m.wf = true)

theorem Chip.appendRoom_safe {c : Chip} {i : StreamId} (id length wait : Nat) (tag : Word) (src : Source)
    (hn : (c.stream i).next ≠ Config.seqEnd) (hs : (c.stream i).state = .opened) :
    SafeOrFreeListHalt i c (c.appendRoom i id length wait tag src) := by
  unfold Chip.appendRoom
  simp only
  split
  · exact .inl (c.appendWaits_safeOn i id length wait 3)
  · split
    · exact .inl (c.appendWaits_safeOn i id length wait 2)
    · rename_i hw
      split
      · exact .inl (c.appendWaits_safeOn i id length wait 1)
      · rename_i c1 h
        exact .inr (c.tryAdmit_halted i id length tag src c1 h)
      · rename_i c1 h
        exact .inl (Chip.tryAdmit_safeOn hn (Nat.not_le.1 hw) hs h)

theorem Chip.append_safe {c : Chip} {i : StreamId} (id length wait : Nat) (tag : Word) (src : Source)
    (hs : (c.stream i).state = .opened) : SafeOrFreeListHalt i c (c.append i id length wait tag src) := by
  unfold Chip.append
  simp only
  split
  · exact .inl (c.refuse_safeOn i id _)
  · split
    · exact .inl (c.refuse_safeOn i id _)
    · split
      · exact .inl (c.refuse_safeOn i id _)
      · split
        · exact .inl (c.refuse_safeOn i id _)
        · rename_i hn; exact Chip.appendRoom_safe id length wait tag src hn hs

/-! ### FETCH (R48) -/

theorem Chip.fetch_safeOn (c : Chip) (i : StreamId) (id maxRecords minRecords wait : Nat) (src : Source) :
    SafeOn i c (c.fetch i id maxRecords minRecords wait src) := by
  unfold Chip.fetch
  split
  · exact c.refuse_safeOn i id _
  · split
    · exact c.refuse_safeOn i id _
    · split
      · exact c.refuse_safeOn i id _
      · split
        · exact c.joinFetches_safeOn i id maxRecords minRecords wait _
        · exact c.place_safeOn i _

/-! ### MARK, REWIND, RELEASE (R73, R75, R78) -/

theorem Chip.mark_safeOn (c : Chip) (i : StreamId) (id : Nat) : SafeOn i c (c.mark i id) := by
  unfold Chip.mark
  simp only
  split
  · exact c.refuse_safeOn i id _
  · rename_i hm
    split
    · exact c.answer_safeOn i id _
    · split
      · exact c.answer_safeOn i id _
      · rename_i hl
        refine .trans ?_ (Chip.answer_safeOn _ i id _)
        refine c.setStream_safeOn i _ (fun o b => ⟨⟨o.baseRead, o.readFrontier, o.frontierNext, o.nextEnd, fun m h => ?_,
          fun h => absurd h hm, o.window, o.fetch⟩, ?_, b.appends, b.fetches, b.window⟩)
          fun p => Chip.setStream_pages p rfl rfl rfl
        · rcases List.mem_append.1 h with h | h
          · exact o.marks m h
          · rw [List.mem_singleton.1 h]; exact ⟨o.baseRead, le_rfl⟩
        · rw [List.length_append, List.length_singleton]; omega

/-- A position that REWIND and RELEASE may target lies between base and read. -/
def StreamEntry.Within (st : StreamEntry) (m : Mark) : Prop := st.base ≤ m.pos ∧ m.pos ≤ st.read

theorem StreamEntry.atMark_within {st : StreamEntry} {target : Nat} {m : Mark} (o : st.Ordered)
    (h : st.atMark target = .ok m) : st.Within m := by
  unfold StreamEntry.atMark at h
  split at h
  · cases h
  · split at h
    · cases h
    · rename_i m' hm
      cases h
      exact o.marks m (List.mem_of_find?_eq_some hm)

theorem StreamEntry.rewindTarget_within {st : StreamEntry} {variant target : Nat} {m : Mark} (o : st.Ordered)
    (h : st.rewindTarget variant target = .ok m) : st.Within m := by
  unfold StreamEntry.rewindTarget at h
  split at h
  · split at h
    · cases h
    · rename_i m' hm
      cases h
      exact o.marks m (List.mem_of_getLast? hm)
  · split at h
    · exact StreamEntry.atMark_within o h
    · cases h; exact ⟨le_rfl, o.baseRead⟩

theorem StreamEntry.releaseTarget_within {st : StreamEntry} {variant target : Nat} {m : Mark} (o : st.Ordered)
    (h : st.releaseTarget variant target = .ok m) : st.Within m := by
  unfold StreamEntry.releaseTarget at h
  split at h
  · split at h
    · cases h
    · rename_i m' hm
      cases h
      exact o.marks m (List.mem_of_head? hm)
  · split at h
    · exact StreamEntry.atMark_within o h
    · cases h; exact ⟨o.baseRead, le_rfl⟩

theorem Chip.rewindTo_safeOn {c : Chip} {i : StreamId} (id : Nat) {m : Mark}
    (hm : (c.stream i).Ordered → (c.stream i).Within m) : SafeOn i c (c.rewindTo i id m) := by
  unfold Chip.rewindTo
  simp only
  split
  · exact c.answer_safeOn i id _
  · refine .trans (.trans (.trans ?_ (Chip.evalBacklog_safeOn _ i)) (Chip.evalHead_safeOn _ i)) (Chip.answer_safeOn _ i id _)
    refine c.setStream_safeOn i _ (fun o b => ⟨⟨(hm o).1, (hm o).2.trans o.readFrontier, o.frontierNext, o.nextEnd,
      fun x h => ?_, fun h => ?_, o.window, o.fetch⟩, (List.length_filter_le _ _).trans b.marks, b.appends, b.fetches,
      b.window⟩) fun p => Chip.setStream_pages p rfl rfl rfl
    · obtain ⟨hx, hle⟩ := List.mem_filter.1 h
      exact ⟨(o.marks x hx).1, of_decide_eq_true hle⟩
    · simp [StreamEntry.rewound, o.consume h]

theorem Chip.rewind_safeOn (c : Chip) (i : StreamId) (id variant target : Nat) :
    SafeOn i c (c.rewind i id variant target) := by
  unfold Chip.rewind
  simp only
  split
  · exact c.refuse_safeOn i id _
  · split
    · exact c.refuse_safeOn i id _
    · split
      · exact c.answer_safeOn i id _
      · rename_i m h; exact Chip.rewindTo_safeOn id fun o => StreamEntry.rewindTarget_within o h

theorem Chip.releaseTo_safeOn {c : Chip} {i : StreamId} (id : Nat) {m : Mark}
    (hm : (c.stream i).Ordered → (c.stream i).Within m) : SafeOn i c (c.releaseTo i id m) := by
  have hset : SafeOn i c (c.setStream i ((c.stream i).released m)) := by
    refine c.setStream_safeOn i _ (fun o b => ⟨⟨(hm o).2, o.readFrontier, o.frontierNext, o.nextEnd, fun x h => ?_,
      fun h => ?_, o.window, o.fetch⟩, (List.length_filter_le _ _).trans b.marks, b.appends, b.fetches, b.window⟩)
      fun p => Chip.setStream_pages p rfl rfl rfl
    · obtain ⟨hx, hlt⟩ := List.mem_filter.1 h
      exact ⟨(of_decide_eq_true hlt).le, (o.marks x hx).2⟩
    · simp [StreamEntry.released, o.consume h]
  unfold Chip.releaseTo
  simp only
  refine .trans ?_ (Chip.answer_safeOn _ i id _)
  split
  · exact hset.trans (Chip.pageReturn_safeOn _ i)
  · exact hset

theorem Chip.release_safeOn (c : Chip) (i : StreamId) (id variant target : Nat) :
    SafeOn i c (c.release i id variant target) := by
  unfold Chip.release
  simp only
  split
  · exact c.refuse_safeOn i id _
  · split
    · exact c.refuse_safeOn i id _
    · split
      · exact c.answer_safeOn i id _
      · rename_i m h; exact Chip.releaseTo_safeOn id fun o => StreamEntry.releaseTarget_within o h

/-! ### Stream control (R10 to R23) -/

/-- Reserves that grow by no more than the shared free pages stay covered (R10, R12). -/
theorem Chip.setStream_pages_of_growth {c : Chip} {i : StreamId} {st : StreamEntry} (p : c.PagesCounted)
    (hc : st.state = .closed → st.chain = []) (hh : st.heldPages = (c.stream i).heldPages)
    (hu : st.unmet ≤ (c.stream i).unmet + c.sharedFree) : (c.setStream i st).PagesCounted := by
  have hcov := p.covered
  have hshared : c.sharedFree = c.pool.free - c.sumUnmet := rfl
  refine p.stream (fun j hj => c.setStream_stream_ne st hj) rfl (by simpa using hc) (by simpa using hh) ?_
  simp only [Chip.setStream_stream_same, Chip.setStream_pool]
  omega

theorem Chip.openStream_safeOn {c : Chip} {i : StreamId} (id : Nat) (b : SettingsBlock)
    (hs : (c.stream i).state = .closed) : SafeOn i c (c.openStream i id b) := by
  unfold Chip.openStream
  split
  · exact c.refuse_safeOn i id _
  · rename_i hok
    split
    · exact c.refuse_safeOn i id _
    · rename_i hfree
      obtain ⟨-, hinit, -⟩ := (c.openBlockOk_iff b).1 (Bool.eq_true_of_not_eq_false hok)
      have hend : b.initial ≤ Config.seqEnd := by simp only [Config.seqEnd]; omega
      refine .trans (c.setStream_safeOn i _ (fun _ _ => ⟨⟨le_rfl, le_rfl, le_rfl, hend,
        fun m h => (List.not_mem_nil h).elim, fun _ => rfl, fun a h => (List.not_mem_nil h).elim, fun a h => by cases h⟩,
        Nat.zero_le _, Nat.zero_le _, Nat.zero_le _, Nat.zero_le _⟩) fun p => ?_) (Chip.answer_safeOn _ i id _)
      refine Chip.setStream_pages_of_growth p (fun h => by cases h) ?_ ?_
      · rw [StreamEntry.heldPages, StreamEntry.heldPages, p.closed i hs]; rfl
      · have : b.opened.unmet = b.reserve := rfl
        omega

theorem Chip.refuseTooLarge_safeOn (c : Chip) (i : StreamId) (quota : Nat) : SafeOn i c (c.refuseTooLarge i quota) :=
  have hset : SafeOn i c (c.modStream i fun x =>
      { x with waitA := (c.stream i).waitA.filter fun w => !w.tooLarge quota }) :=
    c.setStream_safeOn i _ (fun o b => ⟨⟨o.baseRead, o.readFrontier, o.frontierNext, o.nextEnd, o.marks, o.consume,
      o.window, o.fetch⟩, b.marks, (List.length_filter_le _ _).trans b.appends, b.fetches, b.window⟩)
      fun p => Chip.setStream_pages p rfl rfl rfl
  hset.trans ((Chip.refuseAll_rings _ _ _).safeOn i)

theorem Chip.setSettings_safeOn {c : Chip} {i : StreamId} (id : Nat) (b : SettingsBlock)
    (hs : (c.stream i).state = .opened ∨ (c.stream i).state = .held) : SafeOn i c (c.setSettings i id b) := by
  unfold Chip.setSettings
  simp only
  split
  · exact c.refuse_safeOn i id _
  · split
    · exact c.refuse_safeOn i id _
    · split
      · exact c.refuse_safeOn i id _
      · rename_i hgrowth
        have hset : SafeOn i c (c.setStream i ((c.stream i).setTo b)) := by
          refine c.setStream_safeOn i _ (fun o w => ⟨⟨o.baseRead, o.readFrontier, o.frontierNext, o.nextEnd, ?_, ?_,
            o.window, o.fetch⟩, ?_, w.appends, w.fetches, w.window⟩) fun p => ?_
          · intro m h
            simp only [StreamEntry.setTo, StreamEntry.silent] at h
            split at h
            · exact (List.not_mem_nil h).elim
            · exact o.marks m h
          · intro h
            have hmode : b.modeOf = .consume := h
            have : b.mode = 1 := by
              unfold SettingsBlock.modeOf at hmode
              split at hmode
              · assumption
              · cases hmode
            simp only [StreamEntry.setTo, StreamEntry.silent, this, if_true]
          · simp only [StreamEntry.setTo, StreamEntry.silent]
            split
            · exact Nat.zero_le _
            · exact w.marks
          · refine Chip.setStream_pages_of_growth p (fun h => p.closed i h) rfl ?_
            have hstate : ((c.stream i).setTo b).state = (c.stream i).state := rfl
            have hres : ((c.stream i).setTo b).reserve = b.reserve := rfl
            have hheld : ((c.stream i).setTo b).heldPages = (c.stream i).heldPages := rfl
            simp only [StreamEntry.growth] at hgrowth
            rcases hs with hs | hs <;> simp only [StreamEntry.unmet, hstate, hs, hres, hheld] <;> omega
        refine .trans (.trans (hset.trans (Chip.refuseTooLarge_safeOn _ i b.quota)) ?_)
          (.trans (Chip.answer_safeOn _ i id _) (Chip.startArbiterIf_safeOn _ i _))
        unfold Chip.attemptIfMoved
        split
        · exact .refl i _
        · exact Chip.attempt_safeOn _ i

theorem Chip.flushStream_safeOn {c : Chip} {i : StreamId} (id : Nat) (hs : (c.stream i).state = .opened) :
    SafeOn i c (c.flushStream i id) := by
  refine .trans (.trans (.trans (.trans ?_ ((Chip.setPhase_rings _ id .admitted).safeOn i))
    (Chip.refuseWaiting_safeOn _ i _)) (Chip.pageReturn_safeOn _ i)) (Chip.endCheck_safeOn _ i)
  refine c.setStream_safeOn i _ (fun o b => ⟨⟨le_rfl, le_rfl, le_rfl, o.nextEnd, fun m h => (List.not_mem_nil h).elim,
    fun _ => rfl, o.window, fun a h => ⟨(o.fetch a h).1, (o.fetch a h).2.trans o.frontierNext⟩⟩, Nat.zero_le _, b.appends,
    b.fetches, b.window⟩) fun p => Chip.setStream_pages_of_unmet p (fun h => by cases h) rfl ?_
  simp only [StreamEntry.unmet, StreamEntry.flushed, StreamEntry.heldPages, hs]
  exact le_rfl

theorem Chip.closeStream_safeOn (c : Chip) (i : StreamId) (id : Nat) : SafeOn i c (c.closeStream i id) := by
  refine .trans (.trans (.trans (.trans ?_ ((Chip.setPhase_rings _ id .admitted).safeOn i))
    (Chip.refuseWaiting_safeOn _ i _)) (Chip.startArbiterIf_safeOn _ i _)) (Chip.endCheck_safeOn _ i)
  exact c.setStream_safeOn i _ (fun o b => ⟨⟨o.baseRead, o.readFrontier, o.frontierNext, o.nextEnd,
    fun m h => (List.not_mem_nil h).elim, fun _ => rfl, o.window, o.fetch⟩, Nat.zero_le _, b.appends, b.fetches, b.window⟩)
    fun p => Chip.setStream_pages_of_unmet p (fun h => by cases h) rfl (Nat.zero_le _)

theorem Chip.resumeStream_safeOn {c : Chip} {i : StreamId} (id ring : Nat) (hs : (c.stream i).state = .held) :
    SafeOn i c (c.resumeStream i id ring) := by
  unfold Chip.resumeStream
  simp only
  split
  · exact c.refuse_safeOn i id _
  · refine .trans ?_ (Chip.answer_safeOn _ i id _)
    refine c.setStream_safeOn i _ (fun o b => ⟨⟨o.baseRead, o.readFrontier, o.frontierNext, o.nextEnd, o.marks, o.consume,
      o.window, o.fetch⟩, b.marks, b.appends, b.fetches, b.window⟩)
      fun p => Chip.setStream_pages_of_unmet p (fun h => by cases h) rfl ?_
    simp only [StreamEntry.unmet, StreamEntry.heldPages, hs]
    exact le_rfl

theorem Chip.placeReport_safeOn (c : Chip) (i : StreamId) (id : Nat) (buffer : Segment) (data : List Byte) (a b : Nat) :
    SafeOn i c (c.placeReport id buffer data a b) := ((Chip.modSlot_rings _ _ _).safeOn i).trans (Chip.place_safeOn _ i _)

theorem Chip.streamReport_safeOn (c : Chip) (i : StreamId) (id : Nat) (buffer : Segment) :
    SafeOn i c (c.streamReport i id buffer) := by
  unfold Chip.streamReport
  simp only
  split
  · exact c.placeReport_safeOn i id buffer _ _ _
  · exact c.refuse_safeOn i id _

/-! ### Deadlines and reported ends -/

theorem Chip.dropAppend_safeOn (c : Chip) (i : StreamId) (id : Nat) : SafeOn i c (c.dropAppend i id) :=
  c.setStream_safeOn i _ (fun o b => ⟨⟨o.baseRead, o.readFrontier, o.frontierNext, o.nextEnd, o.marks, o.consume, o.window,
    o.fetch⟩, b.marks, (List.length_filter_le _ _).trans b.appends, b.fetches, b.window⟩)
    fun p => Chip.setStream_pages p rfl rfl rfl

theorem Chip.dropFetch_safeOn (c : Chip) (i : StreamId) (id : Nat) : SafeOn i c (c.dropFetch i id) :=
  c.setWaitF_safeOn i (List.length_filter_le _ _)

theorem Chip.fetchTimesOut_safeOn (c : Chip) (i : StreamId) (id : Nat) : SafeOn i c (c.fetchTimesOut i id) := by
  have h := (c.dropFetch_safeOn i id).trans (Chip.refuse_safeOn _ i id .timedOut)
  unfold Chip.fetchTimesOut
  simp only
  split
  · exact h.trans (Chip.evalHead_safeOn _ i)
  · exact h

theorem Chip.fetchExpires_safeOn (c : Chip) (i : StreamId) (id : Nat) : SafeOn i c (c.fetchExpires i id) := by
  unfold Chip.fetchExpires
  simp only
  split
  · exact .refl i c
  · rename_i h rest hw
    split
    · split
      · exact (Chip.grant_safeOn true hw).trans (Chip.evalHead_safeOn _ i)
      · exact Chip.grant_safeOn true hw
    · exact c.fetchTimesOut_safeOn i id

theorem Chip.appendEnds_safeOn (c : Chip) (i : StreamId) (id : Nat) (o : CopyOutcome) :
    SafeOn i c (c.appendEnds i id o) := by
  unfold Chip.appendEnds
  split
  · exact .refl i c
  · rename_i a ha
    have habandon : SafeOn i c (c.abandonRecord a o.failure) := by
      unfold Chip.abandonRecord
      split
      · exact .refl i c
      · exact c.setMem_safeOn i _ (c.mem.rewriteKind_wf _ _ _ _)
    refine .trans (.trans (habandon.trans ((Chip.setPhase_rings _ id .admitted).safeOn i)) ?_) (Chip.walk_safeOn _ i)
    refine Chip.setStream_safeOn _ i _ (fun or b => ⟨⟨or.baseRead, or.readFrontier, or.frontierNext, or.nextEnd, or.marks,
      or.consume, fun x hx => ?_, or.fetch⟩, b.marks, b.appends, b.fetches,
      (List.length_map _).trans_le b.window⟩) fun p => Chip.setStream_pages p rfl rfl rfl
    obtain ⟨y, hy, rfl⟩ := List.mem_map.1 hx
    split
    · exact or.window y hy
    · exact or.window y hy

theorem Chip.unpin_safeOn (c : Chip) (i : StreamId) : SafeOn i c (c.unpin i) :=
  c.setStream_safeOn i _ (fun o b => ⟨⟨o.baseRead, o.readFrontier, o.frontierNext, o.nextEnd, o.marks, o.consume, o.window,
    fun a h => by cases h⟩, b.marks, b.appends, b.fetches, b.window⟩) fun p => Chip.setStream_pages p rfl rfl rfl

/-- Base raised to the end of a fetch, and read with it (R61). -/
theorem StreamEntry.consumed_eq (st : StreamEntry) (a : ActiveFetch) : ∃ baseLoc readLoc,
    st.consumed a = { st with
      base := max st.base a.endSeq, baseLoc := baseLoc, read := max st.read (max st.base a.endSeq), readLoc := readLoc } := by
  unfold StreamEntry.consumed
  by_cases hb : st.base < a.endSeq
  · rw [if_pos hb, max_eq_right hb.le]
    by_cases hr : st.read < a.endSeq
    · rw [max_eq_right hr.le]; exact ⟨_, _, if_pos hr⟩
    · rw [max_eq_left (Nat.not_lt.1 hr)]; exact ⟨_, _, if_neg hr⟩
  · rw [if_neg hb, max_eq_left (Nat.not_lt.1 hb)]
    by_cases hr : st.read < st.base
    · rw [max_eq_right hr.le]; exact ⟨_, _, if_pos hr⟩
    · rw [max_eq_left (Nat.not_lt.1 hr)]; exact ⟨_, _, if_neg hr⟩

/-- Where a host write error leaves read (R62). -/
def StreamEntry.restoredRead (st : StreamEntry) (a : ActiveFetch) : Nat :=
  if st.read = a.endSeq then max st.base a.first else st.read

/-- Read restored after a host write error, with the marks above it removed (R62, R70). -/
theorem StreamEntry.restored_eq (st : StreamEntry) (a : ActiveFetch) : ∃ readLoc,
    st.restored a = { st with
      read := st.restoredRead a, readLoc := readLoc
      marks := st.marks.filter fun m => decide (m.pos ≤ st.restoredRead a) } := by
  unfold StreamEntry.restored StreamEntry.restoredRead
  by_cases hr : st.read = a.endSeq
  · by_cases hb : st.base < a.first
    · simp only [if_pos hr, if_pos hb, max_eq_right hb.le]; exact ⟨_, rfl⟩
    · simp only [if_pos hr, if_neg hb, max_eq_left (Nat.not_lt.1 hb)]; exact ⟨_, rfl⟩
  · simp only [if_neg hr]; exact ⟨_, rfl⟩

theorem Chip.fetchSucceeds_safeOn {c : Chip} {i : StreamId} {a : ActiveFetch} (ha : (c.stream i).active = some a) :
    SafeOn i c (c.fetchSucceeds i a) := by
  unfold Chip.fetchSucceeds
  simp only
  refine .trans (.trans (.trans (.trans ?_ (Chip.unpin_safeOn _ i)) (Chip.pageReturn_safeOn _ i))
    (Chip.evalHead_safeOn _ i)) (Chip.endCheck_safeOn _ i)
  split
  · rename_i h
    refine .trans ?_ (Chip.evalBacklog_safeOn _ i)
    obtain ⟨baseLoc, readLoc, heq⟩ := (c.stream i).consumed_eq a
    rw [Chip.modStream, heq]
    refine c.setStream_safeOn i _ (fun o b => ⟨⟨le_max_right _ _, ?_, o.frontierNext, o.nextEnd, fun m hm => ?_, o.consume,
      o.window, o.fetch⟩, b.marks, b.appends, b.fetches, b.window⟩) fun p => Chip.setStream_pages p rfl rfl rfl
    · exact max_le o.readFrontier (max_le (o.baseRead.trans o.readFrontier) (o.fetch a ha).2)
    · rw [o.consume h.2] at hm
      exact (List.not_mem_nil hm).elim
  · exact .refl i c

theorem Chip.fetchFails_safeOn {c : Chip} {i : StreamId} {a : ActiveFetch} (ha : (c.stream i).active = some a) :
    SafeOn i c (c.fetchFails i a) := by
  refine .trans (.trans (.trans (.trans (.trans ?_ (Chip.unpin_safeOn _ i)) (Chip.pageReturn_safeOn _ i))
    (Chip.evalBacklog_safeOn _ i)) (Chip.evalHead_safeOn _ i)) (Chip.endCheck_safeOn _ i)
  obtain ⟨readLoc, heq⟩ := (c.stream i).restored_eq a
  have hread (o : (c.stream i).Ordered) :
      (c.stream i).base ≤ (c.stream i).restoredRead a ∧ (c.stream i).restoredRead a ≤ (c.stream i).frontier := by
    have hfetch := o.fetch a ha
    have hbase := o.baseRead
    have hfrontier := o.readFrontier
    unfold StreamEntry.restoredRead
    split <;> omega
  rw [Chip.modStream, heq]
  refine c.setStream_safeOn i _ (fun o b => ⟨⟨(hread o).1, (hread o).2, o.frontierNext, o.nextEnd, fun m hm => ?_,
    fun hc => ?_, o.window, o.fetch⟩, (List.length_filter_le _ _).trans b.marks, b.appends, b.fetches, b.window⟩)
    fun p => Chip.setStream_pages p rfl rfl rfl
  · obtain ⟨hx, hle⟩ := List.mem_filter.1 hm
    exact ⟨(o.marks m hx).1, of_decide_eq_true hle⟩
  · simp only [o.consume hc, List.filter_nil]

theorem Chip.fetchStopped_safeOn (c : Chip) (i : StreamId) : SafeOn i c (c.fetchStopped i) := by
  unfold Chip.fetchStopped
  simp only
  split
  · exact (c.unpin_safeOn i).trans (.trans (Chip.pageReturn_safeOn _ i) (Chip.endCheck_safeOn _ i))
  · exact c.unpin_safeOn i

theorem Chip.fetchEnds_safeOn {c : Chip} {i : StreamId} {a : ActiveFetch} (e : EndReport)
    (ha : (c.stream i).active = some a) : SafeOn i c (c.fetchEnds i a e) := by
  have hactive (f : Request → Completion) : ((c.answer a.slot f).stream i).active = some a := by rw [Chip.answer_stream, ha]
  have hstopped := (c.answer_safeOn i a.slot (a.stoppedAt e)).trans (Chip.fetchStopped_safeOn _ i)
  have hfails := (c.answer_safeOn i a.slot (a.notWritten e)).trans (Chip.fetchFails_safeOn (hactive _))
  unfold Chip.fetchEnds
  split
  · exact hstopped
  · split
    · exact (c.answer_safeOn i a.slot (a.delivered e)).trans (Chip.fetchSucceeds_safeOn (hactive _))
    · exact hfails
    · exact hfails
    · exact hfails
    · exact hstopped

end Sys2Proof.Machine
end

section
/-! What a restart does to one stream (R26, R96, R171): a tail truncation changes the chain and the pool alone, and a stream that is
closed or held at a restart stays safe. -/

namespace Sys2Proof.Machine

/-! ### Tail truncation -/

/-- Of the part only the chain of stream `i`, the counts and ends of the free list, and buffer DRAM differ. -/
structure OnlyChain (i : StreamId) (c t : Chip) : Prop where
  rest : t = { c with
    streams := t.streams
    pool := { c.pool with free := t.pool.free, lost := t.pool.lost, head := t.pool.head, tail := t.pool.tail }
    mem := t.mem }
  others : ∀ j : StreamId, j ≠ i → t.stream j = c.stream j
  entry : t.stream i = { c.stream i with chain := (t.stream i).chain }

namespace OnlyChain
variable {i : StreamId} {a b c t : Chip}

theorem refl (i : StreamId) (c : Chip) : OnlyChain i c c := ⟨rfl, fun _ _ => rfl, rfl⟩

theorem trans (h : OnlyChain i a b) (k : OnlyChain i b c) : OnlyChain i a c := by
  refine ⟨?_, fun j hj => (k.others j hj).trans (h.others j hj), ?_⟩
  · have hk := k.rest
    rw [h.rest] at hk
    exact hk
  · have hk := k.entry
    rw [h.entry] at hk
    exact hk

theorem of_reads (h : OnlyReads c t) : OnlyChain i c t := by rw [h.same]; exact ⟨rfl, fun _ _ => rfl, rfl⟩

theorem ctl (h : OnlyChain i c t) : t.ctl = c.ctl := by rw [h.rest]
theorem engine (h : OnlyChain i c t) : t.engine = c.engine := by rw [h.rest]
theorem rings (h : OnlyChain i c t) : t.rings = c.rings := by rw [h.rest]
theorem grantPtr (h : OnlyChain i c t) : t.pool.grantPtr = c.pool.grantPtr := by rw [h.rest]
theorem state (h : OnlyChain i c t) : (t.stream i).state = (c.stream i).state := by rw [h.entry]

theorem safeOn (h : OnlyChain i c t) (hm : c.memOk → t.memOk) (hp : c.PagesCounted → t.PagesCounted) : SafeOn i c t where
  ctl := h.ctl
  others := h.others
  mem := hm
  ctx k d := by simpa only [Chip.ctx, h.engine] using d
  table := by rw [h.rings]
  stream o b := by rw [h.entry]; exact ⟨(c.stream i).chain_ordered _ _ o, (c.stream i).chain_bounded _ _ b⟩
  pages := hp

end OnlyChain

/-- A page taken out of the chain joins the free list. -/
theorem Chip.joinFree_onlyChain (c : Chip) (i : StreamId) (p : Nat) (l : List Nat) :
    OnlyChain i c ((c.modStream i fun st => { st with chain := l }).joinFree p) := by
  refine ⟨?_, fun j hj => by rw [Chip.joinFree_stream, Chip.modStream_stream_ne _ _ hj], ?_⟩
  · unfold Chip.joinFree
    simp only
    split <;> rfl
  · rw [Chip.joinFree_stream, Chip.modStream_stream_same]

theorem Chip.writeLink_onlyChain (c : Chip) (i : StreamId) (p : Nat) (next : Option Nat) (owner : Option StreamId) :
    OnlyChain i c (c.writeLink p next owner) := ⟨rfl, fun _ _ => rfl, rfl⟩

/-- What the operations of a truncation keep: only the chain changes, and pages and buffer DRAM stay sound. -/
structure Truncates (i : StreamId) (c t : Chip) : Prop where
  chain : OnlyChain i c t
  safe : SafeOn i c t

theorem Truncates.trans {i : StreamId} {a b c : Chip} (h : Truncates i a b) (k : Truncates i b c) : Truncates i a c :=
  ⟨h.chain.trans k.chain, h.safe.trans k.safe⟩

theorem Truncates.refl (i : StreamId) (c : Chip) : Truncates i c c := ⟨.refl i c, .refl i c⟩

theorem Chip.followChain_truncates (c : Chip) (i : StreamId) (p : Nat) : Truncates i c (c.followChain i p).1 :=
  ⟨.of_reads (c.followChain_reads i p), c.setMem_safeOn i _ (c.mem.follow_wf _ _ _)⟩

/-- A page of the chain goes back to the free list, the link of the page `last` then naming `next` (R96). -/
theorem Chip.dropPage_truncates {c : Chip} {i : StreamId} {p : Nat} (last : Nat) (next : Option Nat)
    (hp : p ∈ (c.stream i).chain) : Truncates i c (c.dropPage i last p next) := by
  have hlen : ((c.stream i).chain.erase p).length + 1 = (c.stream i).chain.length := by
    have := List.length_pos_of_mem hp
    rw [List.length_erase_of_mem hp]
    omega
  have hchain := (c.joinFree_onlyChain i p ((c.stream i).chain.erase p)).trans
    (Chip.writeLink_onlyChain _ i last next (some i))
  exact ⟨hchain, hchain.safeOn (fun m => Chip.writeLink_memOk _ _ _ _ ((Chip.joinFree_keeps _ i p).mem m))
    fun q => Chip.setMem_pages _ (Chip.joinFree_pages q hlen)⟩

theorem dropAfter_truncates (i : StreamId) (last : Nat) (l : List Nat) (c : Chip) (hl : l.Subperm (c.stream i).chain) :
    Truncates i c (dropAfter i last l c).1 := by
  induction l generalizing c with
  | nil => exact .refl i c
  | cons p rest ih =>
    cases rest with
    | nil => exact Chip.dropPage_truncates last none (hl.subset List.mem_cons_self)
    | cons q more =>
      have hfollow := c.followChain_truncates i p
      unfold dropAfter
      simp only
      split
      · exact hfollow
      · have hsame : ((c.followChain i p).1.stream i).chain = (c.stream i).chain := rfl
        have hdrop := Chip.dropPage_truncates (c := (c.followChain i p).1) (i := i) (p := p) last (some q)
          (hl.subset List.mem_cons_self)
        refine (hfollow.trans hdrop).trans (ih _ ?_)
        have hchain : (((c.followChain i p).1.dropPage i last p (some q)).stream i).chain = (c.stream i).chain.erase p := by
          simp only [Chip.dropPage, Chip.writeLink_stream, Chip.joinFree_stream, Chip.modStream_stream_same, hsame]
        have herase := hl.erase p
        rw [List.erase_cons_head] at herase
        exact hchain ▸ herase

theorem followTo_truncates (i : StreamId) (last : Nat) (l : List Nat) (c : Chip) :
    Truncates i c (followTo i last l c).1 := by
  induction l generalizing c with
  | nil => exact .refl i c
  | cons p rest ih =>
    unfold followTo
    split
    · exact .refl i c
    · simp only
      split
      · exact c.followChain_truncates i p
      · exact (c.followChain_truncates i p).trans (ih _)

theorem Chip.truncateTail_truncates (c : Chip) (i : StreamId) (last : Nat) : Truncates i c (c.truncateTail i last).1 := by
  have hfollow := followTo_truncates i last (c.stream i).chain c
  have hlater : (pagesAfter last (c.stream i).chain).Subperm (c.stream i).chain := by
    rw [pagesAfter_eq]
    exact ((List.drop_sublist _ _).trans (List.dropWhile_sublist _)).subperm
  unfold Chip.truncateTail
  simp only
  split
  · exact hfollow
  · split
    · exact hfollow
    · have hlink := hfollow.trans (Chip.followChain_truncates _ i last)
      split
      · exact hlink
      · refine hlink.trans (dropAfter_truncates i last _ _ ?_)
        have hsame : (followTo i last (c.stream i).chain c).1.stream i = c.stream i :=
          (congrArg (Chip.stream · i) (followTo_spec i last (c.stream i).chain c).1).trans rfl
        have hlinked : ((followTo i last (c.stream i).chain c).1.followChain i last).1.stream i = c.stream i := hsame
        rw [hlinked]
        exact hlater

/-- The truncation of an OPEN stream changes its chain and its tail offset alone (R26). -/
theorem Chip.heldTruncation_cases (c : Chip) (i : StreamId) :
    c.heldTruncation i = (c, none) ∨ ∃ page offset,
      c.heldTruncation i = (((c.truncateTail i page).1.modStream i fun x => { x with tail := offset }),
        (c.truncateTail i page).2) := by
  unfold Chip.heldTruncation
  simp only
  split
  · split
    · exact .inl rfl
    · rename_i page offset _; exact .inr ⟨page, offset, rfl⟩
  · exact .inl rfl

theorem Chip.heldTruncation_safeOn (c : Chip) (i : StreamId) : SafeOn i c (c.heldTruncation i).1 := by
  obtain h | ⟨page, offset, h⟩ := c.heldTruncation_cases i
  · rw [h]; exact .refl i c
  · rw [h]
    exact (c.truncateTail_truncates i page).safe.trans (Chip.setStream_safeOn _ i _
      (fun o b => ⟨StreamEntry.chain_ordered _ _ _ o, StreamEntry.chain_bounded _ _ _ b⟩)
      fun p => Chip.setStream_pages p rfl rfl rfl)

theorem Chip.heldTruncation_state (c : Chip) (i : StreamId) :
    ((c.heldTruncation i).1.stream i).state = (c.stream i).state := by
  obtain h | ⟨page, offset, h⟩ := c.heldTruncation_cases i
  · rw [h]
  · rw [h, Chip.modStream_stream_same]; exact (c.truncateTail_truncates i page).chain.state

/-! ### Closing and holding a stream at a restart -/

/-- A stream closed at a restart, after a cut of its chain at a break when there is one (R25, R84). -/
theorem Chip.resetClose_cut_safeOn (c : Chip) (i : StreamId) (brk : Option Nat) :
    SafeOn i c ((c.cut i brk).resetClose i) := by
  have hclosing : SafeOn i c ((c.cut i brk).modStream i fun st => { st with state := .closing, reserve := 0 }) :=
    .of_keeps ((c.cut_keeps i brk).trans (Chip.modStream_keeps _ i _
      (fun st o => ⟨o.baseRead, o.readFrontier, o.frontierNext, o.nextEnd, o.marks, o.consume, o.window, o.fetch⟩)
      fun st b => ⟨b.marks, b.appends, b.fetches, b.window⟩))
      fun p => Chip.cut_pages brk _ p (fun _ => rfl) (fun _ h => by cases h) fun _ _ => rfl
  have hstate : (((c.cut i brk).modStream i fun st => { st with state := .closing, reserve := 0 }).stream i).state =
      .closing := by rw [Chip.modStream_stream_same]
  have hreturn := hclosing.trans (.of_keeps (Chip.returnAll_keeps _ i) fun p => Chip.returnAll_pages p hstate)
  exact hreturn.trans (Chip.setStream_safeOn _ i _ (fun _ _ => ⟨StreamEntry.closed_ordered, StreamEntry.closed_bounded⟩)
    fun p => Chip.closed_pages p (Chip.returnAll_chain _ i))

theorem Chip.resetClose_safeOn (c : Chip) (i : StreamId) : SafeOn i c (c.resetClose i) := c.resetClose_cut_safeOn i none

theorem Chip.heldBroken_safeOn (c : Chip) (i : StreamId) (p : Nat) : SafeOn i c (c.heldBroken i p) :=
  c.resetClose_cut_safeOn i (some p)

/-- The entry of a stream held at a restart, before its page return (R26). -/
theorem Chip.enterHeld_safeOn {c : Chip} {i : StreamId} (hs : (c.stream i).state = .opened ∨ (c.stream i).state = .flushing) :
    SafeOn i c (c.modStream i StreamEntry.enterHeld) := by
  have hframe (o : (c.stream i).Ordered) : (c.stream i).frontier ≤ (c.stream i).enterHeld.next ∧
      (c.stream i).enterHeld.next ≤ Config.seqEnd := by
    simp only [StreamEntry.enterHeld]
    split
    · exact ⟨le_rfl, o.frontierNext.trans o.nextEnd⟩
    · exact ⟨o.frontierNext, o.nextEnd⟩
  refine c.setStream_safeOn i _ (fun o b => ⟨⟨le_rfl, o.baseRead.trans o.readFrontier, (hframe o).1, (hframe o).2,
    fun m hm => ?_, fun hc => ?_, fun a h => (List.not_mem_nil h).elim, fun a h => by cases h⟩,
    (List.length_filter_le _ _).trans b.marks, Nat.zero_le _, Nat.zero_le _, Nat.zero_le _⟩)
    fun p => Chip.setStream_pages_of_unmet p (fun h => by cases h) rfl ?_
  · obtain ⟨hx, hle⟩ := List.mem_filter.1 hm
    exact ⟨(o.marks m hx).1, of_decide_eq_true hle⟩
  · simp only [StreamEntry.enterHeld, StreamEntry.clearLatches] at hc ⊢
    rw [o.consume hc, List.filter_nil]
  · rcases hs with hs | hs <;> simp only [StreamEntry.unmet, hs] <;> exact le_rfl

theorem Chip.heldReturn_safeOn {c : Chip} {i : StreamId} (hs : (c.stream i).state = .opened ∨ (c.stream i).state = .flushing) :
    SafeOn i c (c.heldReturn i) := by
  have hrun := (Chip.enterHeld_safeOn hs).trans (.of_keeps (Chip.pageReturnRun_keeps _ i) (Chip.pageReturnRun_pages i))
  unfold Chip.heldReturn
  simp only
  split
  · exact hrun.trans (Chip.heldBroken_safeOn _ i _)
  · exact hrun.trans (Chip.setStream_safeOn _ i _ (fun o b => ⟨⟨o.baseRead, o.readFrontier, o.frontierNext, o.nextEnd,
      o.marks, o.consume, o.window, o.fetch⟩, b.marks, b.appends, b.fetches, b.window⟩)
      fun p => Chip.setStream_pages p rfl rfl rfl)

theorem Chip.holdStream_safeOn {c : Chip} {i : StreamId} (hs : (c.stream i).state = .opened ∨ (c.stream i).state = .flushing) :
    SafeOn i c (c.holdStream i) := by
  unfold Chip.holdStream
  split
  · rename_i ho
    simp only
    split
    · exact (c.heldTruncation_safeOn i).trans (Chip.heldBroken_safeOn _ i _)
    · exact (c.heldTruncation_safeOn i).trans (Chip.heldReturn_safeOn (.inl ((c.heldTruncation_state i).trans ho)))
  · exact Chip.heldReturn_safeOn hs

theorem Chip.settleStream_safeOn (c : Chip) (i : StreamId) : SafeOn i c (c.settleStream i) := by
  unfold Chip.settleStream
  simp only
  split
  · exact .refl i c
  · rename_i hs; split
    · exact Chip.holdStream_safeOn (.inl hs)
    · exact c.resetClose_safeOn i
  · rename_i hs; split
    · exact Chip.holdStream_safeOn (.inr hs)
    · exact c.resetClose_safeOn i
  · split
    · exact .refl i c
    · exact c.resetClose_safeOn i
  · exact c.resetClose_safeOn i
  · exact c.resetClose_safeOn i

/-! ### The engine at a restart -/

theorem Chip.breakChain_engine (c : Chip) (i : StreamId) (p : Nat) : (c.breakChain i p).engine = c.engine := by
  unfold Chip.breakChain
  simp only
  split <;> rfl

theorem Chip.startArbiterIf_engine (c : Chip) (b : Bool) : (c.startArbiterIf b).engine = c.engine := by
  unfold Chip.startArbiterIf Chip.startArbiter
  split
  · split <;> rfl
  · rfl

theorem Chip.takeBack_engine (c : Chip) (i : StreamId) (p : Nat) (rest : List Nat) :
    (c.takeBack i p rest).engine = c.engine :=
  (Chip.evalOccupancy_entry _ i).2.1.trans (c.joinFree_onlyChain i p rest).engine

theorem returnRun_engine (i : StreamId) (stops : Bool) (fuel : Nat) (c : Chip) (n : Nat) :
    (returnRun i stops fuel c n).chip.engine = c.engine := by
  induction fuel generalizing c n with
  | zero => rfl
  | succ fuel ih =>
    unfold returnRun
    split
    · rfl
    · split
      · rfl
      · split
        · rw [ih, Chip.takeBack_engine]
        · simp only
          split
          · rfl
          · rw [ih, Chip.takeBack_engine]; rfl

theorem Chip.returnAll_engine (c : Chip) (i : StreamId) : (c.returnAll i).1.engine = c.engine := by
  unfold Chip.returnAll
  simp only
  split
  · rw [Chip.startArbiterIf_engine, returnRun_engine]
  · rw [Chip.startArbiterIf_engine, returnRun_engine, Chip.breakChain_engine, returnRun_engine]

theorem Chip.pageReturnRun_engine (c : Chip) (i : StreamId) : (c.pageReturnRun i).chip.engine = c.engine := by
  unfold Chip.pageReturnRun
  simp only
  rw [Chip.startArbiterIf_engine]
  split
  · rw [Chip.modStream_engine, returnRun_engine]
  · rw [returnRun_engine]

theorem Chip.resetClose_engine (c : Chip) (i : StreamId) : (c.resetClose i).engine = c.engine := by
  rw [Chip.resetClose, Chip.setStream_engine, Chip.returnAll_engine, Chip.modStream_engine]

theorem Chip.heldBroken_engine (c : Chip) (i : StreamId) (p : Nat) : (c.heldBroken i p).engine = c.engine := by
  rw [Chip.heldBroken, Chip.resetClose_engine, Chip.breakChain_engine]

theorem Chip.heldTruncation_engine (c : Chip) (i : StreamId) : (c.heldTruncation i).1.engine = c.engine := by
  obtain h | ⟨page, offset, h⟩ := c.heldTruncation_cases i
  · rw [h]
  · rw [h, Chip.modStream_engine, (c.truncateTail_truncates i page).chain.engine]

theorem Chip.heldReturn_engine (c : Chip) (i : StreamId) : (c.heldReturn i).engine = c.engine := by
  unfold Chip.heldReturn
  simp only
  split
  · rw [Chip.heldBroken_engine, Chip.pageReturnRun_engine, Chip.modStream_engine]
  · rw [Chip.modStream_engine, Chip.pageReturnRun_engine, Chip.modStream_engine]

theorem Chip.holdStream_engine (c : Chip) (i : StreamId) : (c.holdStream i).engine = c.engine := by
  unfold Chip.holdStream
  split
  · simp only
    split
    · rw [Chip.heldBroken_engine, Chip.heldTruncation_engine]
    · rw [Chip.heldReturn_engine, Chip.heldTruncation_engine]
  · exact c.heldReturn_engine i

theorem Chip.settleStream_engine (c : Chip) (i : StreamId) : (c.settleStream i).engine = c.engine := by
  have hkeep (b : Bool) : (if b then c.holdStream i else c.resetClose i).engine = c.engine := by
    split
    · exact c.holdStream_engine i
    · exact c.resetClose_engine i
  unfold Chip.settleStream
  simp only
  split
  · rfl
  · exact hkeep _
  · exact hkeep _
  · split
    · rfl
    · exact c.resetClose_engine i
  · exact c.resetClose_engine i
  · exact c.resetClose_engine i

end Sys2Proof.Machine
end

section
/-! Every command keeps every invariant: what a command does to the part is an operation on streams, on rings, on one transfer
context, or a change of the controller's state, and each of these keeps the invariants of section "Invariants". -/

namespace Sys2Proof.Machine

/-! ### Operations on several streams -/

/-- What operations on any streams keep. -/
structure SafeAll (c t : Chip) : Prop where
  ctl : t.ctl = c.ctl
  mem : c.memOk → t.memOk
  order : c.orderOk → c.boundsOk → t.orderOk ∧ t.boundsOk
  pages : c.PagesCounted → t.PagesCounted

namespace SafeAll
variable {a b c t : Chip}

theorem refl (c : Chip) : SafeAll c c := ⟨rfl, id, fun o b => ⟨o, b⟩, id⟩

theorem trans (h : SafeAll a b) (k : SafeAll b c) : SafeAll a c :=
  ⟨k.ctl.trans h.ctl, k.mem ∘ h.mem, fun o w => k.order (h.order o w).1 (h.order o w).2, k.pages ∘ h.pages⟩

/-- Streams, the table's bound and buffer DRAM's form kept. -/
theorem of_same (hctl : t.ctl = c.ctl) (hs : t.streams = c.streams) (hm : t.mem = c.mem)
    (ht : t.rings.table.length ≤ c.rings.table.length) (hp : t.pool = c.pool) : SafeAll c t := by
  have hst (j : StreamId) : t.stream j = c.stream j := by simp only [Chip.stream, hs]
  exact ⟨hctl, fun m => by simpa only [Chip.memOk, hm] using m,
    fun o b => ⟨fun i => by rw [hst]; exact o i, fun i => by rw [hst]; exact b.1 i, ht.trans b.2⟩,
    fun p => p.congr (fun j => by rw [hst]; exact ⟨rfl, rfl, rfl⟩) (by rw [hp]) (by rw [hp]) (by rw [hp])⟩

theorem foldl {α : Type} {f : Chip → α → Chip} (h : ∀ c a, SafeAll c (f c a)) (l : List α) (c : Chip) :
    SafeAll c (l.foldl f c) := by
  induction l generalizing c with
  | nil => exact refl c
  | cons a l ih => exact (h c a).trans (ih _)

end SafeAll

theorem SafeOn.all {i : StreamId} {c t : Chip} (h : SafeOn i c t) : SafeAll c t := by
  refine ⟨h.ctl, h.mem, fun o b => ⟨fun j => ?_, fun j => ?_, h.table.trans b.2⟩, h.pages⟩
  · by_cases e : j = i
    · subst e; exact (h.stream (o j) (b.1 j)).1
    · rw [h.others j e]; exact o j
  · by_cases e : j = i
    · subst e; exact (h.stream (o j) (b.1 j)).2
    · rw [h.others j e]; exact b.1 j

theorem OnlyNotices.all {c t : Chip} (h : OnlyNotices c t) : SafeAll c t :=
  ⟨h.ctl, fun m => by simpa only [Chip.memOk, h.mem] using m,
    fun o b => ⟨fun j => StreamEntry.ordered_of_latches (h.streams j) (o j),
      fun j => StreamEntry.bounded_of_latches (h.streams j) (b.1 j), h.table.trans b.2⟩, h.pages⟩

theorem OnlyRings.all {c t : Chip} (h : OnlyRings c t) : SafeAll c t := h.notices.all

/-! ### What a command keeps -/

/-- Every invariant of the part holds after a change when it held before. -/
structure Preserves (c t : Chip) : Prop where
  mem : c.memOk → t.memOk
  cause : c.causeOk → t.causeOk
  quiet : c.quietOk → t.quietOk
  order : c.orderOk → c.boundsOk → t.orderOk ∧ t.boundsOk
  pages : c.quietOk → c.PagesOk → t.PagesOk

namespace Preserves
variable {a b c t : Chip}

theorem refl (c : Chip) : Preserves c c := ⟨id, id, id, fun o b => ⟨o, b⟩, fun _ p => p⟩

theorem trans (h : Preserves a b) (k : Preserves b c) : Preserves a c :=
  ⟨k.mem ∘ h.mem, k.cause ∘ h.cause, k.quiet ∘ h.quiet, fun o w => k.order (h.order o w).1 (h.order o w).2,
    fun q p => k.pages (h.quiet q) (h.pages q p)⟩

end Preserves

theorem Chip.isActive_iff (c : Chip) : c.isActive = true ↔ c.ctl.state = .active := by simp [Chip.isActive]

/-- The pages are counted in every state: in INIT there are none. -/
theorem Chip.PagesOk.counted {c : Chip} (p : c.PagesOk) : c.PagesCounted := by
  by_cases h : c.ctl.state = .init
  · obtain ⟨hclosed, hu, hf, hl⟩ := p.init h
    have hheld : c.sumHeld = 0 := by
      rw [Chip.sumHeld_eq]
      exact Finset.sum_eq_zero fun i _ => by rw [StreamEntry.heldPages, p.closed i (hclosed i)]; rfl
    have hunmet : c.sumUnmet = 0 := by
      rw [Chip.sumUnmet_eq]
      exact Finset.sum_eq_zero fun i _ => by simp only [StreamEntry.unmet, hclosed i]
    exact ⟨p.closed, by omega, by omega⟩
  · exact ⟨p.closed, p.conserved h, p.covered h⟩

theorem Chip.PagesCounted.ok {c : Chip} (p : c.PagesCounted) (h : c.ctl.state ≠ .init) : c.PagesOk :=
  ⟨p.closed, fun e => absurd e h, fun _ => p.conserved, fun _ => p.covered⟩

/-- In ACTIVE an operation on streams preserves the invariants, whatever it does to the engine. -/
theorem SafeAll.preserves {c t : Chip} (h : SafeAll c t) (ha : c.isActive = true) : Preserves c t := by
  have hs : t.ctl.state = .active := by rw [h.ctl]; exact c.isActive_iff.1 ha
  exact ⟨h.mem, fun k => by simpa only [Chip.causeOk, h.ctl] using k, fun _ k => absurd hs k, h.order,
    fun _ p => (h.pages p.counted).ok (by rw [hs]; exact fun h => by cases h)⟩

/-- A change that leaves the engine quiet, the streams' states and the pool's counts alone preserves the invariants in any state. -/
theorem SafeAll.preserves_of_frame {c t : Chip} (h : SafeAll c t)
    (hq : c.engine.queue = [] → t.engine.queue = []) (hd : ∀ k, (c.ctx k).dormant → (t.ctx k).dormant)
    (hs : ∀ j, (t.stream j).state = (c.stream j).state)
    (hp : t.pool.usable = c.pool.usable ∧ t.pool.free = c.pool.free ∧ t.pool.lost = c.pool.lost) : Preserves c t := by
  refine ⟨h.mem, fun k => by simpa only [Chip.causeOk, h.ctl] using k, fun q k => ?_, h.order, fun _ p => ?_⟩
  · obtain ⟨hqueue, hctx⟩ := q (by rwa [← h.ctl])
    exact ⟨hq hqueue, fun k => hd k (hctx k)⟩
  · have hcounted := h.pages p.counted
    refine ⟨hcounted.closed, fun hi => ?_, fun _ => hcounted.conserved, fun _ => hcounted.covered⟩
    obtain ⟨hclosed, hzero⟩ := p.init (by rwa [← h.ctl])
    exact ⟨fun i => (hs i).trans (hclosed i), by rw [hp.1, hp.2.1, hp.2.2]; exact hzero⟩

/-- Handing completions over and posting notices, in any state. -/
theorem OnlyNotices.preserves {c t : Chip} (h : OnlyNotices c t) : Preserves c t :=
  h.all.preserves_of_frame (by rw [h.engine]; exact id) (fun k d => by simpa only [Chip.ctx, h.engine] using d)
    (fun j => (congrArg StreamEntry.state (h.streams j) :)) (by rw [h.pool]; exact ⟨rfl, rfl, rfl⟩)

theorem OnlyRings.preserves {c t : Chip} (h : OnlyRings c t) : Preserves c t := h.notices.preserves

/-- Bit errors appear. -/
theorem Chip.upset_preserves (c : Chip) (u : Upsets) : Preserves c (c.upset u) :=
  ⟨c.mem.upsets_wf u, id, id, fun o b => ⟨o, b⟩, fun _ p => ⟨p.closed, p.init, p.conserved, p.covered⟩⟩

/-! ### Halts -/

theorem Context.abandon_dormant (x : Context) : x.abandon.dormant := by
  unfold Context.abandon
  split
  · rename_i h; exact .inl h
  · split
    · exact .inl rfl
    · exact .inr rfl
  · split
    · exact .inl rfl
    · exact .inr rfl
  · rename_i h; exact .inr h

theorem Engine.abandon_get (e : Engine) (k : CtxId) : e.abandon.contexts.get k = (e.contexts.get k).abandon := by
  simp [Engine.abandon, Vector.get_eq_getElem]

/-- The part in HALTED with a halt cause, its engine abandoned (R172). -/
def Chip.haltedWith (c : Chip) (cause : HaltCause) : Chip :=
  { c with ctl := { c.ctl with state := .halted, cause := cause }, engine := c.engine.abandon }

theorem Chip.halt_cases (c : Chip) (cause : HaltCause) : c.halt cause = c.haltedWith cause ∨ c.halt cause = c := by
  unfold Chip.halt
  split
  · exact .inl rfl
  · exact .inl rfl
  · exact .inl rfl
  · exact .inr rfl
  · exact .inr rfl

theorem Chip.haltedWith_preserves (c : Chip) {cause : HaltCause} (h : cause ≠ .none) : Preserves c (c.haltedWith cause) where
  mem := id
  cause _ := ⟨fun _ => h, fun _ => rfl⟩
  quiet _ _ := ⟨rfl, fun k => by
    have hget : (c.haltedWith cause).ctx k = (c.ctx k).abandon := c.engine.abandon_get k
    rw [hget]; exact Context.abandon_dormant _⟩
  order o b := ⟨o, b⟩
  pages _ p := (p.counted.congr (t := c.haltedWith cause) (fun _ => ⟨rfl, rfl, rfl⟩) rfl rfl rfl).ok fun h => by cases h

theorem Chip.halt_preserves (c : Chip) {cause : HaltCause} (h : cause ≠ .none) : Preserves c (c.halt cause) := by
  obtain e | e := c.halt_cases cause
  · rw [e]; exact c.haltedWith_preserves h
  · rw [e]; exact .refl c

theorem Chip.setMem_preserves (c : Chip) (m : BufferMemory) (h : c.memOk → m.wf = true) :
    Preserves c { c with mem := m } :=
  ⟨h, id, id, fun o b => ⟨o, b⟩, fun _ p => ⟨p.closed, p.init, p.conserved, p.covered⟩⟩

/-! ### Requests at their owners -/

/-- A request's owner preserves the invariants when its action does, on the part as the owner finds it. -/
theorem Chip.serve_preserves {c : Chip} (o : Owner) {act : Nat → Request → Chip → Option Chip}
    (h : ∀ id q d t, d.isActive = true → act id q d = some t → Preserves d t) : Preserves c (c.serve o act) := by
  unfold Chip.serve
  split
  · rename_i ha
    split
    · exact .refl c
    · split
      · exact .refl c
      · rename_i id q _ _ t ht
        exact (c.dropArrived_rings id).preserves.trans (h id q _ t ha ht)
  · exact .refl c

theorem Chip.answer_preserves (c : Chip) (id : Nat) (f : Request → Completion) : Preserves c (c.answer id f) :=
  (c.answer_rings id f).preserves

/-- `t` is what a request that names a stream leaves of `c` when what it does on a stream it passes for is of the kind `P`. -/
def OnStreamBy (P : StreamId → Chip → Chip → Prop) (id : Nat) (q : Request) (c t : Chip) : Prop :=
  ∃ g act, t = c.onStream id q g act ∧ ∀ i, stateCheck g (c.stream i).state = none → P i c (act i)

theorem OnStreamBy.preserves {P : StreamId → Chip → Chip → Prop} {id : Nat} {q : Request} {c t : Chip}
    (h : OnStreamBy P id q c t) (hP : ∀ i u, P i c u → Preserves c u) : Preserves c t := by
  obtain ⟨g, act, rfl, hact⟩ := h
  unfold Chip.onStream
  split
  · exact (c.refuse_rings _ _).preserves
  · split
    · exact (c.refuse_rings _ _).preserves
    · rename_i hp; exact hP _ _ (hact _ hp)

theorem SafeOrFreeListHalt.preserves {i : StreamId} {c t : Chip} (h : SafeOrFreeListHalt i c t) (ha : c.isActive = true) :
    Preserves c t := by
  obtain h | ⟨m, rfl, hm⟩ := h
  · exact h.all.preserves ha
  · exact (c.setMem_preserves m hm).trans (Chip.halt_preserves _ fun h => by cases h)

section
variable {id : Nat} {q : Request} {c t : Chip}

theorem appendAct_does (h : appendAct id q c = some t) : OnStreamBy SafeOrFreeListHalt id q c t := by
  unfold appendAct at h
  split at h
  · cases h; exact ⟨_, _, rfl, fun i hp => Chip.append_safe id _ _ _ _ (stateCheck_io_eq_none hp)⟩
  · cases h

theorem fetchAct_does (h : fetchAct id q c = some t) : OnStreamBy SafeOn id q c t := by
  unfold fetchAct at h
  split at h
  · cases h; exact ⟨_, _, rfl, fun i _ => c.fetch_safeOn i id _ _ _ _⟩
  · cases h

theorem markAct_does (h : markAct id q c = some t) : OnStreamBy SafeOn id q c t := by
  unfold markAct at h
  split at h
  · cases h; exact ⟨_, _, rfl, fun i _ => c.mark_safeOn i id⟩
  · cases h

theorem rewindAct_does (h : rewindAct id q c = some t) : OnStreamBy SafeOn id q c t := by
  unfold rewindAct at h
  split at h
  · cases h; exact ⟨_, _, rfl, fun i _ => c.rewind_safeOn i id _ _⟩
  · cases h

theorem releaseAct_does (h : releaseAct id q c = some t) : OnStreamBy SafeOn id q c t := by
  unfold releaseAct at h
  split at h
  · cases h; exact ⟨_, _, rfl, fun i _ => c.release_safeOn i id _ _⟩
  · cases h

theorem streamOpenAct_does (h : streamOpenAct id q c = some t) : OnStreamBy SafeOn id q c t := by
  unfold streamOpenAct at h
  split at h
  · cases h; exact ⟨_, _, rfl, fun i hp => Chip.openStream_safeOn id _ (stateCheck_open_eq_none hp)⟩
  · cases h

theorem streamSetAct_does (h : streamSetAct id q c = some t) : OnStreamBy SafeOn id q c t := by
  unfold streamSetAct at h
  split at h
  · cases h; exact ⟨_, _, rfl, fun i hp => Chip.setSettings_safeOn id _ (stateCheck_set_eq_none hp)⟩
  · cases h

theorem streamFlushAct_does (h : streamFlushAct id q c = some t) : OnStreamBy SafeOn id q c t := by
  unfold streamFlushAct at h
  split at h
  · cases h; exact ⟨_, _, rfl, fun i hp => Chip.flushStream_safeOn id (stateCheck_flush_eq_none hp)⟩
  · cases h

theorem streamCloseAct_does (h : streamCloseAct id q c = some t) : OnStreamBy SafeOn id q c t := by
  unfold streamCloseAct at h
  split at h
  · cases h; exact ⟨_, _, rfl, fun i _ => c.closeStream_safeOn i id⟩
  · cases h

theorem streamResumeAct_does (h : streamResumeAct id q c = some t) : OnStreamBy SafeOn id q c t := by
  unfold streamResumeAct at h
  split at h
  · cases h; exact ⟨_, _, rfl, fun i hp => Chip.resumeStream_safeOn id _ (stateCheck_resume_eq_none hp)⟩
  · cases h

theorem streamReportAct_does (h : streamReportAct id q c = some t) : OnStreamBy SafeOn id q c t := by
  unfold streamReportAct at h
  split at h
  · cases h; exact ⟨_, _, rfl, fun i _ => c.streamReport_safeOn i id _⟩
  · cases h

end

/-- A Stream Controller's request, whatever it does on its stream. -/
theorem Chip.serveStream_preserves {P : StreamId → Chip → Chip → Prop} {act : Nat → Request → Chip → Option Chip} (c : Chip)
    (u : Upsets) (hact : ∀ id q d t, act id q d = some t → OnStreamBy P id q d t)
    (hP : ∀ i d t, d.isActive = true → P i d t → Preserves d t) :
    Preserves c ((c.upset u).serve .streamController act) :=
  (c.upset_preserves u).trans (Chip.serve_preserves .streamController fun id q d t ha h =>
    (hact id q d t h).preserves fun i u hP' => hP i d u ha hP')

theorem SafeOn.preserves {i : StreamId} {c t : Chip} (h : SafeOn i c t) (ha : c.isActive = true) : Preserves c t :=
  h.all.preserves ha

theorem Chip.placeReport_all (c : Chip) (id : Nat) (buffer : Segment) (data : List Byte) (a b : Nat) :
    SafeAll c (c.placeReport id buffer data a b) := (c.placeReport_safeOn 0 id buffer data a b).all

theorem poolReportAct_preserves (id : Nat) (q : Request) (c t : Chip) (ha : c.isActive = true)
    (h : poolReportAct id q c = some t) : Preserves c t := by
  unfold poolReportAct at h
  split at h
  · cases h
    split
    · exact (c.placeReport_all _ _ _ _ _).preserves ha
    · exact c.answer_preserves _ _
  · cases h

theorem describeAct_preserves (id : Nat) (q : Request) (c t : Chip) (ha : c.isActive = true)
    (h : describeAct id q c = some t) : Preserves c t := by
  unfold describeAct at h
  split at h
  · cases h
    split
    · exact (c.placeReport_all _ _ _ _ _).preserves ha
    · exact c.answer_preserves _ _
  · cases h

/-! ### Ring requests -/

theorem Chip.createRing_rings (c : Chip) (id : Nat) (n : RingId) (b : RingBlock) : OnlyRings c (c.createRing id n b) := by
  unfold Chip.createRing
  split
  · split
    · exact (c.setReqRing_rings _ _).trans (Chip.answer_rings _ _ _)
    · exact c.answer_rings _ _
  · split
    · exact (c.setCmpRing_rings _ _).trans (Chip.answer_rings _ _ _)
    · exact c.answer_rings _ _

theorem ringCreateAct_preserves (id : Nat) (q : Request) (c t : Chip) (_ : c.isActive = true)
    (h : ringCreateAct id q c = some t) : Preserves c t := by
  unfold ringCreateAct at h
  split at h
  · cases h
    split
    · split
      · exact c.answer_preserves _ _
      · exact (c.createRing_rings _ _ _).preserves
    · exact c.answer_preserves _ _
  · cases h

theorem Chip.deleteCompletionRing_rings (c : Chip) (id : Nat) (b : RingBlock) :
    OnlyRings c (c.deleteCompletionRing id b) := by
  unfold Chip.deleteCompletionRing
  split
  · exact c.answer_rings _ _
  · split
    · exact c.answer_rings _ _
    · split
      · exact c.answer_rings _ _
      · exact ((c.setCmpRing_rings _ _).trans (Chip.setLink_rings _ _)).trans (Chip.answer_rings _ _ _)

theorem ringDeleteCompletionAct_preserves (id : Nat) (q : Request) (c t : Chip) (_ : c.isActive = true)
    (h : ringDeleteCompletionAct id q c = some t) : Preserves c t := by
  unfold ringDeleteCompletionAct at h
  split at h
  · split at h
    · cases h; exact (c.deleteCompletionRing_rings _ _).preserves
    · cases h
  · cases h

theorem Chip.cancelWaiting_all (c : Chip) (id : Nat) : SafeAll c (c.cancelWaiting id) := by
  unfold Chip.cancelWaiting
  split
  · exact .refl c
  · exact (((c.dropAppend_safeOn _ id).trans (Chip.dropFetch_safeOn _ _ id)).trans (Chip.refuse_safeOn _ _ id _)).all

theorem Chip.afterLeaving_all (ids : List Nat) (old c : Chip) (i : StreamId) : SafeAll c (Chip.afterLeaving ids old c i) := by
  unfold Chip.afterLeaving
  simp only
  split
  · exact ((c.startArbiterIf_safeOn i _).trans (Chip.evalHead_safeOn _ i)).all
  · exact (c.startArbiterIf_safeOn i _).all

theorem Chip.drainRing_all (c : Chip) (id : Nat) (n : RingId) : SafeAll c (c.drainRing id n) := by
  unfold Chip.drainRing
  simp only
  exact (((((c.setReqRing_rings n _).trans (Chip.setPhase_rings _ id .admitted)).all).trans
    (.foldl Chip.cancelWaiting_all _ _)).trans (.foldl (Chip.afterLeaving_all _ c) _ _)).trans (Chip.drainCheck_rings _ n).all

theorem Chip.deleteRequestRing_all (c : Chip) (id : Nat) (b : RingBlock) : SafeAll c (c.deleteRequestRing id b) := by
  unfold Chip.deleteRequestRing
  split
  · exact (c.answer_rings _ _).all
  · split
    · exact (c.answer_rings _ _).all
    · exact (c.answer_rings _ _).all
    · exact c.drainRing_all id _
    · exact c.drainRing_all id _

theorem ringDeleteRequestAct_preserves (id : Nat) (q : Request) (c t : Chip) (ha : c.isActive = true)
    (h : ringDeleteRequestAct id q c = some t) : Preserves c t := by
  unfold ringDeleteRequestAct at h
  split at h
  · split at h
    · cases h
    · split at h
      · cases h; exact (c.deleteRequestRing_all _ _).preserves ha
      · cases h; exact c.answer_preserves _ _
  · cases h

theorem Chip.cancel_all (c : Chip) (id ring : Nat) (command : BitVec 16) : SafeAll c (c.cancel id ring command) := by
  unfold Chip.cancel
  split
  · exact (c.answer_rings _ _).all
  · split
    · exact ((c.cancelWaiting_all _).trans (.foldl (Chip.afterLeaving_all _ c) _ _)).trans (Chip.answer_rings _ _ _).all
    · exact (c.answer_rings _ _).all

theorem cancelAct_preserves (id : Nat) (q : Request) (c t : Chip) (ha : c.isActive = true)
    (h : cancelAct id q c = some t) : Preserves c t := by
  unfold cancelAct at h
  split at h
  · cases h
    split
    · exact c.answer_preserves _ _
    · exact (c.cancel_all _ _ _).preserves ha
  · cases h

/-! ### Deadlines and reported ends -/

theorem Chip.appendDeadline_preserves (c : Chip) (id : Nat) : Preserves c (c.appendDeadline id) := by
  unfold Chip.appendDeadline
  split
  · exact .refl c
  · split
    · rename_i i _ h
      exact (((c.dropAppend_safeOn i id).trans (Chip.refuse_safeOn _ i id _)).trans
        (Chip.startArbiterIf_safeOn _ i _)).preserves (Bool.and_eq_true_iff.1 h).1
    · exact .refl c

theorem Chip.fetchDeadline_preserves (c : Chip) (id : Nat) : Preserves c (c.fetchDeadline id) := by
  unfold Chip.fetchDeadline
  split
  · exact .refl c
  · split
    · rename_i i _ h
      exact (c.fetchExpires_safeOn i id).preserves (Bool.and_eq_true_iff.1 (Bool.and_eq_true_iff.1 h).1).1
    · exact .refl c

theorem Chip.setEnds_preserves (c : Chip) (ends : List EndReport) :
    Preserves c { c with engine := { c.engine with ends := ends } } :=
  SafeAll.preserves_of_frame (.of_same rfl rfl rfl le_rfl rfl) id (fun _ => id) (fun _ => rfl) ⟨rfl, rfl, rfl⟩

theorem Chip.dropEnd_preserves (c : Chip) (k : EndKind) (id : Nat) : Preserves c (c.dropEnd k id) := c.setEnds_preserves _

theorem Chip.activeOf_eq_some {c : Chip} {i : StreamId} {id : Nat} {a : ActiveFetch} (h : c.activeOf i id = some a) :
    (c.stream i).active = some a := by
  unfold Chip.activeOf at h
  split at h
  · cases h
  · rename_i b hb
    split at h
    · cases h; exact hb
    · cases h

theorem Chip.dropEnd_all (c : Chip) (k : EndKind) (id : Nat) : SafeAll c (c.dropEnd k id) := .of_same rfl rfl rfl le_rfl rfl

theorem Chip.appendCopyEnd_all (c : Chip) (id : Nat) : SafeAll c (c.appendCopyEnd id) := by
  unfold Chip.appendCopyEnd
  split
  · exact .refl c
  · refine .trans (c.dropEnd_all .append id) ?_
    simp only
    split
    · split
      · exact .refl _
      · exact (Chip.appendEnds_safeOn _ _ id _).all
    · exact .refl _

theorem Chip.fetchCopyEnd_all (c : Chip) (id : Nat) : SafeAll c (c.fetchCopyEnd id) := by
  unfold Chip.fetchCopyEnd
  split
  · exact .refl c
  · refine .trans (c.dropEnd_all .fetch id) ?_
    simp only
    split
    · split
      · exact .refl _
      · split
        · exact .refl _
        · rename_i h; exact (Chip.fetchEnds_safeOn _ (Chip.activeOf_eq_some h)).all
    · exact .refl _

/-- Outside ACTIVE a copy end is discarded at most. -/
theorem Chip.preserves_of_discarded {c t : Chip} {k : EndKind} {id : Nat} (h : t = c ∨ t = c.dropEnd k id) :
    Preserves c t := by
  obtain rfl | rfl := h
  · exact .refl _
  · exact c.dropEnd_preserves k id

theorem Chip.appendCopyEnd_preserves (c : Chip) (id : Nat) : Preserves c (c.appendCopyEnd id) := by
  cases ha : c.isActive with
  | true => exact (c.appendCopyEnd_all id).preserves ha
  | false => exact Chip.preserves_of_discarded (c.appendCopyEnd_inactive id ha)

theorem Chip.fetchCopyEnd_preserves (c : Chip) (id : Nat) : Preserves c (c.fetchCopyEnd id) := by
  cases ha : c.isActive with
  | true => exact (c.fetchCopyEnd_all id).preserves ha
  | false => exact Chip.preserves_of_discarded (c.fetchCopyEnd_inactive id ha)

theorem Chip.listEnds_preserves {c : Chip} (id : Nat) (q : Request) (e : EndReport) (ha : c.isActive = true) :
    Preserves c (c.listEnds id q e) := by
  unfold Chip.listEnds
  split
  · split
    · exact OnStreamBy.preserves ⟨_, _, rfl, fun i _ => c.joinFetches_safeOn i id _ _ _ _⟩ fun i u h => h.preserves ha
    · exact .refl c
  all_goals exact (c.refuse_rings _ _).preserves

theorem Chip.listReadEnd_preserves (c : Chip) (id : Nat) : Preserves c (c.listReadEnd id) := by
  unfold Chip.listReadEnd
  split
  · exact .refl c
  · refine .trans (c.dropEnd_preserves .list id) ?_
    simp only
    split
    · rename_i ha
      split
      · exact .refl _
      · exact Chip.listEnds_preserves id _ _ ha
    · exact .refl _

theorem Chip.reportWriteEnd_preserves (c : Chip) (id : Nat) : Preserves c (c.reportWriteEnd id) := by
  unfold Chip.reportWriteEnd
  split
  · exact .refl c
  · refine .trans (c.dropEnd_preserves .report id) ?_
    simp only
    split
    · split
      · exact .refl _
      · exact Chip.answer_preserves _ _ _
    · exact .refl _

end Sys2Proof.Machine
end

section
/-! The commands that act on no stream of their own: the grant arbiter, the transfer contexts, the ends of host and buffer
accesses. -/

namespace Sys2Proof.Machine

/-! ### The grant arbiter -/

theorem Chip.setRun_all (c : Chip) (grantPtr : StreamId) (run : Option ArbiterRun) (starts : Nat) :
    SafeAll c { c with pool := { c.pool with grantPtr := grantPtr, run := run, starts := starts } } :=
  ⟨rfl, id, fun o b => ⟨o, b⟩, fun p => p.congr (fun _ => ⟨rfl, rfl, rfl⟩) rfl rfl rfl⟩

theorem Chip.arbiterStart_preserves (c : Chip) : Preserves c c.arbiterStart := by
  unfold Chip.arbiterStart
  split
  · rename_i h; exact (c.setRun_all _ _ _).preserves h.1
  · exact .refl c

theorem Chip.visitMissed_all (c : Chip) (r : ArbiterRun) (i : StreamId) : SafeAll c (c.visitMissed r i) :=
  c.setRun_all c.pool.grantPtr (r.missed i) c.pool.starts

theorem Chip.visitServed_all (c : Chip) (i : StreamId) : SafeAll c (c.visitServed i) := c.setRun_all i _ c.pool.starts

theorem Chip.visitHead_preserves {c : Chip} (r : ArbiterRun) {i : StreamId} (w : WaitingAppend) (q : Request)
    (ha : c.isActive = true) (hn : (c.stream i).next ≠ Config.seqEnd)
    (hw : (c.stream i).admitted.length < Config.maxWindow) (hs : (c.stream i).state = .opened) :
    Preserves c (c.visitHead r i w q) := by
  unfold Chip.visitHead
  split
  · split
    · exact (c.visitMissed_all r i).preserves ha
    · rename_i c1 h
      exact SafeOrFreeListHalt.preserves (i := i) (.inr (c.tryAdmit_halted i _ _ _ _ c1 h)) ha
    · rename_i c1 h
      exact (((Chip.tryAdmit_safeOn hn hw hs h).trans (c1.dropAppend_safeOn i w.slot)).all.trans
        (Chip.visitServed_all _ i)).preserves ha
  · exact (c.visitMissed_all r i).preserves ha

theorem Chip.visit_preserves {c : Chip} (r : ArbiterRun) (i : StreamId) (ha : c.isActive = true) :
    Preserves c (c.visit r i) := by
  have hmissed := (c.visitMissed_all r i).preserves ha
  unfold Chip.visit
  simp only
  split
  · exact hmissed
  · split
    · rename_i hs
      split
      · have hempty : SafeOn i c (c.modStream i fun x => { x with waitA := [] }) :=
          c.setStream_safeOn i _ (fun o b => ⟨⟨o.baseRead, o.readFrontier, o.frontierNext, o.nextEnd, o.marks, o.consume,
            o.window, o.fetch⟩, b.marks, Nat.zero_le _, b.fetches, b.window⟩) fun p => Chip.setStream_pages p rfl rfl rfl
        exact ((hempty.all.trans (Chip.refuseAll_rings _ _ _).all).trans (Chip.visitMissed_all _ r i)).preserves ha
      · rename_i hn
        split
        · exact hmissed
        · rename_i hw
          split
          · exact hmissed
          · exact Chip.visitHead_preserves r _ _ ha hn (Nat.not_le.1 hw) hs
    · exact hmissed

theorem Chip.arbiterVisit_preserves (c : Chip) : Preserves c c.arbiterVisit := by
  unfold Chip.arbiterVisit
  split
  · rename_i ha
    split
    · exact .refl c
    · exact Chip.visit_preserves _ _ ha
  · exact .refl c

/-! ### The Transfer Engine -/

/-- A change of one context that leaves a dormant one dormant, with what leaves the link. -/
theorem Chip.setCtx_preserves (c : Chip) (k : CtxId) (x : Context) (h : (c.ctx k).dormant → x.dormant) :
    Preserves c (c.setCtx k x) :=
  SafeAll.preserves_of_frame (.of_same rfl rfl rfl le_rfl rfl) id (fun j d => (c.setCtx_keeps 0 k x h).ctx j d)
    (fun _ => rfl) ⟨rfl, rfl, rfl⟩

theorem Chip.settle_queue (c : Chip) (k : CtxId) : (c.settle k).engine.queue = c.engine.queue := by
  unfold Chip.settle
  simp only
  split
  · split
    · rfl
    · split
      · rfl
      · split <;> rfl
      · rfl
      · rfl
  · rfl

theorem Chip.settle_all (c : Chip) (k : CtxId) : SafeAll c (c.settle k) := by
  rw [c.settle_engine]; exact .of_same rfl rfl rfl le_rfl rfl

theorem Chip.settle_preserves (c : Chip) (k : CtxId) : Preserves c (c.settle k) :=
  (c.settle_all k).preserves_of_frame (by rw [c.settle_queue]; exact id) (fun j d => (c.settle_keeps 0 k).ctx j d)
    (fun j => by rw [c.settle_engine]; rfl) (by rw [c.settle_engine]; exact ⟨rfl, rfl, rfl⟩)

/-- The engine, as far as only its contexts and queue change, is no matter of the streams. -/
theorem Chip.setEngine_all (c : Chip) (e : Engine) : SafeAll c { c with engine := e } := .of_same rfl rfl rfl le_rfl rfl

theorem Chip.startTransfer_preserves (c : Chip) : Preserves c c.startTransfer := by
  have hphase (d : Chip) (t : Transfer) : SafeAll d
      (match t.work with
      | .listRead _ _ => d
      | .appendCopy _ _ _ _ => d.setPhase t.slot .copying
      | .fetchCopy _ _ _ _ _ _ => d.setPhase t.slot .copying
      | .reportWrite _ _ => d.setPhase t.slot .copying) := by
    split
    · exact .refl _
    all_goals exact (Chip.setPhase_rings _ _ _).all
  unfold Chip.startTransfer
  split
  · rename_i ha
    split
    · exact (((c.setEngine_all _).trans (hphase _ _)).trans ((Chip.setEngine_all _ _).trans (Chip.settle_all _ _))).preserves ha
    · exact .refl c
  · exact .refl c

/-- The bytes that have left the part are no matter of the invariants. -/
theorem Chip.setLink_preserves (c : Chip) (l : HostLink) : Preserves c { c with link := l } := (c.setLink_rings l).preserves

/-- A context changed and settled. -/
theorem Chip.setCtx_settle_preserves (c : Chip) (k : CtxId) (x : Context) (h : (c.ctx k).dormant → x.dormant) :
    Preserves c ((c.setCtx k x).settle k) := (c.setCtx_preserves k x h).trans (Chip.settle_preserves _ k)

theorem Context.dormant_finish {x : Context} (o : CopyOutcome) (h : x.dormant) : (x.finish o).dormant := by
  rwa [x.finish_dormant o h]

theorem Context.not_running_of_dormant {x : Context} (h : x.dormant) : x.state ≠ .running := by
  rcases h with h | h <;> rw [h] <;> exact fun h => by cases h

theorem Chip.endHostRead_preserves (c : Chip) (k : CtxId) (j : Nat) (res : HostReadEnd) :
    Preserves c (c.endHostRead k j res) := by
  have herror := c.setCtx_settle_preserves k
    (({ c.ctx k with reads := (c.ctx k).reads.eraseIdx j } : Context).finish .hostReadError) fun h => Context.dormant_finish _ h
  unfold Chip.endHostRead
  simp only
  split
  · exact .refl c
  · split
    · split
      · refine c.setCtx_settle_preserves k _ fun h => ?_
        rw [if_neg (Context.not_running_of_dormant h)]
        exact h
      · exact .refl c
    · exact herror
    · exact herror

theorem Chip.endHostWrite_preserves (c : Chip) (k : CtxId) : Preserves c (c.endHostWrite k) := by
  unfold Chip.endHostWrite
  simp only
  split
  · exact .refl c
  · split
    · exact (c.setLink_preserves _).trans (Chip.setCtx_settle_preserves _ k _ id)
    · exact c.setCtx_settle_preserves k _ fun h => Context.dormant_finish _ h

theorem Chip.endBufWrite_preserves (c : Chip) (k : CtxId) (j : Nat) : Preserves c (c.endBufWrite k j) := by
  unfold Chip.endBufWrite
  simp only
  split
  · exact .refl c
  · have hctx := c.setCtx_preserves k { c.ctx k with bufWrites := (c.ctx k).bufWrites.eraseIdx j } id
    split
    · exact hctx
    · split
      · exact (hctx.trans (Chip.setMem_preserves _ _ (BufferMemory.writeRange_wf _ _ _ _ _))).trans
          (Chip.settle_preserves _ k)
      · exact hctx
      · exact hctx
      · exact hctx

/-! ### Buffer reads of a fetch copy -/

/-- An error a dormant context met is reported to no stream (R151). -/
theorem Chip.copyError_of_dormant (c : Chip) {x : Context} (i : StreamId) (cause : FaultCause) (brk : Option Nat)
    (h : x.dormant) : c.copyError x i cause brk = c := by
  rcases h with h | h <;> simp only [Chip.copyError, h]

/-- The error of a read of context `k`, which `x` is without the read, reported. -/
theorem Chip.copyError_preserves {c : Chip} {k : CtxId} {x : Context} (i : StreamId) (cause : FaultCause) (brk : Option Nat)
    (h : c.ctx k = x) : Preserves c (c.copyError x i cause brk) := by
  have hall : SafeOn i c (c.copyError x i cause brk) := by
    unfold Chip.copyError
    split
    · exact c.reportMedia_safeOn i cause brk
    · exact c.reportMedia_safeOn i cause brk
    · exact .refl i c
    · exact .refl i c
  by_cases ha : c.isActive = true
  · exact hall.preserves ha
  · have hna : c.ctl.state ≠ .active := fun e => ha (c.isActive_iff.2 e)
    have hquiet (q : c.quietOk) : c.copyError x i cause brk = c := c.copyError_of_dormant i cause brk (h ▸ (q hna).2 k)
    exact ⟨hall.mem, fun e => by simpa only [Chip.causeOk, hall.ctl] using e, fun q => by rwa [hquiet q], hall.all.order,
      fun q p => by rwa [hquiet q]⟩

theorem Chip.headerRead_preserves (c : Chip) (k : CtxId) {x : Context} (i : StreamId) (endSeq page offset : Nat)
    (h : (c.ctx k).dormant → x.dormant) : Preserves c (c.headerRead k x i endSeq page offset) := by
  have hmem := c.setMem_preserves _ (c.mem.readHeader_wf i x.progress.seq page offset)
  unfold Chip.headerRead
  simp only
  split
  · exact ((hmem.trans (Chip.setCtx_preserves _ k x h)).trans (Chip.copyError_preserves i _ _ (Chip.setCtx_ctx_same _ k x))).trans
      (Chip.settle_preserves _ k)
  · refine hmem.trans (Chip.setCtx_settle_preserves _ k _ fun d => ?_)
    rw [if_neg (Context.not_running_of_dormant (h d))]
    exact h d

theorem Chip.payloadRead_preserves (c : Chip) (k : CtxId) {x : Context} (endSeq page offset areaOff len : Nat)
    (h : (c.ctx k).dormant → x.dormant) : Preserves c (c.payloadRead k x endSeq page offset areaOff len) := by
  have hmem := c.setMem_preserves _ (c.mem.checkRun_wf (wordAt page offset) (wordsFor len))
  have hctx (d : Chip) (y z : Context) (hz : z.state = x.state) (hd : d.ctx k = c.ctx k) :
      Preserves d ((d.setCtx k (if x.state = .running then y else z)).settle k) := by
    refine d.setCtx_settle_preserves k _ fun e => ?_
    have hx := h (hd ▸ e)
    rw [if_neg (Context.not_running_of_dormant hx), Context.dormant, hz]
    exact hx
  unfold Chip.payloadRead
  simp only
  split
  · exact hmem.trans (hctx _ _ _ rfl rfl)
  · split
    · exact hmem.trans (hctx _ _ _ rfl rfl)
    · exact (hmem.trans (Chip.setMem_preserves _ _ (BufferMemory.damage_wf _ x.progress))).trans (hctx _ _ _ rfl rfl)

theorem Chip.linkRead_preserves (c : Chip) (k : CtxId) {x : Context} (i : StreamId) (endSeq page : Nat)
    (h : (c.ctx k).dormant → x.dormant) : Preserves c (c.linkRead k x i endSeq page) := by
  have hmem : Preserves c (c.followChain i page).1 := c.setMem_preserves _ (c.mem.follow_wf _ _ _)
  unfold Chip.linkRead
  simp only
  split
  · exact ((hmem.trans (Chip.setCtx_preserves _ k x h)).trans (Chip.copyError_preserves i _ _ (Chip.setCtx_ctx_same _ k x))).trans
      (Chip.settle_preserves _ k)
  · refine hmem.trans (Chip.setCtx_settle_preserves _ k _ fun d => ?_)
    rw [if_neg (Context.not_running_of_dormant (h d))]
    exact h d

theorem Chip.endBufRead_preserves (c : Chip) (k : CtxId) (j : Nat) : Preserves c (c.endBufRead k j) := by
  unfold Chip.endBufRead
  simp only
  split
  · split
    · split
      · exact c.headerRead_preserves k _ _ _ _ id
      · exact c.payloadRead_preserves k _ _ _ _ _ id
      · exact c.linkRead_preserves k _ _ _ id
    · exact .refl c
    · exact .refl c
    · exact .refl c
  · exact .refl c

end Sys2Proof.Machine
end

section
/-! The events of the rings, the vectors and the host link, and the controller (INIT, resets, register writes); from these,
every step keeps every invariant. -/

namespace Sys2Proof.Machine

/-! ### Events of the rings and the link -/

/-- What an event of a ring, a vector or the host link may do: rings, the link and latches change, and the controller may halt. -/
def RingEvent (c t : Chip) : Prop := ∃ d, OnlyNotices c d ∧ (t = d ∨ t = d.haltedWith .controlRing)

theorem OnlyNotices.event {c t : Chip} (h : OnlyNotices c t) : RingEvent c t := ⟨t, h, .inl rfl⟩

theorem OnlyRings.event {c t : Chip} (h : OnlyRings c t) : RingEvent c t := h.notices.event

theorem OnlyNotices.trans_event {a b c : Chip} (h : OnlyNotices a b) (k : RingEvent b c) : RingEvent a c := by
  obtain ⟨d, hd, e⟩ := k
  exact ⟨d, h.trans hd, e⟩

theorem RingEvent.refl (c : Chip) : RingEvent c c := (OnlyNotices.refl c).event

theorem RingEvent.preserves {c t : Chip} (h : RingEvent c t) : Preserves c t := by
  obtain ⟨d, hd, rfl | rfl⟩ := h
  · exact hd.preserves
  · exact hd.preserves.trans (d.haltedWith_preserves fun h => by cases h)

theorem Chip.halt_event (c : Chip) : RingEvent c (c.halt .controlRing) := by
  obtain h | h := c.halt_cases .controlRing
  · exact ⟨c, .refl c, .inr h⟩
  · exact ⟨c, .refl c, .inl h⟩

theorem Chip.stopReqRing_event (c : Chip) (n : RingId) (f : RingFault) : RingEvent c (c.stopReqRing n f) := by
  unfold Chip.stopReqRing
  split
  · exact c.halt_event
  · split
    · exact ((c.setReqRing_rings _ _).trans (Chip.attemptReqFault_rings _ n)).event
    · exact .refl c

theorem Chip.stopIfBound_rings (n : RingId) (c : Chip) (m : RingId) : OnlyRings c (Chip.stopIfBound n c m) := by
  unfold Chip.stopIfBound
  simp only
  split
  · exact c.setReqRing_rings _ _
  · exact .refl c

theorem Chip.attemptStopped_rings (stopped : List RingId) (n : RingId) (c : Chip) (m : RingId) :
    OnlyRings c (Chip.attemptStopped stopped n c m) := by
  have h : OnlyRings c (if stopped.contains m then c.attemptReqFault m else c) := by
    split
    · exact c.attemptReqFault_rings m
    · exact .refl c
  unfold Chip.attemptStopped
  simp only
  split
  · exact h.trans (Chip.attemptCmpFault_rings _ m)
  · exact h

theorem Chip.stopCmpRing_event (c : Chip) (n : RingId) (f : RingFault) : RingEvent c (c.stopCmpRing n f) := by
  unfold Chip.stopCmpRing
  split
  · exact c.halt_event
  · split
    · exact (((c.setCmpRing_rings _ _).trans (foldl_onlyRings _ (Chip.stopIfBound_rings n) _ _)).trans
        (foldl_onlyRings _ (Chip.attemptStopped_rings _ n) _ _)).event
    · exact .refl c

theorem Chip.onRing_event {c : Chip} {n : Nat} {f : RingId → Chip} (h : ∀ r, RingEvent c (f r)) :
    RingEvent c (c.onRing n f) := by
  unfold Chip.onRing
  split
  · exact .refl c
  · exact h _

theorem Chip.writeReqPut_event (c : Chip) (n : RingId) (v : Nat) : RingEvent c (c.writeReqPut n v) := by
  unfold Chip.writeReqPut
  simp only
  split
  · split
    · exact (c.setReqRing_rings _ _).event
    · exact c.stopReqRing_event n _
  · exact .refl c

theorem Chip.writeCmpTake_event (c : Chip) (n : RingId) (v : Nat) : RingEvent c (c.writeCmpTake n v) := by
  unfold Chip.writeCmpTake
  simp only
  split
  · split
    · split
      · exact ((c.setCmpRing_rings _ _).notices.trans (Chip.service_notices _ n)).event
      · exact (c.setCmpRing_rings _ _).event
    · exact c.stopCmpRing_event n _
  · exact .refl c

theorem Chip.undoTake_rings (c : Chip) (n : RingId) (id : Nat) : OnlyRings c (c.undoTake n id) :=
  (c.freeSlot_rings id).trans (Chip.setReqRing_rings _ _ _)

theorem Chip.entryError_event (c : Chip) (n : RingId) (id : Nat) : RingEvent c (c.entryError n id) := by
  unfold Chip.entryError
  simp only
  split
  · exact c.halt_event
  · exact ((c.undoTake_rings n id).notices.trans (Chip.releaseReservation_notices _ _)).trans_event
      (Chip.stopReqRing_event _ n _)

theorem Chip.handOver_rings (c : Chip) (id : Nat) (q : Request) : OnlyRings c (c.handOver id q) :=
  (c.modSlot_rings id _).trans (Chip.setRings_rings _ _ le_rfl)

theorem Chip.decodeEntry_rings (c : Chip) (n : RingId) (id : Nat) (e : Entry) : OnlyRings c (c.decodeEntry n id e) := by
  unfold Chip.decodeEntry
  split
  · exact c.complete_rings _ _
  · split
    · exact c.handOver_rings _ _
    · exact c.complete_rings _ _

theorem Chip.entryReadEnd_event (c : Chip) (n : RingId) (res : EntryRead) : RingEvent c (c.entryReadEnd n res) := by
  unfold Chip.entryReadEnd
  split
  · exact .refl c
  · split
    · unfold Chip.entryEnds
      simp only
      split
      · split
        · exact ((c.setReqRing_rings n _).trans (Chip.decodeEntry_rings _ n _ _)).event
        · exact c.entryError_event n _
        · exact c.entryError_event n _
      · exact (((c.undoTake_rings n _).notices.trans (Chip.releaseReservation_notices _ _)).trans
          (Chip.drainCheck_rings _ n).notices).event
    · exact (((c.undoTake_rings n _).trans (Chip.setCmpRing_rings _ _ _)).trans (Chip.drainCheck_rings _ n)).event
    all_goals exact .refl c

theorem Chip.completionWriteEnd_event (c : Chip) (n : RingId) : RingEvent c (c.completionWriteEnd n) := by
  unfold Chip.completionWriteEnd
  split
  · exact .refl c
  · rename_i w rest _
    have hrest : OnlyRings c { c with link := { c.link with cmpWrites := rest } } := c.setLink_rings _
    simp only
    split
    · exact (hrest.trans (Chip.setLink_rings _ _)).event
    · refine hrest.notices.trans_event ?_
      unfold Chip.writeFails
      simp only
      split
      · exact Chip.stopCmpRing_event _ n _
      · exact .refl _

theorem Chip.timerExpiry_event (c : Chip) (n : RingId) : RingEvent c (c.timerExpiry n) := by
  unfold Chip.timerExpiry
  split
  · exact (c.raiseInterrupt_rings n).event
  · exact .refl c

theorem Chip.maskVector_event (c : Chip) (n : RingId) : RingEvent c (c.maskVector n) := (c.setLink_rings _).event

theorem Chip.unmaskVector_event (c : Chip) (n : RingId) : RingEvent c (c.unmaskVector n) := by
  unfold Chip.unmaskVector
  simp only
  split <;> exact (c.setLink_rings _).event

/-! ### Takes -/

theorem Chip.tableFree_of_eligible {c : Chip} {n : RingId} (h : c.eligible n = true) :
    c.isActive = true ∧ c.rings.table.length < Config.tableSlots := by
  simp only [Chip.eligible, Bool.and_eq_true, decide_eq_true_iff] at h
  obtain ⟨⟨⟨⟨⟨⟨ha, -⟩, -⟩, -⟩, htable⟩, -⟩, -⟩ := h
  refine ⟨ha, ?_⟩
  simp only [Chip.tableFree] at htable
  split at htable <;> omega

theorem Chip.eligible_of_selectRing {c : Chip} {n : RingId} (h : c.selectRing = some n) : c.eligible n = true := by
  unfold Chip.selectRing at h
  split at h
  · rename_i h0; cases h; exact h0
  · exact List.find?_some h

theorem Chip.startTake_preserves {c : Chip} {n : RingId} (h : c.eligible n = true) : Preserves c (c.startTake n) := by
  obtain ⟨ha, htable⟩ := Chip.tableFree_of_eligible h
  refine SafeAll.preserves ⟨rfl, id, fun o b => ⟨o, b.1, ?_⟩, fun p => p.congr (fun _ => ⟨rfl, rfl, rfl⟩) rfl rfl rfl⟩ ha
  simp only [Chip.startTake, Chip.setCmpRing, Chip.setReqRing, List.length_append, List.length_singleton]
  omega

theorem Chip.takeStart_preserves (c : Chip) :
    Preserves c (match c.selectRing with | none => c | some n => c.startTake n) := by
  split
  · exact .refl c
  · rename_i h; exact Chip.startTake_preserves (Chip.eligible_of_selectRing h)

/-! ### The Controller -/

theorem Chip.reset_stream (i : StreamId) : Chip.reset.stream i = StreamEntry.closed := by
  simp [Chip.stream, Chip.reset, Vector.get_eq_getElem]

theorem Chip.reset_ctx (k : CtxId) : Chip.reset.ctx k = Context.free := by
  simp [Chip.ctx, Chip.reset, Engine.reset, Vector.get_eq_getElem]

theorem Chip.reset_quietOk : Chip.reset.quietOk := fun _ => ⟨rfl, fun k => by rw [Chip.reset_ctx]; exact Context.free_dormant⟩

theorem Chip.reset_orderOk : Chip.reset.orderOk := fun i => by rw [Chip.reset_stream]; exact StreamEntry.closed_ordered

theorem Chip.reset_boundsOk : Chip.reset.boundsOk :=
  ⟨fun i => by rw [Chip.reset_stream]; exact StreamEntry.closed_bounded, Nat.zero_le _⟩

theorem Chip.reset_causeOk : Chip.reset.causeOk := ⟨nofun, fun h => absurd rfl h⟩

theorem Chip.reset_pagesOk : Chip.reset.PagesOk where
  closed i _ := by rw [Chip.reset_stream]; rfl
  init _ := ⟨fun i => by rw [Chip.reset_stream]; rfl, rfl, rfl, rfl⟩
  conserved h := absurd rfl h
  covered h := absurd rfl h

/-- A full reset leaves the reset part but for the record and the inputs of the host link, which no invariant reads. -/
theorem Chip.fullReset_preserves (c : Chip) : Preserves c c.fullReset where
  mem _ := State.reset_mem_wf
  cause _ := Chip.reset_causeOk
  quiet _ := Chip.reset_quietOk
  order _ _ := ⟨Chip.reset_orderOk, Chip.reset_boundsOk⟩
  pages _ _ := ⟨Chip.reset_pagesOk.closed, Chip.reset_pagesOk.init, fun h => absurd rfl h, fun h => absurd rfl h⟩

/-- A change of the Controller's registers that keeps its state and halt cause. -/
theorem Chip.setCtl_preserves (c : Chip) (k : Controller) (hs : k.state = c.ctl.state) (hc : k.cause = c.ctl.cause) :
    Preserves c { c with ctl := k } :=
  ⟨id, fun h => by simpa only [Chip.causeOk, hs, hc] using h, fun q h => q (by rwa [← hs]), fun o b => ⟨o, b⟩,
    fun _ p => ⟨p.closed, fun h => p.init (by rwa [← hs]), fun h => p.conserved (by rwa [← hs]),
      fun h => p.covered (by rwa [← hs])⟩⟩

/-- The controller leaves INIT, DISABLED or QUIESCING for DISABLED or ACTIVE. -/
theorem Chip.setState_preserves (c : Chip) (k : Controller) (hs : c.ctl.state ≠ .active ∧ c.ctl.state ≠ .halted)
    (hk : k.state ≠ .halted ∧ k.state ≠ .init) (hc : k.cause = c.ctl.cause) : Preserves c { c with ctl := k } where
  mem := id
  cause h := ⟨fun e => absurd e hk.1, fun e => absurd (h.2 (by rwa [← hc])) hs.2⟩
  quiet q _ := q hs.1
  order o b := ⟨o, b⟩
  pages _ p := (p.counted.congr (t := { c with ctl := k }) (fun _ => ⟨rfl, rfl, rfl⟩) rfl rfl rfl).ok hk.2

theorem Chip.placementCheck_preserves {c : Chip} (hs : c.ctl.state ≠ .active ∧ c.ctl.state ≠ .halted) :
    Preserves c c.placementCheck := by
  unfold Chip.placementCheck
  split
  · exact (c.setState_preserves { c.ctl with state := .active, ringError := false } hs ⟨nofun, nofun⟩ rfl).trans
      ((Chip.setReqRing_rings _ 0 _).trans (Chip.setCmpRing_rings _ 0 _)).preserves
  · exact c.setCtl_preserves _ rfl rfl

/-- The controller enters DISABLED, and ACTIVE at once when ENABLE is set and the placement check passes (R165, R171). -/
theorem Chip.enterDisabled_preserves {c d : Chip}
    (h : Preserves c { d with ctl := { d.ctl with state := .disabled } }) : Preserves c d.enterDisabled := by
  unfold Chip.enterDisabled
  simp only
  split
  · exact h.trans (Chip.placementCheck_preserves ⟨nofun, nofun⟩)
  · exact h

theorem Chip.orders_congr {c t : Chip} (hs : t.streams = c.streams) (hr : t.rings = c.rings) (o : c.orderOk)
    (b : c.boundsOk) : t.orderOk ∧ t.boundsOk := by
  have hst (j : StreamId) : t.stream j = c.stream j := by simp only [Chip.stream, hs]
  exact ⟨fun i => by rw [hst]; exact o i, fun i => by rw [hst]; exact b.1 i, by rw [hr]; exact b.2⟩

/-- A pool that counted no page, given a bank of which every page is free (R86). -/
theorem Chip.PagesCounted.initialised {c t : Chip} (p : c.PagesCounted) (hs : t.streams = c.streams)
    (husable : c.pool.usable = 0) (hfree : t.pool.free = t.pool.usable) (hlost : t.pool.lost = 0) : t.PagesCounted := by
  have hconserved := p.conserved
  have hcovered := p.covered
  have hheld : t.sumHeld = c.sumHeld := by simp only [Chip.sumHeld, hs]
  have hunmet : t.sumUnmet = c.sumUnmet := by simp only [Chip.sumUnmet, hs]
  exact ⟨fun i => by simpa only [Chip.stream, hs] using p.closed i, by omega, by omega⟩

/-- INIT ends with the bank `d`: Buffer DRAM is empty and every page is on the free list (R86, R162). -/
theorem Chip.initialised_preserves {c : Chip} (d : DramSize) (hi : c.ctl.state = .init) :
    Preserves c { c.initialised d with ctl := { (c.initialised d).ctl with state := .disabled } } where
  mem _ := BufferMemory.empty_wf _ _ _
  cause h := ⟨nofun, fun e => absurd (hi.symm.trans (h.2 e)) (by decide)⟩
  quiet q _ := q (by rw [hi]; decide)
  order := Chip.orders_congr (by dsimp only [Chip.initialised]) (by dsimp only [Chip.initialised])
  pages _ p := by
    refine Chip.PagesCounted.ok (p.counted.initialised ?_ (p.init hi).2.1 ?_ ?_) CtlState.noConfusion
    all_goals dsimp only [Chip.initialised]

theorem Chip.initEnd_preserves (c : Chip) (sizeMiB : Option Nat) (verified : Bool) :
    Preserves c (c.initEnd sizeMiB verified) := by
  unfold Chip.initEnd
  split
  · rename_i hi
    split
    · exact c.halt_preserves (by decide)
    · exact Chip.enterDisabled_preserves (Chip.initialised_preserves _ hi)
  · exact .refl c

/-! ### The restart and the quiesce -/

/-- Outside INIT a change on streams that leaves the engine alone preserves the invariants. -/
theorem SafeAll.preserves_of_engine {c t : Chip} (h : SafeAll c t) (he : t.engine = c.engine) (hi : c.ctl.state ≠ .init) :
    Preserves c t where
  mem := h.mem
  cause e := by simpa only [Chip.causeOk, h.ctl] using e
  quiet q k := by
    simp only [Chip.ctx, he]
    exact q (by rwa [← h.ctl])
  order := h.order
  pages _ p := (h.pages p.counted).ok (by rwa [h.ctl])

theorem foldl_settleStream_engine (l : List StreamId) (c : Chip) : (l.foldl Chip.settleStream c).engine = c.engine := by
  induction l generalizing c with
  | nil => rfl
  | cons i l ih => exact (ih _).trans (c.settleStream_engine i)

theorem foldl_settleStream_all (l : List StreamId) (c : Chip) : SafeAll c (l.foldl Chip.settleStream c) :=
  .foldl (fun d i => (d.settleStream_safeOn i).all) l c

/-- The end of the restart, once every stream is settled: the controller is DISABLED and no copy end is due (R171). -/
theorem Chip.restartEnd_preserves {c : Chip} (hq : c.ctl.state = .quiescing) (preserved : Bool) :
    Preserves c
      ({ c with ctl := { c.ctl with lastPreserved := preserved }, engine := { c.engine with ends := [] } } : Chip).enterDisabled :=
  Chip.enterDisabled_preserves ((c.setEnds_preserves []).trans
    (Chip.setState_preserves _ { c.ctl with state := .disabled, lastPreserved := preserved }
      (by rw [show ({ c with engine := { c.engine with ends := [] } } : Chip).ctl = c.ctl from rfl, hq]; decide)
      ⟨nofun, nofun⟩ rfl))

theorem Chip.restart_preserves {c : Chip} (hq : c.ctl.state = .quiescing) : Preserves c c.restart := by
  have hdrop : OnlyRings c c.dropRings := c.setRings_rings _ (Nat.zero_le _)
  have hfold := foldl_settleStream_all streamIds c.dropRings
  have hctl : c.dropRings.ctl = c.ctl := rfl
  have hsettled := hfold.preserves_of_engine (foldl_settleStream_engine _ _) (by rw [hctl, hq]; decide)
  unfold Chip.restart
  exact (hdrop.preserves.trans hsettled).trans (Chip.restartEnd_preserves (by rw [hfold.ctl, hctl, hq]) _)

theorem Chip.quiesceEnd_preserves (c : Chip) : Preserves c c.quiesceEnd := by
  unfold Chip.quiesceEnd
  split
  · rename_i h; exact Chip.restart_preserves h.1
  · exact .refl c

theorem Chip.takeCopyEnds_all (c : Chip) : SafeAll c c.takeCopyEnds :=
  Chip.takeCopyEnds_induct (SafeAll c) c (.refl c) (fun x id h => h.trans (x.appendCopyEnd_all id))
    fun x id h => h.trans (x.fetchCopyEnd_all id)

/-- The part as a controller reset abandons its transfers and enters QUIESCING (R169). -/
def Chip.quiesced (c : Chip) (preserve : Bool) : Chip :=
  { c with
    ctl := { c.ctl with state := .quiescing, preserveFlag := preserve }
    engine := c.engine.abandon
    pool := { c.pool with run := none, starts := 0 } }

theorem Chip.startQuiesce_eq (c : Chip) (preserve : Bool) :
    c.startQuiesce preserve = (c.takeCopyEnds.takeCopyEnds.quiesced preserve).quiesceEnd := rfl

theorem Chip.quiesced_preserves {c : Chip} (preserve : Bool) (hs : c.ctl.state = .active) :
    Preserves c (c.quiesced preserve) where
  mem := id
  cause h := ⟨nofun, fun e => absurd (hs.symm.trans (h.2 e)) (by decide)⟩
  quiet _ _ := ⟨rfl, fun k => by
    rw [Chip.ctx, Chip.quiesced, Engine.abandon_get]
    exact Context.abandon_dormant _⟩
  order o b := ⟨o, b⟩
  pages _ p := (p.counted.congr (t := c.quiesced preserve) (fun _ => ⟨rfl, rfl, rfl⟩) rfl rfl rfl).ok (by
    exact CtlState.noConfusion)

theorem Chip.startQuiesce_preserves {c : Chip} (preserve : Bool) (ha : c.isActive = true) :
    Preserves c (c.startQuiesce preserve) := by
  have htaken := c.takeCopyEnds_all.trans c.takeCopyEnds.takeCopyEnds_all
  have hs : c.takeCopyEnds.takeCopyEnds.ctl.state = .active := by rw [htaken.ctl]; exact c.isActive_iff.1 ha
  rw [Chip.startQuiesce_eq]
  exact ((htaken.preserves ha).trans (Chip.quiesced_preserves preserve hs)).trans (Chip.quiesceEnd_preserves _)

/-! ### Register writes -/

theorem Chip.writeCtrl_preserves (c : Chip) (enable preserve : Bool) : Preserves c (c.writeCtrl enable preserve) := by
  have hstore : Preserves c (c.storeCtrl enable preserve) := c.setCtl_preserves _ rfl rfl
  unfold Chip.writeCtrl
  simp only
  split
  · exact hstore
  · rename_i hs
    split
    · exact hstore.trans (Chip.placementCheck_preserves (by
        rw [show (c.storeCtrl enable preserve).ctl.state = c.ctl.state from rfl, hs]; exact ⟨nofun, nofun⟩))
    · exact hstore.trans (Chip.setCtl_preserves _ _ rfl rfl)
  · rename_i hs
    split
    · exact hstore
    · exact hstore.trans (Chip.startQuiesce_preserves preserve ((Chip.isActive_iff _).2 hs))
  · exact hstore
  · exact .refl c

theorem Chip.writeCring_preserves (c : Chip) (offset : Nat) (v : Word) : Preserves c (c.writeCring offset v) := by
  unfold Chip.writeCring
  split
  · exact .refl c
  · iterate 5 (split; · exact c.setCtl_preserves _ rfl rfl)
    exact .refl c

theorem Chip.write64_preserves (c : Chip) (offset : Nat) (v : DWord) : Preserves c (c.write64 offset v) := by
  unfold Chip.write64
  split
  · exact .refl c
  · iterate 2 (split; · exact c.setCtl_preserves _ rfl rfl)
    exact .refl c

theorem Chip.writeIndex_preserves (c : Chip) (offset : Nat) (v : Word) : Preserves c (c.writeIndex offset v) := by
  unfold Chip.writeIndex
  simp only
  split
  · exact (c.writeReqPut_event _ _).preserves
  · split
    · exact (c.writeCmpTake_event _ _).preserves
    · exact .refl c

theorem Chip.writeRegister_preserves (c : Chip) (offset bits : Nat) (v : DWord) :
    Preserves c (c.writeRegister offset bits v) := by
  unfold Chip.writeRegister
  split
  · unfold Chip.write32
    split
    · exact c.writeCtrl_preserves _ _
    · split
      · exact c.writeIndex_preserves _ _
      · exact c.writeCring_preserves _ _
  · split
    · exact c.write64_preserves _ _
    · exact .refl c

theorem Chip.onCtx_preserves {c : Chip} {n : Nat} {f : CtxId → Chip} (h : ∀ k, Preserves c (f k)) :
    Preserves c (c.onCtx n f) := by
  unfold Chip.onCtx
  split
  · exact .refl c
  · exact h _

/-! ### Every command -/

theorem exec_preserves {i : Instr} {s t : State} (h : exec i s = .next t) : Preserves s.toChip t.toChip := by
  cases i with
  | fullReset => cases h; exact Chip.fullReset_preserves _
  | initEnd size v => cases h; exact Chip.initEnd_preserves _ size v
  | ctrlEnable p => cases h; exact Chip.writeCtrl_preserves _ true p
  | controllerReset p u => cases h; exact (Chip.upset_preserves _ u).trans (Chip.writeCtrl_preserves _ false p)
  | ctrlDisable p u => cases h; exact (Chip.upset_preserves _ u).trans (Chip.writeCtrl_preserves _ false p)
  | quiesceEnd u => cases h; exact (Chip.upset_preserves _ u).trans (Chip.quiesceEnd_preserves _)
  | reqPutWrite n v => cases h; exact (Chip.onRing_event fun r => Chip.writeReqPut_event _ r _).preserves
  | cmpTakeWrite n v => cases h; exact (Chip.onRing_event fun r => Chip.writeCmpTake_event _ r _).preserves
  | registerWrite offset bits v u =>
    have hexec : exec (.registerWrite offset bits v u) s = execRegisterWrite offset bits v u s := rfl
    rw [hexec, execRegisterWrite] at h
    split at h
    · cases h
    · cases h; exact (Chip.upset_preserves _ u).trans (Chip.writeRegister_preserves _ offset bits v)
  | vectorMask n => cases h; exact (Chip.onRing_event fun r => Chip.maskVector_event _ r).preserves
  | vectorUnmask n => cases h; exact (Chip.onRing_event fun r => Chip.unmaskVector_event _ r).preserves
  | ringTakeStart => cases h; exact Chip.takeStart_preserves _
  | entryReadEnd n r => cases h; exact (Chip.onRing_event fun m => Chip.entryReadEnd_event _ m r).preserves
  | append u =>
    cases h; exact Chip.serveStream_preserves _ u (fun _ _ _ _ => appendAct_does) fun _ _ _ a p => p.preserves a
  | fetch u =>
    cases h; exact Chip.serveStream_preserves _ u (fun _ _ _ _ => fetchAct_does) fun _ _ _ a p => p.preserves a
  | mark =>
    cases h; exact Chip.serveStream_preserves _ [] (fun _ _ _ _ => markAct_does) fun _ _ _ a p => p.preserves a
  | rewind u =>
    cases h; exact Chip.serveStream_preserves _ u (fun _ _ _ _ => rewindAct_does) fun _ _ _ a p => p.preserves a
  | release u =>
    cases h; exact Chip.serveStream_preserves _ u (fun _ _ _ _ => releaseAct_does) fun _ _ _ a p => p.preserves a
  | streamOpen =>
    cases h; exact Chip.serveStream_preserves _ [] (fun _ _ _ _ => streamOpenAct_does) fun _ _ _ a p => p.preserves a
  | streamSet =>
    cases h; exact Chip.serveStream_preserves _ [] (fun _ _ _ _ => streamSetAct_does) fun _ _ _ a p => p.preserves a
  | streamFlush u =>
    cases h; exact Chip.serveStream_preserves _ u (fun _ _ _ _ => streamFlushAct_does) fun _ _ _ a p => p.preserves a
  | streamClose u =>
    cases h; exact Chip.serveStream_preserves _ u (fun _ _ _ _ => streamCloseAct_does) fun _ _ _ a p => p.preserves a
  | streamResume =>
    cases h; exact Chip.serveStream_preserves _ [] (fun _ _ _ _ => streamResumeAct_does) fun _ _ _ a p => p.preserves a
  | streamReport =>
    cases h; exact Chip.serveStream_preserves _ [] (fun _ _ _ _ => streamReportAct_does) fun _ _ _ a p => p.preserves a
  | poolReport => cases h; exact Chip.serve_preserves .poolManager poolReportAct_preserves
  | describe => cases h; exact Chip.serve_preserves .controller describeAct_preserves
  | ringCreate => cases h; exact Chip.serve_preserves .ringEngine ringCreateAct_preserves
  | ringDeleteRequestRing u =>
    cases h; exact (Chip.upset_preserves _ u).trans (Chip.serve_preserves .ringEngine ringDeleteRequestAct_preserves)
  | ringDeleteCompletionRing =>
    cases h; exact Chip.serve_preserves .ringEngine ringDeleteCompletionAct_preserves
  | cancel u =>
    cases h; exact (Chip.upset_preserves _ u).trans (Chip.serve_preserves .ringEngine cancelAct_preserves)
  | appendDeadline slot => cases h; exact Chip.appendDeadline_preserves _ slot
  | fetchDeadline slot u =>
    cases h; exact (Chip.upset_preserves _ u).trans (Chip.fetchDeadline_preserves _ slot)
  | transferStart => cases h; exact Chip.startTransfer_preserves _
  | hostReadEnd ctx access r =>
    cases h; exact Chip.onCtx_preserves fun k => Chip.endHostRead_preserves _ k access r
  | hostWriteEnd ctx access =>
    cases h
    refine Chip.onCtx_preserves fun k => ?_
    cases access with
    | zero => exact Chip.endHostWrite_preserves _ k
    | succ n => exact .refl _
  | bufferReadEnd ctx access u =>
    cases h; exact (Chip.upset_preserves _ u).trans
      (Chip.onCtx_preserves fun k => Chip.endBufRead_preserves _ k access)
  | appendCopyEnd slot u =>
    cases h; exact (Chip.upset_preserves _ u).trans (Chip.appendCopyEnd_preserves _ slot)
  | fetchCopyEnd slot u =>
    cases h; exact (Chip.upset_preserves _ u).trans (Chip.fetchCopyEnd_preserves _ slot)
  | listReadEnd slot u =>
    cases h; exact (Chip.upset_preserves _ u).trans (Chip.listReadEnd_preserves _ slot)
  | reportWriteEnd slot => cases h; exact Chip.reportWriteEnd_preserves _ slot
  | grantArbiterStart => cases h; exact Chip.arbiterStart_preserves _
  | completionWriteEnd n =>
    cases h; exact (Chip.onRing_event fun r => Chip.completionWriteEnd_event _ r).preserves
  | coalesceTimerExpiry n =>
    cases h; exact (Chip.onRing_event fun r => Chip.timerExpiry_event _ r).preserves
  | bufferWriteEnd ctx access =>
    cases h; exact Chip.onCtx_preserves fun k => Chip.endBufWrite_preserves _ k access
  | grantArbiterVisit u =>
    cases h; exact (Chip.upset_preserves _ u).trans (Chip.arbiterVisit_preserves _)
  | hostLinkAccessChange up access => cases h; exact Chip.setLink_preserves _ _

theorem step_preserves {s t : State} (h : step s = .next t) : Preserves s.toChip t.toChip := by
  unfold step at h
  split at h
  · cases h; exact .refl _
  · rename_i rest _
    exact exec_preserves (s := { s with pending := rest }) h

/-- Settles O3, by `step_preserves`. -/
theorem stepKeepsMemoryCanonical : Obligations.StepKeepsMemoryCanonical := fun _ _ hs h => (step_preserves h).mem hs

/-- Settles O4, by `step_preserves`. -/
theorem stepKeepsHaltCause : Obligations.StepKeepsHaltCause := fun _ _ hs h => (step_preserves h).cause hs

/-- Settles O5, by `step_preserves`. -/
theorem stepKeepsEngineQuiet : Obligations.StepKeepsEngineQuiet := fun _ _ hs h => (step_preserves h).quiet hs

/-- Settles O6, by `step_preserves`. -/
theorem stepKeepsPositionsInOrder : Obligations.StepKeepsPositionsInOrder :=
  fun _ _ ho hb h => (step_preserves h).order ho hb

/-- Settles O7, by `step_preserves`. -/
theorem stepConservesPages : Obligations.StepConservesPages := fun _ _ hq hp h => (step_preserves h).pages hq hp

/-- Settles O8. -/
theorem resetMeetsTheInvariants : Obligations.ResetMeetsTheInvariants :=
  ⟨State.reset_mem_wf, Chip.reset_causeOk, Chip.reset_quietOk, Chip.reset_orderOk, Chip.reset_boundsOk,
    Chip.reset_pagesOk, rfl⟩

end Sys2Proof.Machine
end

section
/-! The queue, CTRL writes, register reads and writes, and the put index of a request ring. -/

namespace Sys2Proof.Machine

/-! ### The queue -/

/-- Settles O1. -/
theorem stepRunsTheFrontCommand : Obligations.StepRunsTheFrontCommand :=
  ⟨fun i rest s h => by rw [step, h], fun s h => by rw [step, h]⟩

/-- Settles O2: every command is a change of the part, but for the register write, which looks at its address first. -/
theorem onlyAWriteOutsideTheWindowStops : Obligations.OnlyAWriteOutsideTheWindowStops := by
  intro i s
  cases i with
  | registerWrite offset bits v u =>
    by_cases h : 4096 ≤ offset
    · exact .inr ⟨offset, bits, v, u, rfl, h, if_pos h⟩
    · exact .inl ⟨_, if_neg h, rfl⟩
  | _ => exact .inl ⟨_, rfl, rfl⟩

/-! ### Full reset -/

theorem Chip.reset_reqRing (n : RingId) : Chip.reset.reqRing n = RequestRing.absent := by
  simp [Chip.reqRing, Chip.reset, RingEngine.reset, Vector.get_eq_getElem]

theorem Chip.reset_cmpRing (n : RingId) : Chip.reset.cmpRing n = CompletionRing.absent := by
  simp [Chip.cmpRing, Chip.reset, RingEngine.reset, Vector.get_eq_getElem]

/-- After a full reset every register reads 0. -/
theorem Chip.reset_readReg (offset : Nat) : Chip.reset.readReg offset = 0 := by
  simp only [Chip.readReg, Chip.reset_reqRing, Chip.reset_cmpRing]
  split_ifs <;> rfl

/-- Settles O9. -/
theorem fullResetClearsThePart : Obligations.FullResetClearsThePart := fun s =>
  ⟨s.withChip s.toChip.fullReset, rfl, rfl, rfl, rfl, rfl, rfl, rfl, rfl, Chip.reset_readReg, Chip.reset_stream,
    fun n => ⟨congrArg RequestRing.state (Chip.reset_reqRing n), congrArg RequestRing.fault (Chip.reset_reqRing n)⟩,
    fun n => ⟨congrArg CompletionRing.state (Chip.reset_cmpRing n), congrArg CompletionRing.fault (Chip.reset_cmpRing n)⟩,
    rfl, rfl, fun n => by simp [State.withChip, Chip.fullReset, HostLink.reset, Vector.get_eq_getElem], rfl, rfl, rfl, rfl, rfl,
    rfl, rfl, rfl, rfl, rfl, rfl, rfl, rfl, Chip.reset_ctx, rfl, rfl, rfl, rfl, rfl⟩

/-! ### Writes of CTRL -/

theorem exec_ctrlEnable (s : State) (p : Bool) : exec (.ctrlEnable p) s = .next (s.withChip (s.toChip.writeCtrl true p)) := rfl

theorem exec_ctrlDisable (s : State) (p : Bool) (u : Upsets) :
    exec (.ctrlDisable p u) s = .next (s.withChip ((s.toChip.upset u).writeCtrl false p)) := rfl

theorem exec_controllerReset (s : State) (p : Bool) (u : Upsets) :
    exec (.controllerReset p u) s = .next (s.withChip ((s.toChip.upset u).writeCtrl false p)) := rfl

theorem Controller.placementOk_iff (k : Controller) :
    k.placementOk = true ↔ k.reqBase.toNat % 4096 = 0 ∧ k.cmpBase.toNat % 4096 = 0 ∧
      (2 ≤ (k.sizes.extractLsb' 0 13).toNat ∧ (k.sizes.extractLsb' 0 13).toNat ≤ 4096) ∧
      2 ≤ (k.sizes.extractLsb' 16 13).toNat ∧ (k.sizes.extractLsb' 16 13).toNat ≤ 4096 := by
  simp only [Controller.placementOk, Bool.and_eq_true, beq_iff_eq, decide_eq_true_eq, and_assoc]
  rfl

/-- A write of CTRL in a state in which it is stored and no more. -/
theorem Chip.writeCtrl_stored {c : Chip} {enable : Bool} (p : Bool)
    (h : c.ctl.state = .init ∨ c.ctl.state = .quiescing ∨ c.ctl.state = .active ∧ enable = true) :
    c.writeCtrl enable p = c.storeCtrl enable p := by
  obtain h | h | ⟨h, rfl⟩ := h
  · simp only [Chip.writeCtrl, h]
  · simp only [Chip.writeCtrl, h]
  · simp only [Chip.writeCtrl, h, if_true]

theorem Chip.writeCtrl_halted {c : Chip} (enable p : Bool) (h : c.ctl.state = .halted) : c.writeCtrl enable p = c := by
  simp only [Chip.writeCtrl, h]

theorem Chip.writeCtrl_disabled {c : Chip} (enable p : Bool) (h : c.ctl.state = .disabled) :
    c.writeCtrl enable p = if enable then (c.storeCtrl enable p).placementCheck
      else { c.storeCtrl enable p with ctl := { (c.storeCtrl enable p).ctl with ringError := false } } := by
  simp only [Chip.writeCtrl, h]

theorem Chip.placementCheck_pass {c : Chip} (h : c.ctl.placementOk = true) :
    c.placementCheck = (({ c with ctl := { c.ctl with state := .active, ringError := false } } : Chip).setReqRing 0
      (newRequestRing c.ctl.reqBase c.ctl.reqSize 0 none)).setCmpRing 0
        (newCompletionRing c.ctl.cmpBase c.ctl.cmpSize true 1 0 none) := if_pos h

theorem Chip.placementCheck_fail {c : Chip} (h : c.ctl.placementOk = false) :
    c.placementCheck = { c with ctl := { c.ctl with ringError := true } } := if_neg (by rw [h]; exact Bool.noConfusion)

theorem Chip.writeCtrl_disable_stored (c : Chip) (p : Bool) :
    let k : Controller := { c.ctl with enable := false, preserve := p }
    (c.ctl.state = .init ∨ c.ctl.state = .quiescing → c.writeCtrl false p = { c with ctl := k }) ∧
    (c.ctl.state = .disabled → c.writeCtrl false p = { c with ctl := { k with ringError := false } }) ∧
    (c.ctl.state = .halted → c.writeCtrl false p = c) :=
  ⟨fun h => Chip.writeCtrl_stored p (h.imp_right .inl), fun h => Chip.writeCtrl_disabled false p h,
    Chip.writeCtrl_halted false p⟩

/-- Settles O11, by the state of the controller. -/
theorem ctrlWriteByState : Obligations.CtrlWriteByState := by
  refine ⟨Controller.placementOk_iff, fun s p => ⟨fun h => ?_, fun h hok => ?_, fun h hfail => ?_, fun h => ?_⟩, ?_⟩
  · rw [exec_ctrlEnable, Chip.writeCtrl_stored p (h.imp_right fun k => k.symm.imp_right fun a => ⟨a, rfl⟩)]
    rfl
  · rw [exec_ctrlEnable, Chip.writeCtrl_disabled true p h, if_pos rfl,
      Chip.placementCheck_pass (c := s.toChip.storeCtrl true p) hok]
    rfl
  · rw [exec_ctrlEnable, Chip.writeCtrl_disabled true p h, if_pos rfl,
      Chip.placementCheck_fail (c := s.toChip.storeCtrl true p) hfail]
    rfl
  · rw [exec_ctrlEnable, Chip.writeCtrl_halted true p h]
    rfl
  · rintro s i p u (rfl | rfl)
    all_goals
      obtain ⟨hstored, hdisabled, hhalted⟩ := Chip.writeCtrl_disable_stored (s.toChip.upset u) p
      refine ⟨fun h => ?_, fun h => ?_, fun h => ?_⟩
    · rw [exec_ctrlDisable, hstored h]; rfl
    · rw [exec_ctrlDisable, hdisabled h]; rfl
    · rw [exec_ctrlDisable, hhalted h]
    · rw [exec_controllerReset, hstored h]; rfl
    · rw [exec_controllerReset, hdisabled h]; rfl
    · rw [exec_controllerReset, hhalted h]

/-! ### Reads of the window -/

theorem Controller.ctrlWord_bits (k : Controller) :
    k.ctrlWord.getLsbD 0 = k.enable ∧ k.ctrlWord.getLsbD 1 = k.preserve ∧ k.ctrlWord.extractLsb' 2 30 = 0 := by
  unfold Controller.ctrlWord
  cases k.enable <;> cases k.preserve <;> exact ⟨rfl, rfl, rfl⟩

theorem Controller.statusWord_bits (k : Controller) :
    (k.statusWord.extractLsb' 0 3).toNat = k.state.code ∧ (k.statusWord.extractLsb' 4 2).toNat = k.cause.code ∧
      k.statusWord.getLsbD 8 = k.lastPreserved ∧ k.statusWord.getLsbD 9 = k.ringError ∧
      k.statusWord.getLsbD 3 = false ∧ k.statusWord.extractLsb' 6 2 = 0 ∧ k.statusWord.extractLsb' 10 22 = 0 := by
  unfold Controller.statusWord
  cases k.lastPreserved <;> cases k.ringError <;> cases k.state <;> cases k.cause <;> decide

theorem Chip.readReg_req (c : Chip) (n : RingId) :
    c.readReg (256 + 8 * n.val) = if (c.reqRing n).state = .absent then 0 else BitVec.ofNat 32 (c.reqRing n).put := by
  have hn := n.isLt
  have hindex : Fin.ofNat 32 ((256 + 8 * n.val - 256) / 8) = n := Fin.ext (by simp only [Fin.ofNat]; omega)
  unfold Chip.readReg
  rw [if_neg (by omega), if_neg (by omega), if_neg (by omega), if_neg (by omega), if_neg (by omega), if_neg (by omega),
    if_neg (by omega), if_pos (by omega)]
  simp only [hindex]
  rw [if_pos (by omega)]

theorem Chip.readReg_cmp (c : Chip) (n : RingId) :
    c.readReg (260 + 8 * n.val) = if (c.cmpRing n).state = .absent then 0 else BitVec.ofNat 32 (c.cmpRing n).take := by
  have hn := n.isLt
  have hindex : Fin.ofNat 32 ((260 + 8 * n.val - 256) / 8) = n := Fin.ext (by simp only [Fin.ofNat]; omega)
  unfold Chip.readReg
  rw [if_neg (by omega), if_neg (by omega), if_neg (by omega), if_neg (by omega), if_neg (by omega), if_neg (by omega),
    if_neg (by omega), if_pos (by omega)]
  simp only [hindex]
  rw [if_neg (by omega)]

theorem Chip.readReg_unnamed (c : Chip) {offset : Nat}
    (h : (28 ≤ offset ∧ offset < 256) ∨ 512 ≤ offset ∨ offset % 4 ≠ 0) : c.readReg offset = 0 := by
  unfold Chip.readReg
  rw [if_neg (by omega), if_neg (by omega), if_neg (by omega), if_neg (by omega), if_neg (by omega), if_neg (by omega),
    if_neg (by omega), if_neg (by omega)]

/-- The two halves of a 64-bit register give it back. -/
theorem halves_append (v : DWord) : v.extractLsb' 32 32 ++ v.extractLsb' 0 32 = v := by
  ext i hi
  simp only [BitVec.getElem_append, BitVec.getElem_extractLsb']
  split
  · rw [Nat.zero_add, BitVec.getLsbD_eq_getElem]
  · rw [show 32 + (i - 32) = i by omega, BitVec.getLsbD_eq_getElem]

/-- Settles O15, register by register. -/
theorem registerReadsGiveTheFields : Obligations.RegisterReadsGiveTheFields := fun c =>
  ⟨c.ctl.ctrlWord_bits, c.ctl.statusWord_bits, ⟨halves_append _, halves_append _⟩, rfl, c.readReg_req, c.readReg_cmp,
    fun _ => c.readReg_unnamed⟩

end Sys2Proof.Machine
end

section
/-! Writes of the register window by offset and width, and the writes of a request ring's put index. -/

namespace Sys2Proof.Machine

/-! ### REGISTER_WRITE -/

theorem Chip.onRing_val (c : Chip) (n : RingId) (f : RingId → Chip) : c.onRing n.val f = f n := by
  rw [Chip.onRing, ringOf_val]

theorem exec_registerWrite (s : State) {offset : Nat} (bits : Nat) (v : DWord) (u : Upsets) (h : offset < 4096) :
    exec (.registerWrite offset bits v u) s = .next (s.withChip ((s.toChip.upset u).writeRegister offset bits v)) :=
  if_neg (by omega)

theorem exec_reqPutWrite (s : State) (n : RingId) (w : Word) :
    exec (.reqPutWrite n.val w) s = .next (s.withChip (s.toChip.writeReqPut n (indexValue w))) :=
  congrArg (fun c => Host.Outcome.next (s.withChip c)) (s.toChip.onRing_val n _)

theorem exec_cmpTakeWrite (s : State) (n : RingId) (w : Word) :
    exec (.cmpTakeWrite n.val w) s = .next (s.withChip (s.toChip.writeCmpTake n (indexValue w))) :=
  congrArg (fun c => Host.Outcome.next (s.withChip c)) (s.toChip.onRing_val n _)

theorem Chip.writeRegister_32 (c : Chip) (offset : Nat) (v : DWord) :
    c.writeRegister offset 32 v = c.write32 offset (v.extractLsb' 0 32) := if_pos rfl

theorem Chip.writeRegister_64 (c : Chip) (offset : Nat) (v : DWord) : c.writeRegister offset 64 v = c.write64 offset v := by
  rw [Chip.writeRegister, if_neg (by decide), if_pos rfl]

theorem Chip.writeRegister_narrow (c : Chip) (offset : Nat) {bits : Nat} (v : DWord) (h : bits ≠ 32) (k : bits ≠ 64) :
    c.writeRegister offset bits v = c := by
  rw [Chip.writeRegister, if_neg h, if_neg k]

/-- A 32-bit write outside CTRL and the index window reaches the CRING registers. -/
theorem Chip.write32_cring (c : Chip) {offset : Nat} (v : Word) (h : offset ≠ 0) (k : offset < 256 ∨ 512 ≤ offset) :
    c.write32 offset v = c.writeCring offset v := by
  rw [Chip.write32, if_neg h, if_neg (by omega)]

theorem Chip.write32_index (c : Chip) {offset : Nat} (v : Word) (h : 256 ≤ offset ∧ offset < 512) :
    c.write32 offset v = c.writeIndex offset v := by
  rw [Chip.write32, if_neg (by omega), if_pos h]

theorem Chip.write32_req (c : Chip) (n : RingId) (v : Word) :
    c.write32 (256 + 8 * n.val) v = c.writeReqPut n (indexValue v) := by
  have hn := n.isLt
  have hindex : Fin.ofNat 32 ((256 + 8 * n.val - 256) / 8) = n := Fin.ext (by simp only [Fin.ofNat]; omega)
  rw [Chip.write32_index c v (by omega), Chip.writeIndex, if_pos (by omega), hindex]

theorem Chip.write32_cmp (c : Chip) (n : RingId) (v : Word) :
    c.write32 (260 + 8 * n.val) v = c.writeCmpTake n (indexValue v) := by
  have hn := n.isLt
  have hindex : Fin.ofNat 32 ((260 + 8 * n.val - 256) / 8) = n := Fin.ext (by simp only [Fin.ofNat]; omega)
  rw [Chip.write32_index c v (by omega), Chip.writeIndex, if_neg (by omega), if_pos (by omega), hindex]

theorem Chip.writeCring_stored {c : Chip} {offset : Nat} {v : Word} {k : Controller} (h : c.ctl.state ≠ .halted)
    (hk : offset = 8 ∧ k = { c.ctl with reqBase := c.ctl.reqBase.extractLsb' 32 32 ++ v } ∨
      offset = 12 ∧ k = { c.ctl with reqBase := v ++ c.ctl.reqBase.extractLsb' 0 32 } ∨
      offset = 16 ∧ k = { c.ctl with cmpBase := c.ctl.cmpBase.extractLsb' 32 32 ++ v } ∨
      offset = 20 ∧ k = { c.ctl with cmpBase := v ++ c.ctl.cmpBase.extractLsb' 0 32 } ∨
      offset = 24 ∧ k = { c.ctl with sizes := v }) :
    c.write32 offset v = { c with ctl := k } := by
  rw [Chip.write32_cring c v (by omega) (by omega), Chip.writeCring, if_neg h]
  obtain ⟨rfl, rfl⟩ | ⟨rfl, rfl⟩ | ⟨rfl, rfl⟩ | ⟨rfl, rfl⟩ | ⟨rfl, rfl⟩ := hk <;> rfl

theorem Chip.write64_stored {c : Chip} {offset : Nat} {v : DWord} {k : Controller} (h : c.ctl.state ≠ .halted)
    (hk : offset = 8 ∧ k = { c.ctl with reqBase := v } ∨ offset = 16 ∧ k = { c.ctl with cmpBase := v }) :
    c.write64 offset v = { c with ctl := k } := by
  rw [Chip.write64, if_neg h]
  obtain ⟨rfl, rfl⟩ | ⟨rfl, rfl⟩ := hk <;> rfl

theorem Chip.writeCring_ignored (c : Chip) {offset : Nat} (v : Word)
    (h : c.ctl.state = .halted ∨ (offset ≠ 8 ∧ offset ≠ 12 ∧ offset ≠ 16 ∧ offset ≠ 20 ∧ offset ≠ 24)) :
    c.writeCring offset v = c := by
  unfold Chip.writeCring
  split
  · rfl
  · rename_i hs
    obtain ⟨h8, h12, h16, h20, h24⟩ := h.resolve_left hs
    rw [if_neg h8, if_neg h12, if_neg h16, if_neg h20, if_neg h24]

theorem Chip.write32_ignored (c : Chip) {offset : Nat} (v : Word)
    (h : offset = 4 ∨ (28 ≤ offset ∧ offset < 256) ∨ 512 ≤ offset ∨ offset % 4 ≠ 0 ∨
      c.ctl.state = .halted ∧ (offset = 8 ∨ offset = 12 ∨ offset = 16 ∨ offset = 20 ∨ offset = 24)) :
    c.write32 offset v = c := by
  by_cases hindex : 256 ≤ offset ∧ offset < 512
  · rw [Chip.write32_index c v hindex, Chip.writeIndex, if_neg (by omega), if_neg (by omega)]
  · rw [Chip.write32_cring c v (by omega) (by omega)]
    refine Chip.writeCring_ignored c v ?_
    obtain h | h | h | h | ⟨hs, -⟩ := h
    · exact .inr (by omega)
    · exact .inr (by omega)
    · exact .inr (by omega)
    · exact .inr (by omega)
    · exact .inl hs

theorem Chip.write64_ignored (c : Chip) {offset : Nat} (v : DWord)
    (h : c.ctl.state = .halted ∨ (offset ≠ 8 ∧ offset ≠ 16)) : c.write64 offset v = c := by
  unfold Chip.write64
  split
  · rfl
  · rename_i hs
    obtain ⟨h8, h16⟩ := h.resolve_left hs
    rw [if_neg h8, if_neg h16]

/-- What no register takes, whatever the width. -/
theorem Chip.writeRegister_ignored (c : Chip) {offset bits : Nat} (v : DWord)
    (h : offset = 4 ∨ (28 ≤ offset ∧ offset < 256) ∨ 512 ≤ offset ∨ offset % 4 ≠ 0 ∨ (bits = 64 ∧ offset ≠ 8 ∧ offset ≠ 16) ∨
      c.ctl.state = .halted ∧ (offset = 8 ∨ offset = 12 ∨ offset = 16 ∨ offset = 20 ∨ offset = 24)) :
    c.writeRegister offset bits v = c := by
  by_cases h32 : bits = 32
  · subst h32
    rw [Chip.writeRegister_32]
    refine Chip.write32_ignored c _ ?_
    obtain h | h | h | h | ⟨h, -⟩ | h := h
    · exact .inl h
    · exact .inr (.inl h)
    · exact .inr (.inr (.inl h))
    · exact .inr (.inr (.inr (.inl h)))
    · cases h
    · exact .inr (.inr (.inr (.inr h)))
  · by_cases h64 : bits = 64
    · subst h64
      rw [Chip.writeRegister_64]
      refine Chip.write64_ignored c v ?_
      obtain h | h | h | h | ⟨-, h⟩ | ⟨h, -⟩ := h
      · exact .inr (by omega)
      · exact .inr (by omega)
      · exact .inr (by omega)
      · exact .inr (by omega)
      · exact .inr h
      · exact .inl h
    · exact Chip.writeRegister_narrow c offset v h32 h64

/-- Settles O16, by offset and width. -/
theorem registerWriteByOffsetAndWidth : Obligations.RegisterWriteByOffsetAndWidth := by
  intro s offset bits v u hwindow
  simp only [exec_registerWrite s bits v u hwindow]
  refine ⟨fun h32 h64 => ?_, ?_, ?_, ?_, ?_, ?_, fun h => ?_⟩
  · rw [Chip.writeRegister_narrow _ _ v h32 h64]
  · rintro rfl rfl
    rw [Chip.writeRegister_32, Chip.write32, if_pos rfl]
    cases (v.extractLsb' 0 32).getLsbD 0 <;> rfl
  · rintro rfl ⟨n, rfl⟩
    rw [Chip.writeRegister_32, Chip.write32_req, show (256 + 8 * n.val - 256) / 8 = n.val by omega, exec_reqPutWrite]
    rfl
  · rintro rfl ⟨n, rfl⟩
    rw [Chip.writeRegister_32, Chip.write32_cmp, show (260 + 8 * n.val - 256) / 8 = n.val by omega, exec_cmpTakeWrite]
    rfl
  · rintro rfl hs k hk
    rw [Chip.writeRegister_32, Chip.writeCring_stored (c := s.toChip.upset u) hs hk]
  · rintro rfl hs k hk
    rw [Chip.writeRegister_64, Chip.write64_stored (c := s.toChip.upset u) hs hk]
  · rw [Chip.writeRegister_ignored (s.toChip.upset u) v h]

/-! ### REQ_PUT_WRITE -/

theorem Chip.halt_of_active {c : Chip} (cause : HaltCause) (h : c.ctl.state = .active) :
    c.halt cause = c.haltedWith cause := by
  simp only [Chip.halt, h]
  rfl

theorem Chip.writeReqPut_accepted {c : Chip} {n : RingId} {v : Nat} (ha : c.ctl.state = .active)
    (hr : (c.reqRing n).state = .active) (hv : v < (c.reqRing n).size) :
    c.writeReqPut n v = c.setReqRing n { c.reqRing n with put := v } := by
  rw [Chip.writeReqPut, if_pos ⟨c.isActive_iff.2 ha, hr⟩, if_pos hv]

theorem Chip.writeReqPut_outOfRange {c : Chip} {n : RingId} {v : Nat} (ha : c.ctl.state = .active)
    (hr : (c.reqRing n).state = .active) (hv : (c.reqRing n).size ≤ v) :
    c.writeReqPut n v = c.stopReqRing n { detail := 2, posA := (c.reqRing n).take, posB := v } := by
  rw [Chip.writeReqPut, if_pos ⟨c.isActive_iff.2 ha, hr⟩, if_neg (Nat.not_lt.2 hv)]

theorem Chip.writeReqPut_ignored {c : Chip} {n : RingId} (v : Nat)
    (h : c.ctl.state ≠ .active ∨ (c.reqRing n).state ≠ .active) : c.writeReqPut n v = c :=
  if_neg fun k => h.elim (absurd (c.isActive_iff.1 k.1)) (absurd k.2)

theorem Chip.stopReqRing_of_active {c : Chip} {n : RingId} (f : RingFault) (hn : n ≠ 0)
    (hr : (c.reqRing n).state = .active) : c.stopReqRing n f = (c.markReqStopped n f).attemptReqFault n := by
  rw [Chip.stopReqRing, if_neg hn, if_pos hr]

theorem Chip.stopReqRing_zero {c : Chip} (f : RingFault) (ha : c.ctl.state = .active) :
    c.stopReqRing 0 f = c.haltedWith .controlRing := Chip.halt_of_active _ ha

/-- Settles O17, by the state of the ring and the index written. -/
theorem reqPutWriteSetsPutOrStops : Obligations.ReqPutWriteSetsPutOrStops := by
  intro s n w
  simp only [exec_reqPutWrite]
  refine ⟨fun ha hr hv => ?_, fun ha hr hv hn => ?_, fun ha hr hv hn => ?_, fun h => ?_⟩
  · rw [Chip.writeReqPut_accepted (v := indexValue w) ha hr hv]
    rfl
  · rw [Chip.writeReqPut_outOfRange (v := indexValue w) ha hr hv, Chip.stopReqRing_of_active _ hn hr]
    rfl
  · subst hn
    rw [Chip.writeReqPut_outOfRange (v := indexValue w) ha hr hv, Chip.stopReqRing_zero _ ha]
    rfl
  · rw [Chip.writeReqPut_ignored _ h]
    rfl

end Sys2Proof.Machine
end

section
/-! What writing an entry changes of the rings and the link, what an attempt to post a latch does, and the service of a ring's
latches (R114, R126, R128, R129). -/

namespace Sys2Proof.Machine

/-! ### A counted post -/

theorem Chip.sendMessage_ringEngine (c : Chip) (n : RingId) : (c.sendMessage n).rings = c.rings := by
  unfold Chip.sendMessage
  split <;> rfl

theorem Chip.sendMessage_cmpWrites (c : Chip) (n : RingId) : (c.sendMessage n).link.cmpWrites = c.link.cmpWrites := by
  unfold Chip.sendMessage
  split <;> rfl

@[simp] theorem Chip.setCmpRing_self (c : Chip) (n : RingId) : c.setCmpRing n (c.cmpRing n) = c := by
  simp [Chip.setCmpRing, Chip.cmpRing, Vector.get_eq_getElem]

/-- A counted post changes the ring's unsignalled count and delay timer, and of the rings nothing else. -/
theorem Chip.countPost_rings_eq (c : Chip) (n : RingId) : ∃ u b,
    (c.countPost n).rings = (c.setCmpRing n { c.cmpRing n with unsignalled := u, timer := b }).rings := by
  unfold Chip.countPost
  simp only
  split
  · split
    · exact ⟨_, _, Chip.sendMessage_ringEngine _ n⟩
    · exact ⟨_, _, rfl⟩
  · exact ⟨(c.cmpRing n).unsignalled, (c.cmpRing n).timer, congrArg Chip.rings (c.setCmpRing_self n).symm⟩

theorem Chip.countPost_cmpWrites (c : Chip) (n : RingId) : (c.countPost n).link.cmpWrites = c.link.cmpWrites := by
  unfold Chip.countPost
  simp only
  split
  · split
    · exact Chip.sendMessage_cmpWrites _ n
    · rfl
  · rfl

/-! ### An entry written -/

theorem Chip.canPost_iff (c : Chip) (n : RingId) :
    c.canPost n = true ↔ c.ctl.state = .active ∧ (c.cmpRing n).state = .active ∧
      (c.cmpRing n).posted + (c.cmpRing n).reserved + 1 < (c.cmpRing n).size := by
  simp only [Chip.canPost, Bool.and_eq_true, beq_iff_eq, decide_eq_true_eq, c.isActive_iff, and_assoc]
  refine and_congr_right fun _ => and_congr_right fun _ => ?_
  simp only [CompletionRing.freeSlots]
  omega

section
variable (c : Chip) (n : RingId) (notice : Bool) (ring : BitVec 8) (take : Nat) (e : Completion)

/-- Of the rings an entry written changes its own completion ring, which advances. -/
theorem Chip.writeEntry_rings_eq : ∃ u b, (c.writeEntry n notice ring take e).rings =
    (c.setCmpRing n { (c.cmpRing n).advance with unsignalled := u, timer := b }).rings := by
  unfold Chip.writeEntry
  obtain ⟨u, b, h⟩ := Chip.countPost_rings_eq
    (({ c with
        link := { c.link with
          cmpWrites := c.link.cmpWrites ++
            [{ ring := n, addr := (c.cmpRing n).entryAddr (c.cmpRing n).put,
               data := encodeEntry (c.cmpRing n).lap notice ring take e, live := true }] } } : Chip).setCmpRing n
      (c.cmpRing n).advance) n
  refine ⟨u, b, h.trans ?_⟩
  simp only [Chip.setCmpRing_cmpRing_same]
  simp only [Chip.setCmpRing, Vector.set_set]

theorem Chip.writeEntry_cmpRing_same : ∃ u b, (c.writeEntry n notice ring take e).cmpRing n =
    { (c.cmpRing n).advance with unsignalled := u, timer := b } := by
  obtain ⟨u, b, h⟩ := c.writeEntry_rings_eq n notice ring take e
  refine ⟨u, b, ?_⟩
  rw [Chip.cmpRing, h]
  exact Chip.setCmpRing_cmpRing_same c n _

theorem Chip.writeEntry_cmpRing_ne {m : RingId} (hm : m ≠ n) :
    (c.writeEntry n notice ring take e).cmpRing m = c.cmpRing m := by
  obtain ⟨u, b, h⟩ := c.writeEntry_rings_eq n notice ring take e
  rw [Chip.cmpRing, h]
  exact (Chip.setCmpRing_cmpRing c n m _).trans (if_neg hm)

theorem Chip.writeEntry_req : (c.writeEntry n notice ring take e).rings.req = c.rings.req := by
  obtain ⟨u, b, h⟩ := c.writeEntry_rings_eq n notice ring take e
  rw [h]
  rfl

theorem Chip.writeEntry_reqRing (m : RingId) : (c.writeEntry n notice ring take e).reqRing m = c.reqRing m := by
  rw [Chip.reqRing, c.writeEntry_req]
  rfl

theorem Chip.writeEntry_cmpWrites : (c.writeEntry n notice ring take e).link.cmpWrites = c.link.cmpWrites ++
    [{ ring := n, addr := (c.cmpRing n).entryAddr (c.cmpRing n).put,
       data := encodeEntry (c.cmpRing n).lap notice ring take e, live := true }] := by
  unfold Chip.writeEntry
  exact Chip.countPost_cmpWrites _ n

theorem Chip.writeEntry_stream (j : StreamId) : (c.writeEntry n notice ring take e).stream j = c.stream j :=
  (c.writeEntry_rings n notice ring take e).stream j

/-- Once an entry is written the ring takes another while two slots were free. -/
theorem Chip.writeEntry_canPost : (c.writeEntry n notice ring take e).canPost n = true ↔
    c.ctl.state = .active ∧ (c.cmpRing n).state = .active ∧
      (c.cmpRing n).posted + (c.cmpRing n).reserved + 2 < (c.cmpRing n).size := by
  obtain ⟨u, b, h⟩ := c.writeEntry_cmpRing_same n notice ring take e
  rw [Chip.canPost_iff, h, (c.writeEntry_rings n notice ring take e).ctl]
  refine and_congr_right fun _ => and_congr_right fun _ => ?_
  simp only [CompletionRing.advance]
  omega

end

/-! ### Attempts to post a stream's latches -/

section
variable {c : Chip} {i : StreamId} {n : RingId}

theorem Chip.postFault_none (h : (c.stream i).faultLatch = none) : c.postFault i n = c := by
  simp only [Chip.postFault, h]

theorem Chip.postOccupancy_none (h : (c.stream i).occLatch = none) : c.postOccupancy i n = c := by
  simp only [Chip.postOccupancy, h]

theorem Chip.postReady_none (h : (c.stream i).readyLatch = false) : c.postReady i n = c := by
  simp only [Chip.postReady, h, Bool.false_and, Bool.false_eq_true, if_false]

theorem Chip.postFault_full (h : c.canPost n = false) : c.postFault i n = c := by
  simp only [Chip.postFault, h, Bool.false_eq_true, if_false]
  split <;> rfl

theorem Chip.postOccupancy_full (h : c.canPost n = false) : c.postOccupancy i n = c := by
  simp only [Chip.postOccupancy, h, Bool.false_eq_true, if_false]
  split <;> rfl

theorem Chip.postReady_full (h : c.canPost n = false) : c.postReady i n = c := by
  simp only [Chip.postReady, h, Bool.and_false, Bool.false_eq_true, if_false]

theorem Chip.postFault_posts {f : FaultCause} (h : (c.stream i).faultLatch = some f) (hc : c.canPost n = true) :
    c.postFault i n = (c.writeEntry n true 0xFF 0 (faultNotice i (c.stream i) f)).setStream i
      { c.stream i with faultLatch := none } := by
  simp only [Chip.postFault, h, hc, if_true, Chip.modStream, Chip.writeEntry_stream]

theorem Chip.postOccupancy_posts {l : OccLatch} (h : (c.stream i).occLatch = some l) (hc : c.canPost n = true) :
    c.postOccupancy i n = (c.writeEntry n true 0xFF 0 (occupancyNotice i (c.stream i) l)).setStream i
      { c.stream i with occLatch := none } := by
  simp only [Chip.postOccupancy, h, hc, if_true, Chip.modStream, Chip.writeEntry_stream]

theorem Chip.postReady_posts (h : (c.stream i).readyLatch = true) (hc : c.canPost n = true) :
    c.postReady i n = (c.writeEntry n true 0xFF 0 (readyNotice i (c.stream i))).setStream i
      { c.stream i with readyLatch := false } := by
  simp only [Chip.postReady, h, hc, Bool.true_and, if_true, Chip.modStream, Chip.writeEntry_stream]

theorem Chip.attempt_unbound (h : (c.stream i).noticeRing = none) : c.attempt i = c := by
  simp only [Chip.attempt, h]

theorem Chip.attempt_bound (h : (c.stream i).noticeRing = some n) :
    c.attempt i = ((c.postFault i n).postOccupancy i n).postReady i n := by
  simp only [Chip.attempt, h]

theorem Chip.attempt_full (h : (c.stream i).noticeRing = some n) (hc : c.canPost n = false) : c.attempt i = c := by
  rw [Chip.attempt_bound h, Chip.postFault_full hc, Chip.postOccupancy_full hc, Chip.postReady_full hc]

theorem Chip.attempt_idle (hf : (c.stream i).faultLatch = none) (ho : (c.stream i).occLatch = none)
    (hr : (c.stream i).readyLatch = false) : c.attempt i = c := by
  unfold Chip.attempt
  split
  · rfl
  · rw [Chip.postFault_none hf, Chip.postOccupancy_none ho, Chip.postReady_none hr]

end

/-! ### The fields of the notices (R115) -/

theorem faultNotice_eq (i : StreamId) (st : StreamEntry) (f : FaultCause) : faultNotice i st f =
    { code := 0x83, streamId := BitVec.ofNat 16 i.val,
      detail := (match f with | .recordHeader => 1 | .chainLink => 2), posA := st.base, posB := st.frontier, count := 1,
      bytes := st.chain.length } := by
  cases f <;> rfl

theorem occupancyNotice_eq (i : StreamId) (st : StreamEntry) (l : OccLatch) : occupancyNotice i st l =
    { code := if l.state = .pressed then 0x81 else 0x82, streamId := BitVec.ofNat 16 i.val,
      posA := if l.state = .pressed then st.pressureLevel else st.reliefLevel, count := l.count,
      bytes := st.chain.length } := by
  unfold occupancyNotice
  cases l.state <;> rfl

end Sys2Proof.Machine
end

section
/-! Notices: what an attempt posts and clears, and what the service of a completion ring leaves pending (R114, R127, R128). -/

namespace Sys2Proof.Machine

/-! ### A stream's attempt, latch by latch -/

section
variable {c : Chip} {i : StreamId} {n : RingId}

theorem Chip.attempt_fault {f : FaultCause} (hn : (c.stream i).noticeRing = some n) (hc : c.canPost n = true)
    (hf : (c.stream i).faultLatch = some f) (ho : (c.stream i).occLatch = none) (hr : (c.stream i).readyLatch = false) :
    c.attempt i = (c.writeEntry n true 0xFF 0 (faultNotice i (c.stream i) f)).setStream i
      { c.stream i with faultLatch := none } := by
  rw [Chip.attempt_bound hn, Chip.postFault_posts hf hc, Chip.postOccupancy_none, Chip.postReady_none]
  · rw [Chip.setStream_stream_same]; exact hr
  · rw [Chip.setStream_stream_same]; exact ho

theorem Chip.attempt_occupancy {l : OccLatch} (hn : (c.stream i).noticeRing = some n) (hc : c.canPost n = true)
    (hf : (c.stream i).faultLatch = none) (ho : (c.stream i).occLatch = some l) (hr : (c.stream i).readyLatch = false) :
    c.attempt i = (c.writeEntry n true 0xFF 0 (occupancyNotice i (c.stream i) l)).setStream i
      { c.stream i with occLatch := none } := by
  rw [Chip.attempt_bound hn, Chip.postFault_none hf, Chip.postOccupancy_posts ho hc, Chip.postReady_none]
  rw [Chip.setStream_stream_same]
  exact hr

theorem Chip.attempt_ready (hn : (c.stream i).noticeRing = some n) (hc : c.canPost n = true)
    (hf : (c.stream i).faultLatch = none) (ho : (c.stream i).occLatch = none) (hr : (c.stream i).readyLatch = true) :
    c.attempt i = (c.writeEntry n true 0xFF 0 (readyNotice i (c.stream i))).setStream i
      { c.stream i with readyLatch := false } := by
  rw [Chip.attempt_bound hn, Chip.postFault_none hf, Chip.postOccupancy_none ho, Chip.postReady_posts hr hc]

/-- OCCUPANCY and READY both pending: READY is posted too when a second slot is free. -/
theorem Chip.attempt_both {l : OccLatch} (hn : (c.stream i).noticeRing = some n) (hc : c.canPost n = true)
    (hf : (c.stream i).faultLatch = none) (ho : (c.stream i).occLatch = some l) (hr : (c.stream i).readyLatch = true) :
    let first := (c.writeEntry n true 0xFF 0 (occupancyNotice i (c.stream i) l)).setStream i
      { c.stream i with occLatch := none }
    c.attempt i =
      if (c.cmpRing n).posted + (c.cmpRing n).reserved + 2 < (c.cmpRing n).size then
        (first.writeEntry n true 0xFF 0 (readyNotice i (c.stream i))).setStream i
          { c.stream i with occLatch := none, readyLatch := false }
      else first := by
  intro first
  obtain ⟨ha, hs, -⟩ := (c.canPost_iff n).1 hc
  have hroom : first.canPost n = true ↔ (c.cmpRing n).posted + (c.cmpRing n).reserved + 2 < (c.cmpRing n).size :=
    (Chip.writeEntry_canPost c n true 0xFF 0 _).trans ⟨fun h => h.2.2, fun h => ⟨ha, hs, h⟩⟩
  have hst : first.stream i = { c.stream i with occLatch := none } := Chip.setStream_stream_same _ i _
  rw [Chip.attempt_bound hn, Chip.postFault_none hf, Chip.postOccupancy_posts ho hc]
  split
  · rename_i h
    rw [Chip.postReady_posts (c := first) (by rw [hst]; exact hr) (hroom.2 h), hst]
    rfl
  · rename_i h
    exact Chip.postReady_full (c := first) (Bool.eq_false_iff.2 fun k => h (hroom.1 k))

end

/-! ### Latches of stopped rings -/

theorem Chip.attemptReqFault_idle {c : Chip} {n : RingId} (h : (c.reqRing n).fault = none ∨ c.canPost 0 = false) :
    c.attemptReqFault n = c := by
  unfold Chip.attemptReqFault
  split
  · rfl
  · rename_i hf
    rw [h.resolve_left (by rw [hf]; exact Option.some_ne_none _)]
    rfl

theorem Chip.attemptReqFault_posts {c : Chip} {n : RingId} {f : RingFault} (h : (c.reqRing n).fault = some f)
    (hc : c.canPost 0 = true) : c.attemptReqFault n =
      (c.writeEntry 0 true 0xFF 0 (ringFaultNotice n.val f)).setReqRing n { c.reqRing n with fault := none } := by
  simp only [Chip.attemptReqFault, h, hc, if_true, Chip.writeEntry_reqRing]

theorem Chip.attemptCmpFault_idle {c : Chip} {n : RingId} (h : (c.cmpRing n).fault = none ∨ c.canPost 0 = false) :
    c.attemptCmpFault n = c := by
  unfold Chip.attemptCmpFault
  split
  · rfl
  · rename_i hf
    rw [h.resolve_left (by rw [hf]; exact Option.some_ne_none _)]
    rfl

theorem Chip.attemptCmpFault_posts {c : Chip} {n : RingId} {f : RingFault} (h : (c.cmpRing n).fault = some f)
    (hc : c.canPost 0 = true) : c.attemptCmpFault n =
      (c.writeEntry 0 true 0xFF 0 (ringFaultNotice (256 + n.val) f)).setCmpRing n
        { (c.writeEntry 0 true 0xFF 0 (ringFaultNotice (256 + n.val) f)).cmpRing n with fault := none } := by
  simp only [Chip.attemptCmpFault, h, hc, if_true]

theorem Chip.serveRingFaults_full {c : Chip} (h : c.canPost 0 = false) : c.serveRingFaults = c := by
  have full (l : List RingId) : l.foldl (fun c n => (c.attemptReqFault n).attemptCmpFault n) c = c := by
    induction l with
    | nil => rfl
    | cons m l ih => rw [List.foldl_cons, Chip.attemptReqFault_idle (.inr h), Chip.attemptCmpFault_idle (.inr h), ih]
  exact full ringIds

/-- Posting an entry moves no service pointer. -/
theorem Chip.writeEntry_service (c : Chip) (n m : RingId) (notice : Bool) (ring : BitVec 8) (take : Nat) (e : Completion) :
    ((c.writeEntry n notice ring take e).cmpRing m).service = (c.cmpRing m).service := by
  by_cases h : m = n
  · subst h
    obtain ⟨u, b, hr⟩ := c.writeEntry_cmpRing_same m notice ring take e
    rw [hr]
    rfl
  · rw [c.writeEntry_cmpRing_ne n notice ring take e h]

theorem Chip.attemptReqFault_service (c : Chip) (n m : RingId) :
    ((c.attemptReqFault n).cmpRing m).service = (c.cmpRing m).service := by
  unfold Chip.attemptReqFault
  split
  · rfl
  · split
    · exact c.writeEntry_service 0 m true 0xFF 0 _
    · rfl

theorem Chip.attemptCmpFault_service (c : Chip) (n m : RingId) :
    ((c.attemptCmpFault n).cmpRing m).service = (c.cmpRing m).service := by
  unfold Chip.attemptCmpFault
  split
  · rfl
  · split
    · simp only [Chip.setCmpRing_cmpRing]
      split
      · rename_i h; subst h; exact c.writeEntry_service 0 m true 0xFF 0 _
      · exact c.writeEntry_service 0 m true 0xFF 0 _
    · rfl

theorem Chip.serveRingFaults_service (c : Chip) (m : RingId) :
    (c.serveRingFaults.cmpRing m).service = (c.cmpRing m).service := by
  have all (l : List RingId) (c : Chip) :
      ((l.foldl (fun c n => (c.attemptReqFault n).attemptCmpFault n) c).cmpRing m).service = (c.cmpRing m).service := by
    induction l generalizing c with
    | nil => rfl
    | cons n l ih =>
      exact (ih _).trans ((Chip.attemptCmpFault_service _ n m).trans (c.attemptReqFault_service n m))
  exact all ringIds c

/-! ### The service of a ring's latches -/

theorem Chip.serveStream_full {c : Chip} {n : RingId} (i : StreamId) (h : c.canPost n = false) :
    Chip.serveStream n c i = c := if_neg fun k => by rw [h] at k; exact Bool.noConfusion k.2.2

theorem foldl_serveStream_full {c : Chip} {n : RingId} (l : List StreamId) (h : c.canPost n = false) :
    l.foldl (Chip.serveStream n) c = c := by
  induction l with
  | nil => rfl
  | cons i l ih => rw [List.foldl_cons, Chip.serveStream_full i h, ih]

theorem Chip.service_of_full {c : Chip} {n : RingId} (h : c.canPost n = false) : c.service n = c := by
  unfold Chip.service
  by_cases hn : n = 0
  · subst hn
    simp only [if_true, Chip.serveRingFaults_full h]
    exact foldl_serveStream_full _ h
  · simp only [hn, if_false]
    exact foldl_serveStream_full _ h

/-- A stream's latch is pending and bound to completion ring `n`. -/
def StreamEntry.pendingOn (st : StreamEntry) (n : RingId) : Prop := st.noticeRing = some n ∧ st.latched = true

theorem StreamEntry.latched_iff (st : StreamEntry) :
    st.latched = true ↔ st.readyLatch = true ∨ st.occLatch ≠ none ∨ st.faultLatch ≠ none := by
  simp only [StreamEntry.latched, Bool.or_eq_true, Option.isSome_iff_ne_none, or_assoc]

/-- What one post does to its latch: it is cleared, or no entry fits and nothing happens; other latches are at most cleared. -/
structure LatchCleared (i : StreamId) (n : RingId) (latch : StreamEntry → Bool) (c t : Chip) : Prop where
  cleared : latch (t.stream i) = false ∨ (t = c ∧ c.canPost n = false)
  others : ∀ j, j ≠ i → t.stream j = c.stream j
  ready : (c.stream i).readyLatch = false → (t.stream i).readyLatch = false
  occupancy : (c.stream i).occLatch = none → (t.stream i).occLatch = none
  fault : (c.stream i).faultLatch = none → (t.stream i).faultLatch = none
  bound : (t.stream i).noticeRing = (c.stream i).noticeRing

theorem LatchCleared.idle {i : StreamId} {n : RingId} {latch : StreamEntry → Bool} {c : Chip}
    (h : latch (c.stream i) = false ∨ c.canPost n = false) : LatchCleared i n latch c c :=
  ⟨h.imp_right fun k => ⟨rfl, k⟩, fun _ _ => rfl, id, id, id, rfl⟩

theorem LatchCleared.posted {i : StreamId} {n : RingId} {latch : StreamEntry → Bool} {c : Chip} {e : Completion}
    {st : StreamEntry} (h : latch st = false) (hr : (c.stream i).readyLatch = false → st.readyLatch = false)
    (ho : (c.stream i).occLatch = none → st.occLatch = none) (hf : (c.stream i).faultLatch = none → st.faultLatch = none)
    (hb : st.noticeRing = (c.stream i).noticeRing) :
    LatchCleared i n latch c ((c.writeEntry n true 0xFF 0 e).setStream i st) := by
  have hst : ((c.writeEntry n true 0xFF 0 e).setStream i st).stream i = st := Chip.setStream_stream_same _ i st
  constructor
  · exact .inl (by rw [hst]; exact h)
  · intro j hj
    rw [Chip.setStream_stream_ne _ st hj, Chip.writeEntry_stream]
  · rw [hst]; exact hr
  · rw [hst]; exact ho
  · rw [hst]; exact hf
  · rw [hst]; exact hb

theorem Chip.postFault_cleared (c : Chip) (i : StreamId) (n : RingId) :
    LatchCleared i n (fun st => st.faultLatch.isSome) c (c.postFault i n) := by
  cases hf : (c.stream i).faultLatch with
  | none => rw [Chip.postFault_none hf]; exact .idle (.inl (by rw [hf]; rfl))
  | some f =>
    cases hc : c.canPost n with
    | false => rw [Chip.postFault_full hc]; exact .idle (.inr hc)
    | true => rw [Chip.postFault_posts hf hc]; exact .posted rfl id id (fun _ => rfl) rfl

theorem Chip.postOccupancy_cleared (c : Chip) (i : StreamId) (n : RingId) :
    LatchCleared i n (fun st => st.occLatch.isSome) c (c.postOccupancy i n) := by
  cases ho : (c.stream i).occLatch with
  | none => rw [Chip.postOccupancy_none ho]; exact .idle (.inl (by rw [ho]; rfl))
  | some l =>
    cases hc : c.canPost n with
    | false => rw [Chip.postOccupancy_full hc]; exact .idle (.inr hc)
    | true => rw [Chip.postOccupancy_posts ho hc]; exact .posted rfl id (fun _ => rfl) id rfl

theorem Chip.postReady_cleared (c : Chip) (i : StreamId) (n : RingId) :
    LatchCleared i n (fun st => st.readyLatch) c (c.postReady i n) := by
  cases hr : (c.stream i).readyLatch with
  | false => rw [Chip.postReady_none hr]; exact .idle (.inl hr)
  | true =>
    cases hc : c.canPost n with
    | false => rw [Chip.postReady_full hc]; exact .idle (.inr hc)
    | true => rw [Chip.postReady_posts hr hc]; exact .posted rfl (fun _ => rfl) id id rfl

/-- After an attempt a latch still pending means that no entry fits. -/
theorem Chip.attempt_pending {c : Chip} {i : StreamId} {n : RingId} (hn : (c.stream i).noticeRing = some n)
    (h : ((c.attempt i).stream i).latched = true) : (c.attempt i).canPost n = false := by
  have kf := c.postFault_cleared i n
  have ko := (c.postFault i n).postOccupancy_cleared i n
  have kr := ((c.postFault i n).postOccupancy i n).postReady_cleared i n
  rw [Chip.attempt_bound hn] at h ⊢
  obtain hf | ⟨e, hc⟩ := kf.cleared
  · obtain ho | ⟨e, hc⟩ := ko.cleared
    · obtain hr | ⟨e, hc⟩ := kr.cleared
      · have hf' := kr.fault (ko.fault (Option.not_isSome_iff_eq_none.1 (Bool.eq_false_iff.1 hf)))
        have ho' := kr.occupancy (Option.not_isSome_iff_eq_none.1 (Bool.eq_false_iff.1 ho))
        obtain k | k | k := (StreamEntry.latched_iff _).1 h
        · exact absurd k (Bool.eq_false_iff.1 hr)
        · exact absurd ho' k
        · exact absurd hf' k
      · rw [e]; exact hc
    · rw [e, Chip.postReady_full hc]; exact hc
  · rw [e, Chip.postOccupancy_full hc, Chip.postReady_full hc]; exact hc

theorem Chip.attempt_others (c : Chip) (i : StreamId) {j : StreamId} (h : j ≠ i) :
    (c.attempt i).stream j = c.stream j := (c.attempt_only i).others j h

/-- An attempt binds no stream and makes no latch pending. -/
theorem Chip.attempt_notPending {c : Chip} (i : StreamId) {j : StreamId} {n : RingId} (h : ¬ (c.stream j).pendingOn n) :
    ¬ ((c.attempt i).stream j).pendingOn n := by
  by_cases hj : j = i
  · subst hj
    cases hb : (c.stream j).noticeRing with
    | none => rw [Chip.attempt_unbound hb]; exact h
    | some m =>
      have kf := c.postFault_cleared j m
      have ko := (c.postFault j m).postOccupancy_cleared j m
      have kr := ((c.postFault j m).postOccupancy j m).postReady_cleared j m
      rw [Chip.attempt_bound hb]
      rintro ⟨hn, hl⟩
      rw [kr.bound, ko.bound, kf.bound] at hn
      have hidle : (c.stream j).latched ≠ true := fun k => h ⟨hn, k⟩
      rw [Ne, StreamEntry.latched_iff] at hidle
      obtain k | k | k := (StreamEntry.latched_iff _).1 hl
      · refine hidle (.inl ?_)
        by_contra hr
        exact absurd k (Bool.eq_false_iff.1 (kr.ready (ko.ready (kf.ready (Bool.eq_false_iff.2 hr)))))
      · exact hidle (.inr (.inl fun e => k (kr.occupancy (ko.occupancy (kf.occupancy e)))))
      · exact hidle (.inr (.inr fun e => k (kr.fault (ko.fault (kf.fault e)))))
  · rw [Chip.attempt_others c i hj]; exact h

theorem Chip.serveStream_stream (n : RingId) (c : Chip) (i j : StreamId) :
    (Chip.serveStream n c i).stream j = c.stream j ∨ (Chip.serveStream n c i).stream j = (c.attempt i).stream j := by
  unfold Chip.serveStream
  split
  · exact .inr rfl
  · exact .inl rfl

theorem Chip.serveStream_notPending {c : Chip} (i : StreamId) {j : StreamId} {n : RingId} (h : ¬ (c.stream j).pendingOn n) :
    ¬ ((Chip.serveStream n c i).stream j).pendingOn n := by
  obtain e | e := Chip.serveStream_stream n c i j
  · rw [e]; exact h
  · rw [e]; exact Chip.attempt_notPending i h

theorem foldl_serveStream_notPending {c : Chip} (l : List StreamId) {j : StreamId} {n : RingId}
    (h : ¬ (c.stream j).pendingOn n) : ¬ ((l.foldl (Chip.serveStream n) c).stream j).pendingOn n := by
  induction l generalizing c with
  | nil => exact h
  | cons i l ih => exact ih (Chip.serveStream_notPending i h)

/-- After its turn a stream whose latch is still pending means that no entry fits. -/
theorem Chip.serveStream_pending {c : Chip} {i : StreamId} {n : RingId}
    (h : ((Chip.serveStream n c i).stream i).pendingOn n) : (Chip.serveStream n c i).canPost n = false := by
  have hcan (d : Chip) : (d.setCmpRing n { d.cmpRing n with service := i }).canPost n = d.canPost n := by
    simp only [Chip.canPost, Chip.setCmpRing_cmpRing_same, Chip.setCmpRing_isActive]
    rfl
  by_cases hturn : (c.stream i).noticeRing = some n ∧ (c.stream i).latched = true ∧ c.canPost n = true
  · have e : Chip.serveStream n c i = (c.attempt i).setCmpRing n { (c.attempt i).cmpRing n with service := i } :=
      if_pos hturn
    rw [e] at h ⊢
    rw [hcan]
    exact Chip.attempt_pending hturn.1 h.2
  · have e : Chip.serveStream n c i = c := if_neg hturn
    rw [e] at h ⊢
    exact Bool.eq_false_iff.2 fun k => hturn ⟨h.1, h.2, k⟩

theorem foldl_serveStream_pending {n : RingId} {i : StreamId} (l : List StreamId) (c : Chip) (hi : i ∈ l)
    (h : ((l.foldl (Chip.serveStream n) c).stream i).pendingOn n) : (l.foldl (Chip.serveStream n) c).canPost n = false := by
  induction l generalizing c with
  | nil => cases hi
  | cons a l ih =>
    rw [List.foldl_cons] at h ⊢
    by_cases ha : i = a
    · subst ha
      have hp : ((Chip.serveStream n c i).stream i).pendingOn n := by
        by_contra k
        exact foldl_serveStream_notPending l k h
      rw [foldl_serveStream_full l (Chip.serveStream_pending hp)]
      exact Chip.serveStream_pending hp
    · exact ih _ ((List.mem_cons.1 hi).resolve_left ha) h

theorem mem_streamsAfter (p i : StreamId) : i ∈ streamsAfter p := by
  have hp := p.isLt
  have hi := i.isLt
  refine List.mem_map.2 ⟨(i.val + 1023 - p.val - 512) % 512, List.mem_range.2 (Nat.mod_lt _ (by decide)), Fin.ext ?_⟩
  simp only [Fin.ofNat]
  omega

theorem Chip.service_pending {c : Chip} {n : RingId} {i : StreamId} (h : ((c.service n).stream i).pendingOn n) :
    (c.service n).canPost n = false := foldl_serveStream_pending _ _ (mem_streamsAfter _ i) h

/-! ### Notices -/

/-- Settles O60: the rules above, one for each latch, and `service_pending`. -/
theorem noticesArePostedAndServed : Obligations.NoticesArePostedAndServed := by
  refine ⟨Chip.canPost_iff, fun c n e => ?_, fun c i n => ?_, fun c n => ?_, fun c n => ?_⟩
  · obtain ⟨u, b, hr⟩ := c.writeEntry_cmpRing_same n true 0xFF 0 e
    refine ⟨rfl, c.writeEntry_cmpWrites n true 0xFF 0 e, ?_, ?_, ?_, ?_, ?_, c.writeEntry_req n true 0xFF 0 e,
      c.writeEntry_table n true 0xFF 0 e, fun m hm => c.writeEntry_cmpRing_ne n true 0xFF 0 e hm,
      c.writeEntry_rings n true 0xFF 0 e⟩
    all_goals exact (congrArg _ hr).trans rfl
  · refine ⟨Chip.attempt_unbound, Chip.attempt_full, fun _ => Chip.attempt_idle, fun hn hc =>
      ⟨fun f hf ho hr => ?_, fun l hf ho hr => ?_, Chip.attempt_ready hn hc, fun l hf ho hr => ?_⟩⟩
    · rw [Chip.attempt_fault hn hc hf ho hr, faultNotice_eq] <;> rfl
    · rw [Chip.attempt_occupancy hn hc hf ho hr, occupancyNotice_eq]
    · rw [Chip.attempt_both hn hc hf ho hr, occupancyNotice_eq]
      rfl
  · exact ⟨Chip.attemptReqFault_idle, fun f hf hc => Chip.attemptReqFault_posts hf hc, Chip.attemptCmpFault_idle,
      fun f hf hc => Chip.attemptCmpFault_posts hf hc⟩
  · have hturn : (fun (c : Chip) (i : StreamId) =>
        if (c.stream i).noticeRing = some n ∧ c.canPost n = true ∧
            ((c.stream i).readyLatch = true ∨ (c.stream i).occLatch ≠ none ∨ (c.stream i).faultLatch ≠ none) then
          (c.attempt i).setCmpRing n { (c.attempt i).cmpRing n with service := i }
        else c) = Chip.serveStream n := by
      funext d i
      refine if_congr ?_ rfl rfl
      rw [← StreamEntry.latched_iff, and_comm (a := d.canPost n = true)]
    simp only [hturn]
    refine ⟨fun hn => by rw [Chip.service, if_neg hn]; rfl, fun hn => ?_, Chip.service_of_full, fun ⟨i, hb, hl⟩ =>
      Chip.service_pending (i := i) ⟨hb, (StreamEntry.latched_iff _).2 hl⟩⟩
    have hservice : (c.serveRingFaults.cmpRing n).service = (c.cmpRing n).service := c.serveRingFaults_service n
    rw [Chip.service, if_pos hn, hservice]
    rfl

end Sys2Proof.Machine
end

section
/-! The stop of a completion ring (R132) and the writes of its take index (R121). -/

namespace Sys2Proof.Machine

/-! ### The request rings a stop takes with it -/

/-- A request ring stopped with its completion ring (R132, R133). -/
def RequestRing.stoppedWith (r : RequestRing) : RequestRing :=
  { r with state := .stopped, fault := some { detail := 5, posA := r.take, posB := r.put } }

theorem Chip.stopIfBound_eq (n : RingId) (c : Chip) (m : RingId) :
    Chip.stopIfBound n c m = if (c.reqRing m).state = .active ∧ (c.reqRing m).bound = n then
      c.setReqRing m (c.reqRing m).stoppedWith else c := rfl

theorem Chip.stopIfBound_cmpRing (n : RingId) (c : Chip) (m k : RingId) :
    (Chip.stopIfBound n c m).cmpRing k = c.cmpRing k := by
  rw [Chip.stopIfBound_eq]
  split <;> rfl

theorem Chip.stopIfBound_reqRing (n : RingId) (c : Chip) (m k : RingId) :
    (Chip.stopIfBound n c m).reqRing k =
      if k = m ∧ (c.reqRing k).state = .active ∧ (c.reqRing k).bound = n then (c.reqRing k).stoppedWith else c.reqRing k := by
  rw [Chip.stopIfBound_eq]
  by_cases hk : k = m
  · subst hk
    split
    · rename_i h
      rw [if_pos ⟨rfl, h⟩, Chip.setReqRing_reqRing_same]
    · rename_i h
      rw [if_neg fun x => h x.2]
  · rw [if_neg fun (x : k = m ∧ _) => hk x.1]
    split
    · rw [Chip.setReqRing_reqRing, if_neg hk]
    · rfl

theorem foldl_stopIfBound_cmpRing (n : RingId) (l : List RingId) (c : Chip) (k : RingId) :
    (l.foldl (Chip.stopIfBound n) c).cmpRing k = c.cmpRing k := by
  induction l generalizing c with
  | nil => rfl
  | cons m l ih => exact (ih _).trans (Chip.stopIfBound_cmpRing n c m k)

theorem foldl_stopIfBound_reqRing (n : RingId) (l : List RingId) (c : Chip) (k : RingId) :
    (l.foldl (Chip.stopIfBound n) c).reqRing k =
      if k ∈ l ∧ (c.reqRing k).state = .active ∧ (c.reqRing k).bound = n then (c.reqRing k).stoppedWith else c.reqRing k := by
  induction l generalizing c with
  | nil => exact (if_neg fun h => absurd h.1 List.not_mem_nil).symm
  | cons m l ih =>
    rw [List.foldl_cons, ih]
    have hstep := Chip.stopIfBound_reqRing n c m k
    by_cases hk : k = m ∧ (c.reqRing k).state = .active ∧ (c.reqRing k).bound = n
    · rw [if_pos hk] at hstep
      rw [hstep, if_neg fun h => ReqState.noConfusion h.2.1, if_pos ⟨List.mem_cons.2 (.inl hk.1), hk.2⟩]
    · rw [if_neg hk] at hstep
      rw [hstep]
      refine if_congr ⟨fun h => ⟨List.mem_cons_of_mem m h.1, h.2⟩, fun h => ⟨?_, h.2⟩⟩ rfl rfl
      exact (List.mem_cons.1 h.1).resolve_left fun e => hk ⟨e, h.2⟩

theorem mem_ringIds (n : RingId) : n ∈ ringIds :=
  List.mem_map.2 ⟨n.val, List.mem_range.2 n.isLt, Fin.ext (Nat.mod_eq_of_lt n.isLt)⟩

theorem Chip.mem_boundActive (c : Chip) (n m : RingId) :
    m ∈ c.boundActive n ↔ (c.reqRing m).state = .active ∧ (c.reqRing m).bound = n := by
  simp only [Chip.boundActive, List.mem_filter, mem_ringIds, true_and, Bool.and_eq_true, beq_iff_eq]

/-! ### Attempts on the latches of rings -/

/-- Attempts on the latches of the request rings `stopped` and of completion ring `n`: of those rings the latches alone change. -/
structure FaultsPosted (stopped : List RingId) (n : RingId) (c t : Chip) : Prop where
  cmp : ∃ f, t.cmpRing n = { c.cmpRing n with fault := f }
  req : ∀ m, ∃ f, t.reqRing m = { c.reqRing m with fault := f }
  others : ∀ m, m ∉ stopped → t.reqRing m = c.reqRing m

theorem FaultsPosted.refl (stopped : List RingId) (n : RingId) (c : Chip) : FaultsPosted stopped n c c :=
  ⟨⟨_, rfl⟩, fun _ => ⟨_, rfl⟩, fun _ _ => rfl⟩

theorem FaultsPosted.trans {stopped : List RingId} {n : RingId} {a b c : Chip} (h : FaultsPosted stopped n a b)
    (k : FaultsPosted stopped n b c) : FaultsPosted stopped n a c := by
  obtain ⟨f, hf⟩ := h.cmp
  obtain ⟨g, hg⟩ := k.cmp
  refine ⟨⟨g, by rw [hg, hf]⟩, fun m => ?_, fun m hm => (k.others m hm).trans (h.others m hm)⟩
  obtain ⟨f, hf⟩ := h.req m
  obtain ⟨g, hg⟩ := k.req m
  exact ⟨g, by rw [hg, hf]⟩

theorem Chip.attemptReqFault_posted (c : Chip) {n m : RingId} {stopped : List RingId} (hn : n ≠ 0) (hm : m ∈ stopped) :
    FaultsPosted stopped n c (c.attemptReqFault m) := by
  cases hf : (c.reqRing m).fault with
  | none => rw [Chip.attemptReqFault_idle (.inl hf)]; exact .refl _ _ _
  | some f =>
    cases hc : c.canPost 0 with
    | false => rw [Chip.attemptReqFault_idle (.inr hc)]; exact .refl _ _ _
    | true =>
      rw [Chip.attemptReqFault_posts hf hc]
      refine ⟨⟨(c.cmpRing n).fault, c.writeEntry_cmpRing_ne 0 true 0xFF 0 _ hn⟩, fun k => ?_, fun k hk => ?_⟩
      · rw [Chip.setReqRing_reqRing]
        split
        · rename_i h; subst h; exact ⟨none, rfl⟩
        · exact ⟨_, c.writeEntry_reqRing 0 true 0xFF 0 _ k⟩
      · rw [Chip.setReqRing_reqRing, if_neg fun (h : k = m) => hk (h ▸ hm), Chip.writeEntry_reqRing]

theorem Chip.attemptCmpFault_posted (c : Chip) {n : RingId} (stopped : List RingId) (hn : n ≠ 0) :
    FaultsPosted stopped n c (c.attemptCmpFault n) := by
  cases hf : (c.cmpRing n).fault with
  | none => rw [Chip.attemptCmpFault_idle (.inl hf)]; exact .refl _ _ _
  | some f =>
    cases hc : c.canPost 0 with
    | false => rw [Chip.attemptCmpFault_idle (.inr hc)]; exact .refl _ _ _
    | true =>
      rw [Chip.attemptCmpFault_posts hf hc]
      have hreq (k : RingId) := c.writeEntry_reqRing 0 true 0xFF 0 (ringFaultNotice (256 + n.val) f) k
      refine ⟨⟨none, ?_⟩, fun k => ⟨(c.reqRing k).fault, hreq k⟩, fun k _ => hreq k⟩
      rw [Chip.setCmpRing_cmpRing_same, c.writeEntry_cmpRing_ne 0 true 0xFF 0 _ hn]

theorem foldl_attemptStopped_posted {n : RingId} (stopped : List RingId) (hn : n ≠ 0) (l : List RingId) (c : Chip) :
    FaultsPosted stopped n c (l.foldl (Chip.attemptStopped stopped n) c) := by
  induction l generalizing c with
  | nil => exact .refl _ _ _
  | cons m l ih =>
    refine FaultsPosted.trans ?_ (ih _)
    have hreq : FaultsPosted stopped n c (if stopped.contains m then c.attemptReqFault m else c) := by
      split
      · rename_i h; exact c.attemptReqFault_posted hn (List.contains_iff_mem.1 h)
      · exact .refl _ _ _
    unfold Chip.attemptStopped
    simp only
    split
    · rename_i h; subst h; exact hreq.trans (Chip.attemptCmpFault_posted _ stopped hn)
    · exact hreq

/-! ### The stop -/

theorem Chip.stopCmpRing_zero {c : Chip} (f : RingFault) (ha : c.ctl.state = .active) :
    c.stopCmpRing 0 f = c.haltedWith .controlRing := Chip.halt_of_active _ ha

theorem Chip.stopCmpRing_of_active {c : Chip} {n : RingId} (f : RingFault) (hn : n ≠ 0) (h : (c.cmpRing n).state = .active) :
    c.stopCmpRing n f = ringIds.foldl (Chip.attemptStopped (c.boundActive n) n) (ringIds.foldl (Chip.stopIfBound n)
      (c.setCmpRing n { c.cmpRing n with state := .stopped, unsignalled := 0, timer := false, fault := some f })) := by
  rw [Chip.stopCmpRing, if_neg hn, if_pos h]

/-- What the rings are after a completion ring has stopped, but for their latches. -/
theorem Chip.stopCmpRing_rings {c : Chip} {n : RingId} (f : RingFault) (hn : n ≠ 0) (h : (c.cmpRing n).state = .active) :
    (∃ g, (c.stopCmpRing n f).cmpRing n =
      { c.cmpRing n with state := .stopped, unsignalled := 0, timer := false, fault := g }) ∧
    (∀ m, (c.reqRing m).state = .active → (c.reqRing m).bound = n →
      ((c.stopCmpRing n f).reqRing m).state = .stopped) ∧
    ∀ m, (c.reqRing m).state ≠ .active ∨ (c.reqRing m).bound ≠ n → (c.stopCmpRing n f).reqRing m = c.reqRing m := by
  rw [Chip.stopCmpRing_of_active f hn h]
  have posted := foldl_attemptStopped_posted (c.boundActive n) hn ringIds (ringIds.foldl (Chip.stopIfBound n)
    (c.setCmpRing n { c.cmpRing n with state := .stopped, unsignalled := 0, timer := false, fault := some f }))
  refine ⟨?_, fun m ha hb => ?_, fun m hm => ?_⟩
  · obtain ⟨g, hg⟩ := posted.cmp
    exact ⟨g, by rw [hg, foldl_stopIfBound_cmpRing, Chip.setCmpRing_cmpRing_same]⟩
  · obtain ⟨g, hg⟩ := posted.req m
    rw [hg, foldl_stopIfBound_reqRing, if_pos ⟨mem_ringIds m, ha, hb⟩]
    rfl
  · have hn' : ¬ ((c.reqRing m).state = .active ∧ (c.reqRing m).bound = n) := fun k => hm.elim (absurd k.1) (absurd k.2)
    rw [posted.others m fun k => hn' ((c.mem_boundActive n m).1 k), foldl_stopIfBound_reqRing, if_neg fun k => hn' k.2]
    rfl

/-! ### CMP_TAKE_WRITE -/

theorem Chip.writeCmpTake_accepted {c : Chip} {n : RingId} {v : Nat} (ha : c.ctl.state = .active)
    (hr : (c.cmpRing n).state = .active) (hv : v < (c.cmpRing n).size) (hs : (c.cmpRing n).advanceTo v ≤ (c.cmpRing n).posted) :
    let d := c.setCmpRing n { c.cmpRing n with take := v, posted := (c.cmpRing n).posted - (c.cmpRing n).advanceTo v }
    c.writeCmpTake n v = if (c.cmpRing n).advanceTo v = 0 then d else d.service n := by
  intro d
  rw [Chip.writeCmpTake, if_pos ⟨c.isActive_iff.2 ha, hr⟩, if_pos ⟨hv, hs⟩]
  by_cases h0 : (c.cmpRing n).advanceTo v = 0
  · rw [if_neg (by omega), if_pos h0]
  · rw [if_pos (by omega), if_neg h0]

theorem Chip.writeCmpTake_outOfRange {c : Chip} {n : RingId} {v : Nat} (ha : c.ctl.state = .active)
    (hr : (c.cmpRing n).state = .active)
    (hv : (c.cmpRing n).size ≤ v ∨ (c.cmpRing n).posted < (c.cmpRing n).advanceTo v) :
    c.writeCmpTake n v = c.stopCmpRing n { detail := 3, posA := (c.cmpRing n).take, posB := v } := by
  rw [Chip.writeCmpTake, if_pos ⟨c.isActive_iff.2 ha, hr⟩, if_neg (by omega)]

theorem Chip.writeCmpTake_ignored {c : Chip} {n : RingId} (v : Nat)
    (h : c.ctl.state ≠ .active ∨ (c.cmpRing n).state ≠ .active) : c.writeCmpTake n v = c :=
  if_neg fun k => h.elim (absurd (c.isActive_iff.1 k.1)) (absurd k.2)

/-- Settles O18, by the state of the ring and the index written. -/
theorem cmpTakeWriteTakesOrStops : Obligations.CmpTakeWriteTakesOrStops := by
  refine ⟨fun c n f => Chip.stopCmpRing_of_active f, fun s n w => ?_⟩
  simp only [exec_cmpTakeWrite]
  refine ⟨fun ha hr hv hs => ?_, fun ha hr hv hn => ?_, fun ha hr hv hn => ?_, fun h => ?_⟩
  · rw [Chip.writeCmpTake_accepted (v := indexValue w) ha hr hv hs]
    rfl
  · rw [Chip.writeCmpTake_outOfRange (v := indexValue w) ha hr hv]
    obtain ⟨⟨g, hcmp⟩, hbound, hothers⟩ :=
      Chip.stopCmpRing_rings { detail := 3, posA := (s.toChip.cmpRing n).take, posB := indexValue w } hn hr
    refine ⟨rfl, _, rfl, ?_, ?_, ?_, ?_, hbound, hothers⟩
    all_goals exact (congrArg _ hcmp).trans rfl
  · subst hn
    rw [Chip.writeCmpTake_outOfRange (v := indexValue w) ha hr hv, Chip.stopCmpRing_zero _ ha]
    rfl
  · rw [Chip.writeCmpTake_ignored _ h]
    rfl

end Sys2Proof.Machine
end

section
/-! Completion entries, the ends of their writes, interrupts and vectors, and the start of a take (R117 to R123, R126, R129, R130). -/

namespace Sys2Proof.Machine

/-! ### The fields of an entry -/

theorem entryFlags_bits (lap notice short damaged : Bool) :
    let x := entryFlags lap notice short damaged
    x.getLsbD 0 = lap ∧ x.getLsbD 1 = notice ∧ x.getLsbD 2 = short ∧ x.getLsbD 3 = damaged ∧ x.extractLsb' 4 4 = 0 := by
  cases lap <;> cases notice <;> cases short <;> cases damaged <;> decide

theorem clamp16_toNat (n : Nat) : (clamp16 n).toNat = min n 65535 := by
  rw [clamp16, BitVec.toNat_ofNat]
  omega

theorem clamp32_toNat (n : Nat) : (clamp32 n).toNat = min n (2 ^ 32 - 1) := by
  rw [clamp32, BitVec.toNat_ofNat, Config.maxCounter]
  omega

/-- Settles O22: an entry is its fields in a row, and a range of its bits is a range of the field it lies in. -/
theorem completionEntryFields : Obligations.CompletionEntryFields := by
  refine ⟨fun x => by cases x <;> rfl, fun x => by cases x <;> rfl, fun lap notice ring take e => ?_⟩
  intro x
  obtain ⟨hlap, hnotice, hshort, hdamaged, hspare⟩ := entryFlags_bits lap notice e.short e.damaged
  have hflags : x.extractLsb' 24 8 = entryFlags lap notice e.short e.damaged := by
    simp (disch := decide) only [x, encodeEntry, BitVec.extractLsb'_append_eq_of_add_le,
      BitVec.extractLsb'_append_eq_of_le, BitVec.extractLsb'_eq_self, Nat.sub_self, Nat.reduceSub]
  have hbit (k : Nat) (hk : k < 8) : x.getLsbD (24 + k) = (entryFlags lap notice e.short e.damaged).getLsbD k := by
    rw [← hflags, BitVec.getLsbD_extractLsb', decide_eq_true hk, Bool.true_and]
  refine ⟨?_, ?_, (hbit 0 (by decide)).trans hlap, (hbit 1 (by decide)).trans hnotice, (hbit 2 (by decide)).trans hshort,
    (hbit 3 (by decide)).trans hdamaged, ?_, ?_, ?_, ?_, ?_, ?_, ?_, ?_, ?_, ?_, ?_⟩
  all_goals
    simp (disch := decide) only [x, encodeEntry, BitVec.extractLsb'_append_eq_of_add_le,
      BitVec.extractLsb'_append_eq_of_le, BitVec.extractLsb'_eq_self, Nat.sub_self, Nat.reduceSub, BitVec.toNat_ofNat,
      clamp16_toNat, clamp32_toNat, hspare]

/-! ### The ends of completion writes -/

theorem exec_completionWriteEnd (s : State) (n : RingId) :
    exec (.completionWriteEnd n.val) s = .next (s.withChip (s.toChip.completionWriteEnd n)) :=
  congrArg (fun c => Host.Outcome.next (s.withChip c)) (s.toChip.onRing_val n _)

theorem HostLink.canSend_iff (l : HostLink) : l.canSend = true ↔ l.up = true ∧ l.access = true := by
  rw [HostLink.canSend, Bool.and_eq_true]

theorem HostLink.cannotSend {l : HostLink} (h : l.up = false ∨ l.access = false) : l.canSend = false := by
  obtain h | h := h
  · rw [HostLink.canSend, h, Bool.false_and]
  · rw [HostLink.canSend, h, Bool.and_false]

section
variable {c : Chip} {n : RingId} {w : CmpWrite} {rest : List CmpWrite}

theorem Chip.completionWriteEnd_none (h : takeWrite n c.link.cmpWrites = none) : c.completionWriteEnd n = c := by
  simp only [Chip.completionWriteEnd, h]

theorem Chip.completionWriteEnd_sent (h : takeWrite n c.link.cmpWrites = some (w, rest)) (hl : c.link.canSend = true) :
    c.completionWriteEnd n =
      { c with link := { c.link with cmpWrites := rest, out := c.link.out ++ [.entry w.addr w.data] } } := by
  simp only [Chip.completionWriteEnd, h, hl, if_true]

theorem Chip.completionWriteEnd_fails (h : takeWrite n c.link.cmpWrites = some (w, rest)) (hl : c.link.canSend = false) :
    c.completionWriteEnd n = ({ c with link := { c.link with cmpWrites := rest } } : Chip).writeFails n w := by
  simp only [Chip.completionWriteEnd, h, hl, Bool.false_eq_true, if_false]

theorem Chip.writeFails_ignored (h : w.live = false ∨ (c.ctl.state ≠ .active ∧ c.ctl.state ≠ .quiescing) ∨
    (n ≠ 0 ∧ (c.cmpRing n).state ≠ .active)) : c.writeFails n w = c := by
  unfold Chip.writeFails
  simp only
  split
  · rename_i hlive
    obtain h | ⟨ha, hq⟩ | ⟨hn, hr⟩ := h
    · exact absurd hlive.1 (Bool.eq_false_iff.1 h)
    · exact absurd hlive.2 (not_or.2 ⟨ha, hq⟩)
    · rw [Chip.stopCmpRing, if_neg hn, if_neg hr]
  · rfl

theorem Chip.writeFails_stops (h : w.live = true) (hs : c.ctl.state = .active ∨ c.ctl.state = .quiescing) :
    c.writeFails n w = c.stopCmpRing n { detail := 4, posA := (c.cmpRing n).put, posB := (c.cmpRing n).take } :=
  if_pos ⟨h, hs⟩

theorem Chip.completionWriteEnd_ignored (h : takeWrite n c.link.cmpWrites = some (w, rest)) (hl : c.link.canSend = false)
    (hw : w.live = false ∨ (c.ctl.state ≠ .active ∧ c.ctl.state ≠ .quiescing) ∨ (n ≠ 0 ∧ (c.cmpRing n).state ≠ .active)) :
    c.completionWriteEnd n = { c with link := { c.link with cmpWrites := rest } } :=
  (Chip.completionWriteEnd_fails h hl).trans (Chip.writeFails_ignored hw)

theorem Chip.completionWriteEnd_stops (h : takeWrite n c.link.cmpWrites = some (w, rest)) (hl : c.link.canSend = false)
    (hw : w.live = true) (hs : c.ctl.state = .active ∨ c.ctl.state = .quiescing) :
    c.completionWriteEnd n = ({ c with link := { c.link with cmpWrites := rest } } : Chip).stopCmpRing n
      { detail := 4, posA := (c.cmpRing n).put, posB := (c.cmpRing n).take } :=
  (Chip.completionWriteEnd_fails h hl).trans (Chip.writeFails_stops hw hs)

end

theorem Chip.halt_of_running {c : Chip} (cause : HaltCause) (h : c.ctl.state = .active ∨ c.ctl.state = .quiescing) :
    c.halt cause = c.haltedWith cause := by
  obtain h | h := h
  · exact Chip.halt_of_active cause h
  · simp only [Chip.halt, h]
    rfl

/-- Settles O23, by the link, the life of the write, and the ring. -/
theorem completionWriteEndSendsOrStops : Obligations.CompletionWriteEndSendsOrStops := by
  refine ⟨fun s n h => ?_, fun s n w before after hwrites hw hbefore => ?_⟩
  · rw [exec_completionWriteEnd, Chip.completionWriteEnd_none (takeWrite_none n _ h)]
    rfl
  · have htake : takeWrite n s.link.cmpWrites = some (w, before ++ after) := by
      rw [hwrites]; exact takeWrite_first n before after w hw hbefore
    simp only [exec_completionWriteEnd]
    refine ⟨fun hl hignored => ?_, fun hl => ?_, fun hl hlive hs => ?_⟩
    · rw [Chip.completionWriteEnd_ignored htake (HostLink.cannotSend hl) hignored]
    · rw [Chip.completionWriteEnd_sent htake ((HostLink.canSend_iff _).2 hl)]
    · rw [Chip.completionWriteEnd_stops htake (HostLink.cannotSend hl) hlive hs]
      refine ⟨fun hn => ?_, fun hn hr => ?_, fun hn hr => ?_⟩
      · subst hn
        rw [Chip.stopCmpRing, if_pos rfl,
          Chip.halt_of_running (c := { s.toChip with link := { s.link with cmpWrites := before ++ after } }) _ hs]
        rfl
      · rw [Chip.stopCmpRing_of_active (c := { s.toChip with link := { s.link with cmpWrites := before ++ after } }) _ hn hr]
        rfl
      · obtain ⟨⟨g, hcmp⟩, hbound, -⟩ := Chip.stopCmpRing_rings
          (c := { s.toChip with link := { s.link with cmpWrites := before ++ after } })
          { detail := 4, posA := (s.toChip.cmpRing n).put, posB := (s.toChip.cmpRing n).take } hn hr
        refine ⟨_, rfl, ?_, ?_, ?_, hbound⟩
        all_goals exact (congrArg _ hcmp).trans rfl

/-! ### Interrupts, vectors and the link -/

theorem exec_coalesceTimerExpiry (s : State) (n : RingId) :
    exec (.coalesceTimerExpiry n.val) s = .next (s.withChip (s.toChip.timerExpiry n)) :=
  congrArg (fun c => Host.Outcome.next (s.withChip c)) (s.toChip.onRing_val n _)

theorem exec_vectorMask (s : State) (n : RingId) :
    exec (.vectorMask n.val) s = .next (s.withChip (s.toChip.maskVector n)) :=
  congrArg (fun c => Host.Outcome.next (s.withChip c)) (s.toChip.onRing_val n _)

theorem exec_vectorUnmask (s : State) (n : RingId) :
    exec (.vectorUnmask n.val) s = .next (s.withChip (s.toChip.unmaskVector n)) :=
  congrArg (fun c => Host.Outcome.next (s.withChip c)) (s.toChip.onRing_val n _)

/-- Settles O24, by the branches of a counted post and of the masks. -/
theorem interruptsVectorsAndLinkInputs : Obligations.InterruptsVectorsAndLinkInputs := by
  refine ⟨fun _ _ _ _ _ _ => rfl, fun c n => ⟨fun hi => ?_, fun hi hb => ?_, fun hi hb => ?_, fun hm => ?_, fun hm => ?_⟩,
    fun s n ht hs => ?_, fun s n up access => ⟨?_, fun hp => ?_, fun hp => ?_, rfl⟩⟩
  · rw [Chip.countPost, hi]
    rfl
  · rw [Chip.countPost, if_pos hi, if_neg hb]
  · rw [Chip.countPost, if_pos hi, if_pos hb]
  · simp only [Chip.raiseInterrupt, Chip.sendMessage, Chip.setCmpRing_link, hm, Bool.false_eq_true, if_false]
  · simp only [Chip.raiseInterrupt, Chip.sendMessage, Chip.setCmpRing_link, hm, if_true]
  · rw [exec_coalesceTimerExpiry, Chip.timerExpiry, if_pos ⟨ht, hs⟩]
  · rw [exec_vectorMask]
    rfl
  · rw [exec_vectorUnmask, Chip.unmaskVector]
    simp only [hp, Bool.false_eq_true, if_false]
  · rw [exec_vectorUnmask, Chip.unmaskVector]
    simp only [hp, if_true]

/-! ### The start of a take -/

theorem leastUnused_spec (table : List Slot) (fuel n : Nat) :
    leastUnused table fuel n ≤ n + fuel ∧ (∀ m, n ≤ m → m < leastUnused table fuel n → ∃ sl ∈ table, sl.id = m) ∧
      (leastUnused table fuel n < n + fuel → ∀ sl ∈ table, sl.id ≠ leastUnused table fuel n) := by
  induction fuel generalizing n with
  | zero => exact ⟨le_rfl, fun m h k => absurd k (by rw [leastUnused]; omega), fun h => absurd h (by rw [leastUnused]; omega)⟩
  | succ fuel ih =>
    rw [leastUnused]
    split
    · rename_i hused
      obtain ⟨hle, hbelow, hfree⟩ := ih (n + 1)
      refine ⟨by omega, fun m h k => ?_, fun h => hfree (by omega)⟩
      obtain rfl | h := Nat.eq_or_lt_of_le h
      · obtain ⟨sl, hsl, hid⟩ := List.any_eq_true.1 hused
        exact ⟨sl, hsl, beq_iff_eq.1 hid⟩
      · exact hbelow m h k
    · rename_i hunused
      exact ⟨by omega, fun m h k => absurd k (by omega), fun _ sl hsl hid =>
        hunused (List.any_eq_true.2 ⟨sl, hsl, beq_iff_eq.2 hid⟩)⟩

/-- The slot a take claims is free: the numbers below the table's length cannot all be used with one more besides. -/
theorem Chip.freshSlot_spec (c : Chip) :
    c.freshSlot ≤ c.rings.table.length ∧ ∀ sl ∈ c.rings.table, sl.id ≠ c.freshSlot := by
  obtain ⟨hle, hbelow, hfree⟩ := leastUnused_spec c.rings.table c.rings.table.length 0
  rw [Nat.zero_add] at hle hfree
  refine ⟨hle, ?_⟩
  obtain hlt | heq := Nat.lt_or_eq_of_le hle
  · exact hfree hlt
  · intro sl hsl hid
    have hall : Finset.range (c.rings.table.length + 1) ⊆ (c.rings.table.map Slot.id).toFinset := by
      intro m hm
      rw [List.mem_toFinset, List.mem_map]
      obtain hm | rfl := Nat.lt_succ_iff_lt_or_eq.1 (Finset.mem_range.1 hm)
      · obtain ⟨x, hx, he⟩ := hbelow m (Nat.zero_le m) (by omega)
        exact ⟨x, hx, he⟩
      · exact ⟨sl, hsl, hid.trans heq⟩
    have hcard := (Finset.card_le_card hall).trans (List.toFinset_card_le _)
    rw [Finset.card_range, List.length_map] at hcard
    omega

theorem Chip.eligible_iff (c : Chip) (n : RingId) :
    c.eligible n = true ↔
      c.ctl.state = .active ∧ (c.reqRing n).state = .active ∧ (c.reqRing n).put ≠ (c.reqRing n).take ∧
      (c.reqRing n).reading = none ∧ (if n = 0 then 1 else 2) + c.rings.table.length ≤ 2048 ∧
      (c.cmpRing (c.reqRing n).bound).state = .active ∧
      (c.cmpRing (c.reqRing n).bound).posted + (c.cmpRing (c.reqRing n).bound).reserved + 1 <
        (c.cmpRing (c.reqRing n).bound).size := by
  simp only [Chip.eligible, Bool.and_eq_true, beq_iff_eq, bne_iff_ne, decide_eq_true_eq, Option.isNone_iff_eq_none,
    c.isActive_iff, and_assoc]
  refine and_congr_right fun _ => and_congr_right fun _ => and_congr_right fun _ => and_congr_right fun _ =>
    and_congr ?_ (and_congr_right fun _ => ?_)
  · simp only [Chip.tableFree, Config.tableSlots]
    split <;> omega
  · simp only [CompletionRing.freeSlots]
    omega

theorem Chip.selectRing_eq {c : Chip} {n : RingId} (h : c.eligible n = true)
    (hio : n ≠ 0 → c.eligible 0 = false ∧ (ringsAfter c.rings.ioPtr).find? c.eligible = some n) :
    c.selectRing = some n := by
  unfold Chip.selectRing
  by_cases hn : n = 0
  · subst hn; rw [if_pos h]
  · obtain ⟨h0, hfind⟩ := hio hn
    rw [if_neg (Bool.eq_false_iff.1 h0), hfind]

theorem exec_ringTakeStart {s : State} {n : RingId} (h : s.toChip.selectRing = some n) :
    exec .ringTakeStart s = .next (s.withChip (s.toChip.startTake n)) :=
  congrArg (fun c => Host.Outcome.next (s.withChip c))
    (by rw [h] : (match s.toChip.selectRing with | none => s.toChip | some n => s.toChip.startTake n) = s.toChip.startTake n)

/-- Settles O19, from the definition of a take's start and `freshSlot_spec`. -/
theorem ringTakeStartClaimsAndReserves : Obligations.RingTakeStartClaimsAndReserves := by
  refine ⟨Chip.eligible_iff, fun s n h hio => ?_⟩
  obtain ⟨-, -, -, -, htable, -⟩ := (s.toChip.eligible_iff n).1 h
  obtain ⟨hle, hfresh⟩ := s.toChip.freshSlot_spec
  have hroom : s.toChip.freshSlot < 2048 := by split at htable <;> omega
  refine ⟨s.withChip (s.toChip.startTake n), s.toChip.freshSlot, exec_ringTakeStart (Chip.selectRing_eq h hio), hroom, hfresh,
    ?_, rfl, ?_, ?_, ?_, rfl, rfl, rfl⟩
  all_goals
    simp only [State.withChip, Chip.startTake, Chip.setCmpRing_reqRing, Chip.setReqRing_reqRing_same,
      Chip.setCmpRing_cmpRing_same, Chip.setReqRing_cmpRing]
  · rfl
  · rfl

end Sys2Proof.Machine
end

section
/-! What posting leaves of the rings; completions handed over (R126); request entries, their owners, and the ends of their
reads (R123, R125). -/

namespace Sys2Proof.Machine

/-! ### Rings under posts -/

/-- Posts of notices: the request table and every reservation stay, and of a request ring its latch alone changes. -/
structure OnlyPosts (c t : Chip) : Prop where
  table : t.rings.table = c.rings.table
  req : ∀ m, ∃ f, t.reqRing m = { c.reqRing m with fault := f }
  reserved : ∀ m, (t.cmpRing m).reserved = (c.cmpRing m).reserved

theorem OnlyPosts.refl (c : Chip) : OnlyPosts c c := ⟨rfl, fun _ => ⟨_, rfl⟩, fun _ => rfl⟩

theorem OnlyPosts.trans {a b c : Chip} (h : OnlyPosts a b) (k : OnlyPosts b c) : OnlyPosts a c := by
  refine ⟨k.table.trans h.table, fun m => ?_, fun m => (k.reserved m).trans (h.reserved m)⟩
  obtain ⟨f, hf⟩ := h.req m
  obtain ⟨g, hg⟩ := k.req m
  exact ⟨g, by rw [hg, hf]⟩

theorem foldl_onlyPosts {α : Type} {f : Chip → α → Chip} (h : ∀ c a, OnlyPosts c (f c a)) (l : List α) (c : Chip) :
    OnlyPosts c (l.foldl f c) := by
  induction l generalizing c with
  | nil => exact .refl c
  | cons a l ih => exact (h c a).trans (ih _)

theorem OnlyPosts.of_same {c t : Chip} (hr : t.rings = c.rings) : OnlyPosts c t where
  table := by rw [hr]
  req m := ⟨(c.reqRing m).fault, by simp only [Chip.reqRing, hr]⟩
  reserved m := by simp only [Chip.cmpRing, hr]

theorem Chip.writeEntry_reserved (c : Chip) (n m : RingId) (notice : Bool) (ring : BitVec 8) (take : Nat) (e : Completion) :
    ((c.writeEntry n notice ring take e).cmpRing m).reserved = (c.cmpRing m).reserved := by
  by_cases h : m = n
  · subst h
    obtain ⟨u, b, hr⟩ := c.writeEntry_cmpRing_same m notice ring take e
    rw [hr]
    rfl
  · rw [c.writeEntry_cmpRing_ne n notice ring take e h]

theorem Chip.writeEntry_posts (c : Chip) (n : RingId) (notice : Bool) (ring : BitVec 8) (take : Nat) (e : Completion) :
    OnlyPosts c (c.writeEntry n notice ring take e) :=
  ⟨c.writeEntry_table n notice ring take e, fun m => ⟨_, c.writeEntry_reqRing n notice ring take e m⟩,
    fun m => c.writeEntry_reserved n m notice ring take e⟩

theorem Chip.setReqRing_posts (c : Chip) (n : RingId) (f : Option RingFault) :
    OnlyPosts c (c.setReqRing n { c.reqRing n with fault := f }) := by
  refine ⟨rfl, fun m => ?_, fun _ => rfl⟩
  rw [Chip.setReqRing_reqRing]
  split
  · rename_i h; subst h; exact ⟨f, rfl⟩
  · exact ⟨_, rfl⟩

theorem Chip.setCmpRing_posts (c : Chip) (n : RingId) {r : CompletionRing} (h : r.reserved = (c.cmpRing n).reserved) :
    OnlyPosts c (c.setCmpRing n r) := by
  refine ⟨rfl, fun m => ⟨_, rfl⟩, fun m => ?_⟩
  rw [Chip.setCmpRing_cmpRing]
  split
  · rename_i hm; subst hm; exact h
  · rfl

theorem Chip.attemptReqFault_posts_only (c : Chip) (n : RingId) : OnlyPosts c (c.attemptReqFault n) := by
  unfold Chip.attemptReqFault
  split
  · exact .refl c
  · split
    · exact (c.writeEntry_posts 0 true 0xFF 0 _).trans (Chip.setReqRing_posts _ n none)
    · exact .refl c

theorem Chip.attemptCmpFault_posts_only (c : Chip) (n : RingId) : OnlyPosts c (c.attemptCmpFault n) := by
  unfold Chip.attemptCmpFault
  split
  · exact .refl c
  · split
    · exact (c.writeEntry_posts 0 true 0xFF 0 _).trans (Chip.setCmpRing_posts _ n rfl)
    · exact .refl c

theorem Chip.modStream_posts (c : Chip) (i : StreamId) (f : StreamEntry → StreamEntry) : OnlyPosts c (c.modStream i f) :=
  .of_same rfl

theorem Chip.postFault_posts_only (c : Chip) (i : StreamId) (n : RingId) : OnlyPosts c (c.postFault i n) := by
  unfold Chip.postFault
  split
  · exact .refl c
  · split
    · exact (c.writeEntry_posts n true 0xFF 0 _).trans (Chip.modStream_posts _ i _)
    · exact .refl c

theorem Chip.postOccupancy_posts_only (c : Chip) (i : StreamId) (n : RingId) : OnlyPosts c (c.postOccupancy i n) := by
  unfold Chip.postOccupancy
  split
  · exact .refl c
  · split
    · exact (c.writeEntry_posts n true 0xFF 0 _).trans (Chip.modStream_posts _ i _)
    · exact .refl c

theorem Chip.postReady_posts_only (c : Chip) (i : StreamId) (n : RingId) : OnlyPosts c (c.postReady i n) := by
  unfold Chip.postReady
  split
  · exact (c.writeEntry_posts n true 0xFF 0 _).trans (Chip.modStream_posts _ i _)
  · exact .refl c

theorem Chip.attempt_posts (c : Chip) (i : StreamId) : OnlyPosts c (c.attempt i) := by
  unfold Chip.attempt
  split
  · exact .refl c
  · rename_i n _
    exact ((c.postFault_posts_only i n).trans (Chip.postOccupancy_posts_only _ i n)).trans
      (Chip.postReady_posts_only _ i n)

theorem Chip.serveStream_posts (n : RingId) (c : Chip) (i : StreamId) : OnlyPosts c (Chip.serveStream n c i) := by
  unfold Chip.serveStream
  split
  · exact (c.attempt_posts i).trans (Chip.setCmpRing_posts _ n rfl)
  · exact .refl c

theorem Chip.service_posts (c : Chip) (n : RingId) : OnlyPosts c (c.service n) := by
  unfold Chip.service
  simp only
  refine OnlyPosts.trans ?_ (foldl_onlyPosts (Chip.serveStream_posts n) _ _)
  split
  · exact foldl_onlyPosts (fun c m => (c.attemptReqFault_posts_only m).trans (Chip.attemptCmpFault_posts_only _ m)) _ c
  · exact .refl c

end Sys2Proof.Machine
end
section
/-! Completions handed over: written to an ACTIVE ring, dropped at a STOPPED one (R126, R136). -/

namespace Sys2Proof.Machine

/-! ### A completion handed over -/

section
variable {c : Chip} {id : Nat} {sl : Slot}

/-- The slot of a completion handed over is freed, and its ring's outstanding count falls (R126). -/
def Chip.slotReturned (c : Chip) (id : Nat) (n : RingId) : Chip :=
  (c.freeSlot id).setReqRing n { c.reqRing n with outstanding := (c.reqRing n).outstanding - 1 }

/-- One reservation of completion ring `n` given up. -/
def Chip.unreserved (c : Chip) (n : RingId) : Chip :=
  c.setCmpRing n { c.cmpRing n with reserved := (c.cmpRing n).reserved - 1 }

theorem Chip.post_inactive (e : Completion) (hs : c.slot? id = some sl) (ha : c.isActive = false) :
    c.post id e = c.setPhase id .posting := by
  simp only [Chip.post, hs, ha, Bool.false_eq_true, if_false]

theorem Chip.post_written (e : Completion) (hs : c.slot? id = some sl) (ha : c.isActive = true)
    (hr : (c.cmpRing (c.reqRing sl.ring).bound).state = .active) :
    c.post id e = ((c.unreserved (c.reqRing sl.ring).bound).writeEntry (c.reqRing sl.ring).bound false
      (BitVec.ofNat 8 sl.ring.val) (c.reqRing sl.ring).take e).slotReturned id sl.ring := by
  have hr' : ((c.setCmpRing (c.reqRing sl.ring).bound { c.cmpRing (c.reqRing sl.ring).bound with
      reserved := (c.cmpRing (c.reqRing sl.ring).bound).reserved - 1 }).cmpRing (c.reqRing sl.ring).bound).state = .active := by
    rw [Chip.setCmpRing_cmpRing_same]; exact hr
  simp only [Chip.post, hs, ha, if_true, if_pos hr']
  rfl

theorem Chip.post_dropped (e : Completion) (hs : c.slot? id = some sl) (ha : c.isActive = true)
    (hr : (c.cmpRing (c.reqRing sl.ring).bound).state ≠ .active) :
    c.post id e = (c.unreserved (c.reqRing sl.ring).bound).slotReturned id sl.ring := by
  have hr' : ((c.setCmpRing (c.reqRing sl.ring).bound { c.cmpRing (c.reqRing sl.ring).bound with
      reserved := (c.cmpRing (c.reqRing sl.ring).bound).reserved - 1 }).cmpRing (c.reqRing sl.ring).bound).state ≠ .active := by
    rw [Chip.setCmpRing_cmpRing_same]; exact hr
  simp only [Chip.post, hs, ha, if_true, if_neg hr']
  rfl

theorem Chip.complete_eq (e : Completion) (hs : c.slot? id = some sl) : c.complete id e = (c.post id e).drainCheck sl.ring := by
  simp only [Chip.complete, hs]

theorem Chip.answer_eq {q : Request} (f : Request → Completion) (hs : c.slot? id = some sl) (hq : sl.request = some q) :
    c.answer id f = c.complete id (f q) := by
  simp only [Chip.answer, hs, hq]

theorem Chip.cancelInstead_eq {q : Request} (hs : c.slot? id = some sl) (hq : sl.request = some q) :
    c.cancelInstead id =
      (c.setReqRing sl.ring { c.reqRing sl.ring with cancelled := (c.reqRing sl.ring).cancelled + 1 }).complete id
        { code := Status.cancelled.code, commandId := q.commandId, streamId := q.streamId } := by
  simp only [Chip.cancelInstead, hs]
  exact Chip.answer_eq _ hs hq

/-- What a completion handed over in ACTIVE changes, whether it is written or dropped. -/
theorem Chip.post_counts (e : Completion) (hs : c.slot? id = some sl) (ha : c.isActive = true) :
    ((c.post id e).cmpRing (c.reqRing sl.ring).bound).reserved =
        (c.cmpRing (c.reqRing sl.ring).bound).reserved - 1 ∧
      ((c.post id e).reqRing sl.ring).outstanding = (c.reqRing sl.ring).outstanding - 1 ∧
      (c.post id e).rings.table = c.rings.table.filter fun x => x.id != id := by
  have hreserved : ((c.unreserved (c.reqRing sl.ring).bound).cmpRing (c.reqRing sl.ring).bound).reserved =
      (c.cmpRing (c.reqRing sl.ring).bound).reserved - 1 :=
    congrArg CompletionRing.reserved (Chip.setCmpRing_cmpRing_same c _ _)
  by_cases hr : (c.cmpRing (c.reqRing sl.ring).bound).state = .active
  · rw [Chip.post_written e hs ha hr]
    refine ⟨(Chip.writeEntry_reserved _ _ _ _ _ _ _).trans hreserved, ?_, ?_⟩
    · rw [Chip.slotReturned, Chip.setReqRing_reqRing_same, Chip.writeEntry_reqRing]
      rfl
    · exact congrArg (List.filter fun x => x.id != id) (Chip.writeEntry_table _ _ _ _ _ _)
  · rw [Chip.post_dropped e hs ha hr]
    refine ⟨hreserved, ?_, rfl⟩
    rw [Chip.slotReturned, Chip.setReqRing_reqRing_same]
    rfl

end

/-- Settles O21: a completion goes through `post`, which writes it or drops it. -/
theorem completionIsWrittenOrDropped : Obligations.CompletionIsWrittenOrDropped := by
  refine ⟨fun c id sl e hs => ⟨Chip.post_inactive e hs, Chip.complete_eq e hs, fun q hq =>
    ⟨fun f => Chip.answer_eq f hs hq, fun status => Chip.answer_eq _ hs hq, Chip.cancelInstead_eq hs hq⟩⟩,
    fun _ _ _ => rfl, fun c id sl e ha hs => ?_⟩
  obtain ⟨hreserved, houtstanding, htable⟩ := Chip.post_counts e hs ha
  refine ⟨fun hr => ?_, fun hr => ?_, hreserved, houtstanding, htable, c.post_rings id e⟩
  · obtain ⟨u, b, hw⟩ := (c.unreserved (c.reqRing sl.ring).bound).writeEntry_cmpRing_same (c.reqRing sl.ring).bound false
      (BitVec.ofNat 8 sl.ring.val) (c.reqRing sl.ring).take e
    have hring : (c.unreserved (c.reqRing sl.ring).bound).cmpRing (c.reqRing sl.ring).bound =
        { c.cmpRing (c.reqRing sl.ring).bound with
          reserved := (c.cmpRing (c.reqRing sl.ring).bound).reserved - 1 } := Chip.setCmpRing_cmpRing_same c _ _
    rw [hring] at hw
    rw [Chip.post_written e hs ha hr]
    refine ⟨?_, ?_, (congrArg CompletionRing.put hw).trans rfl, (congrArg CompletionRing.lap hw).trans rfl,
      (congrArg CompletionRing.posted hw).trans rfl⟩
    · rw [Chip.slotReturned, Chip.writeEntry_reqRing]
      rfl
    · refine (Chip.writeEntry_cmpWrites _ _ _ _ _ _).trans ?_
      rw [hring]
      rfl
  · rw [Chip.post_dropped e hs ha (by rw [hr]; exact CmpState.noConfusion)]
    exact ⟨rfl, rfl, Chip.setCmpRing_cmpRing_same c _ _⟩

end Sys2Proof.Machine
end

section
/-! Request entries: their layout by kind, the owner each kind is handed to, the request an owner serves, and the ends of entry
reads (R117, R123, R125). -/

namespace Sys2Proof.Machine

/-! ### Layout -/

theorem usedSegments_eq (l : List Segment) : usedSegments l = l.takeWhile fun x => x.len != 0 := by
  induction l with
  | nil => rfl
  | cons x l ih =>
    by_cases h : x.len = 0
    · rw [usedSegments, if_pos h, List.takeWhile_cons_of_neg (by simpa using h)]
    · rw [usedSegments, if_neg h, List.takeWhile_cons_of_pos (by simpa using h), ih]

theorem sourceOf_eq (e : Entry) : sourceOf e =
    if e.getLsbD 8 then .indirect (e.extractLsb' 128 64) (field e 24 2)
    else .direct ([descriptorAt e 16, descriptorAt e 32, descriptorAt e 48].takeWhile fun x => x.len != 0) := by
  rw [sourceOf, usedSegments_eq]

/-- The body of an entry, its kind given. -/
theorem bodyOf_of_kind {e : Entry} {kind : Nat} (h : field e 0 1 = kind) : bodyOf e =
    if kind = 0x01 then some (.append (field e 8 2) (e.extractLsb' 80 32) (sourceOf e))
    else if kind = 0x02 then some (.fetch (field e 8 2) (field e 10 2) (sourceOf e))
    else if kind = 0x03 then some .mark
    else if kind = 0x04 then some (.rewind (variantOf e) (field e 8 6))
    else if kind = 0x05 then some (.release (variantOf e) (field e 8 6))
    else if kind = 0x10 then some (.describe (descriptorAt e 16))
    else if kind = 0x11 then some (.ringCreate (ringBlockOf e))
    else if kind = 0x12 then some (.ringDelete (ringBlockOf e))
    else if kind = 0x13 then some (.streamOpen (settingsOf e))
    else if kind = 0x14 then some (.streamSet (settingsOf e))
    else if kind = 0x15 then some .streamFlush
    else if kind = 0x16 then some .streamClose
    else if kind = 0x17 then some (.streamResume (field e 8 1))
    else if kind = 0x18 then some (.streamReport (descriptorAt e 16))
    else if kind = 0x19 then some (.poolReport (descriptorAt e 16))
    else if kind = 0x1A then some (.cancel (field e 8 1) (e.extractLsb' 80 16))
    else none := by
  subst h
  rfl

/-- A code that names no kind. -/
theorem bodyOf_unnamed {e : Entry} (h : field e 0 1 = 0 ∨ (5 < field e 0 1 ∧ field e 0 1 < 16) ∨ 26 < field e 0 1) :
    bodyOf e = none := by
  rw [bodyOf_of_kind rfl]
  iterate 16 rw [if_neg (by omega)]

/-! ### Owners -/

theorem Chip.ownedBy_eq_some {c : Chip} {o : Owner} {id : Nat} {r : Nat × Request} :
    c.ownedBy o id = some r ↔
      r.1 = id ∧ r.2.body.owner = o ∧ ∃ sl, c.slot? id = some sl ∧ sl.request = some r.2 := by
  unfold Chip.ownedBy
  cases hs : c.slot? id with
  | none => simp
  | some sl =>
    cases hq : sl.request with
    | none => simp [hq]
    | some q =>
      obtain ⟨x, y⟩ := r
      by_cases ho : q.body.owner = o
      · simp only [ho, if_true, Option.some.injEq, Prod.mk.injEq, exists_eq_left', hq]
        constructor
        · rintro ⟨rfl, rfl⟩; exact ⟨rfl, ho, rfl⟩
        · rintro ⟨rfl, -, rfl⟩; exact ⟨rfl, rfl⟩
      · simp only [ho, if_false, reduceCtorEq, false_iff, Option.some.injEq, exists_eq_left', hq]
        rintro ⟨-, hy, rfl⟩
        exact ho hy

theorem Chip.ownedBy_eq_none {c : Chip} {o : Owner} {id : Nat} :
    c.ownedBy o id = none ↔
      ∀ q : Request, ¬ (q.body.owner = o ∧ ∃ sl, c.slot? id = some sl ∧ sl.request = some q) := by
  rw [Option.eq_none_iff_forall_not_mem]
  constructor
  · exact fun h q hq => h (id, q) (Chip.ownedBy_eq_some.2 ⟨rfl, hq⟩)
  · exact fun h r hr => h r.2 (Chip.ownedBy_eq_some.1 hr).2

/-- The request an owner serves is the first it owns in the order of arrival. -/
theorem Chip.current_eq_some {c : Chip} {o : Owner} {id : Nat} {q : Request} :
    c.current o = some (id, q) ↔
      (q.body.owner = o ∧ ∃ sl, c.slot? id = some sl ∧ sl.request = some q) ∧
        ∃ before after, c.rings.arrived = before ++ id :: after ∧ ∀ x ∈ before, c.ownedBy o x = none := by
  rw [Chip.current, List.findSome?_eq_some_iff]
  constructor
  · rintro ⟨before, a, after, harrived, ha, hbefore⟩
    obtain ⟨rfl, howned⟩ := Chip.ownedBy_eq_some.1 ha
    exact ⟨howned, before, after, harrived, hbefore⟩
  · rintro ⟨howned, before, after, harrived, hbefore⟩
    exact ⟨before, id, after, harrived, Chip.ownedBy_eq_some.2 ⟨rfl, howned⟩, hbefore⟩

theorem Chip.current_eq_none {c : Chip} {o : Owner} :
    c.current o = none ↔ ∀ id ∈ c.rings.arrived, c.ownedBy o id = none := by
  rw [Chip.current, List.findSome?_eq_none_iff]

theorem filter_middle {α : Type} {p : α → Bool} {before after : List α} {a : α} (hb : ∀ x ∈ before, p x = true)
    (ha : p a = false) (hafter : ∀ x ∈ after, p x = true) : (before ++ a :: after).filter p = before ++ after := by
  rw [List.filter_append, List.filter_cons_of_neg (Bool.eq_false_iff.1 ha), List.filter_eq_self.2 hb,
    List.filter_eq_self.2 hafter]

/-! ### The end of an entry read -/

theorem exec_entryReadEnd (s : State) (n : RingId) (r : EntryRead) :
    exec (.entryReadEnd n.val r) s = .next (s.withChip (s.toChip.entryReadEnd n r)) :=
  congrArg (fun c => Host.Outcome.next (s.withChip c)) (s.toChip.onRing_val n _)

section
variable {c : Chip} {n : RingId} {f : EntryFetch}

theorem Chip.entryReadEnd_active (res : EntryRead) (hf : (c.reqRing n).reading = some f) (ha : c.ctl.state = .active) :
    c.entryReadEnd n res = c.entryEnds n f.slot res := by
  simp only [Chip.entryReadEnd, hf, ha]

theorem Chip.entryReadEnd_quiescing (res : EntryRead) (hf : (c.reqRing n).reading = some f) (ha : c.ctl.state = .quiescing) :
    c.entryReadEnd n res = c.entryDiscarded n f.slot := by
  simp only [Chip.entryReadEnd, hf, ha]

theorem Chip.entryReadEnd_halted (res : EntryRead) (ha : c.ctl.state = .halted) : c.entryReadEnd n res = c := by
  unfold Chip.entryReadEnd
  split
  · rfl
  · simp only [ha]

theorem Chip.entryEnds_data {id : Nat} (e : Entry) (hr : (c.reqRing n).state = .active) :
    c.entryEnds n id (.data e) = (c.takeEntry n).decodeEntry n id e := if_pos hr

theorem Chip.entryEnds_failed {id : Nat} {res : EntryRead} (hr : (c.reqRing n).state = .active)
    (h : res = .error ∨ res = .timeout) : c.entryEnds n id res = c.entryError n id := by
  obtain rfl | rfl := h
  · exact if_pos hr
  · exact if_pos hr

theorem Chip.entryEnds_stopped {id : Nat} (res : EntryRead) (hr : (c.reqRing n).state ≠ .active) :
    c.entryEnds n id res = ((c.undoTake n id).releaseReservation (c.reqRing n).bound).drainCheck n := if_neg hr

theorem Chip.decodeEntry_unnamed {id : Nat} {e : Entry} (h : bodyOf e = none) :
    c.decodeEntry n id e = c.complete id (decodeRefusal e .badKind) := by
  simp only [Chip.decodeEntry, h]

theorem Chip.decodeEntry_wrongRing {id : Nat} {e : Entry} {b : Body} (h : bodyOf e = some b) (hb : b.isIO = (n == 0)) :
    c.decodeEntry n id e = c.complete id (decodeRefusal e .wrongRing) := by
  have hvalid : b.validOn n = false := by
    rw [Body.validOn, hb]
    cases hn : n == 0 <;> simp_all
  simp only [Chip.decodeEntry, h, hvalid, Bool.false_eq_true, if_false]

theorem Chip.decodeEntry_handed {id : Nat} {e : Entry} {b : Body} (h : bodyOf e = some b) (hb : b.isIO = (n != 0)) :
    c.decodeEntry n id e = c.handOver id (requestOf e b) := by
  have hvalid : b.validOn n = true := by rw [Body.validOn, hb, beq_self_eq_true]
  simp only [Chip.decodeEntry, h, hvalid, if_true]

theorem Chip.entryError_zero {id : Nat} (ha : c.ctl.state = .active) : c.entryError 0 id = c.haltedWith .controlRing :=
  Chip.halt_of_active _ ha

/-- The take undone and its reservation released, of which the notices that now fit are the sole further effect. -/
theorem Chip.undoTake_released (id : Nat) (b : RingId) :
    (c.undoTake n id).releaseReservation b = (((c.freeSlot id).setReqRing n
      { c.reqRing n with reading := none, outstanding := (c.reqRing n).outstanding - 1 }).setCmpRing b
        { c.cmpRing b with reserved := (c.cmpRing b).reserved - 1 }).service b := rfl

/-- What is left of the rings when a take is undone and its reservation released. -/
theorem Chip.released_rings (id : Nat) :
    (∃ g, ((c.undoTake n id).releaseReservation (c.reqRing n).bound).reqRing n =
        { c.reqRing n with reading := none, outstanding := (c.reqRing n).outstanding - 1, fault := g }) ∧
      ((c.undoTake n id).releaseReservation (c.reqRing n).bound).rings.table =
        c.rings.table.filter (fun sl => sl.id != id) ∧
      (((c.undoTake n id).releaseReservation (c.reqRing n).bound).cmpRing (c.reqRing n).bound).reserved =
        (c.cmpRing (c.reqRing n).bound).reserved - 1 := by
  rw [Chip.undoTake_released]
  have hposts := Chip.service_posts (((c.freeSlot id).setReqRing n
    { c.reqRing n with reading := none, outstanding := (c.reqRing n).outstanding - 1 }).setCmpRing (c.reqRing n).bound
      { c.cmpRing (c.reqRing n).bound with reserved := (c.cmpRing (c.reqRing n).bound).reserved - 1 }) (c.reqRing n).bound
  obtain ⟨g, hg⟩ := hposts.req n
  refine ⟨⟨g, hg.trans ?_⟩, ?_, ?_⟩
  · rw [Chip.setCmpRing_reqRing, Chip.setReqRing_reqRing_same]
  · rw [hposts.table]
    rfl
  · rw [hposts.reserved, Chip.setCmpRing_cmpRing_same]

/-- An entry read that fails on an ACTIVE I/O ring: the take is undone and the ring stops. -/
theorem Chip.entryError_stops {id : Nat} (hn : n ≠ 0) (hr : (c.reqRing n).state = .active) :
    c.entryError n id = (((c.undoTake n id).releaseReservation (c.reqRing n).bound).setReqRing n
      { c.reqRing n with
        state := .stopped, reading := none, outstanding := (c.reqRing n).outstanding - 1
        fault := some { detail := 1, posA := (c.reqRing n).take, posB := (c.reqRing n).put } }).attemptReqFault n := by
  obtain ⟨⟨g, hg⟩, -, -⟩ := Chip.released_rings (c := c) (n := n) id
  have hactive : (((c.undoTake n id).releaseReservation (c.reqRing n).bound).reqRing n).state = .active := by
    rw [hg]; exact hr
  rw [Chip.entryError, if_neg hn, Chip.stopReqRing_of_active _ hn hactive, Chip.markReqStopped, hg]

/-- The rings after a failed entry read, whether the RING_FAULT notice was posted or not. -/
theorem Chip.entryError_rings {id : Nat} (hn : n ≠ 0) (hr : (c.reqRing n).state = .active) :
    (∃ g, (c.entryError n id).reqRing n =
        { c.reqRing n with
          state := .stopped, reading := none, outstanding := (c.reqRing n).outstanding - 1, fault := g }) ∧
      (c.entryError n id).rings.table = c.rings.table.filter (fun sl => sl.id != id) ∧
      ((c.entryError n id).cmpRing (c.reqRing n).bound).reserved = (c.cmpRing (c.reqRing n).bound).reserved - 1 := by
  obtain ⟨-, htable, hreserved⟩ := Chip.released_rings (c := c) (n := n) id
  rw [Chip.entryError_stops hn hr]
  have hposts := Chip.attemptReqFault_posts_only (((c.undoTake n id).releaseReservation (c.reqRing n).bound).setReqRing n
    { c.reqRing n with
      state := .stopped, reading := none, outstanding := (c.reqRing n).outstanding - 1
      fault := some { detail := 1, posA := (c.reqRing n).take, posB := (c.reqRing n).put } }) n
  obtain ⟨g, hg⟩ := hposts.req n
  refine ⟨⟨g, hg.trans ?_⟩, ?_, ?_⟩
  · rw [Chip.setReqRing_reqRing_same]
  · rw [hposts.table, Chip.setReqRing_table, htable]
  · rw [hposts.reserved, Chip.setReqRing_cmpRing, hreserved]

end

/-- Settles O20, by the kind of the entry, the order of arrival, and the outcome of the read. -/
theorem entryReadEndTakesOrDiscards : Obligations.EntryReadEndTakesOrDiscards := by
  refine ⟨fun e => ?_, fun b => by cases b <;> rfl, fun c o => ⟨fun id q => ?_, ?_⟩, fun s u id =>
    ⟨rfl, fun before after harrived hb ha => ?_⟩, fun s n f ha hf hr => ?_, fun s n f res hf => ?_⟩
  · refine ⟨fun h => ?_, fun h => ?_, fun h => bodyOf_of_kind h, fun h => bodyOf_of_kind h, fun h => bodyOf_of_kind h,
      fun h => bodyOf_of_kind h, fun h => bodyOf_of_kind h, fun h => bodyOf_of_kind h, fun h => bodyOf_of_kind h,
      fun h => bodyOf_of_kind h, fun h => bodyOf_of_kind h, fun h => bodyOf_of_kind h, fun h => bodyOf_of_kind h,
      fun h => bodyOf_of_kind h, fun h => bodyOf_of_kind h, fun h => bodyOf_of_kind h, bodyOf_unnamed⟩
    · rw [bodyOf_of_kind h, sourceOf_eq]
      rfl
    · rw [bodyOf_of_kind h, sourceOf_eq]
      rfl
  · rw [Chip.current_eq_some]
    simp only [Chip.ownedBy_eq_none]
  · rw [Chip.current_eq_none]
    simp only [Chip.ownedBy_eq_none]
  · exact (congrArg (List.filter fun x => x != id) harrived).trans (filter_middle
      (fun x hx => bne_iff_ne.2 fun e => hb (e ▸ hx)) (bne_self_eq_false id) fun x hx => bne_iff_ne.2 fun e => ha (e ▸ hx))
  · refine ⟨fun e he => ?_, fun e b he hb => ?_, fun e b he hb => ?_, fun res hres => ⟨fun hn => ?_, fun hn => ?_, fun hn => ?_⟩⟩
    · rw [exec_entryReadEnd, Chip.entryReadEnd_active _ hf ha, Chip.entryEnds_data e hr, Chip.decodeEntry_unnamed he]
      rfl
    · rw [exec_entryReadEnd, Chip.entryReadEnd_active _ hf ha, Chip.entryEnds_data e hr, Chip.decodeEntry_wrongRing he hb]
      rfl
    · rw [exec_entryReadEnd, Chip.entryReadEnd_active _ hf ha, Chip.entryEnds_data e hr, Chip.decodeEntry_handed he hb]
      rfl
    · subst hn
      rw [exec_entryReadEnd, Chip.entryReadEnd_active _ hf ha, Chip.entryEnds_failed hr hres, Chip.entryError_zero ha]
      rfl
    · rw [exec_entryReadEnd, Chip.entryReadEnd_active _ hf ha, Chip.entryEnds_failed hr hres, Chip.entryError_stops hn hr]
      rfl
    · obtain ⟨⟨g, hg⟩, htable, hreserved⟩ := Chip.entryError_rings (c := s.toChip) (n := n) (id := f.slot) hn hr
      rw [exec_entryReadEnd, Chip.entryReadEnd_active _ hf ha, Chip.entryEnds_failed hr hres]
      refine ⟨_, rfl, ?_, ?_, ?_, ?_, htable, hreserved⟩
      all_goals exact (congrArg _ hg).trans rfl
  · refine ⟨fun ha hr => ?_, fun hq => ?_, fun hh => ?_⟩
    · rw [exec_entryReadEnd, Chip.entryReadEnd_active _ hf ha, Chip.entryEnds_stopped _ hr]
      rfl
    · rw [exec_entryReadEnd, Chip.entryReadEnd_quiescing _ hf hq]
      rfl
    · rw [exec_entryReadEnd, Chip.entryReadEnd_halted _ hh]
      rfl

end Sys2Proof.Machine
end

section
/-! Checked reads, stored headers and links (R87, R155, R156), and the writes of a record's payload (R147, R153). -/

namespace Sys2Proof.Machine

/-! ### Checked reads -/

theorem BufferMemory.check_single {m : BufferMemory} {w : Nat} (h : sparseGet m.marks w = some .single) :
    m.check w =
      ({ m with marks := sparsePut m.marks w none, corrected := countUp m.corrected }, some (m.word w)) := by
  simp only [BufferMemory.check, h]

theorem BufferMemory.check_multi {m : BufferMemory} {w : Nat} (h : sparseGet m.marks w = some .multi) :
    m.check w = (m, none) := by
  simp only [BufferMemory.check, h]

section
variable {m : BufferMemory} {usable p : Nat} {owner : Option StreamId}

theorem BufferMemory.follow_unread (h : (m.check (linkWord usable p)).2 = none) :
    m.follow usable p owner = ((m.check (linkWord usable p)).1, .error) := by
  simp only [BufferMemory.follow, h]

theorem BufferMemory.follow_fin {v : DWord} (h : (m.check (linkWord usable p)).2 = some v) (hv : linkNext v = linkNone) :
    m.follow usable p owner = ((m.check (linkWord usable p)).1, .fin) := by
  simp only [BufferMemory.follow, h, hv, if_true]

theorem BufferMemory.follow_beyond {v : DWord} (h : (m.check (linkWord usable p)).2 = some v) (hv : linkNext v ≠ linkNone)
    (hu : usable ≤ linkNext v) : m.follow usable p owner = ((m.check (linkWord usable p)).1, .error) := by
  simp only [BufferMemory.follow, h, if_neg hv, if_pos hu]

/-- A link to a usable page is judged by that page's owner. -/
theorem BufferMemory.follow_usable {v : DWord} (h : (m.check (linkWord usable p)).2 = some v) (hv : linkNext v ≠ linkNone)
    (hu : linkNext v < usable) :
    m.follow usable p owner =
      (((m.check (linkWord usable p)).1.check (linkWord usable (linkNext v))).1,
        match ((m.check (linkWord usable p)).1.check (linkWord usable (linkNext v))).2 with
        | none => .error
        | some v' => if linkOwner v' = ownerCode owner then .page (linkNext v) else .error) := by
  simp only [BufferMemory.follow, h, if_neg hv, if_neg (Nat.not_le.2 hu)]
  split <;> simp only [*]

end

theorem Chip.followChain_fails {c : Chip} {i : StreamId} {p : Nat}
    (h : (c.mem.follow c.pool.usable p (some i)).2 = .error ∨ (c.mem.follow c.pool.usable p (some i)).2 = .fin) :
    c.followChain i p = ({ c with mem := (c.mem.follow c.pool.usable p (some i)).1 }, none) := by
  obtain h | h := h
  · simp only [Chip.followChain, h]
  · simp only [Chip.followChain, h]

theorem Chip.followChain_page {c : Chip} {i : StreamId} {p q : Nat}
    (h : (c.mem.follow c.pool.usable p (some i)).2 = .page q) :
    c.followChain i p = ({ c with mem := (c.mem.follow c.pool.usable p (some i)).1 }, some q) := by
  simp only [Chip.followChain, h]

theorem RecordKind.ofCode_eq_some {b : BitVec 8} {k : RecordKind} : RecordKind.ofCode b = some k ↔
    b = 0 ∧ k = .normal ∨ b = 1 ∧ k = .voidAbandoned ∨ b = 2 ∧ k = .voidDamaged := by
  constructor
  · intro h
    unfold RecordKind.ofCode at h
    split at h
    · rename_i hb; cases h; exact .inl ⟨hb, rfl⟩
    · split at h
      · rename_i hb; cases h; exact .inr (.inl ⟨hb, rfl⟩)
      · split at h
        · rename_i hb; cases h; exact .inr (.inr ⟨hb, rfl⟩)
        · cases h
  · rintro (⟨rfl, rfl⟩ | ⟨rfl, rfl⟩ | ⟨rfl, rfl⟩) <;> rfl

theorem judgeHeader_eq_some {w0 w1 : DWord} {i : StreamId} {seq : Nat} {h : Header} :
    judgeHeader w0 w1 i seq = some h ↔
      (w1.extractLsb' 48 16).toNat = i.val ∧ (w0.extractLsb' 0 48).toNat = seq ∧
      RecordKind.ofCode (w0.extractLsb' 48 8) = some h.kind ∧
      h.length = (w1.extractLsb' 0 16).toNat ∧ 1 ≤ h.length ∧ h.length ≤ Config.maxLength ∧ h.tag = w1.extractLsb' 16 32 := by
  unfold judgeHeader
  cases hk : RecordKind.ofCode (w0.extractLsb' 48 8) with
  | none => simp
  | some kind =>
    obtain ⟨hkind, hlength, htag⟩ := h
    simp only [Option.ite_none_right_eq_some, Option.some.injEq, Header.mk.injEq]
    constructor
    · rintro ⟨⟨hs, hi, h1, h2⟩, rfl, rfl, rfl⟩
      exact ⟨hi, hs, rfl, rfl, h1, h2, rfl⟩
    · rintro ⟨hi, hs, rfl, rfl, h1, h2, rfl⟩
      exact ⟨⟨hs, hi, h1, h2⟩, rfl, rfl, rfl⟩

/-- Settles O58, by the marks of the words read and the fields of the words judged. -/
theorem checkedReadsAndSoundHeaders : Obligations.CheckedReadsAndSoundHeaders := by
  refine ⟨fun m w => ⟨m.check_clean w, fun h => ?_, BufferMemory.check_multi⟩, fun m w n => ?_,
    fun m i seq page offset => ⟨rfl, fun h => ?_, fun w0 w1 h0 h1 => ?_⟩, fun m usable p owner =>
      ⟨BufferMemory.follow_unread, fun v hv => ⟨BufferMemory.follow_fin hv, fun hn =>
        ⟨BufferMemory.follow_beyond hv hn, fun hu => ⟨fun h => ?_, fun v' h => ⟨fun ho => ?_, fun ho => ?_⟩⟩⟩⟩⟩,
    fun c i p => ⟨Chip.followChain_fails, fun q => Chip.followChain_page⟩, fun w0 w1 i seq h => ?_⟩
  · rw [BufferMemory.check_single h]
    exact ⟨rfl, rfl, rfl, fun hm => sparseGet_put_same _ _ _ (m.wf_iff.1 hm).2.2⟩
  · exact ((m.checkRun_words w n true).trans (by rw [Bool.true_and])).symm
  · simp only [BufferMemory.readHeader]
    obtain h | h := h
    · rw [show (m.check (wordAt page offset)).2 = none from h]
    · rw [show ((m.check (wordAt page offset)).1.check (wordAt page offset + 1)).2 = none from h]
      split <;> simp_all
  · simp only [BufferMemory.readHeader]
    rw [show (m.check (wordAt page offset)).2 = some w0 from h0,
      show ((m.check (wordAt page offset)).1.check (wordAt page offset + 1)).2 = some w1 from h1]
  · refine (BufferMemory.follow_usable hv hn hu).trans ?_
    rw [show ((m.check (linkWord usable p)).1.check (linkWord usable (linkNext v))).2 = none from h]
    rfl
  · refine (BufferMemory.follow_usable hv hn hu).trans ?_
    rw [show ((m.check (linkWord usable p)).1.check (linkWord usable (linkNext v))).2 = some v' from h]
    exact congrArg (Prod.mk _) (if_neg fun k => ho (k.trans (by cases owner <;> rfl)))
  · refine (BufferMemory.follow_usable hv hn hu).trans ?_
    rw [show ((m.check (linkWord usable p)).1.check (linkWord usable (linkNext v))).2 = some v' from h]
    exact congrArg (Prod.mk _) (if_pos (ho.trans (by cases owner <;> rfl)))
  · rw [judgeHeader_eq_some, RecordKind.ofCode_eq_some]
    rfl

/-! ### Payload bytes written to their range -/

/-- The address of byte `n` of a range that begins at byte `start` of the first of `pages`. -/
def rangeAddr (pages : List Nat) (start n : Nat) : Nat :=
  ((pages[(start + n) / 4096]?).getD 0) * 4096 + (start + n) % 4096

section
variable (m : BufferMemory) (pages : List Nat) (start off : Nat)

theorem BufferMemory.writeRange_cons (b : Byte) (rest : List Byte) :
    m.writeRange pages start off (b :: rest) =
      (m.writeByte (rangeAddr pages start off) b).writeRange pages start (off + 1) rest := rfl

theorem BufferMemory.writeRange_counters (l : List Byte) :
    (m.writeRange pages start off l).size = m.size ∧ (m.writeRange pages start off l).corrected = m.corrected ∧
      (m.writeRange pages start off l).damaged = m.damaged := by
  induction l generalizing m off with
  | nil => exact ⟨rfl, rfl, rfl⟩
  | cons b rest ih => exact ih _ _

theorem BufferMemory.writeRange_outside (l : List Byte) (a : Nat)
    (h : ∀ n, n < l.length → a ≠ rangeAddr pages start (off + n)) :
    (m.writeRange pages start off l).readByte a = m.readByte a := by
  induction l generalizing m off with
  | nil => rfl
  | cons b rest ih =>
    rw [BufferMemory.writeRange_cons, ih _ _ fun n hn => by rw [Nat.add_assoc, Nat.add_comm 1]; exact h (n + 1) (by simpa using hn)]
    exact m.readByte_writeByte_ne _ a b (h 0 (Nat.zero_lt_succ _))

theorem BufferMemory.writeRange_inside (l : List Byte) (hm : m.wf = true)
    (hinj : ∀ n n', n < l.length → n' < l.length →
      rangeAddr pages start (off + n) = rangeAddr pages start (off + n') → n = n') (n : Nat) (hn : n < l.length) :
    (m.writeRange pages start off l).readByte (rangeAddr pages start (off + n)) = l[n] := by
  induction l generalizing m off n with
  | nil => exact absurd hn (Nat.not_lt_zero n)
  | cons b rest ih =>
    rw [BufferMemory.writeRange_cons]
    cases n with
    | zero =>
      rw [BufferMemory.writeRange_outside _ _ _ _ _ _ fun k hk he => ?_]
      · exact m.readByte_writeByte _ b hm
      · have := hinj 0 (k + 1) (Nat.zero_lt_succ _) (by simpa using hk) (by rw [he, Nat.add_assoc, Nat.add_comm 1])
        omega
    | succ n =>
      rw [show off + (n + 1) = off + 1 + n by omega]
      refine ih _ _ (m.writeByte_wf _ b hm) (fun k k' hk hk' he => ?_) n (by simpa using hn)
      have := hinj (k + 1) (k' + 1) (by simpa using hk) (by simpa using hk')
        (by rw [show off + (k + 1) = off + 1 + k by omega, show off + (k' + 1) = off + 1 + k' by omega]; exact he)
      omega

end

theorem Chip.onCtx_val (c : Chip) (k : CtxId) (f : CtxId → Chip) : c.onCtx k.val f = f k := by
  have hk : ctxId k.val = some k := dif_pos k.isLt
  rw [Chip.onCtx, hk]

theorem exec_bufferWriteEnd (s : State) (k : CtxId) (j : Nat) :
    exec (.bufferWriteEnd k.val j) s = .next (s.withChip (s.toChip.endBufWrite k j)) :=
  congrArg (fun c => Host.Outcome.next (s.withChip c)) (s.toChip.onCtx_val k _)

theorem Chip.endBufWrite_appendCopy {c : Chip} {k : CtxId} {j : Nat} {w : BufWrite} {t : Transfer} {length : Nat}
    {src : Source} {pages : List Nat} {offset : Nat} (hw : (c.ctx k).bufWrites[j]? = some w)
    (ht : (c.ctx k).transfer = some t) (hwork : t.work = .appendCopy length src pages offset) :
    c.endBufWrite k j =
      (({ c with mem := c.mem.writeRange pages offset (16 + w.areaOff) w.data } : Chip).setCtx k
        { c.ctx k with bufWrites := (c.ctx k).bufWrites.eraseIdx j }).settle k := by
  simp only [Chip.endBufWrite, hw, ht, hwork]
  rfl

/-- Settles O57, from what a write of a range does to each byte. -/
theorem bufferWriteEndStoresTheBytes : Obligations.BufferWriteEndStoresTheBytes := by
  intro s k j w t length src pages offset hw ht hwork x place
  have hplace (n : Nat) : place n = rangeAddr pages offset (16 + w.areaOff + n) := by
    simp only [place, rangeAddr, Nat.add_assoc]
  obtain ⟨hsize, hcorrected, hdamaged⟩ := s.mem.writeRange_counters pages offset (16 + w.areaOff) w.data
  refine ⟨s.mem.writeRange pages offset (16 + w.areaOff) w.data, ?_, hsize, hcorrected, hdamaged, fun a ha => ?_,
    fun hm hinj n hn => ?_⟩
  · rw [exec_bufferWriteEnd, Chip.endBufWrite_appendCopy hw ht hwork]
  · exact s.mem.writeRange_outside _ _ _ _ a fun n hn => by rw [← hplace]; exact ha n hn
  · rw [hplace]
    simp only [hplace] at hinj
    exact s.mem.writeRange_inside _ _ _ _ hm hinj n hn

end Sys2Proof.Machine
end

section
/-! The Transfer Engine: ends reported and taken, the start of a transfer, and the end of a context's last access (R141, R142,
R147, R148, R151). -/

namespace Sys2Proof.Machine

/-! ### Ends reported -/

theorem Chip.endOf_eq_some {c : Chip} {kind : EndKind} {slot : Nat} {e : EndReport} :
    c.endOf kind slot = some e ↔ (e.kind = kind ∧ e.slot = slot) ∧
      ∃ before after, c.engine.ends = before ++ e :: after ∧ ∀ x ∈ before, ¬ (x.kind = kind ∧ x.slot = slot) := by
  simp only [Chip.endOf, List.find?_eq_some_iff_append, Bool.and_eq_true, beq_iff_eq, Bool.not_eq_true', ← Bool.not_eq_true]

theorem Chip.endOf_eq_none {c : Chip} {kind : EndKind} {slot : Nat} :
    c.endOf kind slot = none ↔ ∀ e ∈ c.engine.ends, ¬ (e.kind = kind ∧ e.slot = slot) := by
  simp only [Chip.endOf, List.find?_eq_none, Bool.and_eq_true, beq_iff_eq]

theorem Chip.mem_dropEnd {c : Chip} {kind : EndKind} {slot : Nat} {e : EndReport} :
    e ∈ (c.dropEnd kind slot).engine.ends ↔ e ∈ c.engine.ends ∧ ¬ (e.kind = kind ∧ e.slot = slot) := by
  simp only [Chip.dropEnd, List.mem_filter, Bool.not_eq_true', ← Bool.not_eq_true, Bool.and_eq_true, beq_iff_eq]

theorem Chip.dropEnd_only {c : Chip} {kind : EndKind} {slot : Nat} {e : EndReport} {before after : List EndReport}
    (h : c.engine.ends = before ++ e :: after) (he : e.kind = kind ∧ e.slot = slot)
    (ho : ∀ x ∈ before ++ after, ¬ (x.kind = kind ∧ x.slot = slot)) :
    (c.dropEnd kind slot).engine.ends = before ++ after := by
  have hnamed (x : EndReport) : (!(x.kind == kind && x.slot == slot)) = true ↔ ¬ (x.kind = kind ∧ x.slot = slot) := by
    simp only [Bool.not_eq_true', ← Bool.not_eq_true, Bool.and_eq_true, beq_iff_eq]
  refine (congrArg (List.filter _) h).trans (filter_middle (fun x hx => ?_) (Bool.eq_false_iff.2 fun k => ?_) fun x hx => ?_)
  · exact (hnamed x).2 (ho x (List.mem_append_left _ hx))
  · exact (hnamed e).1 k he
  · exact (hnamed x).2 (ho x (List.mem_append_right _ hx))

/-! ### A context's work -/

theorem Context.quiet_iff (x : Context) :
    x.quiet = true ↔ x.reads = [] ∧ x.writes = [] ∧ x.bufReads = [] ∧ x.bufWrites = [] := by
  simp only [Context.quiet, Bool.and_eq_true, List.isEmpty_iff, and_assoc]

theorem Context.workDone_iff {x : Context} {t : Transfer} (h : x.transfer = some t) :
    x.workDone = true ↔ ∀ i first endSeq loc capacity segs, t.work = .fetchCopy i first endSeq loc capacity segs →
      x.progress.seq = endSeq := by
  simp only [Context.workDone, h]
  cases hw : t.work with
  | fetchCopy i first endSeq loc capacity segs =>
    simp only [beq_iff_eq]
    exact ⟨fun he _ _ _ _ _ _ e => by cases e; exact he, fun hall => hall _ _ _ _ _ _ rfl⟩
  | _ => exact ⟨fun _ _ _ _ _ _ _ e => Work.noConfusion e, fun _ => rfl⟩

theorem Context.endReport_eq (x : Context) (t : Transfer) :
    let full := x.progress.issued.takeWhile fun r => r.unsent == 0 && !r.failed
    x.endReport t =
      { slot := t.slot
        kind := t.work.endKind
        outcome := x.outcome, segments := x.segments, count := full.length
        bytes := (full.map fun r => r.footprint).sum, voids := (full.filter fun r => r.isVoid).length
        converted := full.any fun r => r.converted, anyConverted := x.progress.anyConverted } := by
  rw [Context.endReport, writtenInFull_eq]

/-! ### Contexts in order -/

theorem length_ctxIds : ctxIds.length = 64 := by rw [ctxIds, List.length_map, List.length_range]

theorem getElem_ctxIds (k : Nat) (h : k < ctxIds.length) : ctxIds[k] = ⟨k, length_ctxIds ▸ h⟩ := by
  simp only [ctxIds, List.getElem_map, List.getElem_range]
  exact Fin.ext (Nat.mod_eq_of_lt (length_ctxIds ▸ h))

/-- The context with the least number that satisfies `p`. -/
theorem find?_ctxIds {p : CtxId → Bool} {k : CtxId} (hk : p k = true) (hlt : ∀ j, j < k → p j = false) :
    ctxIds.find? p = some k := by
  rw [List.find?_eq_some_iff_getElem]
  refine ⟨hk, k.val, by rw [length_ctxIds]; exact k.isLt, getElem_ctxIds _ _, fun j hj => ?_⟩
  rw [getElem_ctxIds, hlt _ (by exact hj)]
  rfl

theorem find?_ctxIds_none {p : CtxId → Bool} (h : ∀ k, p k = false) : ctxIds.find? p = none :=
  List.find?_eq_none.2 fun k _ => Bool.eq_false_iff.1 (h k)

theorem Chip.freeCtx_eq_some {c : Chip} {k : CtxId} (hk : (c.ctx k).state = .free)
    (hlt : ∀ j, j < k → (c.ctx j).state ≠ .free) : c.freeCtx = some k :=
  find?_ctxIds (beq_iff_eq.2 hk) fun j hj => beq_eq_false_iff_ne.2 (hlt j hj)

/-! ### The start of a transfer -/

/-- The request of a transfer that starts enters COPYING, but for a list read (R142). -/
theorem Chip.startTransfer_starts {c : Chip} {t : Transfer} {rest : List Transfer} {k : CtxId} (ha : c.isActive = true)
    (hq : c.engine.queue = t :: rest) (hk : c.freeCtx = some k) :
    let d : Chip := { c with engine := { c.engine with queue := rest } }
    let phased : Chip := if t.work.endKind = .list then d else d.setPhase t.slot .copying
    c.startTransfer = (phased.setCtx k (Context.start t)).settle k := by
  simp only [Chip.startTransfer, ha, if_true, hq, hk]
  cases t.work <;> rfl

theorem Context.startRecord_same (x : Context) (endSeq : Nat) :
    (x.startRecord endSeq).state = x.state ∧ (x.startRecord endSeq).transfer = x.transfer ∧
      (x.startRecord endSeq).outcome = x.outcome := by
  unfold Context.startRecord
  split
  · exact ⟨rfl, rfl, rfl⟩
  · split <;> exact ⟨rfl, rfl, rfl⟩

theorem Context.startRecord_header {x : Context} {endSeq : Nat} (h : x.progress.seq ≠ endSeq)
    (ho : x.progress.offset ≠ Config.pageBytes) :
    x.startRecord endSeq = { x with bufReads := x.bufReads ++ [.header x.progress.page x.progress.offset] } := by
  rw [Context.startRecord, if_neg h, if_neg ho]

theorem Context.startRecord_link {x : Context} {endSeq : Nat} (h : x.progress.seq ≠ endSeq)
    (ho : x.progress.offset = Config.pageBytes) :
    x.startRecord endSeq = { x with bufReads := x.bufReads ++ [.link x.progress.page] } := by
  rw [Context.startRecord, if_neg h, if_pos ho]

theorem Context.startRecord_done {x : Context} {endSeq : Nat} (h : x.progress.seq = endSeq) : x.startRecord endSeq = x :=
  if_pos h

theorem Context.start_running (t : Transfer) :
    (Context.start t).state = .running ∧ (Context.start t).transfer = some t ∧ (Context.start t).outcome = .ok := by
  unfold Context.start
  split
  · exact ⟨rfl, rfl, rfl⟩
  · exact ⟨rfl, rfl, rfl⟩
  · exact Context.startRecord_same _ _
  · exact ⟨rfl, rfl, rfl⟩
  · exact ⟨rfl, rfl, rfl⟩

theorem Context.start_fetchCopy {t : Transfer} {i : StreamId} {first endSeq page offset capacity : Nat} {segs : List Segment}
    (hf : first < endSeq) (ho : offset < 4096) (h : t.work = .fetchCopy i first endSeq (.at page offset) capacity segs) :
    (Context.start t).bufReads = [.header page offset] := by
  simp only [Context.start, h]
  rw [Context.startRecord_header (Nat.ne_of_lt hf) (Nat.ne_of_lt ho)]
  rfl

/-! ### The end of the last access -/

section
variable {c : Chip} {k : CtxId} {t : Transfer}

theorem Chip.settle_outstanding (h : (c.ctx k).quiet = false) : c.settle k = c := by
  simp only [Chip.settle, h, Bool.false_eq_true, if_false]

theorem Chip.settle_ends (ht : (c.ctx k).transfer = some t) (hq : (c.ctx k).quiet = true)
    (h : (c.ctx k).state = .finishing ∨ ((c.ctx k).state = .running ∧ (c.ctx k).workDone = true)) :
    c.settle k = (c.setCtx k Context.free).report ((c.ctx k).endReport t) := by
  obtain h | ⟨h, hw⟩ := h
  · simp only [Chip.settle, hq, if_true, ht, h]
  · simp only [Chip.settle, hq, if_true, ht, h, hw]

theorem Chip.settle_abandoning (ht : (c.ctx k).transfer = some t) (hq : (c.ctx k).quiet = true)
    (h : (c.ctx k).state = .abandoning) : c.settle k = c.setCtx k Context.free := by
  simp only [Chip.settle, hq, if_true, ht, h]

theorem Chip.settle_working (h : (c.ctx k).state = .running) (hw : (c.ctx k).workDone = false) : c.settle k = c := by
  simp only [Chip.settle, h, hw, Bool.false_eq_true, if_false]
  split
  · split <;> rfl
  · rfl

end

theorem exec_transferStart (s : State) : exec .transferStart s = .next (s.withChip s.toChip.startTransfer) := rfl

/-- Settles O54, from the lemmas on ends, starts and `settle`. -/
theorem transfersStartAndEnd : Obligations.TransfersStartAndEnd := by
  refine ⟨fun _ _ => rfl, fun c kind slot => ⟨fun e => Chip.endOf_eq_some, Chip.endOf_eq_none, rfl, List.filter_sublist,
    fun e => Chip.mem_dropEnd, fun before e after h he ho => Chip.dropEnd_only h he ho⟩,
    fun segs length h => payloadReads_spec segs length h, fun x t => ⟨x.quiet_iff, fun h => Context.workDone_iff h, ?_⟩,
    fun s t rest k ha hq hk hlt => ?_, fun t => ?_, fun c k t ht => ⟨Chip.settle_outstanding, Chip.settle_ends ht,
      Chip.settle_abandoning ht, Chip.settle_working⟩⟩
  · rw [x.endReport_eq t]
    cases t.work <;> rfl
  · rw [exec_transferStart, Chip.startTransfer_starts (s.toChip.isActive_iff.2 ha) hq (Chip.freeCtx_eq_some hk hlt)]
  · obtain ⟨hstate, htransfer, houtcome⟩ := Context.start_running t
    refine ⟨hstate, htransfer, houtcome, fun length segs pages offset h => ?_, fun length addr count pages offset h => ?_,
      fun addr count h => ?_, fun addr data h => ?_, fun i first endSeq page offset capacity segs hf ho h =>
        Context.start_fetchCopy hf ho h⟩
    · simp only [Context.start, h, and_self]
    · simp only [Context.start, h, listRead]
    · simp only [Context.start, h, listRead]
    · simp only [Context.start, h]

end Sys2Proof.Machine
end

section
/-! Host accesses of a context: the entries of an indirect list, payload gathered into whole words, and the ends of reads and writes
(R144 to R147, R153). -/

namespace Sys2Proof.Machine

/-! ### Lists of segments -/

theorem totalLength_eq (segs : List Segment) : totalLength segs = (segs.map Segment.len).sum := rfl

theorem appendSegmentsOk_iff (length : Nat) (segs : List Segment) :
    appendSegmentsOk length segs = true ↔
      (∀ x ∈ segs, x.addr.toNat % 16 = 0) ∧ (segs.map Segment.len).sum = length := by
  simp only [appendSegmentsOk, Bool.and_eq_true, List.all_eq_true, beq_iff_eq, aligned16, totalLength_eq]

theorem fetchSegmentsOk_iff (segs : List Segment) :
    fetchSegmentsOk segs = true ↔
      (∀ x ∈ segs, x.addr.toNat % 16 = 0 ∧ x.len % 16 = 0 ∧ x.len ≠ 0) ∧ (segs.map Segment.len).sum ≤ 4194304 := by
  simp only [fetchSegmentsOk, Bool.and_eq_true, List.all_eq_true, beq_iff_eq, bne_iff_ne, decide_eq_true_eq, aligned16,
    and_assoc]
  rfl

theorem listEntries_fields (count : Nat) (bytes : List Byte) :
    listEntries count bytes = (List.range count).map fun n =>
      { addr := BitVec.ofNat 64 (((bytes.drop (16 * n)).take 8).foldr (fun b rest => b.toNat + 256 * rest) 0)
        len := ((bytes.drop (16 * n + 8)).take 4).foldr (fun b rest => b.toNat + 256 * rest) 0 } := by
  simp only [listEntries_eq, bytesToNat_eq_foldr]

/-! ### Payload in whole words -/

theorem padding_length (length last : Nat) :
    (padding length last).length = if length ≤ 8 * last then footprint length - 16 - 8 * last else 0 := by
  unfold padding
  split
  · rw [List.length_replicate]
  · rfl

/-- The one write of the words `first` up to `last`, every byte of which is there. -/
theorem wordsWrite_some {has : Nat → Option Byte} {length first last : Nat} (h : first < last)
    (hwhole : ∀ w, first ≤ w → w < last → ∀ b, b < 8 → has (8 * w + b) ≠ none) (hpad : ∀ n, length ≤ n → has n = some 0) :
    ∃ data : List Byte, wordsWrite has length first last = [{ areaOff := 8 * first, data := data }] ∧
      data.length = 8 * (last - first) + (if length ≤ 8 * last then footprint length - 16 - 8 * last else 0) ∧
      ∀ n, n < data.length → data[n]? = has (8 * first + n) := by
  refine ⟨_, if_pos h, ?_, fun n hn => ?_⟩
  · rw [List.length_append, List.length_map, List.length_range, padding_length]
  · by_cases hword : n < 8 * (last - first)
    · have hbyte := hwhole (first + n / 8) (by omega) (by omega) (n % 8) (Nat.mod_lt _ (by decide))
      rw [show 8 * (first + n / 8) + n % 8 = 8 * first + n by omega] at hbyte
      rw [List.getElem?_append_left (by rw [List.length_map, List.length_range]; exact hword), List.getElem?_map,
        List.getElem?_range hword, Option.map_some]
      cases hb : has (8 * first + n) with
      | none => exact absurd hb hbyte
      | some b => rfl
    · rw [List.length_append, List.length_map, List.length_range, padding_length] at hn
      have hpadded : length ≤ 8 * last := by
        by_contra k
        rw [if_neg k] at hn
        omega
      rw [if_pos hpadded] at hn
      rw [List.getElem?_append_right (by rw [List.length_map, List.length_range]; omega), List.length_map, List.length_range,
        padding, if_pos hpadded, List.getElem?_replicate, if_pos (by omega), hpad _ (by omega)]

theorem wordsWrite_none {has : Nat → Option Byte} {length first last : Nat} (h : last ≤ first) :
    wordsWrite has length first last = [] := if_neg (Nat.not_lt.2 h)

/-! ### Ends of host reads -/

theorem exec_hostReadEnd (s : State) (k : CtxId) (j : Nat) (r : HostReadEnd) :
    exec (.hostReadEnd k.val j r) s = .next (s.withChip (s.toChip.endHostRead k j r)) :=
  congrArg (fun c => Host.Outcome.next (s.withChip c)) (s.toChip.onCtx_val k _)

theorem exec_hostWriteEnd (s : State) (k : CtxId) :
    exec (.hostWriteEnd k.val 0) s = .next (s.withChip (s.toChip.endHostWrite k)) :=
  congrArg (fun c => Host.Outcome.next (s.withChip c)) (s.toChip.onCtx_val k _)

theorem Context.finish_running {x : Context} (o : CopyOutcome) (h : x.state = .running) :
    x.finish o = { x with state := .finishing, outcome := o } := by
  simp only [Context.finish, h]

theorem Context.finish_ended {x : Context} (o : CopyOutcome) (h : x.state = .finishing ∨ x.state = .abandoning) :
    x.finish o = x := by
  obtain h | h := h
  · simp only [Context.finish, h]
  · simp only [Context.finish, h]

/-- Context `x` without its host read number `j`. -/
def Context.withoutRead (x : Context) (j : Nat) : Context := { x with reads := x.reads.eraseIdx j }

section
variable {c : Chip} {k : CtxId} {j : Nat} {r : HostRead}

theorem Chip.endHostRead_failed {res : HostReadEnd} (h : (c.ctx k).reads[j]? = some r) (hres : res = .error ∨ res = .timeout) :
    c.endHostRead k j res = (c.setCtx k
      (((c.ctx k).withoutRead j).finish .hostReadError)).settle k := by
  obtain rfl | rfl := hres
  · simp only [Chip.endHostRead, h]
    rfl
  · simp only [Chip.endHostRead, h]
    rfl

theorem Chip.endHostRead_data {bytes : List Byte} (h : (c.ctx k).reads[j]? = some r) (hb : bytes.length = r.len) :
    c.endHostRead k j (.data bytes) = (c.setCtx k
      (if (c.ctx k).state = .running then
        ((c.ctx k).withoutRead j).gotData r bytes
      else ((c.ctx k).withoutRead j))).settle k := by
  simp only [Chip.endHostRead, h, hb, if_true]
  rfl

theorem Chip.endHostRead_ended {res : HostReadEnd} (h : (c.ctx k).reads[j]? = some r)
    (hs : (c.ctx k).state = .finishing ∨ (c.ctx k).state = .abandoning)
    (hb : ∀ bytes, res = .data bytes → bytes.length = r.len) :
    c.endHostRead k j res = (c.setCtx k ((c.ctx k).withoutRead j)).settle k := by
  have hended : ((c.ctx k).withoutRead j).state = .finishing ∨
    ((c.ctx k).withoutRead j).state = .abandoning := hs
  cases res with
  | data bytes =>
    rw [Chip.endHostRead_data h (hb bytes rfl), if_neg]
    obtain hs | hs := hs
    · rw [hs]; exact CtxState.noConfusion
    · rw [hs]; exact CtxState.noConfusion
  | error => rw [Chip.endHostRead_failed h (.inl rfl), Context.finish_ended _ hended]
  | timeout => rw [Chip.endHostRead_failed h (.inr rfl), Context.finish_ended _ hended]

end

section
variable {x : Context} {t : Transfer} {r : HostRead} {bytes : List Byte} {length : Nat} {addr : HostAddr} {count : Nat}
  {pages : List Nat} {offset : Nat}

theorem Context.gotData_payload {src : Source} (ht : x.transfer = some t)
    (hw : t.work = .appendCopy length src pages offset) (hl : r.list = false) :
    x.gotData r bytes = x.gather length r.off bytes := by
  cases src with
  | direct segs => simp only [Context.gotData, ht, hw]
  | indirect addr count => simp only [Context.gotData, ht, hw, hl, Bool.false_eq_true, if_false]

theorem Context.gotData_appendList (ht : x.transfer = some t)
    (hw : t.work = .appendCopy length (.indirect addr count) pages offset) (hl : r.list = true) :
    x.gotData r bytes = if appendSegmentsOk length (listEntries count bytes) then
        { x with
          segments := listEntries count bytes, reads := x.reads ++ payloadReads (listEntries count bytes) length }
      else x.finish .badField := by
  simp only [Context.gotData, ht, hw, hl, if_true]

theorem Context.gotData_fetchList (ht : x.transfer = some t) (hw : t.work = .listRead addr count) :
    x.gotData r bytes = if fetchSegmentsOk (listEntries count bytes) then { x with segments := listEntries count bytes }
      else x.finish .badField := by
  simp only [Context.gotData, ht, hw]

/-- Payload data gathered: the words it completes are written in one access, and the bytes of no such word are kept. -/
theorem Context.gather_writes (hb : bytes.length = r.len) :
    let has : Nat → Option Byte := fun n =>
      if length ≤ n then some 0
      else if r.off ≤ n ∧ n < r.off + r.len then bytes[n - r.off]? else sparseGet x.gathered n
    let y := x.gather length r.off bytes
    ∃ first last : Nat,
      y = { x with gathered := y.gathered, bufWrites := y.bufWrites } ∧
      (∀ w, first ≤ w ∧ w < last ↔
        r.off < 8 * w + 8 ∧ 8 * w < r.off + r.len ∧ ∀ b, b < 8 → has (8 * w + b) ≠ none) ∧
      (last ≤ first → y.bufWrites = x.bufWrites) ∧
      (first < last → ∃ data : List Byte,
        y.bufWrites = x.bufWrites ++ [{ areaOff := 8 * first, data := data }] ∧
        data.length = 8 * (last - first) + (if length ≤ 8 * last then footprint length - 16 - 8 * last else 0) ∧
        ∀ n, n < data.length → data[n]? = has (8 * first + n)) ∧
      ∀ n, n < length → sparseGet y.gathered n = if first ≤ n / 8 ∧ n / 8 < last then none else has n := by
  intro has y
  have hhas : payloadByte x.gathered length r.off bytes = has := by
    funext n
    simp only [payloadByte, hb, has]
  obtain ⟨first, last, hwords, hy, hkept⟩ := x.gather_spec length r.off bytes
  rw [hhas, hb] at hwords
  rw [hhas] at hy hkept
  have hwrites : y.bufWrites = x.bufWrites ++ wordsWrite has length first last := congrArg Context.bufWrites hy
  refine ⟨first, last, ?_, hwords, fun h => ?_, fun h => ?_, hkept⟩
  · rw [hwrites]; exact hy
  · rw [hwrites, wordsWrite_none h, List.append_nil]
  · obtain ⟨data, hdata, hlength, hbytes⟩ := wordsWrite_some h (fun w h1 h2 => ((hwords w).1 ⟨h1, h2⟩).2.2)
      fun n hn => if_pos hn
    exact ⟨data, by rw [hwrites, hdata], hlength, hbytes⟩

end

/-! ### Ends of host writes -/

theorem markIssued_eq (f : Issued → Issued) (n : Nat) (l : List Issued) : markIssued f n l = l.modify n f := by
  induction l generalizing n with
  | nil => cases n <;> rfl
  | cons r rest ih =>
    cases n with
    | zero => rfl
    | succ n => rw [markIssued, ih, List.modify_succ_cons]

section
variable {c : Chip} {k : CtxId} {w : HostWrite} {later : List HostWrite}

theorem Chip.endHostWrite_sent (h : (c.ctx k).writes = w :: later) (hl : c.link.canSend = true) :
    c.endHostWrite k =
      (({ c with link := { c.link with out := c.link.out ++ [LinkOut.bytes w.addr w.data] } } : Chip).setCtx k
        { c.ctx k with
          writes := later
          progress := { (c.ctx k).progress with
            issued := (c.ctx k).progress.issued.modify w.record fun r => { r with unsent := r.unsent - 1 } } }).settle k := by
  simp only [Chip.endHostWrite, h, hl, if_true, markIssued_eq]

/-- Context `x` once its oldest write has failed. -/
def Context.writeFailed (x : Context) (w : HostWrite) (later : List HostWrite) : Context :=
  { x with
    writes := later
    progress := { x.progress with issued := x.progress.issued.modify w.record fun r => { r with failed := true } } }

theorem Chip.endHostWrite_failed (h : (c.ctx k).writes = w :: later) (hl : c.link.canSend = false) :
    c.endHostWrite k = (c.setCtx k (((c.ctx k).writeFailed w later).finish .hostWriteError)).settle k := by
  simp only [Chip.endHostWrite, h, hl, Bool.false_eq_true, if_false, markIssued_eq]
  rfl

end

/-- Settles O55, by the context's state, its work, and the outcome of the access. -/
theorem hostAccessEnds : Obligations.HostAccessEnds := by
  refine ⟨listEntries_fields, fun s k j r t hr hs ht => ⟨fun res hres => ?_, fun bytes length src pages offset hb hw hl => ?_,
    fun bytes length addr count pages offset hb hw hl => ⟨fun hok => ?_, fun hok => ?_⟩,
    fun bytes addr count hb hw => ⟨fun hok => ?_, fun hok => ?_⟩⟩, fun s k j r res hr hs hb => ?_, fun s k later => ?_,
    fun s k w later hw => ⟨fun hl => ?_, fun hl hs => ?_, fun hl hs => ?_⟩⟩
  · have hrunning : ((s.toChip.ctx k).withoutRead j).state = .running := hs
    rw [exec_hostReadEnd, Chip.endHostRead_failed hr hres, Context.finish_running _ hrunning]
    rfl
  · have htransfer : ((s.toChip.ctx k).withoutRead j).transfer = some t := ht
    obtain ⟨first, last, hsame, hwords, hnone, hsome, hkept⟩ := Context.gather_writes (length := length)
      (x := (s.toChip.ctx k).withoutRead j) hb
    refine ⟨_, first, last, ?_, hsame, hwords, hnone, hsome, hkept⟩
    rw [exec_hostReadEnd, Chip.endHostRead_data hr hb, if_pos hs, Context.gotData_payload htransfer hw hl]
  · have htransfer : ((s.toChip.ctx k).withoutRead j).transfer = some t := ht
    rw [exec_hostReadEnd, Chip.endHostRead_data hr hb, if_pos hs, Context.gotData_appendList htransfer hw hl,
      if_pos ((appendSegmentsOk_iff _ _).2 hok)]
    rfl
  · have hrunning : ((s.toChip.ctx k).withoutRead j).state = .running := hs
    rw [exec_hostReadEnd, Chip.endHostRead_data hr hb, if_pos hs,
      Context.gotData_appendList (x := (s.toChip.ctx k).withoutRead j) ht hw hl,
      if_neg fun h => hok ((appendSegmentsOk_iff _ _).1 h), Context.finish_running _ hrunning]
    rfl
  · rw [exec_hostReadEnd, Chip.endHostRead_data hr hb, if_pos hs,
      Context.gotData_fetchList (x := (s.toChip.ctx k).withoutRead j) ht hw, if_pos ((fetchSegmentsOk_iff _).2 hok)]
    rfl
  · have hrunning : ((s.toChip.ctx k).withoutRead j).state = .running := hs
    rw [exec_hostReadEnd, Chip.endHostRead_data hr hb, if_pos hs,
      Context.gotData_fetchList (x := (s.toChip.ctx k).withoutRead j) ht hw,
      if_neg fun h => hok ((fetchSegmentsOk_iff _).1 h), Context.finish_running _ hrunning]
    rfl
  · rw [exec_hostReadEnd, Chip.endHostRead_ended hr hs hb]
    rfl
  · exact congrArg (fun c => Host.Outcome.next (s.withChip c)) (s.toChip.onCtx_val k fun _ => s.toChip)
  · rw [exec_hostWriteEnd, Chip.endHostWrite_sent hw ((HostLink.canSend_iff _).2 hl)]
  · rw [exec_hostWriteEnd, Chip.endHostWrite_failed hw (HostLink.cannotSend hl),
      Context.finish_running (x := (s.toChip.ctx k).writeFailed w later) _ hs]
    rfl
  · rw [exec_hostWriteEnd, Chip.endHostWrite_failed hw (HostLink.cannotSend hl),
      Context.finish_ended (x := (s.toChip.ctx k).writeFailed w later) _ hs]
    rfl

end Sys2Proof.Machine
end

section
/-! The fetch copy (R148): the walk over the record in hand, what its delivery issues, and the ends of its buffer reads (R156 to
R159). -/

namespace Sys2Proof.Machine

/-! ### Record sizes and the delivered bytes -/

/-- The payload area of a record. -/
theorem footprint_sub_header (length : Nat) : footprint length - 16 = (length + 15) / 16 * 16 := by
  rw [footprint, Nat.add_sub_cancel_left]

theorem natBytes_eq (n v : Nat) : natBytes n v = (List.range n).map fun k => BitVec.ofNat 8 (v / 256 ^ k) := by
  induction n generalizing v with
  | zero => rfl
  | succ n ih =>
    rw [natBytes, ih, List.range_succ_eq_map, List.map_cons, List.map_map, Nat.pow_zero, Nat.div_one]
    refine congrArg _ (List.map_congr_left fun k _ => ?_)
    rw [Function.comp_apply, Nat.div_div_eq_div_mul, Nat.pow_succ']

theorem RecordKind.code_eq (k : RecordKind) :
    k.code = match k with | .normal => 0 | .voidAbandoned => 1 | .voidDamaged => 2 := by
  cases k <;> rfl

theorem Progress.deliveredArea_eq (p : Progress) (h : Header) : p.deliveredArea h =
    if p.deliveredKind h = .normal then
      ((p.pieces.map Prod.snd).flatten ++ List.replicate ((h.length + 15) / 16 * 16) 0).take ((h.length + 15) / 16 * 16)
    else List.replicate ((h.length + 15) / 16 * 16) 0 := by
  simp only [Progress.deliveredArea, footprint_sub_header, joinPieces]
  cases p.deliveredKind h <;> rfl

theorem deliveryHeader_eq (seq : Nat) (kind : RecordKind) (length : Nat) (tag : Word) :
    deliveryHeader seq kind length tag =
      ((List.range 6).map fun k => BitVec.ofNat 8 (seq / 256 ^ k)) ++
        [(match kind with | .normal => 0 | .voidAbandoned => 1 | .voidDamaged => 2 : Byte), 0] ++
        ((List.range 2).map fun k => BitVec.ofNat 8 (length / 256 ^ k)) ++
        ((List.range 4).map fun k => BitVec.ofNat 8 (tag.toNat / 256 ^ k)) ++ [0, 0] := by
  rw [deliveryHeader, natBytes_eq, natBytes_eq, natBytes_eq, RecordKind.code_eq]

/-! ### The walk over the record in hand -/

section
variable {x : Context} {h : Header} {endSeq : Nat}

theorem Progress.walks_iff {p : Progress} (hp : p.header = some h) :
    p.walks endSeq = true ↔ p.seq + 1 < endSeq ∨ h.kind = .normal ∧ p.converted = false := by
  rw [Progress.walks, hp, Bool.or_eq_true, decide_eq_true_eq, Bool.and_eq_true, beq_iff_eq, Bool.not_eq_true']

theorem Progress.walks_over {p : Progress} (hp : p.header = some h) (hs : endSeq ≤ p.seq + 1)
    (hk : h.kind ≠ .normal ∨ p.converted = true) : p.walks endSeq = false := by
  refine Bool.eq_false_iff.2 fun hw => ?_
  rcases (Progress.walks_iff hp).1 hw with hlt | ⟨hn, hc⟩
  · exact absurd hlt (Nat.not_lt.2 hs)
  · exact hk.elim (fun hk => hk hn) fun hk => Bool.false_ne_true (hc.symm.trans hk)

/-- The record in hand has no read outstanding and its walk is over. -/
def Context.recordRead (x : Context) (h : Header) (endSeq : Nat) : Prop :=
  x.bufReads = [] ∧
    (x.progress.left = 0 ∨ endSeq ≤ x.progress.seq + 1 ∧ (h.kind ≠ .normal ∨ x.progress.converted = true))

theorem Context.recordRead_iff (hp : x.progress.header = some h) : x.recordRead h endSeq ↔
    (x.bufReads.isEmpty && (x.progress.left == 0 || !x.progress.walks endSeq)) = true := by
  have hover : endSeq ≤ x.progress.seq + 1 ∧ (h.kind ≠ .normal ∨ x.progress.converted = true) ↔
      x.progress.walks endSeq = false := by
    refine ⟨fun ⟨hs, hk⟩ => Progress.walks_over hp hs hk, fun hw => ?_⟩
    have hnot := fun hc => Bool.false_ne_true (hw.symm.trans ((Progress.walks_iff hp).2 hc))
    refine ⟨Nat.not_lt.1 fun hlt => hnot (.inl hlt), ?_⟩
    by_cases hk : h.kind = .normal
    · exact .inr (Bool.eq_true_of_not_eq_false fun hc => hnot (.inr ⟨hk, hc⟩))
    · exact .inl hk
  rw [Context.recordRead, hover, Bool.and_eq_true, Bool.or_eq_true, beq_iff_eq, Bool.not_eq_true', List.isEmpty_iff]

/-- The record in hand has been issued: `writes` are its host writes, and the next record has not begun. -/
def Context.issued (x : Context) (h : Header) (writes : List HostWrite) : Context :=
  let p := x.progress
  { x with
    writes := x.writes ++ writes
    progress :=
      { p with
        seq := p.seq + 1, page := p.walkPage, offset := p.walkOff, header := none, left := 0, pieces := [],
        converted := false, runOff := p.runOff + footprint h.length,
        issued := p.issued ++
          [{ footprint := footprint h.length, isVoid := p.deliveredKind h != .normal, converted := p.converted,
             unsent := writes.length, failed := false }] } }

theorem Context.deliver_issues (hp : x.progress.header = some h) (hr : x.recordRead h endSeq) :
    x.deliver endSeq = (x.issued h
      (runWrites x.segments x.progress.runOff
          (deliveryHeader x.progress.seq (x.progress.deliveredKind h) h.length h.tag) x.progress.issued.length ++
        runWrites x.segments (x.progress.runOff + 16) (x.progress.deliveredArea h) x.progress.issued.length)).startRecord
      endSeq := by
  simp only [Context.deliver, hp]
  rw [if_pos ((Context.recordRead_iff hp).1 hr)]
  rfl

theorem Context.deliver_waits (hp : x.progress.header = some h) (hr : ¬ x.recordRead h endSeq) : x.deliver endSeq = x := by
  simp only [Context.deliver, hp]
  rw [if_neg fun hb => hr ((Context.recordRead_iff hp).2 hb)]

/-- The read that begins the record a context has come to, if the range goes on. -/
theorem Context.startRecord_eq (x : Context) (endSeq : Nat) : x.startRecord endSeq =
    { x with bufReads := x.bufReads ++
      (if x.progress.seq = endSeq then []
        else if x.progress.offset = 4096 then [.link x.progress.page]
        else [.header x.progress.page x.progress.offset]) } := by
  by_cases hs : x.progress.seq = endSeq
  · rw [Context.startRecord_done hs, if_pos hs, List.append_nil]
  · by_cases ho : x.progress.offset = 4096
    · rw [Context.startRecord_link hs ho, if_neg hs, if_pos ho]
    · rw [Context.startRecord_header hs ho, if_neg hs, if_neg ho]

theorem Context.walkPage_eq (hp : x.progress.header = some h) :
    let p := x.progress
    let portion := min p.left (4096 - p.walkOff)
    let areaOff := (h.length + 15) / 16 * 16 - p.left
    x.walkPage =
      { x with
        bufReads := x.bufReads ++
          ((if h.kind = .normal ∧ p.converted = false ∧ areaOff < h.length ∧ 0 < portion then
            [.payload p.walkPage p.walkOff areaOff (min portion (h.length - areaOff))] else []) ++
          if portion < p.left then [.link p.walkPage] else [])
        progress := { p with left := p.left - portion, walkOff := p.walkOff + portion } } := by
  simp only [Context.walkPage, Progress.payloadRead, hp, footprint_sub_header]
  rfl

theorem Context.gotPage_walks (hp : x.progress.header = some h) (hw : x.progress.walks endSeq = true) (q : Nat) :
    x.gotPage q endSeq =
      ({ x with progress := { x.progress with walkPage := q, walkOff := 0 } } : Context).walkPage.deliver endSeq := by
  simp only [Context.gotPage, hp, hw, if_true]

theorem Context.gotPage_over (hp : x.progress.header = some h) (hw : x.progress.walks endSeq = false) (q : Nat) :
    x.gotPage q endSeq = x.deliver endSeq := by
  simp only [Context.gotPage, hp, hw, Bool.false_eq_true, if_false]

theorem Context.gotPage_begins (hp : x.progress.header = none) (hs : x.progress.seq < endSeq) (q : Nat) :
    x.gotPage q endSeq =
      { x with bufReads := x.bufReads ++ [.header q 0], progress := { x.progress with page := q, offset := 0 } } := by
  have hpage : x.gotPage q endSeq =
      ({ x with progress := { x.progress with page := q, offset := 0 } } : Context).startRecord endSeq := by
    simp only [Context.gotPage, hp]
  rw [hpage]
  exact Context.startRecord_header (Nat.ne_of_lt hs) (Nat.zero_ne_add_one 4095)

/-- The context with header `h` of the record in hand, its walk not begun. -/
def Context.withHeader (x : Context) (h : Header) : Context :=
  { x with
    progress := { x.progress with
      header := some h, walkPage := x.progress.page, walkOff := x.progress.offset + 16,
      left := (h.length + 15) / 16 * 16, pieces := [], converted := false } }

theorem Context.gotHeader_eq (x : Context) (h : Header) (endSeq : Nat) : x.gotHeader h endSeq =
    (if (x.withHeader h).progress.walks endSeq then (x.withHeader h).walkPage else x.withHeader h).deliver endSeq := by
  simp only [Context.gotHeader, footprint_sub_header]
  rfl

end

/-! ### Writes along the run -/

theorem runWrites_spec (segs : List Segment) (off : Nat) (data : List Byte) (record : Nat)
    (h : off + data.length ≤ (segs.map Segment.len).sum) :
    ((runWrites segs off data record).map HostWrite.data).flatten = data ∧
    ∀ w ∈ runWrites segs off data record, w.record = record ∧
      ∃ before seg after inside, segs = before ++ seg :: after ∧ inside + w.data.length ≤ seg.len ∧
        w.addr = seg.addr + BitVec.ofNat 64 inside ∧ off ≤ (before.map Segment.len).sum + inside ∧
        w.data = (data.drop ((before.map Segment.len).sum + inside - off)).take w.data.length := by
  obtain ⟨hdata, haccess⟩ := splitRun_spec data segs off data.length 0 (.inl h)
  refine ⟨?_, fun w hw => ?_⟩
  · rw [runWrites, List.map_map]
    exact hdata.trans (by rw [List.drop_zero, List.take_length])
  · obtain ⟨a, ha, rfl⟩ := List.mem_map.1 hw
    obtain ⟨before, seg, after, inside, hsegs, hlen, haddr, hoff, -, hend⟩ := haccess a ha
    have hlength : ((data.drop a.2.1).take a.2.2).length = a.2.2 := by
      rw [List.length_take, List.length_drop]; omega
    refine ⟨rfl, before, seg, after, inside, hsegs, ?_, haddr, ?_, ?_⟩
    · rwa [hlength]
    · omega
    · rw [show (before.map Segment.len).sum + inside - off = a.2.1 by omega]
      exact congrArg (fun n => (data.drop a.2.1).take n) hlength.symm

/-! ### The ends of buffer reads -/

theorem exec_bufferReadEnd (s : State) (k : CtxId) (j : Nat) (u : Upsets) :
    exec (.bufferReadEnd k.val j u) s = .next (s.withChip ((s.toChip.upset u).endBufRead k j)) :=
  congrArg (fun c => Host.Outcome.next (s.withChip c)) ((s.toChip.upset u).onCtx_val k _)

/-- The context without its `j`-th buffer read. -/
def Context.withoutBufRead (x : Context) (j : Nat) : Context := { x with bufReads := x.bufReads.eraseIdx j }

section
variable {c : Chip} {k : CtxId} {x : Context} {i : StreamId} {endSeq : Nat}

theorem Chip.endBufRead_fetch {j first capacity : Nat} {b : BufRead} {t : Transfer} {loc : Loc} {segs : List Segment}
    (hb : (c.ctx k).bufReads[j]? = some b) (ht : (c.ctx k).transfer = some t)
    (hw : t.work = .fetchCopy i first endSeq loc capacity segs) :
    (∀ page offset, b = .header page offset →
      c.endBufRead k j = c.headerRead k ((c.ctx k).withoutBufRead j) i endSeq page offset) ∧
    (∀ page offset areaOff len, b = .payload page offset areaOff len →
      c.endBufRead k j = c.payloadRead k ((c.ctx k).withoutBufRead j) endSeq page offset areaOff len) ∧
    ∀ page, b = .link page → c.endBufRead k j = c.linkRead k ((c.ctx k).withoutBufRead j) i endSeq page := by
  refine ⟨fun page offset h => ?_, fun page offset areaOff len h => ?_, fun page h => ?_⟩ <;> subst h <;>
    simp only [Chip.endBufRead, Context.withoutBufRead, hb, ht, hw]

theorem Chip.copyError_finishing (hs : x.state = .finishing ∨ x.state = .abandoning) (cause : FaultCause) (brk : Option Nat) :
    c.copyError x i cause brk = if x.state = .finishing then c.reportMedia i cause brk else c := by
  rcases hs with hs | hs <;> simp only [Chip.copyError, hs, if_true, reduceCtorEq, if_false]

theorem Chip.copyError_running (hs : x.state = .running) (cause : FaultCause) (brk : Option Nat) :
    c.copyError x i cause brk = c.reportMedia i cause brk := by
  simp only [Chip.copyError, hs]

theorem Chip.headerRead_sound {page offset : Nat} {h : Header} (hr : (c.mem.readHeader i x.progress.seq page offset).2 = some h) :
    c.headerRead k x i endSeq page offset =
      (({ c with mem := (c.mem.readHeader i x.progress.seq page offset).1 }.setCtx k
        (if x.state = CtxState.running then x.gotHeader h endSeq else x))).settle k := by
  simp only [Chip.headerRead, hr]

theorem Chip.headerRead_error {page offset : Nat} (hr : (c.mem.readHeader i x.progress.seq page offset).2 = none) :
    c.headerRead k x i endSeq page offset =
      (({ c with mem := (c.mem.readHeader i x.progress.seq page offset).1 }.setCtx k x).copyError x i .recordHeader none).settle
        k := by
  simp only [Chip.headerRead, hr]

theorem Chip.linkRead_page {page q : Nat} (hr : (c.followChain i page).2 = some q) : c.linkRead k x i endSeq page =
    ((c.followChain i page).1.setCtx k (if x.state = CtxState.running then x.gotPage q endSeq else x)).settle k := by
  simp only [Chip.linkRead, hr]

theorem Chip.linkRead_error {page : Nat} (hr : (c.followChain i page).2 = none) : c.linkRead k x i endSeq page =
    (((c.followChain i page).1.setCtx k x).copyError x i .chainLink (some page)).settle k := by
  simp only [Chip.linkRead, hr]

/-- The payload piece `data` at `areaOff` kept with the record in hand. -/
def Context.withPiece (x : Context) (areaOff : Nat) (data : List Byte) : Context :=
  { x with progress := { x.progress with pieces := insertPiece (areaOff, data) x.progress.pieces } }

/-- The record in hand converted (R158 step 3). -/
def Context.converting (x : Context) : Context := { x with progress := x.progress.convert }

theorem Chip.payloadRead_clean {page offset areaOff len : Nat}
    (hr : (c.mem.checkRun (wordAt page offset) (wordsFor len)).2 = true) :
    c.payloadRead k x endSeq page offset areaOff len =
      (({ c with mem := (c.mem.checkRun (wordAt page offset) (wordsFor len)).1 }.setCtx k
        (if x.state = CtxState.running then
          (x.withPiece areaOff ((c.mem.checkRun (wordAt page offset) (wordsFor len)).1.readBytes (page * 4096 + offset)
            len)).deliver endSeq
        else x))).settle k := by
  simp only [Chip.payloadRead, hr, if_true]
  rfl

theorem Chip.payloadRead_again {page offset areaOff len : Nat}
    (hr : (c.mem.checkRun (wordAt page offset) (wordsFor len)).2 = false) (hc : x.progress.converted = true) :
    c.payloadRead k x endSeq page offset areaOff len =
      (({ c with mem := (c.mem.checkRun (wordAt page offset) (wordsFor len)).1 }.setCtx k
        (if x.state = CtxState.running then x.deliver endSeq else x))).settle k := by
  simp only [Chip.payloadRead, hr, hc, if_true, Bool.false_eq_true, if_false]

theorem Chip.payloadRead_converts {page offset areaOff len : Nat}
    (hr : (c.mem.checkRun (wordAt page offset) (wordsFor len)).2 = false) (hc : x.progress.converted = false) :
    c.payloadRead k x endSeq page offset areaOff len =
      (({ c with mem := (c.mem.checkRun (wordAt page offset) (wordsFor len)).1.damage x.progress }.setCtx k
        (if x.state = CtxState.running then x.converting.deliver endSeq else x.converting))).settle k := by
  simp only [Chip.payloadRead, hr, hc, Bool.false_eq_true, if_false]
  rfl

end

/-! ### The conversion in buffer DRAM -/

theorem BufferMemory.rewriteKind_counters (m : BufferMemory) (page offset seq : Nat) (kind : RecordKind) :
    (m.rewriteKind page offset seq kind).damaged = m.damaged ∧ (m.rewriteKind page offset seq kind).corrected = m.corrected ∧
      (m.rewriteKind page offset seq kind).size = m.size :=
  ⟨m.writeBytes_damaged _ _, m.writeBytes_corrected _ _, m.writeBytes_size _ _⟩

theorem BufferMemory.damage_counters (m : BufferMemory) (p : Progress) :
    (m.damage p).damaged = countUp m.damaged ∧ (m.damage p).corrected = m.corrected ∧ (m.damage p).size = m.size := by
  obtain ⟨hdamaged, hcorrected, hsize⟩ := m.rewriteKind_counters p.page p.offset p.seq .voidDamaged
  exact ⟨congrArg countUp hdamaged, hcorrected, hsize⟩

theorem BufferMemory.damage_readByte (m : BufferMemory) (p : Progress) (a : Nat) :
    (m.damage p).readByte a = (m.rewriteKind p.page p.offset p.seq .voidDamaged).readByte a := rfl

theorem BufferMemory.damage_readByte_ne (m : BufferMemory) (p : Progress) (a : Nat)
    (ha : a / 8 ≠ p.page * 512 + p.offset / 8) : (m.damage p).readByte a = m.readByte a :=
  (m.damage_readByte p a).trans (m.readByte_writeWord_ne (wordAt p.page p.offset) a _ ha)

theorem BufferMemory.damage_word (m : BufferMemory) (p : Progress) (w : Nat) :
    (m.damage p).word w = (m.rewriteKind p.page p.offset p.seq .voidDamaged).word w := rfl

theorem BufferMemory.damage_header (m : BufferMemory) (p : Progress) (hm : m.wf = true) :
    (m.damage p).word (wordAt p.page p.offset) = headerWord0 p.seq .voidDamaged :=
  (m.damage_word p _).trans (m.word_writeWord _ _ hm)

theorem BufferMemory.damage_readHeader (m : BufferMemory) (p : Progress) (i : StreamId) :
    ((m.damage p).readHeader i p.seq p.page p.offset).2 =
      ((m.rewriteKind p.page p.offset p.seq .voidDamaged).readHeader i p.seq p.page p.offset).2 := by
  rw [BufferMemory.readHeader_value, BufferMemory.readHeader_value, BufferMemory.damage_word, BufferMemory.damage_word]
  rfl

theorem BufferMemory.damage_spec (m : BufferMemory) (p : Progress) (i : StreamId) :
    (m.damage p).damaged = countUp m.damaged ∧ (m.damage p).corrected = m.corrected ∧ (m.damage p).size = m.size ∧
    (∀ a, a / 8 ≠ p.page * 512 + p.offset / 8 → (m.damage p).readByte a = m.readByte a) ∧
    (m.wf = true → p.seq < 2 ^ 48 →
      ((m.damage p).word (p.page * 512 + p.offset / 8)).toNat = 2 * 2 ^ 48 + p.seq ∧
      ∀ h, (m.readHeader i p.seq p.page p.offset).2 = some h →
        ((m.damage p).readHeader i p.seq p.page p.offset).2 =
          some { kind := .voidDamaged, length := h.length, tag := h.tag }) := by
  obtain ⟨hdamaged, hcorrected, hsize⟩ := m.damage_counters p
  refine ⟨hdamaged, hcorrected, hsize, m.damage_readByte_ne p, fun hm hs => ⟨?_, fun h hr => ?_⟩⟩
  · exact (congrArg BitVec.toNat (m.damage_header p hm)).trans (headerWord0_toNat p.seq .voidDamaged hs)
  · exact (m.damage_readHeader p i).trans (m.readHeader_rewriteKind i p.seq p.page p.offset .voidDamaged hm hs h hr)

/-! ### O56 -/

section
variable {x : Context} {h : Header} {endSeq : Nat}

theorem Context.gotHeader_walks (hw : (x.withHeader h).progress.walks endSeq = true) :
    x.gotHeader h endSeq = (x.withHeader h).walkPage.deliver endSeq := by
  rw [Context.gotHeader_eq, if_pos hw]

theorem Context.gotHeader_over (hw : (x.withHeader h).progress.walks endSeq = false) :
    x.gotHeader h endSeq = (x.withHeader h).deliver endSeq := by
  rw [Context.gotHeader_eq, hw, if_neg Bool.false_ne_true]

end

/-- Settles O56: the walk of R148 step by step, the writes of a delivery by `runWrites_spec`, and each end of a buffer read by
what its checked read gives. -/
theorem bufferReadEndOfAFetchCopy : Obligations.BufferReadEndOfAFetchCopy := by
  refine ⟨fun x h endSeq hp => ⟨?_, fun hr => Context.deliver_waits hp hr, Context.walkPage_eq hp, fun q =>
      ⟨fun hw => Context.gotPage_walks hp ((Progress.walks_iff hp).2 hw) q, fun hs hk =>
        Context.gotPage_over hp (Progress.walks_over hp hs hk) q⟩⟩,
    fun x q endSeq hp hs => Context.gotPage_begins hp hs q, insertPiece_spec, fun x h endSeq => ⟨fun hw => ?_, fun hs hk => ?_⟩,
    runWrites_spec, ?_, ?_⟩
  · intro hr
    refine ⟨_, Context.deliver_issues hp hr, ?_⟩
    rw [Context.startRecord_eq, deliveryHeader_eq, Progress.deliveredArea_eq]
    refine ⟨rfl, rfl, rfl, rfl, rfl, rfl, rfl, rfl, rfl, (Nat.add_assoc _ _ _).symm, rfl, ?_⟩
    exact (congrArg (· ++ _) hr.1).trans (List.nil_append _)
  · exact Context.gotHeader_walks ((Progress.walks_iff (h := h) rfl).2 (hw.imp_right fun hk => ⟨hk, rfl⟩))
  · exact Context.gotHeader_over (Progress.walks_over (h := h) rfl hs (.inl hk))
  · intro s k j u b t i first endSeq capacity loc segs hb ht hw hs
    obtain ⟨hheader, hpayload, hlink⟩ := Chip.endBufRead_fetch (c := s.toChip.upset u) hb ht hw
    set x : Context := ((s.toChip.upset u).ctx k).withoutBufRead j
    have hrun : x.state ≠ .running := fun h => by
      rcases hs with hs | hs <;> exact CtxState.noConfusion (hs.symm.trans h)
    refine ⟨fun page offset he => ⟨fun hr => ?_, fun hr => ?_⟩, fun page offset areaOff len he => ⟨fun hr => ?_, fun hr hc => ?_⟩,
      fun page he => ⟨fun hr => ?_, fun hr => ?_⟩⟩
    · obtain ⟨h, hh⟩ := Option.isSome_iff_exists.1 hr
      rw [exec_bufferReadEnd, hheader page offset he, Chip.headerRead_sound (x := x) hh, if_neg hrun]
      rfl
    · rw [exec_bufferReadEnd, hheader page offset he, Chip.headerRead_error (x := x) hr, Chip.copyError_finishing (x := x) hs]
      rfl
    · rw [exec_bufferReadEnd, hpayload page offset areaOff len he]
      rcases Bool.eq_false_or_eq_true
        ((s.toChip.upset u).mem.checkRun (wordAt page offset) (wordsFor len)).2 with hclean | hbad
      · rw [Chip.payloadRead_clean (x := x) hclean, if_neg hrun]
        rfl
      · rw [Chip.payloadRead_again (x := x) hbad (hr.resolve_left fun h => Bool.false_ne_true (hbad.symm.trans h)), if_neg hrun]
        rfl
    · obtain ⟨hdamaged, hcorrected, hsize, hbytes, hword⟩ := BufferMemory.damage_spec
        ((s.toChip.upset u).mem.checkRun (wordAt page offset) (wordsFor len)).1 (s.toChip.ctx k).progress i
      refine ⟨_, hdamaged, hcorrected, hsize, hbytes, hword, ?_⟩
      rw [exec_bufferReadEnd, hpayload page offset areaOff len he, Chip.payloadRead_converts (x := x) hr hc, if_neg hrun]
      rfl
    · obtain ⟨q, hq⟩ := Option.isSome_iff_exists.1 hr
      rw [exec_bufferReadEnd, hlink page he, Chip.linkRead_page (x := x) hq, if_neg hrun]
      rfl
    · rw [exec_bufferReadEnd, hlink page he, Chip.linkRead_error (x := x) hr, Chip.copyError_finishing (x := x) hs]
      rfl
  · intro s k j u b t i first endSeq capacity loc segs hb ht hw hs
    obtain ⟨hheader, hpayload, hlink⟩ := Chip.endBufRead_fetch (c := s.toChip.upset u) hb ht hw
    set x : Context := ((s.toChip.upset u).ctx k).withoutBufRead j
    have hrun : x.state = .running := hs
    refine ⟨fun page offset he => ⟨fun h hr => ?_, fun hr => ?_⟩, fun page offset areaOff len he => ⟨fun hr => ?_, fun hr hc => ?_,
      fun hr hc => ?_⟩, fun page he => ⟨fun q hr => ?_, fun hr => ?_⟩⟩
    · rw [exec_bufferReadEnd, hheader page offset he, Chip.headerRead_sound (x := x) hr, if_pos hrun]
      rfl
    · rw [exec_bufferReadEnd, hheader page offset he, Chip.headerRead_error (x := x) hr, Chip.copyError_running hrun]
      rfl
    · rw [exec_bufferReadEnd, hpayload page offset areaOff len he, Chip.payloadRead_clean (x := x) hr, if_pos hrun]
      rfl
    · obtain ⟨hdamaged, hcorrected, hsize, hbytes, hword⟩ := BufferMemory.damage_spec
        ((s.toChip.upset u).mem.checkRun (wordAt page offset) (wordsFor len)).1 (s.toChip.ctx k).progress i
      refine ⟨_, hdamaged, hcorrected, hsize, hbytes, hword, ?_⟩
      rw [exec_bufferReadEnd, hpayload page offset areaOff len he, Chip.payloadRead_converts (x := x) hr hc, if_pos hrun]
      rfl
    · rw [exec_bufferReadEnd, hpayload page offset areaOff len he, Chip.payloadRead_again (x := x) hr hc, if_pos hrun]
      rfl
    · rw [exec_bufferReadEnd, hlink page he, Chip.linkRead_page (x := x) hr, if_pos hrun]
      rfl
    · rw [exec_bufferReadEnd, hlink page he, Chip.linkRead_error (x := x) hr, Chip.copyError_running hrun]
      rfl

end Sys2Proof.Machine
end

section
/-! The end of INIT, and the start of QUIESCING (R162, R165, R169 to R171). -/

namespace Sys2Proof.Machine

/-! ### Buffer DRAM as INIT leaves it -/

/-- The eight bytes of a word, put together. -/
theorem wordByte_join (v : DWord) :
    wordByte v 7 ++ wordByte v 6 ++ wordByte v 5 ++ wordByte v 4 ++ wordByte v 3 ++ wordByte v 2 ++ wordByte v 1 ++
      wordByte v 0 = v := by
  simp only [wordByte, Nat.reduceMul]
  iterate 7 rw [BitVec.extractLsb'_append_extractLsb'_eq_extractLsb' (by decide)]
  exact BitVec.extractLsb'_eq_self

theorem BufferMemory.word_of_empty {m : BufferMemory} (h : m.cells = []) (w : Nat) : m.word w = m.unlistedWord w := by
  have hbyte (k : Nat) (hk : k < 8) : m.readByte (8 * w + k) = wordByte (m.unlistedWord w) k := by
    rw [BufferMemory.readByte, h, sparseGet, Option.getD_none, BufferMemory.unlisted, wordByte, Nat.mul_add_mod,
      Nat.mod_eq_of_lt hk, Nat.mul_add_div (by decide), Nat.div_eq_of_lt hk, Nat.add_zero]
  have hfirst : m.readByte (8 * w) = wordByte (m.unlistedWord w) 0 := hbyte 0 (by decide)
  rw [BufferMemory.word, hbyte 7 (by decide), hbyte 6 (by decide), hbyte 5 (by decide), hbyte 4 (by decide),
    hbyte 3 (by decide), hbyte 2 (by decide), hbyte 1 (by decide), hfirst, wordByte_join]

theorem BufferMemory.initial_link {m : BufferMemory} {d : DramSize} (h : m.cells = []) (hs : m.size = some d) {p : Nat}
    (hp : p < d.usable) : m.word (d.usable * 512 + p) = initialLink d.usable p := by
  rw [BufferMemory.word_of_empty h, BufferMemory.unlistedWord, hs]
  have hin : d.usable * Config.pageWords ≤ d.usable * 512 + p ∧
      d.usable * 512 + p < d.usable * Config.pageWords + d.usable :=
    ⟨Nat.le_add_right _ _, Nat.add_lt_add_left hp _⟩
  exact (if_pos hin).trans (congrArg _ (Nat.add_sub_cancel_left _ _))

theorem DramSize.ofMib_cases {n : Nat} {d : DramSize} (h : DramSize.ofMib n = some d) :
    n = 1024 ∧ d.usable = 260096 ∨ n = 2048 ∧ d.usable = 522240 ∨ n = 4096 ∧ d.usable = 1046528 := by
  unfold DramSize.ofMib at h
  split_ifs at h with h1 h2 h3
  · exact .inl ⟨h1, (congrArg DramSize.usable (Option.some.inj h)).symm⟩
  · exact .inr (.inl ⟨h2, (congrArg DramSize.usable (Option.some.inj h)).symm⟩)
  · exact .inr (.inr ⟨h3, (congrArg DramSize.usable (Option.some.inj h)).symm⟩)

theorem initResult_fails {size : Option Nat} {verified : Bool}
    (h : verified = false ∨ size = none ∨ ∃ n, size = some n ∧ n ≠ 1024 ∧ n ≠ 2048 ∧ n ≠ 4096) :
    initResult size verified = none := by
  rcases h with rfl | rfl | ⟨n, rfl, h1, h2, h3⟩
  · cases size <;> rfl
  · rfl
  · cases verified
    · rfl
    · exact (if_neg h1).trans ((if_neg h2).trans (if_neg h3))

theorem exec_initEnd (s : State) (size : Option Nat) (verified : Bool) :
    exec (.initEnd size verified) s = .next (s.withChip (s.toChip.initEnd size verified)) := rfl

theorem Chip.initEnd_found {c : Chip} {n : Nat} {d : DramSize} (hi : c.ctl.state = .init) (hn : DramSize.ofMib n = some d) :
    c.initEnd (some n) true = (c.initialised d).enterDisabled := by
  have hr : initResult (some n) true = some d := hn
  rw [Chip.initEnd, if_pos hi, hr]

theorem Chip.initEnd_fails {c : Chip} {size : Option Nat} {verified : Bool} (hi : c.ctl.state = .init)
    (h : initResult size verified = none) : c.initEnd size verified = c.haltedWith .memoryInit := by
  rw [Chip.initEnd, if_pos hi, h]
  simp only [Chip.halt, hi]
  rfl

/-- Settles O10. -/
theorem initEndBuildsThePoolOrHalts : Obligations.InitEndBuildsThePoolOrHalts := by
  refine ⟨fun next owner hn => ⟨(encodeLink_next next owner hn).trans ?_, (encodeLink_owner next owner).trans ?_⟩,
    fun s size verified hi => ⟨fun d hd hv => ⟨?_, fun p hp => BufferMemory.initial_link rfl rfl hp, ?_⟩, fun hf => ?_⟩⟩
  · cases next <;> rfl
  · cases owner <;> rfl
  · obtain ⟨n, rfl, hn⟩ := hd
    rw [exec_initEnd, hv, Chip.initEnd_found hi hn]
    dsimp only [Chip.enterDisabled, Chip.initialised]
  · obtain ⟨n, rfl, hn⟩ := hd
    rcases DramSize.ofMib_cases hn with ⟨rfl, hu⟩ | ⟨rfl, hu⟩ | ⟨rfl, hu⟩
    · exact .inl ⟨rfl, hu⟩
    · exact .inr (.inl ⟨rfl, hu⟩)
    · exact .inr (.inr ⟨rfl, hu⟩)
  · rw [exec_initEnd, Chip.initEnd_fails hi (initResult_fails hf)]
    rfl

/-! ### The start of QUIESCING -/

theorem Context.abandon_idle {x : Context} (h : x.state = .free ∨ x.state = .abandoning) : x.abandon = x := by
  rcases h with h | h <;> rw [Context.abandon, h]

theorem Context.abandon_busy {x : Context} (h : x.state = .running ∨ x.state = .finishing) :
    x.abandon = if x.quiet then Context.free else { x with state := .abandoning } := by
  rcases h with h | h <;> rw [Context.abandon, h]

theorem Context.quiet_eq_false (x : Context) :
    x.quiet = false ↔ x.reads ≠ [] ∨ x.writes ≠ [] ∨ x.bufReads ≠ [] ∨ x.bufWrites ≠ [] := by
  rw [← Bool.not_eq_true, Context.quiet_iff]
  tauto

theorem all_toList_iff {α : Type} {n : Nat} (v : Vector α n) (p : α → Bool) :
    v.toList.all p = true ↔ ∀ k : Fin n, p (v.get k) = true := by
  rw [List.all_eq_true]
  refine ⟨fun h k => h _ (Vector.mem_toList_iff.2 (v.getElem_mem k.isLt)), fun h x hx => ?_⟩
  obtain ⟨k, hk, rfl⟩ := Vector.mem_iff_getElem.1 (Vector.mem_toList_iff.1 hx)
  exact h ⟨k, hk⟩

theorem Chip.drained_iff (c : Chip) : c.drained = true ↔
    (∀ k, (c.ctx k).state = .free) ∧ (∀ n, (c.reqRing n).reading = none) ∧ c.link.cmpWrites = [] := by
  simp only [Chip.drained, Bool.and_eq_true, all_toList_iff, beq_iff_eq, Option.isNone_iff_eq_none, List.isEmpty_iff, and_assoc]
  rfl

theorem Chip.quiesceEnd_drained {c : Chip} (hs : c.ctl.state = .quiescing) (h : c.drained = true) : c.quiesceEnd = c.restart :=
  if_pos ⟨hs, h⟩

theorem Chip.quiesceEnd_waits {c : Chip} (h : c.drained = false) : c.quiesceEnd = c :=
  if_neg fun hd => Bool.false_ne_true (h.symm.trans hd.2)

theorem Chip.takeCopyEnds_none {c : Chip} (h : c.engine.ends = []) : c.takeCopyEnds = c := by
  rw [Chip.takeCopyEnds, h, List.foldl_nil]

/-- ENABLE 0 written in ACTIVE, by either command (log 31). -/
theorem exec_disable_active {s : State} {i : Instr} {p : Bool} {u : Upsets}
    (hi : i = .controllerReset p u ∨ i = .ctrlDisable p u) (ha : s.ctl.state = .active) :
    exec i s = .next (s.withChip
      ((((s.toChip.upset u).storeCtrl false p).takeCopyEnds.takeCopyEnds).quiesced p).quiesceEnd) := by
  have hw : (s.toChip.upset u).writeCtrl false p = ((s.toChip.upset u).storeCtrl false p).startQuiesce p := by
    have ha' : (s.toChip.upset u).ctl.state = .active := ha
    rw [Chip.writeCtrl, ha']
    rfl
  rcases hi with rfl | rfl
  · rw [exec_controllerReset, hw, Chip.startQuiesce_eq]
  · rw [exec_ctrlDisable, hw, Chip.startQuiesce_eq]

theorem exec_quiesceEnd (s : State) (u : Upsets) :
    exec (.quiesceEnd u) s = .next (s.withChip (s.toChip.upset u).quiesceEnd) := rfl

/-- Settles O12. -/
theorem controllerResetStartsTheQuiesce : Obligations.ControllerResetStartsTheQuiesce := by
  refine ⟨fun x => ⟨Context.abandon_idle, fun h => ⟨fun ho => ?_, fun ho => ?_⟩⟩,
    fun e => ⟨rfl, rfl, e.abandon_get⟩, fun s slot => ⟨rfl, rfl⟩, fun s i p u hi ha => ?_⟩
  · rw [Context.abandon_busy h, x.quiet_eq_false.2 ho, if_neg Bool.false_ne_true]
  · rw [Context.abandon_busy h, if_pos (Bool.eq_true_of_not_eq_false fun hq => ho (x.quiet_eq_false.1 hq))]
    rfl
  · intro take stored once c x
    have hexec : exec i s = .next (s.withChip x.quiesceEnd) := exec_disable_active hi ha
    refine ⟨x.drained_iff, fun hd => ?_, fun hd => ?_, hexec, fun he => ?_⟩
    · rw [hexec, Chip.quiesceEnd_waits hd]
    · rw [hexec, Chip.quiesceEnd_drained rfl hd]
    · have honce : once = stored := Chip.takeCopyEnds_none (c := stored) he
      have hc : c = once := Chip.takeCopyEnds_none (c := once) (honce ▸ he)
      exact hc.trans honce

end Sys2Proof.Machine
end

section
/-! The part in HALTED (R173): what each command leaves as it is. -/

namespace Sys2Proof.Machine

/-- Controller, streams, pool and rings are the same, and buffer DRAM has the same size. -/
structure Still (c t : Chip) : Prop where
  ctl : t.ctl = c.ctl
  streams : t.streams = c.streams
  pool : t.pool = c.pool
  rings : t.rings = c.rings
  size : t.mem.size = c.mem.size

namespace Still
variable {a b c t : Chip}

theorem refl (c : Chip) : Still c c := ⟨rfl, rfl, rfl, rfl, rfl⟩

theorem trans (h : Still a b) (k : Still b c) : Still a c :=
  ⟨k.ctl.trans h.ctl, k.streams.trans h.streams, k.pool.trans h.pool, k.rings.trans h.rings, k.size.trans h.size⟩

theorem setMem {m : BufferMemory} (h : m.size = c.mem.size) : Still c { c with mem := m } := ⟨rfl, rfl, rfl, rfl, h⟩

theorem setLink (l : HostLink) : Still c { c with link := l } := ⟨rfl, rfl, rfl, rfl, rfl⟩

theorem setEngine (e : Engine) : Still c { c with engine := e } := ⟨rfl, rfl, rfl, rfl, rfl⟩

theorem readReg (h : Still c t) (offset : Nat) : t.readReg offset = c.readReg offset := by
  simp only [Chip.readReg, Chip.reqRing, Chip.cmpRing, h.ctl, h.rings]
  rfl

end Still

theorem Chip.still_of_eq {c t : Chip} (h : t = c) : Still c t := h ▸ .refl c

/-! ### Memory keeps its size -/

theorem BufferMemory.checkRun_size (m : BufferMemory) (w n : Nat) : (m.checkRun w n).1.size = m.size := by
  induction n generalizing m w with
  | zero => rfl
  | succ n ih => exact (ih _ _).trans (m.check_spec w).1.size

theorem Chip.upset_still (c : Chip) (u : Upsets) : Still c (c.upset u) :=
  .setMem (List.foldlRecOn (motive := fun m => m.size = c.mem.size) u BufferMemory.upset rfl fun _ h _ _ => h.symm ▸ rfl)

/-! ### The engine's events with every context FREE or ABANDONING -/

section
variable {c : Chip} {k : CtxId}

theorem Chip.settle_still (c : Chip) (k : CtxId) : Still c (c.settle k) := by rw [c.settle_engine]; exact .setEngine _

theorem Chip.setCtx_settle_still (c : Chip) (k : CtxId) (x : Context) : Still c ((c.setCtx k x).settle k) :=
  .trans (.setEngine _) (Chip.settle_still _ k)

theorem Chip.onCtx_still {n : Nat} {f : CtxId → Chip} (h : ∀ k, Still c (f k)) : Still c (c.onCtx n f) := by
  unfold Chip.onCtx
  split
  · exact .refl c
  · exact h _

theorem Chip.endHostRead_still (c : Chip) (k : CtxId) (j : Nat) (res : HostReadEnd) : Still c (c.endHostRead k j res) := by
  unfold Chip.endHostRead
  dsimp only
  split
  · exact .refl c
  · split
    · split
      · exact c.setCtx_settle_still k _
      · exact .refl c
    · exact c.setCtx_settle_still k _
    · exact c.setCtx_settle_still k _

theorem Chip.endHostWrite_still (c : Chip) (k : CtxId) : Still c (c.endHostWrite k) := by
  unfold Chip.endHostWrite
  dsimp only
  split
  · exact .refl c
  · split
    · exact .trans (.setLink _) (Chip.setCtx_settle_still _ k _)
    · exact c.setCtx_settle_still k _

theorem Chip.endBufWrite_still (c : Chip) (k : CtxId) (j : Nat) : Still c (c.endBufWrite k j) := by
  unfold Chip.endBufWrite
  dsimp only
  split
  · exact .refl c
  · split
    · exact .setEngine _
    · split
      · exact .trans (.trans (.setEngine _) (.setMem (BufferMemory.writeRange_counters _ _ _ _ _).1)) (Chip.settle_still _ k)
      all_goals exact .setEngine _

theorem Chip.headerRead_still (c : Chip) (k : CtxId) {x : Context} (i : StreamId) (endSeq page offset : Nat) (hx : x.dormant) :
    Still c (c.headerRead k x i endSeq page offset) := by
  have hmem : Still c { c with mem := (c.mem.readHeader i x.progress.seq page offset).1 } :=
    .setMem (c.mem.readHeader_spec i x.progress.seq page offset).1.size
  unfold Chip.headerRead
  dsimp only
  split
  · rw [Chip.copyError_of_dormant _ _ _ _ hx]
    exact hmem.trans (Chip.setCtx_settle_still _ k x)
  · exact hmem.trans (Chip.setCtx_settle_still _ k _)

theorem Chip.payloadRead_still (c : Chip) (k : CtxId) (x : Context) (endSeq page offset areaOff len : Nat) :
    Still c (c.payloadRead k x endSeq page offset areaOff len) := by
  have hmem : Still c { c with mem := (c.mem.checkRun (wordAt page offset) (wordsFor len)).1 } :=
    .setMem (c.mem.checkRun_size _ _)
  unfold Chip.payloadRead
  dsimp only
  split
  · exact hmem.trans (Chip.setCtx_settle_still _ k _)
  · split
    · exact hmem.trans (Chip.setCtx_settle_still _ k _)
    · exact (hmem.trans (.setMem (BufferMemory.damage_counters _ _).2.2)).trans (Chip.setCtx_settle_still _ k _)

theorem Chip.linkRead_still (c : Chip) (k : CtxId) {x : Context} (i : StreamId) (endSeq page : Nat) (hx : x.dormant) :
    Still c (c.linkRead k x i endSeq page) := by
  have hmem : Still c (c.followChain i page).1 := by
    rw [(c.followChain_spec i page).1]
    exact .setMem (c.followChain_spec i page).2.1.size
  unfold Chip.linkRead
  dsimp only
  split
  · rw [Chip.copyError_of_dormant _ _ _ _ hx]
    exact hmem.trans (Chip.setCtx_settle_still _ k x)
  · exact hmem.trans (Chip.setCtx_settle_still _ k _)

theorem Chip.endBufRead_still (c : Chip) (k : CtxId) (j : Nat) (hk : (c.ctx k).dormant) : Still c (c.endBufRead k j) := by
  unfold Chip.endBufRead
  dsimp only
  split
  · split
    · split
      · exact c.headerRead_still k _ _ _ _ hk
      · exact c.payloadRead_still k _ _ _ _ _ _
      · exact c.linkRead_still k _ _ _ hk
    all_goals exact .refl c
  · exact .refl c

end

/-! ### Commands that act in ACTIVE alone -/

section
variable {c : Chip}

theorem Chip.serve_inactive (ha : c.isActive = false) (o : Owner) (act : Nat → Request → Chip → Option Chip) :
    c.serve o act = c := by
  rw [Chip.serve, ha, if_neg Bool.false_ne_true]

theorem Chip.onRing_still {n : Nat} {f : RingId → Chip} (h : ∀ r, Still c (f r)) : Still c (c.onRing n f) := by
  unfold Chip.onRing
  split
  · exact .refl c
  · exact h _

theorem Chip.writeReqPut_inactive (ha : c.isActive = false) (n : RingId) (v : Nat) : c.writeReqPut n v = c :=
  if_neg fun h => Bool.false_ne_true (ha.symm.trans h.1)

theorem Chip.writeCmpTake_inactive (ha : c.isActive = false) (n : RingId) (v : Nat) : c.writeCmpTake n v = c :=
  if_neg fun h => Bool.false_ne_true (ha.symm.trans h.1)

theorem Chip.selectRing_inactive (ha : c.isActive = false) : c.selectRing = none := by
  have hno (n : RingId) : c.eligible n = false := by simp [Chip.eligible, ha]
  rw [Chip.selectRing, hno, if_neg Bool.false_ne_true]
  exact List.find?_eq_none.2 fun n _ => Bool.not_eq_true _ ▸ hno n

theorem Chip.appendDeadline_inactive (ha : c.isActive = false) (id : Nat) : c.appendDeadline id = c := by
  unfold Chip.appendDeadline
  split
  · rfl
  · rw [ha, Bool.false_and, if_neg Bool.false_ne_true]

theorem Chip.fetchDeadline_inactive (ha : c.isActive = false) (id : Nat) : c.fetchDeadline id = c := by
  unfold Chip.fetchDeadline
  split
  · rfl
  · rw [ha, Bool.false_and, Bool.false_and, if_neg Bool.false_ne_true]

theorem Chip.startTransfer_inactive (ha : c.isActive = false) : c.startTransfer = c := by
  rw [Chip.startTransfer, ha, if_neg Bool.false_ne_true]

theorem Chip.arbiterStart_inactive (ha : c.isActive = false) : c.arbiterStart = c :=
  if_neg fun h => Bool.false_ne_true (ha.symm.trans h.1)

theorem Chip.arbiterVisit_inactive (ha : c.isActive = false) : c.arbiterVisit = c := by
  rw [Chip.arbiterVisit, ha, if_neg Bool.false_ne_true]

theorem Chip.dropEnd_still (c : Chip) (k : EndKind) (id : Nat) : Still c (c.dropEnd k id) := .setEngine _

theorem Chip.listReadEnd_inactive (ha : c.isActive = false) (id : Nat) : Still c (c.listReadEnd id) := by
  unfold Chip.listReadEnd
  split
  · exact .refl c
  · exact (if_neg (ne_true_of_eq_false ha)).symm ▸ c.dropEnd_still _ _

theorem Chip.reportWriteEnd_inactive (ha : c.isActive = false) (id : Nat) : Still c (c.reportWriteEnd id) := by
  unfold Chip.reportWriteEnd
  split
  · exact .refl c
  · exact (if_neg (ne_true_of_eq_false ha)).symm ▸ c.dropEnd_still _ _

theorem Chip.still_of_discarded {t : Chip} {k : EndKind} {id : Nat} (h : t = c ∨ t = c.dropEnd k id) : Still c t := by
  rcases h with rfl | rfl
  · exact .refl _
  · exact c.dropEnd_still k id

end

/-! ### Commands that HALTED ignores -/

theorem Chip.unmaskVector_still (c : Chip) (n : RingId) : Still c (c.unmaskVector n) := by
  unfold Chip.unmaskVector
  dsimp only
  split <;> exact .setLink _

section
variable {c : Chip} (h : c.ctl.state = .halted)
include h

theorem Chip.isActive_halted : c.isActive = false := by rw [Chip.isActive, h]; rfl

theorem Chip.writeFails_halted (n : RingId) (w : CmpWrite) : c.writeFails n w = c :=
  if_neg fun hw => by rcases hw.2 with e | e <;> exact CtlState.noConfusion (h.symm.trans e)

theorem Chip.completionWriteEnd_halted (n : RingId) : Still c (c.completionWriteEnd n) := by
  unfold Chip.completionWriteEnd
  dsimp only
  split
  · exact .refl c
  · split
    · exact .setLink _
    · rename_i w rest _ _
      exact (Still.setLink { c.link with cmpWrites := rest }).trans
        (Chip.still_of_eq (Chip.writeFails_halted (c := { c with link := { c.link with cmpWrites := rest } }) h n w))

theorem Chip.timerExpiry_halted (n : RingId) : c.timerExpiry n = c :=
  if_neg fun ht => by rcases ht.2 with e | e <;> exact CtlState.noConfusion (h.symm.trans e)

theorem Chip.writeRegister_halted (offset bits : Nat) (v : DWord) : c.writeRegister offset bits v = c := by
  have ha := Chip.isActive_halted h
  have h32 (w : Word) : c.write32 offset w = c := by
    unfold Chip.write32 Chip.writeIndex
    dsimp only
    split_ifs
    · exact Chip.writeCtrl_halted _ _ h
    · exact Chip.writeReqPut_inactive ha _ _
    · exact Chip.writeCmpTake_inactive ha _ _
    · rfl
    · exact if_pos h
  unfold Chip.writeRegister
  split_ifs
  · exact h32 _
  · exact if_pos h
  · rfl

end

/-- Every command but a full reset, in HALTED with the engine quiet. -/
theorem exec_still {i : Instr} {s t : State} (h : s.ctl.state = .halted) (hq : ∀ k, (s.toChip.ctx k).dormant)
    (hi : i ≠ .fullReset) (he : exec i s = .next t) : Still s.toChip t.toChip := by
  have ha := Chip.isActive_halted h
  have hserve (u : Upsets) (o : Owner) (act : Nat → Request → Chip → Option Chip) :
      Still s.toChip ((s.toChip.upset u).serve o act) :=
    (Chip.serve_inactive (c := s.toChip.upset u) ha o act).symm ▸ s.toChip.upset_still u
  have hctrl (u : Upsets) (e p : Bool) : Still s.toChip ((s.toChip.upset u).writeCtrl e p) :=
    (Chip.writeCtrl_halted (c := s.toChip.upset u) e p h).symm ▸ s.toChip.upset_still u
  cases i with
  | fullReset => exact absurd rfl hi
  | initEnd size v => cases he; exact Chip.still_of_eq (if_neg fun e => CtlState.noConfusion (h.symm.trans e))
  | ctrlEnable p => cases he; exact hctrl [] true p
  | controllerReset p u => cases he; exact hctrl u false p
  | ctrlDisable p u => cases he; exact hctrl u false p
  | quiesceEnd u =>
    cases he
    exact (s.toChip.upset_still u).trans (Chip.still_of_eq (if_neg fun e => CtlState.noConfusion (h.symm.trans e.1)))
  | reqPutWrite n v =>
    cases he; exact Chip.onRing_still fun r => Chip.still_of_eq (Chip.writeReqPut_inactive ha r _)
  | cmpTakeWrite n v =>
    cases he; exact Chip.onRing_still fun r => Chip.still_of_eq (Chip.writeCmpTake_inactive ha r _)
  | registerWrite offset bits v u =>
    by_cases ho : 4096 ≤ offset
    · cases (if_pos ho).symm.trans he
    · cases (if_neg ho).symm.trans he
      exact (s.toChip.upset_still u).trans
        (Chip.still_of_eq (Chip.writeRegister_halted (c := s.toChip.upset u) h offset bits v))
  | vectorMask n => cases he; exact Chip.onRing_still fun r => .setLink _
  | vectorUnmask n => cases he; exact Chip.onRing_still fun r => Chip.unmaskVector_still _ r
  | ringTakeStart => cases he; dsimp only; rw [Chip.selectRing_inactive ha]; exact .refl _
  | entryReadEnd n r =>
    cases he; exact Chip.onRing_still fun m => Chip.still_of_eq (Chip.entryReadEnd_halted r h)
  | append u | fetch u | rewind u | release u | streamFlush u | streamClose u | ringDeleteRequestRing u | cancel u =>
    cases he; exact hserve u _ _
  | mark | streamOpen | streamSet | streamResume | streamReport | poolReport | describe | ringCreate
  | ringDeleteCompletionRing =>
    cases he; exact hserve [] _ _
  | appendDeadline slot => cases he; exact Chip.still_of_eq (Chip.appendDeadline_inactive ha slot)
  | fetchDeadline slot u =>
    cases he
    exact (s.toChip.upset_still u).trans (Chip.still_of_eq (Chip.fetchDeadline_inactive (c := s.toChip.upset u) ha slot))
  | transferStart => cases he; exact Chip.still_of_eq (Chip.startTransfer_inactive ha)
  | hostReadEnd ctx access r => cases he; exact Chip.onCtx_still fun k => Chip.endHostRead_still _ k access r
  | hostWriteEnd ctx access =>
    cases he
    refine Chip.onCtx_still fun k => ?_
    cases access with
    | zero => exact Chip.endHostWrite_still _ k
    | succ n => exact .refl _
  | bufferReadEnd ctx access u =>
    cases he
    exact (s.toChip.upset_still u).trans (Chip.onCtx_still fun k => Chip.endBufRead_still _ k access (hq k))
  | appendCopyEnd slot u =>
    cases he
    exact (s.toChip.upset_still u).trans (Chip.still_of_discarded (Chip.appendCopyEnd_inactive (s.toChip.upset u) slot ha))
  | fetchCopyEnd slot u =>
    cases he
    exact (s.toChip.upset_still u).trans (Chip.still_of_discarded (Chip.fetchCopyEnd_inactive (s.toChip.upset u) slot ha))
  | listReadEnd slot u =>
    cases he; exact (s.toChip.upset_still u).trans (Chip.listReadEnd_inactive (c := s.toChip.upset u) ha slot)
  | reportWriteEnd slot => cases he; exact Chip.reportWriteEnd_inactive ha slot
  | grantArbiterStart => cases he; exact Chip.still_of_eq (Chip.arbiterStart_inactive ha)
  | completionWriteEnd n => cases he; exact Chip.onRing_still fun r => Chip.completionWriteEnd_halted h r
  | coalesceTimerExpiry n => cases he; exact Chip.onRing_still fun r => Chip.still_of_eq (Chip.timerExpiry_halted h r)
  | bufferWriteEnd ctx access => cases he; exact Chip.onCtx_still fun k => Chip.endBufWrite_still _ k access
  | grantArbiterVisit u =>
    cases he
    exact (s.toChip.upset_still u).trans (Chip.still_of_eq (Chip.arbiterVisit_inactive (c := s.toChip.upset u) ha))
  | hostLinkAccessChange up access => cases he; exact .setLink _

/-- Settles O14, by `exec_still`. -/
theorem haltedKeepsItsState : Obligations.HaltedKeepsItsState := by
  intro i s t h hq hi he
  have hstill := exec_still h (hq fun e => CtlState.noConfusion (h.symm.trans e)).2 hi he
  exact ⟨hstill.ctl, hstill.streams, hstill.pool, hstill.rings, hstill.size, hstill.readReg⟩

end Sys2Proof.Machine
end

section
/-! Requests on streams at the Stream Controller (R8, R9, R125): what each does on the stream it names, what refuses it before that,
and what requests and ring events leave as it was. -/

namespace Sys2Proof.Machine

/-! ### A request at the Stream Controller -/

/-- What a request in slot `id` does on stream `i` once its stream's state has passed the check. -/
def Request.actOn (q : Request) (id : Nat) (c : Chip) (i : StreamId) : Chip :=
  match q.body with
  | .append length tag src => c.append i id length q.wait tag src
  | .fetch maxRecords minRecords src => c.fetch i id maxRecords minRecords q.wait src
  | .mark => c.mark i id
  | .rewind variant target => c.rewind i id variant target
  | .release variant target => c.release i id variant target
  | .streamOpen b => c.openStream i id b
  | .streamSet b => c.setSettings i id b
  | .streamFlush => c.flushStream i id
  | .streamClose => c.closeStream i id
  | .streamResume ring => c.resumeStream i id ring
  | .streamReport buffer => c.streamReport i id buffer
  | _ => c

/-- An owner acts on its oldest request, on the part it finds (R125). -/
theorem State.onChip_serve {s : State} {u : Upsets} {o : Owner} {id : Nat} {q : Request}
    {act : Nat → Request → Chip → Option Chip} {t : Chip} (hs : s.toChip.Serving o id q)
    (hact : act id q (s.taking u id) = some t) :
    (s.onChip fun c => (c.upset u).serve o act) = .next (s.withChip t) :=
  congrArg (fun c => Host.Outcome.next (s.withChip c))
    (Chip.serve_of_serving (c := s.toChip.upset u) ⟨hs.active, hs.current⟩ hact)

/-- The command of a stream request: its checks, then what it does. -/
theorem exec_streamRequest {s : State} {id : Nat} {q : Request} {g : RequestGroup}
    (hs : s.toChip.Serving .streamController id q) (hg : q.body.group = some g) (u : Upsets) :
    exec (q.body.command u) s = .next (s.withChip
      ((s.taking (q.body.errors u) id).onStream id q g (q.actOn id (s.taking (q.body.errors u) id)))) := by
  unfold Request.actOn
  cases hb : q.body with
  | append length tag src =>
    cases hb ▸ hg; exact State.onChip_serve (act := appendAct) hs (by simp only [appendAct, hb]; rfl)
  | fetch maxRecords minRecords src =>
    cases hb ▸ hg; exact State.onChip_serve (act := fetchAct) hs (by simp only [fetchAct, hb]; rfl)
  | mark => cases hb ▸ hg; exact State.onChip_serve (u := []) (act := markAct) hs (by simp only [markAct, hb]; rfl)
  | rewind variant target =>
    cases hb ▸ hg; exact State.onChip_serve (act := rewindAct) hs (by simp only [rewindAct, hb]; rfl)
  | release variant target =>
    cases hb ▸ hg; exact State.onChip_serve (act := releaseAct) hs (by simp only [releaseAct, hb]; rfl)
  | streamOpen b =>
    cases hb ▸ hg; exact State.onChip_serve (u := []) (act := streamOpenAct) hs (by simp only [streamOpenAct, hb]; rfl)
  | streamSet b =>
    cases hb ▸ hg; exact State.onChip_serve (u := []) (act := streamSetAct) hs (by simp only [streamSetAct, hb]; rfl)
  | streamFlush => cases hb ▸ hg; exact State.onChip_serve (act := streamFlushAct) hs (by simp only [streamFlushAct, hb]; rfl)
  | streamClose => cases hb ▸ hg; exact State.onChip_serve (act := streamCloseAct) hs (by simp only [streamCloseAct, hb]; rfl)
  | streamResume ring =>
    cases hb ▸ hg; exact State.onChip_serve (u := []) (act := streamResumeAct) hs (by simp only [streamResumeAct, hb]; rfl)
  | streamReport buffer =>
    cases hb ▸ hg; exact State.onChip_serve (u := []) (act := streamReportAct) hs (by simp only [streamReportAct, hb]; rfl)
  | _ => cases hb ▸ hg

/-- A stream request whose stream's state passes the check. -/
theorem exec_streamRequest_passes {s : State} {id : Nat} {q : Request} {i : StreamId} {g : RequestGroup}
    (hs : s.toChip.ServingStream id q i) (hg : q.body.group = some g)
    (hpass : stateCheck g (s.toChip.stream i).state = none) (u : Upsets) :
    exec (q.body.command u) s = .next (s.withChip (q.actOn id (s.taking (q.body.errors u) id) i)) := by
  rw [exec_streamRequest hs.serving hg u, Chip.onStream_of_passes (c := s.taking (q.body.errors u) id) hs.stream hpass]

theorem Body.group_of_owner {b : Body} (h : b.owner = .streamController) : ∃ g, b.group = some g := by
  cases b with
  | describe buffer => cases h
  | ringCreate block => cases h
  | ringDelete block => cases h
  | poolReport buffer => cases h
  | cancel ring command => cases h
  | _ => exact ⟨_, rfl⟩

theorem Chip.Serving.group {c : Chip} {id : Nat} {q : Request} (h : c.Serving .streamController id q) :
    ∃ g, q.body.group = some g := Body.group_of_owner (Chip.current_eq_some.1 h.current).1.1

/-! ### Refusals -/

section
variable {c : Chip} {id : Nat} {q : Request} {g : RequestGroup} {act : StreamId → Chip}

theorem Request.stream_eq_none (h : 512 ≤ q.streamId.toNat) : q.stream = none := dif_neg (Nat.not_lt.2 h)

theorem Request.stream_eq_some {i : StreamId} (h : q.streamId.toNat = i.val) : q.stream = some i := by
  have hlt : q.streamId.toNat < 512 := h ▸ i.isLt
  rw [Request.stream, dif_pos hlt]
  exact congrArg some (Fin.ext h)

theorem Chip.onStream_unknown (h : q.stream = none) : c.onStream id q g act = c.refuse id .badStream := by
  simp only [Chip.onStream, h]

theorem Chip.onStream_refused {i : StreamId} {st : Status} (h : q.stream = some i)
    (hs : stateCheck g (c.stream i).state = some st) : c.onStream id q g act = c.refuse id st := by
  simp only [Chip.onStream, h, hs]

end

/-- A stream request whose stream's state refuses it. -/
theorem exec_streamRequest_refused {s : State} {id : Nat} {q : Request} {i : StreamId} {g : RequestGroup} {st : Status}
    (hs : s.toChip.Serving .streamController id q) (hi : q.stream = some i) (hg : q.body.group = some g)
    (hst : stateCheck g (s.toChip.stream i).state = some st) (u : Upsets) :
    exec (q.body.command u) s = .next (s.withChip ((s.taking (q.body.errors u) id).refuse id st)) := by
  rw [exec_streamRequest hs hg u, Chip.onStream_refused (c := s.taking (q.body.errors u) id) hi hst]

/-- Settles O28. -/
theorem streamRequestRefusedByState : Obligations.StreamRequestRefusedByState := by
  refine ⟨by decide, fun s id q u g hs hg => ⟨fun h => ?_, fun i st hi hst => ⟨?_, (Chip.answer_rings _ _ _).streams⟩⟩⟩
  · rw [exec_streamRequest hs hg u, Chip.onStream_unknown (Request.stream_eq_none h)]
    rfl
  · exact exec_streamRequest_refused hs (Request.stream_eq_some hi) hg hst u

/-! ### What a request on one stream leaves as it was -/

/-- Buffer DRAM, the contexts and the counts of the pool are the same. -/
structure Outside (c t : Chip) : Prop where
  mem : t.mem = c.mem
  contexts : t.engine.contexts = c.engine.contexts
  free : t.pool.free = c.pool.free
  lost : t.pool.lost = c.pool.lost

namespace Outside
variable {a b c t : Chip}

theorem trans (h : Outside a b) (k : Outside b c) : Outside a c :=
  ⟨k.mem.trans h.mem, k.contexts.trans h.contexts, k.free.trans h.free, k.lost.trans h.lost⟩

theorem of_notices (h : OnlyNotices c t) : Outside c t :=
  ⟨h.mem, congrArg Engine.contexts h.engine, congrArg Pool.free h.pool, congrArg Pool.lost h.pool⟩

theorem setStream (i : StreamId) (st : StreamEntry) : Outside c (c.setStream i st) := ⟨rfl, rfl, rfl, rfl⟩

theorem answer (id : Nat) (f : Request → Completion) : Outside c (c.answer id f) := .of_notices (c.answer_rings id f).notices

theorem startArbiterIf (b : Bool) : Outside c (c.startArbiterIf b) := by
  unfold Chip.startArbiterIf Chip.startArbiter
  split_ifs <;> exact ⟨rfl, rfl, rfl, rfl⟩

theorem mark (i : StreamId) (id : Nat) : Outside c (c.mark i id) := by
  unfold Chip.mark
  dsimp only
  split_ifs
  · exact .answer id _
  · exact .answer id _
  · exact .answer id _
  · exact .trans (.setStream i _) (.answer id _)

theorem openStream (i : StreamId) (id : Nat) (b : SettingsBlock) : Outside c (c.openStream i id b) := by
  unfold Chip.openStream
  split_ifs
  · exact .answer id _
  · exact .answer id _
  · exact .trans (.setStream i _) (.answer id _)

theorem attemptIfMoved (i : StreamId) (old : Option RingId) : Outside c (c.attemptIfMoved i old) := by
  unfold Chip.attemptIfMoved
  split
  · exact ⟨rfl, rfl, rfl, rfl⟩
  · exact .of_notices (c.attempt_notices i)

theorem refuseTooLarge (i : StreamId) (quota : Nat) : Outside c (c.refuseTooLarge i quota) :=
  .trans (.setStream i _) (.of_notices (Chip.refuseAll_rings _ _ _).notices)

theorem setSettings (i : StreamId) (id : Nat) (b : SettingsBlock) : Outside c (c.setSettings i id b) := by
  unfold Chip.setSettings
  dsimp only
  split_ifs
  · exact .answer id _
  · exact .answer id _
  · exact .answer id _
  · exact (((Outside.setStream i _).trans (.refuseTooLarge i _)).trans (.attemptIfMoved i _)).trans
      ((Outside.answer id _).trans (.startArbiterIf _))

theorem resumeStream (i : StreamId) (id ring : Nat) : Outside c (c.resumeStream i id ring) := by
  unfold Chip.resumeStream
  dsimp only
  split_ifs
  · exact .answer id _
  · exact .trans (.setStream i _) (.answer id _)

theorem streamReport (i : StreamId) (id : Nat) (buffer : Segment) : Outside c (c.streamReport i id buffer) := by
  unfold Chip.streamReport
  dsimp only
  split_ifs
  · exact ⟨rfl, rfl, rfl, rfl⟩
  · exact .answer id _

end Outside

/-- A request that reads and writes no buffer DRAM: MARK, STREAM_OPEN, STREAM_SET, STREAM_RESUME, STREAM_REPORT. -/
def Body.Plain (b : Body) : Prop :=
  b = .mark ∨ (∃ x, b = .streamOpen x) ∨ (∃ x, b = .streamSet x) ∨ (∃ n, b = .streamResume n) ∨ ∃ d, b = .streamReport d

theorem Request.actOn_outside {q : Request} (h : q.body.Plain) (id : Nat) (c : Chip) (i : StreamId) :
    Outside c (q.actOn id c i) := by
  unfold Request.actOn
  rcases h with h | ⟨b, h⟩ | ⟨b, h⟩ | ⟨n, h⟩ | ⟨d, h⟩ <;> rw [h]
  · exact .mark i id
  · exact .openStream i id b
  · exact .setSettings i id b
  · exact .resumeStream i id n
  · exact .streamReport i id d

theorem Body.Plain.errors {b : Body} (h : b.Plain) (u : Upsets) : b.errors u = [] := by
  rcases h with rfl | ⟨b, rfl⟩ | ⟨b, rfl⟩ | ⟨n, rfl⟩ | ⟨d, rfl⟩ <;> rfl

/-- What a request does to the Controller and to streams other than its own. -/
def Request.Confined (q : Request) (i : StreamId) (c t : Chip) : Prop :=
  (∀ j, j ≠ i → t.stream j = c.stream j) ∧
    (t.ctl = c.ctl ∨ (∃ length tag src, q.body = .append length tag src) ∧ t.ctl.state = .halted)

theorem Request.Confined.of_onlyStream {q : Request} {i : StreamId} {c t : Chip} (h : OnlyStream i c t) : q.Confined i c t :=
  ⟨h.others, .inl h.ctl⟩

theorem Request.actOn_confined {q : Request} {g : RequestGroup} {c : Chip} {i : StreamId} (hg : q.body.group = some g)
    (ha : c.isActive = true) (hpass : stateCheck g (c.stream i).state = none) (id : Nat) : q.Confined i c (q.actOn id c i) := by
  unfold Request.actOn
  cases hb : q.body with
  | append length tag src =>
    cases hb ▸ hg
    rcases Chip.append_safe (c := c) (i := i) id length q.wait tag src (stateCheck_io_eq_none hpass) with h | ⟨m, h, -⟩
    · exact .of_onlyStream h.onlyStream
    · dsimp only
      rw [h, Chip.halt_of_active (c := { c with mem := m }) _ (c.isActive_iff.1 ha)]
      exact ⟨fun _ _ => rfl, .inr ⟨⟨_, _, _, hb⟩, rfl⟩⟩
  | fetch maxRecords minRecords src => exact .of_onlyStream (c.fetch_safeOn i id _ _ _ _).onlyStream
  | mark => exact .of_onlyStream (c.mark_safeOn i id).onlyStream
  | rewind variant target => exact .of_onlyStream (c.rewind_safeOn i id _ _).onlyStream
  | release variant target => exact .of_onlyStream (c.release_safeOn i id _ _).onlyStream
  | streamOpen b =>
    cases hb ▸ hg
    exact .of_onlyStream (Chip.openStream_safeOn id b (stateCheck_open_eq_none hpass)).onlyStream
  | streamSet b =>
    cases hb ▸ hg
    exact .of_onlyStream (Chip.setSettings_safeOn id b (stateCheck_set_eq_none hpass)).onlyStream
  | streamFlush =>
    cases hb ▸ hg
    exact .of_onlyStream (Chip.flushStream_safeOn id (stateCheck_flush_eq_none hpass)).onlyStream
  | streamClose => exact .of_onlyStream (c.closeStream_safeOn i id).onlyStream
  | streamResume ring =>
    cases hb ▸ hg
    exact .of_onlyStream (Chip.resumeStream_safeOn id ring (stateCheck_resume_eq_none hpass)).onlyStream
  | streamReport buffer => exact .of_onlyStream (c.streamReport_safeOn i id buffer).onlyStream
  | _ => cases hb ▸ hg

/-! ### What the events of rings, vectors and the link leave as it was -/

/-- Buffer DRAM, the pool and every stream but for its latches are the same; Controller and engine too, unless a control ring's
error halted the part. -/
structure RingFrame (c t : Chip) : Prop where
  mem : t.mem = c.mem
  pool : t.pool = c.pool
  streams : ∀ j, (t.stream j).clearLatches = (c.stream j).clearLatches
  halt : t.ctl = c.ctl ∧ t.engine = c.engine ∨
    t.ctl = { c.ctl with state := .halted, cause := .controlRing } ∧ t.engine = c.engine.abandon

theorem RingEvent.frame {c t : Chip} (h : RingEvent c t) : RingFrame c t := by
  obtain ⟨d, hd, rfl | rfl⟩ := h
  · exact ⟨hd.mem, hd.pool, hd.streams, .inl ⟨hd.ctl, hd.engine⟩⟩
  · exact ⟨hd.mem, hd.pool, hd.streams, .inr ⟨by rw [Chip.haltedWith, hd.ctl], congrArg Engine.abandon hd.engine⟩⟩

theorem Chip.takeStart_frame (c : Chip) :
    RingFrame c (match c.selectRing with | none => c | some n => c.startTake n) := by
  split <;> exact ⟨rfl, rfl, fun _ => rfl, .inl ⟨rfl, rfl⟩⟩

/-- An event of a ring, a vector or the link. -/
def RingInstr (i : Instr) : Prop :=
  (∃ n v, i = .reqPutWrite n v) ∨ (∃ n v, i = .cmpTakeWrite n v) ∨ (∃ n, i = .vectorMask n) ∨
    (∃ n, i = .vectorUnmask n) ∨ i = .ringTakeStart ∨ (∃ n r, i = .entryReadEnd n r) ∨
    (∃ n, i = .completionWriteEnd n) ∨ (∃ n, i = .coalesceTimerExpiry n) ∨
    (∃ up access, i = .hostLinkAccessChange up access)

theorem exec_ringFrame {s t : State} {i : Instr} (h : RingInstr i) (he : exec i s = .next t) : RingFrame s.toChip t.toChip := by
  rcases h with ⟨n, v, rfl⟩ | ⟨n, v, rfl⟩ | ⟨n, rfl⟩ | ⟨n, rfl⟩ | rfl | ⟨n, r, rfl⟩ | ⟨n, rfl⟩ | ⟨n, rfl⟩ | ⟨up, access, rfl⟩ <;>
    cases he
  · exact (Chip.onRing_event fun r => Chip.writeReqPut_event _ r _).frame
  · exact (Chip.onRing_event fun r => Chip.writeCmpTake_event _ r _).frame
  · exact (Chip.onRing_event fun r => Chip.maskVector_event _ r).frame
  · exact (Chip.onRing_event fun r => Chip.unmaskVector_event _ r).frame
  · exact Chip.takeStart_frame _
  · exact (Chip.onRing_event fun m => Chip.entryReadEnd_event _ m r).frame
  · exact (Chip.onRing_event fun r => Chip.completionWriteEnd_event _ r).frame
  · exact (Chip.onRing_event fun r => Chip.timerExpiry_event _ r).frame
  · exact (Chip.setLink_rings _ _).event.frame

/-- Settles O59, by `Request.actOn_confined`, `Request.actOn_outside` and `exec_ringFrame`. -/
theorem framesOfRequestsAndRingEvents : Obligations.FramesOfRequestsAndRingEvents := by
  refine ⟨fun s t u id q i hs he => ?_, fun s t i hi he => ?_⟩
  · obtain ⟨g, hg⟩ := hs.serving.group
    cases hc : stateCheck g (s.toChip.stream i).state with
    | none =>
      cases (exec_streamRequest_passes hs hg hc u).symm.trans he
      obtain ⟨hothers, hctl⟩ := q.actOn_confined (c := s.taking (q.body.errors u) id) hg hs.serving.active hc id
      refine ⟨hothers, hctl, fun hplain => ?_⟩
      rw [Body.Plain.errors hplain u]
      have hout := q.actOn_outside hplain id (s.taking [] id) i
      exact ⟨hout.mem, fun a => congrArg (fun m => m.readByte a) hout.mem, hout.contexts, hout.free, hout.lost⟩
    | some st =>
      cases (exec_streamRequest_refused hs.serving hs.stream hg hc u).symm.trans he
      have hrings := (s.taking (q.body.errors u) id).refuse_rings id st
      refine ⟨fun j _ => hrings.stream j, .inl hrings.ctl, fun hplain => ?_⟩
      rw [Body.Plain.errors hplain u]
      have hout : Outside (s.taking [] id) ((s.taking [] id).refuse id st) := .answer id _
      exact ⟨hout.mem, fun a => congrArg (fun m => m.readByte a) hout.mem, hout.contexts, hout.free, hout.lost⟩
  · have hframe := exec_ringFrame hi he
    exact ⟨hframe.mem, fun a => congrArg (fun m => m.readByte a) hframe.mem, hframe.pool, hframe.streams, hframe.halt⟩

end Sys2Proof.Machine
end

section
/-! STREAM_RESUME (R22) and the three reports (R23, R103, R174): their layouts, their requests, and the end of a report's write. -/

namespace Sys2Proof.Machine

/-! ### STREAM_RESUME -/

section
variable {s : State} {id : Nat} {q : Request} {i : StreamId}

theorem exec_streamResume {ring : Nat} (hs : s.toChip.ServingStream id q i) (hq : q.body = .streamResume ring)
    (hh : (s.toChip.stream i).state = .held) :
    exec .streamResume s = .next (s.withChip ((s.taking [] id).resumeStream i id ring)) := by
  have h := exec_streamRequest_passes hs (g := .resume) (by rw [hq]; rfl) (by rw [hh]; rfl) []
  rwa [Request.actOn, hq] at h

theorem exec_streamResume_refused {ring : Nat} {st : Status} (hs : s.toChip.ServingStream id q i)
    (hq : q.body = .streamResume ring) (hst : stateCheck .resume (s.toChip.stream i).state = some st) :
    exec .streamResume s = .next (s.withChip ((s.taking [] id).refuse id st)) := by
  have h := exec_streamRequest_refused hs.serving hs.stream (g := .resume) (by rw [hq]; rfl) hst []
  rwa [hq] at h

theorem Chip.resumeStream_badField {c : Chip} {ring : Nat} (h : c.cmpActive ring = false) :
    c.resumeStream i id ring = c.refuse id .badField := if_pos h

theorem Chip.resumeStream_opens {c : Chip} {ring : Nat} (h : c.cmpActive ring = true) :
    c.resumeStream i id ring =
      (c.setStream i { c.stream i with state := .opened, noticeRing := ringOf ring }).answer id fun q =>
        q.positions .ok (c.stream i).base (c.stream i).next := if_neg (ne_false_of_eq_true h)

theorem Chip.cmpActive_eq_false {c : Chip} {ring : Nat}
    (h : 31 < ring ∨ ∃ n : RingId, ring = n.val ∧ (c.cmpRing n).state ≠ .active) : c.cmpActive ring = false := by
  refine Bool.eq_false_iff.2 fun ha => ?_
  obtain ⟨r, rfl, hr⟩ := (c.cmpActive_iff ring).1 ha
  rcases h with h | ⟨n, hn, hne⟩
  · exact absurd r.isLt (Nat.not_lt.2 h)
  · exact hne (Fin.ext hn ▸ hr)

end

/-- Settles O33. -/
theorem streamResumeOpensTheHeldStream : Obligations.StreamResumeOpensTheHeldStream := by
  intro s id q i ring hs hq
  refine ⟨fun hh hr => ?_, fun n hh hr hn => ?_, fun n hh hr hn => ?_, fun status hst => ?_⟩
  · rw [exec_streamResume hs hq hh, Chip.resumeStream_badField (Chip.cmpActive_eq_false (.inl hr))]
  · rw [exec_streamResume hs hq hh, Chip.resumeStream_badField (c := s.taking [] id) (Chip.cmpActive_eq_false (.inr ⟨n, hr, hn⟩))]
  · rw [exec_streamResume hs hq hh, Chip.resumeStream_opens (c := s.taking [] id) ((Chip.cmpActive_iff _ ring).2 ⟨n, hr, hn⟩), hr, ringOf_val]
    rfl
  · refine exec_streamResume_refused hs hq ?_
    cases h : (s.toChip.stream i).state <;> rw [h] at hst <;> revert hst <;> cases status <;> decide

/-! ### Numbers in a report -/

theorem natBytes_length (n v : Nat) : (natBytes n v).length = n := by
  rw [natBytes_eq, List.length_map, List.length_range]

theorem bytesToNat_natBytes (n v : Nat) : bytesToNat (natBytes n v) = v % 256 ^ n := by
  induction n generalizing v with
  | zero => rw [Nat.pow_zero, Nat.mod_one]; rfl
  | succ n ih =>
    have hpow : 256 ^ (n + 1) = 256 * 256 ^ n := Nat.pow_succ'
    rw [natBytes, bytesToNat, ih, BitVec.toNat_ofNat, hpow, Nat.mod_mul]

/-- The bytes of numbers of given widths, one after the other. -/
def layout (fields : List (Nat × Nat)) : List Byte := (fields.map fun f => natBytes f.1 f.2).flatten

theorem layout_nil : layout [] = [] := rfl

theorem layout_cons (n v : Nat) (fields : List (Nat × Nat)) : layout ((n, v) :: fields) = natBytes n v ++ layout fields := rfl

theorem layout_append (a b : List (Nat × Nat)) : layout (a ++ b) = layout a ++ layout b := by
  rw [layout, List.map_append, List.flatten_append]
  rfl

theorem layout_length (fields : List (Nat × Nat)) : (layout fields).length = (fields.map Prod.fst).sum := by
  rw [layout, List.length_flatten, List.map_map]
  exact congrArg List.sum (List.map_congr_left fun f _ => natBytes_length f.1 f.2)

theorem layout_length_of {fields : List (Nat × Nat)} {widths : List Nat} {n : Nat} (hw : fields.map Prod.fst = widths)
    (hs : widths.sum = n) : (layout fields).length = n := by
  rw [layout_length, hw, hs]

/-- The number `n` little-endian bytes at `off` spell. -/
def numberAt (data : List Byte) (off n : Nat) : Nat :=
  ((data.drop off).take n).foldr (fun b rest => b.toNat + 256 * rest) 0

/-- The `k`-th field of a layout whose fields have the given widths. -/
theorem numberAt_layout {fields : List (Nat × Nat)} {widths : List Nat} {k n v off : Nat}
    (hw : fields.map Prod.fst = widths) (h : fields[k]? = some (n, v)) (ho : (widths.take k).sum = off) :
    numberAt (layout fields) off n = v % 256 ^ n := by
  have hsplit : fields = fields.take k ++ (n, v) :: fields.drop (k + 1) := by
    obtain ⟨hk, hget⟩ := List.getElem?_eq_some_iff.1 h
    rw [← hget, List.cons_getElem_drop_succ, List.take_append_drop]
  have hdata : layout fields = layout (fields.take k) ++ (natBytes n v ++ layout (fields.drop (k + 1))) := by
    conv_lhs => rw [hsplit, layout_append]
    rfl
  have hoff : off = (layout (fields.take k)).length := by
    rw [layout_length, List.map_take, hw, ho]
  rw [numberAt, hdata, hoff, List.drop_left, List.take_left' (natBytes_length n v), ← bytesToNat_eq_foldr,
    bytesToNat_natBytes]

/-! ### The stream report -/

theorem markBytes_eq (n : Nat) (l : List Mark) :
    markBytes n l = layout ((List.range n).map fun k => (6, (l[k]?.map Mark.pos).getD 0)) := by
  induction n generalizing l with
  | zero => rfl
  | succ n ih =>
    rw [List.range_succ_eq_map, List.map_cons, List.map_map]
    cases l with
    | nil => rw [markBytes, ih]; rfl
    | cons m rest => rw [markBytes, ih]; rfl

/-- The fields of a stream report with their widths (section 11.3). -/
def streamFields (st : StreamEntry) : List (Nat × Nat) :=
  [(1, st.state.code), (1, bit (st.mode == .consume)), (1, bit st.durable),
    (1, st.noticeRing.elim 255 Fin.val), (1, bit (st.backlog == .atOrAbove)),
    (1, bit (st.occupancy == .pressed)), (1, st.marks.length), (1, st.waitA.length), (1, st.waitF.length),
    (1, st.admitted.length), (2, st.tail), (4, st.reserve), (4, st.quota), (4, st.heldPages), (2, st.readyLevel), (2, 0),
    (4, st.pressureLevel), (4, st.reliefLevel), (6, st.base), (6, st.read), (6, st.frontier), (6, st.next),
    (6, st.active.elim 0 ActiveFetch.first), (6, st.active.elim 0 ActiveFetch.endSeq)] ++
    ((List.range 8).map fun k => (6, (st.marks[k]?.map Mark.pos).getD 0)) ++ [(8, 0)]

theorem streamReportBytes_eq (st : StreamEntry) : streamReportBytes st = layout (streamFields st) := by
  unfold streamReportBytes streamFields
  simp only [layout_append, markBytes_eq, layout_cons, layout_nil, List.append_nil, List.append_assoc]
  cases st.noticeRing <;> cases st.active <;> rfl

/-- The fields of a pool report (R103). -/
def Chip.poolFields (c : Chip) : List (Nat × Nat) :=
  [(4, c.pool.usable), (4, c.pool.free), (4, c.sharedFree), (4, c.sumReserves), (4, c.pool.lost), (4, c.mem.corrected),
    (4, c.mem.damaged), (2, c.streamsWaiting), (34, 0)]

theorem Chip.poolReportBytes_eq (c : Chip) : c.poolReportBytes = layout c.poolFields := by
  simp only [Chip.poolReportBytes, Chip.poolFields, layout_cons, layout_nil, List.append_nil, List.append_assoc]

/-- The fields of a describe report (R174). -/
def Chip.describeFields (c : Chip) : List (Nat × Nat) :=
  [(2, Config.revision), (2, c.dramMib), (4, c.pool.usable), (2, 512), (1, 32), (1, 0), (2, Config.tableSlots), (1, 64),
    (1, Config.maxMarks), (1, Config.maxWaiting), (1, Config.maxWindow), (2, Config.maxLength), (44, 0)]

theorem Chip.describeBytes_eq (c : Chip) : c.describeBytes = layout c.describeFields := by
  simp only [Chip.describeBytes, Chip.describeFields, layout_cons, layout_nil, List.append_nil, List.append_assoc]

/-- The widths of a stream report's fields. -/
def streamWidths : List Nat :=
  [1, 1, 1, 1, 1, 1, 1, 1, 1, 1, 2, 4, 4, 4, 2, 2, 4, 4, 6, 6, 6, 6, 6, 6, 6, 6, 6, 6, 6, 6, 6, 6, 8]

theorem streamReport_number (st : StreamEntry) (k : Nat) {n v off : Nat} (h : (streamFields st)[k]? = some (n, v))
    (ho : (streamWidths.take k).sum = off) : numberAt (streamReportBytes st) off n = v % 256 ^ n := by
  rw [streamReportBytes_eq]
  exact numberAt_layout rfl h ho

/-- The mark in the `k`-th place of a stream report. -/
theorem streamReport_mark (st : StreamEntry) {k : Nat} (hk : k < 8) :
    numberAt (streamReportBytes st) (72 + 6 * k) 6 = ((st.marks[k]?.map Mark.pos).getD 0) % 2 ^ 48 := by
  interval_cases k
  · exact streamReport_number st 24 rfl (by decide)
  · exact streamReport_number st 25 rfl (by decide)
  · exact streamReport_number st 26 rfl (by decide)
  · exact streamReport_number st 27 rfl (by decide)
  · exact streamReport_number st 28 rfl (by decide)
  · exact streamReport_number st 29 rfl (by decide)
  · exact streamReport_number st 30 rfl (by decide)
  · exact streamReport_number st 31 rfl (by decide)

/-- The widths of a pool report's fields. -/
def poolWidths : List Nat := [4, 4, 4, 4, 4, 4, 4, 2, 34]

theorem poolReport_number (c : Chip) (k : Nat) {n v off : Nat} (h : c.poolFields[k]? = some (n, v))
    (ho : (poolWidths.take k).sum = off) : numberAt c.poolReportBytes off n = v % 256 ^ n := by
  rw [c.poolReportBytes_eq]
  exact numberAt_layout rfl h ho

/-- The widths of a describe report's fields. -/
def describeWidths : List Nat := [2, 2, 4, 2, 1, 1, 2, 1, 1, 1, 1, 2, 44]

theorem describe_number (c : Chip) (k : Nat) {n v off : Nat} (h : c.describeFields[k]? = some (n, v))
    (ho : (describeWidths.take k).sum = off) :
    numberAt c.describeBytes off n = v % 256 ^ n := by
  rw [c.describeBytes_eq]
  exact numberAt_layout rfl h ho

theorem StreamState.code_field (s : StreamState) : s.code % 256 ^ 1 = match s with
    | .closed => 0 | .opened => 1 | .flushing => 2 | .closing => 3 | .faulted => 4 | .held => 5 := by cases s <;> rfl

theorem mode_field (m : Mode) : bit (m == .consume) % 256 ^ 1 = if m = .consume then 1 else 0 := by cases m <;> rfl

theorem bool_field (b : Bool) : bit b % 256 ^ 1 = if b then 1 else 0 := by cases b <;> rfl

theorem backlog_field (b : Backlog) : bit (b == .atOrAbove) % 256 ^ 1 = if b = .atOrAbove then 1 else 0 := by
  cases b <;> rfl

theorem occupancy_field (o : Occupancy) : bit (o == .pressed) % 256 ^ 1 = if o = .pressed then 1 else 0 := by
  cases o <;> rfl

theorem notice_field (r : Option RingId) : r.elim 255 Fin.val % 256 ^ 1 = match r with | none => 255 | some n => n.val := by
  cases r with
  | none => rfl
  | some n => exact Nat.mod_eq_of_lt (n.isLt.trans (by decide))

theorem active_field (a : Option ActiveFetch) (f : ActiveFetch → Nat) :
    a.elim 0 f % 256 ^ 6 = match a with | none => 0 | some a => f a % 2 ^ 48 := by
  cases a <;> rfl

theorem mark_field (m : Option Mark) :
    (m.map Mark.pos).getD 0 % 2 ^ 48 = match m with | none => 0 | some m => m.pos % 2 ^ 48 := by
  cases m <;> rfl

theorem dramMib_field (c : Chip) : c.dramMib % 256 ^ 2 =
    match c.mem.size with | none => 0 | some .gib1 => 1024 | some .gib2 => 2048 | some .gib4 => 4096 := by
  rw [Chip.dramMib]
  rcases c.mem.size with _ | d
  · rfl
  · cases d <;> rfl

theorem Chip.streamsWaiting_eq (c : Chip) :
    c.streamsWaiting = (c.streams.toList.filter fun st => st.waitA != []).length := by
  rw [Chip.streamsWaiting]
  refine congrArg List.length (List.filter_congr fun st _ => ?_)
  cases st.waitA <;> rfl

/-! ### Report requests -/

theorem reportBufferOk_iff (size : Nat) (b : Segment) :
    reportBufferOk size b = true ↔ b.addr.toNat % 16 = 0 ∧ b.len % 16 = 0 ∧ size ≤ b.len := by
  rw [reportBufferOk, Bool.and_eq_true, Bool.and_eq_true, decide_eq_true_eq, beq_iff_eq, and_assoc, aligned16, beq_iff_eq]

section
variable {s : State} {id : Nat} {q : Request} {buffer : Segment}

theorem exec_streamReport {i : StreamId} (hs : s.toChip.ServingStream id q i) (hq : q.body = .streamReport buffer)
    (ho : (s.toChip.stream i).state ≠ .closed) :
    exec .streamReport s = .next (s.withChip
      (if reportBufferOk 128 buffer then
        (s.taking [] id).placeReport id buffer (streamReportBytes (s.toChip.stream i)) (s.toChip.stream i).base
          (s.toChip.stream i).next
      else (s.taking [] id).refuse id .badField)) := by
  have hpass : stateCheck .report (s.toChip.stream i).state = none := by
    cases h : (s.toChip.stream i).state with
    | closed => exact absurd h ho
    | _ => rfl
  have h := exec_streamRequest_passes hs (g := .report) (by rw [hq]; rfl) hpass []
  rwa [Request.actOn, hq] at h

theorem exec_poolReport (hs : s.toChip.Serving .poolManager id q) (hq : q.body = .poolReport buffer) :
    exec .poolReport s = .next (s.withChip
      (if reportBufferOk 64 buffer then
        (s.taking [] id).placeReport id buffer s.toChip.poolReportBytes s.pool.free s.toChip.sharedFree
      else (s.taking [] id).answer id fun q => q.plain .badField)) :=
  State.onChip_serve (u := []) (act := poolReportAct) hs (by simp only [poolReportAct, hq]; rfl)

theorem exec_describe (hs : s.toChip.Serving .controller id q) (hq : q.body = .describe buffer) :
    exec .describe s = .next (s.withChip
      (if reportBufferOk 64 buffer then
        (s.taking [] id).placeReport id buffer s.toChip.describeBytes s.pool.usable s.toChip.dramMib
      else (s.taking [] id).answer id fun q => q.plain .badField)) :=
  State.onChip_serve (u := []) (act := describeAct) hs (by simp only [describeAct, hq]; rfl)

theorem exec_reportWriteEnd {slot : Nat} {e : EndReport} {sl : Slot} (ha : s.ctl.state = .active)
    (he : s.toChip.endOf .report slot = some e) (hsl : s.toChip.slot? slot = some sl) (hq : sl.request = some q) :
    exec (.reportWriteEnd slot) s = .next (s.withChip
      ((s.toChip.dropEnd .report slot).complete slot (reportReply e.outcome sl.snapA sl.snapB q))) := by
  have hact : (s.toChip.dropEnd .report slot).isActive = true := s.toChip.isActive_iff.2 ha
  have hslot : (s.toChip.dropEnd .report slot).slot? slot = some sl := hsl
  have hend : s.toChip.reportWriteEnd slot =
      (s.toChip.dropEnd .report slot).answer slot (reportReply e.outcome sl.snapA sl.snapB) := by
    simp only [Chip.reportWriteEnd, he, hact, if_true, hslot]
  rw [← Chip.answer_eq _ hslot hq, ← hend]
  rfl

theorem reportReply_ok (a b : Nat) : reportReply .ok a b q =
    if q.body.isStreamReport then
      { code := Status.ok.code, commandId := q.commandId, streamId := q.streamId, posA := a, posB := b }
    else { code := Status.ok.code, commandId := q.commandId, posA := a, posB := b, bytes := 64 } := by
  cases h : q.body.isStreamReport <;> simp only [reportReply, h] <;> rfl

theorem reportReply_failed {o : CopyOutcome} (ho : o ≠ .ok) (a b : Nat) : reportReply o a b q =
    { reportReply .ok a b q with code := Status.hostWriteError.code, posA := 0, posB := 0, bytes := 0 } := by
  cases o with
  | ok => exact absurd rfl ho
  | _ => cases h : q.body.isStreamReport <;> simp only [reportReply, h] <;> rfl

end

/-- Settles O34: the layouts field by field, then the three requests and the end of a report's write. -/
theorem reportsAreSnapshotsThenCompletions : Obligations.ReportsAreSnapshotsThenCompletions := by
  refine ⟨fun c st => ?_, fun s id q buffer => ⟨fun i hs hq ho => ⟨fun hb => ?_, fun hb => ?_⟩,
    fun hs hq => ⟨fun hb => ?_, fun hb => ?_⟩, fun hs hq => ⟨fun hb => ?_, fun hb => ?_⟩⟩,
    fun s slot e sl q ha he hsl hq => ⟨fun ho => ?_, fun ho => ?_⟩⟩
  · intro num stream pool part
    have hnum : numberAt = num := rfl
    clear_value num
    subst hnum
    have hstream := streamReport_number st
    have hpool := poolReport_number c
    have hpart := describe_number c
    refine ⟨⟨?_, ?_, ?_⟩, ?_⟩
    · exact (congrArg List.length (streamReportBytes_eq st)).trans (layout_length_of rfl (by decide : streamWidths.sum = 128))
    · exact (congrArg List.length c.poolReportBytes_eq).trans (layout_length_of rfl (by decide : poolWidths.sum = 64))
    · exact (congrArg List.length c.describeBytes_eq).trans (layout_length_of rfl (by decide : describeWidths.sum = 64))
    · exact ⟨(hstream 0 rfl (by decide)).trans (StreamState.code_field _), (hstream 1 rfl (by decide)).trans (mode_field _),
        (hstream 2 rfl (by decide)).trans (bool_field _), (hstream 3 rfl (by decide)).trans (notice_field _),
        (hstream 4 rfl (by decide)).trans (backlog_field _), (hstream 5 rfl (by decide)).trans (occupancy_field _),
        hstream 6 rfl (by decide), hstream 7 rfl (by decide), hstream 8 rfl (by decide), hstream 9 rfl (by decide),
        hstream 10 rfl (by decide), hstream 11 rfl (by decide), hstream 12 rfl (by decide), hstream 13 rfl (by decide),
        hstream 14 rfl (by decide), hstream 15 rfl (by decide), hstream 16 rfl (by decide), hstream 17 rfl (by decide),
        hstream 18 rfl (by decide), hstream 19 rfl (by decide), hstream 20 rfl (by decide), hstream 21 rfl (by decide),
        (hstream 22 rfl (by decide)).trans (active_field _ _), (hstream 23 rfl (by decide)).trans (active_field _ _),
        fun k hk => (streamReport_mark st hk).trans (mark_field _), hstream 32 rfl (by decide),
        hpool 0 rfl (by decide), hpool 1 rfl (by decide), hpool 2 rfl (by decide), hpool 3 rfl (by decide),
        hpool 4 rfl (by decide), hpool 5 rfl (by decide), hpool 6 rfl (by decide),
        c.streamsWaiting_eq ▸ hpool 7 rfl (by decide), hpool 8 rfl (by decide),
        hpart 0 rfl (by decide), (hpart 1 rfl (by decide)).trans (dramMib_field c), hpart 2 rfl (by decide),
        hpart 3 rfl (by decide), hpart 4 rfl (by decide), hpart 5 rfl (by decide), hpart 6 rfl (by decide),
        hpart 7 rfl (by decide), hpart 8 rfl (by decide), hpart 9 rfl (by decide), hpart 10 rfl (by decide),
        hpart 11 rfl (by decide), hpart 12 rfl (by decide)⟩
  · rw [exec_streamReport hs hq ho, if_neg fun h => hb ((reportBufferOk_iff _ _).1 h)]
  · rw [exec_streamReport hs hq ho, if_pos ((reportBufferOk_iff _ _).2 hb)]
    rfl
  · rw [exec_poolReport hs hq, if_neg fun h => hb ((reportBufferOk_iff _ _).1 h)]
    rfl
  · rw [exec_poolReport hs hq, if_pos ((reportBufferOk_iff _ _).2 hb)]
    rfl
  · rw [exec_describe hs hq, if_neg fun h => hb ((reportBufferOk_iff _ _).1 h)]
    rfl
  · rw [exec_describe hs hq, if_pos ((reportBufferOk_iff _ _).2 hb)]
    rfl
  · rw [exec_reportWriteEnd ha he hsl hq, ho, reportReply_ok]
  · rw [exec_reportWriteEnd ha he hsl hq, reportReply_failed ho, reportReply_ok]

end Sys2Proof.Machine
end

section
/-! CANCEL (R138) and RING_DELETE (R136, R137): the requests that leave their lists, what follows on their streams, and the end of a
DRAINING ring. -/

namespace Sys2Proof.Machine

/-! ### Waiting requests that leave their lists -/

theorem Chip.setStream_setStream (c : Chip) (i : StreamId) (a b : StreamEntry) :
    (c.setStream i a).setStream i b = c.setStream i b := by
  simp only [Chip.setStream, Vector.set_set]

/-- The request in slot `id` out of both waiting lists of stream `i`. -/
def Chip.withdraw (c : Chip) (i : StreamId) (id : Nat) : Chip :=
  c.modStream i fun st =>
    { st with
      waitA := st.waitA.filter fun w => w.slot != id
      waitF := st.waitF.filter fun w => w.slot != id }

theorem Chip.dropFetch_dropAppend (c : Chip) (i : StreamId) (id : Nat) :
    (c.dropAppend i id).dropFetch i id = c.withdraw i id := by
  rw [Chip.dropFetch, Chip.dropAppend, Chip.modStream, Chip.modStream_stream_same, Chip.modStream, Chip.setStream_setStream]
  rfl

theorem Chip.cancelWaiting_none {c : Chip} {id : Nat} (h : c.slotStream id = none) : c.cancelWaiting id = c := by
  simp only [Chip.cancelWaiting, h]

theorem Chip.cancelWaiting_some {c : Chip} {id : Nat} {i : StreamId} (h : c.slotStream id = some i) :
    c.cancelWaiting id = (c.withdraw i id).refuse id .cancelled := by
  simp only [Chip.cancelWaiting, h, Chip.dropFetch_dropAppend]

theorem Chip.slotStream_eq {c : Chip} {id : Nat} {sl : Slot} {q : Request} (h : c.slot? id = some sl)
    (hq : sl.request = some q) : c.slotStream id = q.stream := by
  simp only [Chip.slotStream, h, hq]

theorem StreamEntry.any_headAppend (st : StreamEntry) (ids : List Nat) :
    ids.any st.headAppend = st.waitA.head?.any fun w => ids.contains w.slot := by
  cases h : st.waitA with
  | nil =>
    have hhead : st.headAppend = fun _ => false := funext fun id => by rw [StreamEntry.headAppend, h]
    rw [hhead, List.head?_nil, Option.any_none, List.any_eq_false]
    exact fun _ _ => Bool.false_ne_true
  | cons w rest =>
    have hhead : st.headAppend = (w.slot == ·) := funext fun id => by rw [StreamEntry.headAppend, h]
    rw [hhead, List.head?_cons, Option.any_some, List.contains_eq_any_beq]

theorem StreamEntry.any_headFetch (st : StreamEntry) (ids : List Nat) :
    ids.any st.headFetch = st.waitF.head?.any fun w => ids.contains w.slot := by
  cases h : st.waitF with
  | nil =>
    have hhead : st.headFetch = fun _ => false := funext fun id => by rw [StreamEntry.headFetch, h]
    rw [hhead, List.head?_nil, Option.any_none, List.any_eq_false]
    exact fun _ _ => Bool.false_ne_true
  | cons w rest =>
    have hhead : st.headFetch = (w.slot == ·) := funext fun id => by rw [StreamEntry.headFetch, h]
    rw [hhead, List.head?_cons, Option.any_some, List.contains_eq_any_beq]

/-! ### CANCEL -/

section
variable {s : State} {u : Upsets} {id ring : Nat} {q : Request} {command : BitVec 16}

theorem exec_cancel (hs : s.toChip.Serving .ringEngine id q) (hq : q.body = .cancel ring command) :
    exec (.cancel u) s = .next (s.withChip
      (if 31 < ring then (s.taking u id).answer id fun q => q.plain .badField else (s.taking u id).cancel id ring command)) :=
  State.onChip_serve (act := cancelAct) hs (by simp only [cancelAct, hq])

theorem Slot.isTarget_eq (n : Nat) (sl : Slot) :
    sl.isTarget n command = (sl.ring.val == n && sl.request.any fun q => q.commandId == command) := by
  rw [Slot.isTarget]
  cases sl.request <;> rfl

theorem Chip.cancelTarget_eq (c : Chip) : c.cancelTarget id ring command = c.rings.table.find? fun sl =>
    sl.id != id && sl.ring.val == ring && sl.request.any fun q => q.commandId == command := by
  refine congrArg (fun p => c.rings.table.find? p) (funext fun sl => ?_)
  rw [Slot.isTarget_eq, Bool.and_assoc]

theorem Chip.cancel_notFound {c : Chip} (h : c.cancelTarget id ring command = none) :
    c.cancel id ring command = c.answer id fun q => q.plain .notFound := by
  simp only [Chip.cancel, h]

theorem Chip.cancel_notWaiting {c : Chip} {sl : Slot} (h : c.cancelTarget id ring command = some sl) (hp : sl.phase ≠ .waiting) :
    c.cancel id ring command = c.answer id fun q => q.plain .notWaiting := by
  simp only [Chip.cancel, h, if_neg hp]

theorem Chip.streamsOf_single {c : Chip} {i : StreamId} (h : c.slotStream id = some i) : c.streamsOf [id] = [i] := by
  simp [Chip.streamsOf, h]

theorem Chip.cancel_cancels {c : Chip} {sl : Slot} {target : Request} {i : StreamId}
    (h : c.cancelTarget id ring command = some sl) (hp : sl.phase = .waiting) (hsl : c.slot? sl.id = some sl)
    (ht : sl.request = some target) (hi : target.stream = some i) :
    c.cancel id ring command =
      (Chip.afterLeaving [sl.id] c ((c.withdraw i sl.id).refuse sl.id .cancelled) i).answer id fun q =>
        { q.plain .ok with streamId := target.streamId, count := 1 } := by
  have hstream : c.slotStream sl.id = some i := (Chip.slotStream_eq hsl ht).trans hi
  have hfield : sl.streamField = target.streamId := by rw [Slot.streamField, ht]
  have hcancel : c.cancelWaiting sl.id = (c.withdraw i sl.id).refuse sl.id .cancelled := by
    rw [Chip.cancelWaiting_some hstream]
  simp only [Chip.cancel, h, if_pos hp, Chip.streamsOf_single hstream, List.foldl_cons, List.foldl_nil, hcancel, hfield]

theorem Chip.afterLeaving_single (old c : Chip) (i : StreamId) : Chip.afterLeaving [id] old c i =
    if (old.stream i).headFetch id then (c.startArbiterIf ((old.stream i).headAppend id)).evalHead i
    else c.startArbiterIf ((old.stream i).headAppend id) := by
  simp only [Chip.afterLeaving, List.any_cons, List.any_nil, Bool.or_false]

end

/-- Settles O27. -/
theorem cancelReachesTheEarliestMatch : Obligations.CancelReachesTheEarliestMatch := by
  intro s u id q ring command hs hq
  have hin (h : ring ≤ 31) : exec (.cancel u) s = .next (s.withChip ((s.taking u id).cancel id ring command)) := by
    rw [exec_cancel hs hq, if_neg (Nat.not_lt.2 h)]
  refine ⟨fun h => ?_, fun h hnone => ?_, fun sl target h hsome ht => ⟨fun hp => ?_, fun hp hsl i hi => ?_⟩⟩
  · rw [exec_cancel hs hq, if_pos h]
    rfl
  · rw [hin h, Chip.cancel_notFound (c := s.taking u id) ((Chip.cancelTarget_eq _).trans hnone)]
    rfl
  · rw [hin h, Chip.cancel_notWaiting (c := s.taking u id) ((Chip.cancelTarget_eq _).trans hsome) hp]
    rfl
  · rw [hin h, Chip.cancel_cancels (c := s.taking u id) ((Chip.cancelTarget_eq _).trans hsome) hp hsl ht hi,
      Chip.afterLeaving_single]
    rfl

end Sys2Proof.Machine
end

section
/-! RING_DELETE (R136, R137), and when a DRAINING ring becomes ABSENT. -/

namespace Sys2Proof.Machine

/-! ### The end of a DRAINING ring -/

section
variable {c : Chip} {n : RingId}

theorem Chip.drainCheck_stays
    (h : (c.reqRing n).deleter = none ∨ (c.reqRing n).state ≠ .draining ∨ (c.reqRing n).outstanding ≠ 0) :
    c.drainCheck n = c := by
  unfold Chip.drainCheck
  dsimp only
  split
  · rfl
  · rename_i d hd
    refine if_neg fun ⟨hs, ho⟩ => ?_
    rcases h with h | h | h
    · cases h.symm.trans hd
    · exact h hs
    · exact h ho

theorem Chip.drainCheck_ends {d : Nat} {sl : Slot} {q : Request} (hd : (c.reqRing n).deleter = some d)
    (hs : (c.reqRing n).state = .draining) (ho : (c.reqRing n).outstanding = 0) (hsl : c.slot? d = some sl)
    (hq : sl.request = some q) :
    c.drainCheck n = (c.setReqRing n { RequestRing.absent with fault := (c.reqRing n).fault }).post d
      { code := Status.ok.code, commandId := q.commandId, posA := n.val, count := (c.reqRing n).cancelled } := by
  simp only [Chip.drainCheck, hd, if_pos (And.intro hs ho), Chip.setReqRing_slot?, hsl, hq]

end

/-! ### RING_DELETE of a request ring -/

section
variable {s : State} {u : Upsets} {id : Nat} {q : Request} {b : RingBlock}

theorem exec_ringDeleteRequestRing (hs : s.toChip.Serving .ringEngine id q) (hq : q.body = .ringDelete b)
    (ht : b.ringType ≠ 1) :
    exec (.ringDeleteRequestRing u) s = .next (s.withChip
      (if b.ringType = 0 then (s.taking u id).deleteRequestRing id b
      else (s.taking u id).answer id fun q => q.plain .badField)) :=
  State.onChip_serve (act := ringDeleteRequestAct) hs (by
    simp only [ringDeleteRequestAct, hq, if_neg ht]
    split <;> rfl)

theorem exec_ringDeleteCompletionRing (hs : s.toChip.Serving .ringEngine id q) (hq : q.body = .ringDelete b)
    (ht : b.ringType = 1) :
    exec .ringDeleteCompletionRing s = .next (s.withChip ((s.taking [] id).deleteCompletionRing id b)) :=
  State.onChip_serve (u := []) (act := ringDeleteCompletionAct) hs (by simp only [ringDeleteCompletionAct, hq, if_pos ht])

theorem ioRing_eq_none {n : Nat} (h : n = 0 ∨ 31 < n) : ioRing n = none := by
  rw [← Option.not_isSome_iff_eq_none, ioRing_isSome_iff]
  omega

theorem Chip.deleteRequestRing_badField {c : Chip} (h : ioRing b.id = none) :
    c.deleteRequestRing id b = c.answer id fun q => q.plain .badField := by
  simp only [Chip.deleteRequestRing, h]

theorem Chip.deleteRequestRing_byState {c : Chip} {n : RingId} (h : ioRing b.id = some n) :
    ((c.reqRing n).state = .absent → c.deleteRequestRing id b = c.answer id fun q => q.plain .notFound) ∧
    ((c.reqRing n).state = .draining → c.deleteRequestRing id b = c.answer id fun q => q.plain .inUse) ∧
    ((c.reqRing n).state = .active ∨ (c.reqRing n).state = .stopped → c.deleteRequestRing id b = c.drainRing id n) := by
  refine ⟨fun hs => ?_, fun hs => ?_, fun hs => ?_⟩
  · simp only [Chip.deleteRequestRing, h, hs]
  · simp only [Chip.deleteRequestRing, h, hs]
  · rcases hs with hs | hs <;> simp only [Chip.deleteRequestRing, h, hs]

/-- Request ring `n` as a RING_DELETE in slot `id` leaves it: DRAINING, with `cancelled` waiting requests to cancel. -/
def Chip.draining (c : Chip) (id : Nat) (n : RingId) (cancelled : Nat) : Chip :=
  (c.setReqRing n { c.reqRing n with state := .draining, deleter := some id, cancelled := cancelled }).setPhase id .admitted

theorem Chip.drainRing_eq (c : Chip) (id : Nat) (n : RingId) : c.drainRing id n =
    ((c.inServiceOrder (c.streamsOf (c.waitingOf n))).foldl (Chip.afterLeaving (c.waitingOf n) c)
      ((c.waitingOf n).foldl Chip.cancelWaiting (c.draining id n (c.waitingOf n).length))).drainCheck n := rfl

theorem Chip.draining_ring (c : Chip) (id : Nat) (n : RingId) (k : Nat) : (c.draining id n k).reqRing n =
    { c.reqRing n with state := .draining, deleter := some id, cancelled := k } := by
  rw [Chip.draining, Chip.setPhase_reqRing, Chip.setReqRing_reqRing_same]

theorem Chip.slot?_setPhase {c : Chip} {id d : Nat} {sl : Slot} (ph : Phase) (h : c.slot? d = some sl) :
    (c.setPhase id ph).slot? d = some (if sl.id = id then { sl with phase := ph } else sl) := by
  have hid : ((fun sl : Slot => sl.id == d) ∘ fun sl : Slot => if sl.id = id then { sl with phase := ph } else sl) =
      fun sl => sl.id == d := funext fun sl => by
    rw [Function.comp_apply]
    split <;> rfl
  rw [Chip.slot?, Chip.setPhase, Chip.modSlot, List.find?_map, hid]
  exact congrArg (Option.map _) h

/-- Nothing waits: no stream is left to follow. -/
theorem Chip.drainRing_nothing {c : Chip} {n : RingId} (h : c.waitingOf n = []) :
    c.drainRing id n = (c.draining id n 0).drainCheck n := by
  rw [Chip.drainRing_eq, h]
  rfl

theorem Chip.drainRing_waits {c : Chip} {n : RingId} (h : c.waitingOf n = []) (ho : (c.reqRing n).outstanding ≠ 0) :
    c.drainRing id n = c.draining id n 0 := by
  rw [Chip.drainRing_nothing h]
  exact Chip.drainCheck_stays (.inr (.inr ((congrArg RequestRing.outstanding (c.draining_ring id n 0)).trans_ne ho)))

theorem Chip.drainRing_ends {c : Chip} {n : RingId} {sl : Slot} (h : c.waitingOf n = []) (ho : (c.reqRing n).outstanding = 0)
    (hsl : c.slot? id = some sl) (hq : sl.request = some q) :
    c.drainRing id n = ((c.draining id n 0).setReqRing n { RequestRing.absent with fault := (c.reqRing n).fault }).post id
      { code := Status.ok.code, commandId := q.commandId, posA := n.val } := by
  have hring := c.draining_ring id n 0
  rw [Chip.drainRing_nothing h,
    Chip.drainCheck_ends (q := q) (congrArg RequestRing.deleter hring) (congrArg RequestRing.state hring)
      ((congrArg RequestRing.outstanding hring).trans ho) (Chip.slot?_setPhase .admitted hsl) (by split <;> exact hq), hring]

/-- Where R128 puts stream `i` by its notice ring and the ring's service pointer. -/
theorem Chip.serviceRank_eq (c : Chip) (i : StreamId) : c.serviceRank i = match (c.stream i).noticeRing with
    | none => 16384 + i.val
    | some m => 512 * m.val + (i.val + 511 - (c.cmpRing m).service.val) % 512 := by
  unfold Chip.serviceRank
  cases (c.stream i).noticeRing <;> rfl

theorem Chip.cancelWaiting_eq (c : Chip) (id : Nat) : c.cancelWaiting id = match c.slotStream id with
    | none => c
    | some i => (c.withdraw i id).refuse id .cancelled := by
  cases h : c.slotStream id with
  | none => exact Chip.cancelWaiting_none h
  | some i => exact Chip.cancelWaiting_some h

/-- What follows on stream `i`, the entry before being `(old.stream i)`, when the requests in `ids` have left. -/
theorem Chip.afterLeaving_eq (ids : List Nat) (old c : Chip) (i : StreamId) : Chip.afterLeaving ids old c i =
    if ((old.stream i).waitF.head?.any fun w => ids.contains w.slot) = true then
      (c.startArbiterIf ((old.stream i).waitA.head?.any fun w => ids.contains w.slot)).evalHead i
    else c.startArbiterIf ((old.stream i).waitA.head?.any fun w => ids.contains w.slot) := by
  rw [Chip.afterLeaving, StreamEntry.any_headAppend, StreamEntry.any_headFetch]

/-- A RING_DELETE of request ring `n`, by the ring's state. -/
theorem exec_ringDelete_byState {n : RingId} (hs : s.toChip.Serving .ringEngine id q) (hq : q.body = .ringDelete b)
    (ht : b.ringType = 0) (hn : n ≠ 0) (hid : b.id = n.val) :
    ((s.toChip.reqRing n).state = .absent → exec (.ringDeleteRequestRing u) s = .next (s.withChip
      ((s.taking u id).answer id fun q => q.plain .notFound))) ∧
    ((s.toChip.reqRing n).state = .draining → exec (.ringDeleteRequestRing u) s = .next (s.withChip
      ((s.taking u id).answer id fun q => q.plain .inUse))) ∧
    ((s.toChip.reqRing n).state = .active ∨ (s.toChip.reqRing n).state = .stopped →
      exec (.ringDeleteRequestRing u) s = .next (s.withChip ((s.taking u id).drainRing id n))) := by
  have hexec : exec (.ringDeleteRequestRing u) s = .next (s.withChip ((s.taking u id).deleteRequestRing id b)) := by
    rw [exec_ringDeleteRequestRing hs hq (ht ▸ zero_ne_one), if_pos ht]
  obtain ⟨habsent, hdraining, hdrain⟩ :=
    Chip.deleteRequestRing_byState (c := s.taking u id) (id := id) (b := b) (hid ▸ ioRing_val hn : ioRing b.id = some n)
  exact ⟨fun h => by rw [hexec, habsent h], fun h => by rw [hexec, hdraining h], fun h => by rw [hexec, hdrain h]⟩

end

/-! ### RING_DELETE of a completion ring -/

section
variable {c : Chip} {n : RingId}

theorem Chip.ringBound_iff : c.ringBound n = true ↔ ∃ m, (c.reqRing m).state ≠ .absent ∧ (c.reqRing m).bound = n := by
  simp only [Chip.ringBound, List.any_eq_true, Bool.and_eq_true, bne_iff_ne, beq_iff_eq]
  exact ⟨fun ⟨m, _, h⟩ => ⟨m, h⟩, fun ⟨m, h⟩ => ⟨m, mem_ringIds m, h⟩⟩

theorem Chip.streamBound_iff : c.streamBound n = true ↔ ∃ i, ((c.stream i).state = .opened ∨ (c.stream i).state = .flushing ∨
    (c.stream i).state = .faulted) ∧ (c.stream i).noticeRing = some n := by
  simp only [Chip.streamBound, List.any_eq_true, Bool.and_eq_true, Bool.or_eq_true, beq_iff_eq, or_assoc]
  constructor
  · rintro ⟨st, hst, h⟩
    obtain ⟨i, hi, rfl⟩ := Vector.mem_iff_getElem.1 (Vector.mem_toList_iff.1 hst)
    exact ⟨⟨i, hi⟩, h⟩
  · rintro ⟨i, h⟩
    exact ⟨c.stream i, Vector.mem_toList_iff.2 (c.streams.getElem_mem i.isLt), h⟩

theorem Chip.deleteCompletionRing_byState {id : Nat} {b : RingBlock} (h : ioRing b.id = some n) :
    ((c.cmpRing n).state = .absent → c.deleteCompletionRing id b = c.answer id fun q => q.plain .notFound) ∧
    ((c.cmpRing n).state ≠ .absent → (c.ringBound n || c.streamBound n) = true →
      c.deleteCompletionRing id b = c.answer id fun q => q.plain .inUse) ∧
    ((c.cmpRing n).state ≠ .absent → (c.ringBound n || c.streamBound n) = false →
      c.deleteCompletionRing id b =
        ({ c.setCmpRing n { CompletionRing.absent with fault := (c.cmpRing n).fault } with
          link := (c.setCmpRing n { CompletionRing.absent with fault := (c.cmpRing n).fault }).link.orphan n }).answer id
          fun q => q.ringReply .ok n.val 0 0) := by
  refine ⟨fun hs => ?_, fun hs hu => ?_, fun hs hu => ?_⟩
  · simp only [Chip.deleteCompletionRing, h, if_pos hs]
  · simp only [Chip.deleteCompletionRing, h, if_neg hs, if_pos hu]
  · simp only [Chip.deleteCompletionRing, h, if_neg hs, hu, Bool.false_eq_true, if_false]

theorem Chip.deleteCompletionRing_badField {id : Nat} {b : RingBlock} (h : ioRing b.id = none) :
    c.deleteCompletionRing id b = c.answer id fun q => q.plain .badField := by
  simp only [Chip.deleteCompletionRing, h]

end

/-- Settles O26. -/
theorem ringDeleteDrainsOrRemoves : Obligations.RingDeleteDrainsOrRemoves := by
  refine ⟨fun c n => ⟨Chip.drainCheck_stays, fun d sl q => Chip.drainCheck_ends⟩, fun s u id q b hs hq => ?_⟩
  have hring (n : RingId) (hn : n ≠ 0) (hid : b.id = n.val) : ioRing b.id = some n := hid ▸ ioRing_val hn
  refine ⟨fun ht => ⟨fun hid => ?_, fun n hn hid => ⟨fun hr => ?_, fun hr => ?_, fun hr => ⟨fun hw order hnodup hmem hrank => ?_,
      fun hw ho => ?_, fun hw ho => ?_⟩⟩⟩, fun ht => ?_, fun ht => ⟨fun hid => ?_, fun n hn hid =>
      ⟨fun hr => ?_, fun hr hu => ?_, fun hr hu => ?_⟩⟩⟩
  · rw [exec_ringDeleteRequestRing hs hq (by omega), if_pos ht, Chip.deleteRequestRing_badField (ioRing_eq_none hid)]
    rfl
  · obtain ⟨habsent, -, -⟩ := exec_ringDelete_byState (u := u) hs hq ht hn hid
    exact habsent hr
  · obtain ⟨-, hdraining, -⟩ := exec_ringDelete_byState (u := u) hs hq ht hn hid
    exact hdraining hr
  · obtain ⟨-, -, hdrain⟩ := exec_ringDelete_byState (u := u) hs hq ht hn hid
    have hrank' : order.Pairwise fun i j => (s.taking u id).serviceRank i ≤ (s.taking u id).serviceRank j :=
      hrank.imp fun h => by
        rw [Chip.serviceRank_eq, Chip.serviceRank_eq]
        exact h
    have hfollow : Chip.afterLeaving ((s.taking u id).waitingOf n) (s.taking u id) = _ :=
      funext fun x => funext fun i => Chip.afterLeaving_eq ((s.taking u id).waitingOf n) (s.taking u id) x i
    have hcancel : Chip.cancelWaiting = _ := funext fun x => funext fun d => x.cancelWaiting_eq d
    rw [hdrain hr, Chip.drainRing_eq,
      Chip.inServiceOrder_streamsOf (s.taking u id) ((s.taking u id).waitingOf n) order hnodup hmem hrank', hfollow, hcancel]
    rfl
  · obtain ⟨-, -, hdrain⟩ := exec_ringDelete_byState (u := u) hs hq ht hn hid
    rw [hdrain hr, Chip.drainRing_waits (c := s.taking u id) hw ho, hw]
    rfl
  · obtain ⟨-, -, hdrain⟩ := exec_ringDelete_byState (u := u) hs hq ht hn hid
    obtain ⟨⟨-, sl, hsl, hreq⟩, -⟩ := Chip.current_eq_some.1 hs.current
    rw [hdrain hr, Chip.drainRing_ends (c := s.taking u id) hw ho hsl hreq, hw]
    rfl
  · rw [exec_ringDeleteRequestRing hs hq (by omega), if_neg (by omega)]
    rfl
  · rw [exec_ringDeleteCompletionRing hs hq ht, Chip.deleteCompletionRing_badField (ioRing_eq_none hid)]
    rfl
  · rw [exec_ringDeleteCompletionRing hs hq ht, (Chip.deleteCompletionRing_byState (c := s.taking [] id) (hring n hn hid)).1 hr]
    rfl
  · have hused : ((s.taking [] id).ringBound n || (s.taking [] id).streamBound n) = true :=
      Bool.or_eq_true_iff.2 (hu.imp Chip.ringBound_iff.2 Chip.streamBound_iff.2)
    obtain ⟨-, hinUse, -⟩ := Chip.deleteCompletionRing_byState (c := s.taking [] id) (id := id) (hring n hn hid)
    rw [exec_ringDeleteCompletionRing hs hq ht, hinUse hr hused]
    rfl
  · have hfree : ((s.taking [] id).ringBound n || (s.taking [] id).streamBound n) = false :=
      Bool.eq_false_iff.2 fun h => hu ((Bool.or_eq_true_iff.1 h).imp Chip.ringBound_iff.1 Chip.streamBound_iff.1)
    obtain ⟨-, -, hdeletes⟩ := Chip.deleteCompletionRing_byState (c := s.taking [] id) (id := id) (hring n hn hid)
    rw [exec_ringDeleteCompletionRing hs hq ht, hdeletes hr hfree]
    rfl

end Sys2Proof.Machine
end

section
/-! RELEASE (R77, R78), the deadlines of waiting requests (R37, R56), and the end of an append's copy (R39 to R46). -/

namespace Sys2Proof.Machine

/-! ### RELEASE -/

section
variable {st : StreamEntry} {target : Nat} {m : Mark}

theorem StreamEntry.releaseTarget_first_noMark (h : st.marks = []) : st.releaseTarget 1 target = .error .noMark := by
  rw [StreamEntry.releaseTarget, if_pos rfl, h, List.head?_nil]

theorem StreamEntry.releaseTarget_first_found (h : st.marks.head? = some m) : st.releaseTarget 1 target = .ok m := by
  rw [StreamEntry.releaseTarget, if_pos rfl, h]

theorem StreamEntry.releaseTarget_atMark : st.releaseTarget 2 target = st.atMark target := rfl

theorem StreamEntry.releaseTarget_toRead : st.releaseTarget 3 target = .ok { pos := st.read, loc := st.readLoc } := rfl

end

section
variable {c : Chip} {i : StreamId} (id : Nat) {variant target : Nat}

theorem Chip.release_wrongMode (hm : (c.stream i).mode = .consume) :
    c.release i id variant target = c.refuse id .wrongMode := if_pos hm

theorem Chip.release_badField (hm : (c.stream i).mode = .retain) : c.release i id 0 target = c.refuse id .badField :=
  if_neg (Mode.ne_consume_of_retain hm)

theorem Chip.release_of_noTarget {e : Status} (hm : (c.stream i).mode = .retain) (hv : variant ≠ 0)
    (ht : (c.stream i).releaseTarget variant target = .error e) :
    c.release i id variant target = c.answer id fun q => q.spanRefusal e (c.stream i) := by
  simp only [Chip.release, if_neg (Mode.ne_consume_of_retain hm), if_neg hv, ht]

theorem Chip.release_of_target {m : Mark} (hm : (c.stream i).mode = .retain) (hv : variant ≠ 0)
    (ht : (c.stream i).releaseTarget variant target = .ok m) : c.release i id variant target = c.releaseTo i id m := by
  simp only [Chip.release, if_neg (Mode.ne_consume_of_retain hm), if_neg hv, ht]

theorem Chip.releaseTo_raises {m : Mark} (h : (c.stream i).base < m.pos) :
    c.releaseTo i id m = ((c.setStream i ((c.stream i).released m)).pageReturn i).answer id fun q =>
      q.moved (c.stream i).base m.pos (m.pos - (c.stream i).base) := by
  simp only [Chip.releaseTo, if_pos h]

theorem Chip.releaseTo_keeps {m : Mark} (h : m.pos ≤ (c.stream i).base) :
    c.releaseTo i id m = (c.setStream i ((c.stream i).released m)).answer id fun q =>
      q.moved (c.stream i).base m.pos 0 := by
  simp only [Chip.releaseTo, if_neg (Nat.not_lt.2 h), Nat.sub_eq_zero_of_le h]

end

theorem exec_release {s : State} {id : Nat} {q : Request} {i : StreamId} {variant target : Nat} (u : Upsets)
    (hs : s.toChip.ServingStream id q i) (hq : q.body = .release variant target) (ho : (s.toChip.stream i).state = .opened) :
    exec (.release u) s = .next (s.withChip ((s.taking u id).release i id variant target)) := by
  have h := exec_streamRequest_passes hs (g := .io) (by rw [hq]; rfl) (stateCheck_io_of_opened ho) u
  rwa [Request.actOn, hq] at h

/-- Settles O48: the variant's row of R77 gives the target or the refusal, and the target decides whether base rises. -/
theorem releaseRaisesBaseToItsTarget : Obligations.ReleaseRaisesBaseToItsTarget := by
  intro s u id q i variant target hs hq ho
  have hexec := exec_release u hs hq ho
  refine ⟨fun hm => ?_, fun hm hv => ?_, fun hm hv => ?_, fun hm hv hout => ?_, fun m hm hv => ?_⟩
  · rw [hexec, Chip.release_wrongMode (c := s.taking u id) id hm]
  · rw [hexec, hv, Chip.release_badField (c := s.taking u id) id hm]
  · have ht : (s.toChip.stream i).releaseTarget variant target = .error .noMark ∧ variant ≠ 0 := by
      rcases hv with ⟨rfl, hnil⟩ | ⟨rfl, hin, hnone⟩
      · exact ⟨StreamEntry.releaseTarget_first_noMark hnil, one_ne_zero⟩
      · exact ⟨StreamEntry.releaseTarget_atMark.trans (StreamEntry.atMark_noMark hin hnone), two_ne_zero⟩
    rw [hexec, Chip.release_of_noTarget (c := s.taking u id) id hm ht.2 ht.1]
    rfl
  · rw [hexec, hv, Chip.release_of_noTarget (c := s.taking u id) id hm two_ne_zero (StreamEntry.atMark_badTarget hout)]
    rfl
  · have ht : (s.toChip.stream i).releaseTarget variant target = .ok m ∧ variant ≠ 0 := by
      rcases hv with ⟨rfl, hfirst⟩ | ⟨rfl, hin, hfound⟩ | ⟨rfl, rfl⟩
      · exact ⟨StreamEntry.releaseTarget_first_found hfirst, one_ne_zero⟩
      · exact ⟨StreamEntry.releaseTarget_atMark.trans (StreamEntry.atMark_found hin hfound), two_ne_zero⟩
      · exact ⟨StreamEntry.releaseTarget_toRead, three_ne_zero⟩
    have hto : exec (.release u) s = .next (s.withChip ((s.taking u id).releaseTo i id m)) := by
      rw [hexec, Chip.release_of_target (c := s.taking u id) id hm ht.2 ht.1]
    refine ⟨fun hlt => ?_, fun hle => ?_⟩
    · rw [hto, Chip.releaseTo_raises (c := s.taking u id) id hlt]
      rfl
    · rw [hto, Chip.releaseTo_keeps (c := s.taking u id) id hle]
      rfl

/-! ### Deadlines -/

section
variable {c : Chip} {i : StreamId} {slot : Nat}

theorem StreamEntry.headAppend_eq (st : StreamEntry) (slot : Nat) :
    st.headAppend slot = ((st.waitA.head?.map WaitingAppend.slot) == some slot) := by
  rw [StreamEntry.headAppend]
  cases st.waitA <;> rfl

theorem StreamEntry.headFetch_cons {st : StreamEntry} {h : WaitingFetch} {rest : List WaitingFetch}
    (hw : st.waitF = h :: rest) : st.headFetch slot = (h.slot == slot) := by
  rw [StreamEntry.headFetch, hw]

theorem StreamEntry.appendTimed_iff (st : StreamEntry) :
    st.appendTimed slot = true ↔ ∃ w ∈ st.waitA, w.slot = slot ∧ w.deadline ≠ none := by
  simp only [StreamEntry.appendTimed, List.any_eq_true, Bool.and_eq_true, beq_iff_eq, Option.isSome_iff_ne_none]

theorem StreamEntry.fetchTimed_iff (st : StreamEntry) :
    st.fetchTimed slot = true ↔ ∃ w ∈ st.waitF, w.slot = slot ∧ w.deadline ≠ none := by
  simp only [StreamEntry.fetchTimed, List.any_eq_true, Bool.and_eq_true, beq_iff_eq, Option.isSome_iff_ne_none]

theorem Chip.appendDeadline_timesOut (ha : c.isActive = true) (hi : c.slotStream slot = some i)
    (ht : (c.stream i).appendTimed slot = true) :
    c.appendDeadline slot = ((c.dropAppend i slot).refuse slot .timedOut).startArbiterIf ((c.stream i).headAppend slot) := by
  simp only [Chip.appendDeadline, hi, ha, ht, Bool.and_self, if_true]

theorem Chip.fetchDeadline_expires (ha : c.isActive = true) (hi : c.slotStream slot = some i)
    (ho : (c.stream i).state = .opened) (ht : (c.stream i).fetchTimed slot = true) :
    c.fetchDeadline slot = c.fetchExpires i slot := by
  simp only [Chip.fetchDeadline, hi, ha, ho, ht, beq_self_eq_true, Bool.and_self, if_true]

theorem Chip.fetchExpires_grants {h : WaitingFetch} {rest : List WaitingFetch} (hw : (c.stream i).waitF = h :: rest)
    (hg : h.slot = slot ∧ (c.stream i).active = none ∧ 1 ≤ (c.stream i).available) :
    c.fetchExpires i slot = if (c.grant i h rest true).2 then (c.grant i h rest true).1.evalHead i else (c.grant i h rest true).1 := by
  simp only [Chip.fetchExpires, hw, if_pos hg]

theorem Chip.fetchExpires_timesOut {h : WaitingFetch} {rest : List WaitingFetch} (hw : (c.stream i).waitF = h :: rest)
    (hg : ¬ (h.slot = slot ∧ (c.stream i).active = none ∧ 1 ≤ (c.stream i).available)) :
    c.fetchExpires i slot =
      if h.slot == slot then ((c.dropFetch i slot).refuse slot .timedOut).evalHead i
      else (c.dropFetch i slot).refuse slot .timedOut := by
  simp only [Chip.fetchExpires, hw, if_neg hg, Chip.fetchTimesOut, StreamEntry.headFetch_cons hw]

end

/-- Settles O39. -/
theorem deadlinesEndTheWait : Obligations.DeadlinesEndTheWait := by
  refine ⟨fun s slot i ha hi hw => ?_, fun s slot u i ha hi ho hw h rest hcons => ?_⟩
  · have hexec : exec (.appendDeadline slot) s = .next (s.withChip (s.toChip.appendDeadline slot)) := rfl
    rw [hexec, Chip.appendDeadline_timesOut (s.toChip.isActive_iff.2 ha) hi ((StreamEntry.appendTimed_iff _).2 hw),
      StreamEntry.headAppend_eq]
    rfl
  · have hexec : exec (.fetchDeadline slot u) s = .next (s.withChip ((s.toChip.upset u).fetchExpires i slot)) := by
      rw [← Chip.fetchDeadline_expires (c := s.toChip.upset u) (s.toChip.isActive_iff.2 ha) hi ho
        ((StreamEntry.fetchTimed_iff _).2 hw)]
      rfl
    have hout := Chip.fetchExpires_timesOut (c := s.toChip.upset u) (slot := slot) hcons
    refine ⟨fun hne => ?_, fun heq hnot => ?_, fun heq hnone hlt => ?_⟩
    · rw [hexec, hout fun hg => hne hg.1, if_neg fun hb => hne (beq_iff_eq.1 hb)]
      rfl
    · rw [hexec, hout fun ⟨_, hnone, hav⟩ => hnot.elim (· hnone) fun hle => absurd (Nat.sub_eq_zero_of_le hle) (Nat.ne_of_gt hav),
        if_pos (beq_iff_eq.2 heq)]
      rfl
    · rw [hexec, Chip.fetchExpires_grants (c := s.toChip.upset u) hcons ⟨heq, hnone, Nat.sub_pos_of_lt hlt⟩]

/-! ### APPEND_COPY_END -/

section
variable {c : Chip} {i : StreamId} {slot : Nat}

theorem Chip.dropEnd_none {kind : EndKind} (h : c.endOf kind slot = none) : c.dropEnd kind slot = c := by
  have hends : (c.engine.ends.filter fun e => !(e.kind == kind && e.slot == slot)) = c.engine.ends :=
    List.filter_eq_self.2 fun e he => by
      rw [Bool.not_eq_true', ← Bool.not_eq_true, Bool.and_eq_true, beq_iff_eq, beq_iff_eq]
      exact Chip.endOf_eq_none.1 h e he
  rw [Chip.dropEnd, hends]

theorem Chip.appendCopyEnd_discards (ha : c.isActive = false) : c.appendCopyEnd slot = c.dropEnd .append slot := by
  unfold Chip.appendCopyEnd
  split
  · rename_i h
    exact (Chip.dropEnd_none h).symm
  · exact if_neg (ne_true_of_eq_false ha)

theorem Chip.appendCopyEnd_ends {e : EndReport} (ha : c.isActive = true) (he : c.endOf .append slot = some e)
    (hi : c.slotStream slot = some i) :
    c.appendCopyEnd slot = (c.dropEnd .append slot).appendEnds i slot e.outcome := by
  have ha' : (c.dropEnd .append slot).isActive = true := ha
  have hi' : (c.dropEnd .append slot).slotStream slot = some i := hi
  simp only [Chip.appendCopyEnd, he, ha', if_true, hi']

theorem Chip.appendEnds_walks {a : Admitted} (o : CopyOutcome)
    (ha : ((c.stream i).admitted.find? fun a => a.slot == slot) = some a) :
    c.appendEnds i slot o =
      (((c.abandonRecord a o.failure).setPhase slot .admitted).modStream i fun st =>
        { st with admitted := markComplete slot o.failure st.admitted }).walk i := by
  simp only [Chip.appendEnds, ha]

end

theorem exec_appendCopyEnd (s : State) (slot : Nat) (u : Upsets) :
    exec (.appendCopyEnd slot u) s = .next (s.withChip ((s.toChip.upset u).appendCopyEnd slot)) := rfl

theorem BufferMemory.rewriteKind_spec (m : BufferMemory) (i : StreamId) (page offset seq : Nat) (kind : RecordKind)
    (hm : m.wf = true) (hs : seq < 2 ^ 48) :
    let t := m.rewriteKind page offset seq kind
    (t.word (page * 512 + offset / 8)).toNat = kind.code.toNat * 2 ^ 48 + seq ∧
    (∀ a, a / 8 ≠ page * 512 + offset / 8 → t.readByte a = m.readByte a) ∧
    t.size = m.size ∧ t.corrected = m.corrected ∧ t.damaged = m.damaged ∧
    ∀ h, (m.readHeader i seq page offset).2 = some h →
      (t.readHeader i seq page offset).2 = some { kind := kind, length := h.length, tag := h.tag } := by
  obtain ⟨hdamaged, hcorrected, hsize⟩ := m.rewriteKind_counters page offset seq kind
  have hstored : (m.rewriteKind page offset seq kind).word (wordAt page offset) = headerWord0 seq kind := m.word_writeWord _ _ hm
  have hnumber : ((m.rewriteKind page offset seq kind).word (wordAt page offset)).toNat = kind.code.toNat * 2 ^ 48 + seq := by
    rw [hstored, headerWord0_toNat seq kind hs]
  exact ⟨hnumber, fun a ha => m.readByte_writeWord_ne (wordAt page offset) a _ ha, hsize, hcorrected, hdamaged,
    m.readHeader_rewriteKind i seq page offset kind hm hs⟩

/-- Settles O40. -/
theorem appendCopyEndMarksAndWalks : Obligations.AppendCopyEndMarksAndWalks := by
  refine ⟨fun m i page offset seq kind hm hs => ?_, fun s slot u ha => ?_, fun s slot u e i a ha he hi hfind => ?_⟩
  · intro t code
    have hcode : kind.code.toNat = code := by cases kind <;> rfl
    rw [← hcode]
    exact m.rewriteKind_spec i page offset seq kind hm hs
  · have hinactive : (s.toChip.upset u).isActive = false := Bool.eq_false_iff.2 fun h => ha ((Chip.isActive_iff _).1 h)
    rw [exec_appendCopyEnd, Chip.appendCopyEnd_discards hinactive]
  · have hexec : exec (.appendCopyEnd slot u) s =
        .next (s.withChip (((s.toChip.upset u).dropEnd .append slot).appendEnds i slot e.outcome)) := by
      rw [exec_appendCopyEnd, Chip.appendCopyEnd_ends (c := s.toChip.upset u) (s.toChip.isActive_iff.2 ha) he hi]
    have hwalks (o : CopyOutcome) := Chip.appendEnds_walks (c := (s.toChip.upset u).dropEnd .append slot) o hfind
    refine ⟨fun ho => ?_, fun ho => ?_, fun ho => ?_⟩
    all_goals rw [hexec, ho, hwalks]; rfl

end Sys2Proof.Machine
end

section
/-! FETCH, LIST_READ_END and FETCH_COPY_END: the checks of a fetch, its arrival, and the end of its copy (R48 to R51, R61 to R63). -/

namespace Sys2Proof.Machine

/-! ### FETCH -/

/-- A fetch's source as R48 and R49 accept it. -/
def Source.Formed (src : Source) : Prop :=
  (∃ segs, src = .direct segs ∧ segs ≠ [] ∧
      (∀ x ∈ segs, x.addr.toNat % 16 = 0 ∧ x.len % 16 = 0 ∧ x.len ≠ 0) ∧ (segs.map Segment.len).sum ≤ 4194304) ∨
    ∃ addr count, src = .indirect addr count ∧ addr.toNat % 16 = 0 ∧ 1 ≤ count ∧ count ≤ 256

theorem fetchSourceOk_iff (src : Source) : fetchSourceOk src = true ↔ src.Formed := by
  unfold Source.Formed
  cases src with
  | direct segs =>
    simp only [fetchSourceOk, Bool.and_eq_true, Bool.not_eq_true', List.isEmpty_eq_false_iff, fetchSegmentsOk_iff,
      Source.direct.injEq, exists_eq_left', reduceCtorEq, false_and, exists_false, or_false]
  | indirect addr count =>
    simp only [fetchSourceOk, listAccepted, aligned16, Bool.and_eq_true, beq_iff_eq, decide_eq_true_eq, reduceCtorEq,
      false_and, exists_false, false_or, Source.indirect.injEq, and_assoc]
    exact ⟨fun h => ⟨addr, count, rfl, rfl, h⟩, fun ⟨_, _, ha, hc, h⟩ => ha ▸ hc ▸ h⟩

section
variable {c : Chip} {i : StreamId} {id most least wait : Nat} {segs : List Segment} {src : Source}

theorem Chip.fetch_refuses (h : most = 0 ∨ 256 < most ∨ least = 0 ∨ most < least ∨ ¬ src.Formed) :
    c.fetch i id most least wait src = c.refuse id .badField := by
  rw [← fetchSourceOk_iff, Bool.not_eq_true] at h
  unfold Chip.fetch
  split_ifs with hmost hleast hsrc
  · rfl
  · rfl
  · rfl
  · exact absurd h (by tauto)

theorem Chip.fetch_passes (hmost : 1 ≤ most) (hmax : most ≤ 256) (hleast : 1 ≤ least) (hle : least ≤ most)
    (hsrc : src.Formed) :
    (∀ segs, src = .direct segs → c.fetch i id most least wait src = c.joinFetches i id most least wait segs) ∧
      ∀ addr count, src = .indirect addr count →
        c.fetch i id most least wait src = c.place { slot := id, work := .listRead addr count } := by
  have hok : ¬ fetchSourceOk src = false := ne_false_of_eq_true ((fetchSourceOk_iff src).2 hsrc)
  unfold Chip.fetch
  rw [if_neg (by omega), if_neg (by omega), if_neg hok]
  exact ⟨fun segs h => by rw [h], fun addr count h => by rw [h]⟩

/-- The stream and the slot with a fetch at the end of the waiting-fetch list. -/
def Chip.joinedFetches (c : Chip) (i : StreamId) (id most least wait : Nat) (segs : List Segment) : Chip :=
  (c.setStream i
    { c.stream i with
      waitF := (c.stream i).waitF ++
        [{ slot := id, maxRecords := most, minRecords := least, capacity := (segs.map Segment.len).sum, wait := wait,
           deadline := if wait = 0 ∨ wait = 65535 then none else some wait }] }).modSlot id
    fun sl => { sl with phase := .waiting, segments := segs }

theorem fetchDeadline_eq (wait : Nat) :
    (if wait = 0 then none else deadlineOf wait) = if wait = 0 ∨ wait = 65535 then none else some wait := by
  unfold deadlineOf
  rw [ite_or]
  rfl

theorem Chip.joinFetches_eq :
    c.joinFetches i id most least wait segs =
      if 8 ≤ (c.stream i).waitF.length then c.refuse id .waitLimit
      else if c.slotDraining id then c.cancelInstead id
      else if (c.stream i).waitF.isEmpty then (c.joinedFetches i id most least wait segs).evalHead i
      else c.joinedFetches i id most least wait segs := by
  rw [Chip.joinFetches, fetchDeadline_eq]
  rfl

theorem Chip.listReadEnd_ends {e : EndReport} {q : Request} (ha : c.isActive = true) (he : c.endOf .list id = some e)
    (hq : c.slotRequest id = some q) : c.listReadEnd id = (c.dropEnd .list id).listEnds id q e := by
  have ha' : (c.dropEnd .list id).isActive = true := ha
  have hq' : (c.dropEnd .list id).slotRequest id = some q := hq
  simp only [Chip.listReadEnd, he, ha', if_true, hq']

end

theorem exec_listReadEnd (s : State) (slot : Nat) (u : Upsets) :
    exec (.listReadEnd slot u) s = .next (s.withChip ((s.toChip.upset u).listReadEnd slot)) := rfl

theorem Chip.listEnds_arrives {c : Chip} {id most least : Nat} {src : Source} {e : EndReport} {q : Request}
    (ho : e.outcome = .ok) (hb : q.body = .fetch most least src) :
    c.listEnds id q e = c.onStream id q .io fun i => c.joinFetches i id most least q.wait e.segments := by
  simp only [Chip.listEnds, ho, hb]

/-- Settles O42. -/
theorem fetchChecksAndArrives : Obligations.FetchChecksAndArrives := by
  refine ⟨fun s u id q i most least src hs hb ho => ?_, fun c i id most least wait segs => ?_,
    fun s slot u e q i most least src ha he hq hb hi => ?_⟩
  · have hpass := stateCheck_io_of_opened ho
    have hexec := exec_streamRequest_passes hs (g := .io) (by rw [hb]; rfl) hpass u
    rw [Request.actOn, hb] at hexec
    change exec (.fetch u) s = .next (s.withChip ((s.taking u id).fetch i id most least q.wait src)) at hexec
    refine ⟨fun h => by rw [hexec, Chip.fetch_refuses (c := s.taking u id) h], fun hmost hmax hleast hle hformed => ?_⟩
    obtain ⟨hdirect, hindirect⟩ :=
      Chip.fetch_passes (c := s.taking u id) (i := i) (id := id) (wait := q.wait) hmost hmax hleast hle hformed
    exact ⟨fun segs hsrc => by rw [hexec, hdirect segs hsrc], fun addr count hsrc => by rw [hexec, hindirect addr count hsrc]⟩
  · intro st joined
    rw [Chip.joinFetches_eq]
    refine ⟨fun h => if_pos h, fun h hd => ?_, fun h hd hne => ?_, fun hd hempty => ?_⟩
    · rw [if_neg (Nat.not_le.2 h), if_pos hd]
    · rw [if_neg (Nat.not_le.2 h), if_neg (ne_true_of_eq_false hd), if_neg (by rwa [List.isEmpty_iff])]
      rfl
    · have hfull : ¬ 8 ≤ (c.stream i).waitF.length := by rw [hempty]; decide
      rw [if_neg hfull, if_neg (ne_true_of_eq_false hd), if_pos (List.isEmpty_iff.2 hempty)]
      rfl
  · have hexec : exec (.listReadEnd slot u) s =
        .next (s.withChip (((s.toChip.upset u).dropEnd .list slot).listEnds slot q e)) := by
      rw [exec_listReadEnd, Chip.listReadEnd_ends (c := s.toChip.upset u) (s.toChip.isActive_iff.2 ha) he hq]
    refine ⟨fun h => ?_, fun h => ?_, fun h hopened => ?_, fun status h hst => ?_⟩
    · rw [hexec, Chip.listEnds, h]
    · rw [hexec, Chip.listEnds, h]
    · rw [hexec, Chip.listEnds_arrives h hb,
        Chip.onStream_of_passes (c := (s.toChip.upset u).dropEnd .list slot) hi (stateCheck_io_of_opened hopened)]
    · rw [hexec, Chip.listEnds_arrives h hb,
        Chip.onStream_refused (c := (s.toChip.upset u).dropEnd .list slot) hi hst]

/-! ### FETCH_COPY_END -/

/-- The stream after step 1 of R61. -/
theorem StreamEntry.consumed_fields (st : StreamEntry) (a : ActiveFetch) :
    let base := max st.base a.endSeq
    let baseLoc := if st.base < a.endSeq then a.endLoc else st.baseLoc
    st.consumed a =
      { st with
        base := base, baseLoc := baseLoc, read := max st.read base,
        readLoc := if st.read < base then baseLoc else st.readLoc } := by
  unfold StreamEntry.consumed
  by_cases hbase : st.base < a.endSeq
  · simp only [if_pos hbase, max_eq_right hbase.le]
    by_cases hread : st.read < a.endSeq
    · rw [if_pos hread, if_pos hread, max_eq_right hread.le]
    · rw [if_neg hread, if_neg hread, max_eq_left (Nat.le_of_not_lt hread)]
  · simp only [if_neg hbase, max_eq_left (Nat.le_of_not_lt hbase)]
    by_cases hread : st.read < st.base
    · rw [if_pos hread, if_pos hread, max_eq_right hread.le]
    · rw [if_neg hread, if_neg hread, max_eq_left (Nat.le_of_not_lt hread)]

/-- The stream after the restoration of R62. -/
theorem StreamEntry.restored_fields (st : StreamEntry) (a : ActiveFetch) :
    let read := if st.read = a.endSeq then max a.first st.base else st.read
    st.restored a =
      { st with
        read := read
        readLoc := if st.read = a.endSeq then (if st.base < a.first then a.firstLoc else st.baseLoc) else st.readLoc
        marks := st.marks.filter fun m => decide (m.pos ≤ read) } := by
  unfold StreamEntry.restored
  by_cases hread : st.read = a.endSeq
  · simp only [if_pos hread]
    by_cases hbase : st.base < a.first
    · simp only [if_pos hbase, max_eq_left hbase.le]
    · simp only [if_neg hbase, max_eq_right (Nat.le_of_not_lt hbase)]
  · simp only [if_neg hread]

section
variable {c : Chip} {i : StreamId} {id : Nat} {a : ActiveFetch} {e : EndReport}

theorem Chip.fetchCopyEnd_discards (ha : c.isActive = false) : c.fetchCopyEnd id = c.dropEnd .fetch id := by
  unfold Chip.fetchCopyEnd
  split
  · rename_i h
    exact (Chip.dropEnd_none h).symm
  · exact if_neg (ne_true_of_eq_false ha)

theorem Chip.activeOf_active (h : (c.stream i).active = some a) (hid : a.slot = id) : c.activeOf i id = some a := by
  simp only [Chip.activeOf, h, if_pos hid]

theorem Chip.fetchCopyEnd_ends (ha : c.isActive = true) (he : c.endOf .fetch id = some e) (hi : c.slotStream id = some i)
    (hact : (c.stream i).active = some a) (hid : a.slot = id) :
    c.fetchCopyEnd id = (c.dropEnd .fetch id).fetchEnds i a e := by
  have ha' : (c.dropEnd .fetch id).isActive = true := ha
  have hi' : (c.dropEnd .fetch id).slotStream id = some i := hi
  have hact' : (c.dropEnd .fetch id).activeOf i id = some a := Chip.activeOf_active hact hid
  simp only [Chip.fetchCopyEnd, he, ha', if_true, hi', hact']

theorem Chip.unpin_modStream (f : StreamEntry → StreamEntry) :
    (c.modStream i f).unpin i = c.setStream i { f (c.stream i) with active := none } := by
  simp only [Chip.unpin, Chip.modStream, Chip.setStream_stream_same, Chip.setStream_setStream]

theorem Chip.unpin_answer (f : Request → Completion) :
    (c.answer id f).unpin i = (c.answer id f).setStream i { c.stream i with active := none } := by
  rw [Chip.unpin, Chip.modStream, Chip.answer_stream]

theorem Chip.fetchEnds_consumes (hs : a.stopped = false) (he : e.outcome = .ok) (ho : (c.stream i).state = .opened)
    (hm : (c.stream i).mode = .consume) :
    c.fetchEnds i a e =
      (((((((c.answer a.slot (a.delivered e)).setStream i ((c.stream i).consumed a)).evalBacklog i).unpin i).pageReturn
        i).evalHead i).endCheck i) := by
  simp only [Chip.fetchEnds, hs, he, Bool.false_eq_true, if_false, Chip.fetchSucceeds, Chip.answer_stream, ho, hm, and_self,
    if_true, Chip.modStream]

theorem Chip.fetchEnds_retains (hs : a.stopped = false) (he : e.outcome = .ok)
    (h : (c.stream i).state ≠ .opened ∨ (c.stream i).mode = .retain) :
    c.fetchEnds i a e =
      (((((c.answer a.slot (a.delivered e)).setStream i { c.stream i with active := none }).pageReturn i).evalHead
        i).endCheck i) := by
  have hnot : ¬ ((c.stream i).state = .opened ∧ (c.stream i).mode = .consume) := fun ⟨ho, hm⟩ =>
    h.elim (· ho) fun hr => by cases hr.symm.trans hm
  simp only [Chip.fetchEnds, hs, he, Bool.false_eq_true, if_false, Chip.fetchSucceeds, Chip.answer_stream, if_neg hnot,
    Chip.unpin_answer]

theorem Chip.fetchEnds_fails (hs : a.stopped = false) (he : e.outcome = .hostWriteError) :
    c.fetchEnds i a e =
      ((((((c.answer a.slot (a.notWritten e)).setStream i { (c.stream i).restored a with active := none }).pageReturn
        i).evalBacklog i).evalHead i).endCheck i) := by
  simp only [Chip.fetchEnds, hs, he, Bool.false_eq_true, if_false, Chip.fetchFails, Chip.unpin_modStream, Chip.answer_stream]

theorem Chip.fetchEnds_stopped (h : a.stopped = true ∨ e.outcome = .stopped) :
    c.fetchEnds i a e =
      let t := (c.answer a.slot (a.stoppedAt e)).setStream i { c.stream i with active := none }
      if (c.stream i).state = .closing then (t.pageReturn i).endCheck i else t := by
  have hstopped : c.fetchEnds i a e = (c.answer a.slot (a.stoppedAt e)).fetchStopped i := by
    unfold Chip.fetchEnds
    cases hs : a.stopped with
    | true => rfl
    | false => rw [h.resolve_left (ne_true_of_eq_false hs)]; rfl
  simp only [hstopped, Chip.fetchStopped, Chip.unpin_answer, Chip.answer_stream]

end

theorem exec_fetchCopyEnd (s : State) (slot : Nat) (u : Upsets) :
    exec (.fetchCopyEnd slot u) s = .next (s.withChip ((s.toChip.upset u).fetchCopyEnd slot)) := rfl

/-- Settles O45. -/
theorem fetchCopyEndByOutcome : Obligations.FetchCopyEndByOutcome := by
  refine ⟨fun s slot u ha => ?_, fun s slot u e i a ha he hi hact hid => ?_⟩
  · have hinactive : (s.toChip.upset u).isActive = false := Bool.eq_false_iff.2 fun h => ha ((Chip.isActive_iff _).1 h)
    rw [exec_fetchCopyEnd, Chip.fetchCopyEnd_discards hinactive]
  · subst hid
    have hexec : exec (.fetchCopyEnd a.slot u) s =
        .next (s.withChip (((s.toChip.upset u).dropEnd .fetch a.slot).fetchEnds i a e)) := by
      rw [exec_fetchCopyEnd, Chip.fetchCopyEnd_ends (c := s.toChip.upset u) (s.toChip.isActive_iff.2 ha) he hi hact rfl]
    refine ⟨fun hs ho hst hm => ?_, fun hs ho hst => ?_, fun hs ho => ?_, fun h => ⟨fun hst => ?_, fun hst => ?_⟩⟩
    · rw [hexec, Chip.fetchEnds_consumes (c := (s.toChip.upset u).dropEnd .fetch a.slot) hs ho hst hm,
        StreamEntry.consumed_fields]
      rfl
    · rw [hexec, Chip.fetchEnds_retains (c := (s.toChip.upset u).dropEnd .fetch a.slot) hs ho hst]
      rfl
    · rw [hexec, Chip.fetchEnds_fails (c := (s.toChip.upset u).dropEnd .fetch a.slot) hs ho, StreamEntry.restored_fields]
      rfl
    · rw [hexec, Chip.fetchEnds_stopped (c := (s.toChip.upset u).dropEnd .fetch a.slot) h]
      exact congrArg (fun c => Host.Outcome.next (s.withChip c)) (if_pos hst)
    · rw [hexec, Chip.fetchEnds_stopped (c := (s.toChip.upset u).dropEnd .fetch a.slot) h]
      exact congrArg (fun c => Host.Outcome.next (s.withChip c)) (if_neg hst)

end Sys2Proof.Machine
end

section
/-! The walks over the append window (R41 to R44): which entries they take, and what an evaluation of the waiting-fetch head leaves
of the window. -/

namespace Sys2Proof.Machine

/-! ### The entries a walk takes -/

theorem committable_prefix (f : Nat) (l : List Admitted) : committable f l = l.take (committable f l).length := by
  induction l generalizing f with
  | nil => rfl
  | cons a rest ih =>
    unfold committable
    split
    · exact congrArg (a :: ·) (ih (f + 1))
    · rfl

theorem committable_get {f : Nat} {l : List Admitted} {k : Nat} {a : Admitted} (hk : k < (committable f l).length)
    (ha : l[k]? = some a) : a.complete = true ∧ a.seq = f + k := by
  induction l generalizing f k with
  | nil => cases ha
  | cons b rest ih =>
    unfold committable at hk
    split at hk
    · rename_i h
      obtain ⟨hcomplete, hseq⟩ := Bool.and_eq_true_iff.1 h
      cases k with
      | zero => cases ha; exact ⟨hcomplete, beq_iff_eq.1 hseq⟩
      | succ k =>
        obtain ⟨hc, hs⟩ := ih (f := f + 1) (Nat.lt_of_succ_lt_succ hk) ha
        exact ⟨hc, hs.trans (by omega)⟩
    · cases hk

theorem committable_stop {f : Nat} {l : List Admitted} {a : Admitted} (ha : l[(committable f l).length]? = some a) :
    a.complete = false ∨ a.seq ≠ f + (committable f l).length := by
  induction l generalizing f with
  | nil => cases ha
  | cons b rest ih =>
    unfold committable at ha ⊢
    split at ha
    · rename_i h
      rw [if_pos h, List.length_cons]
      exact (ih (f := f + 1) ha).imp_right fun hne => fun he => hne (he.trans (by omega))
    · rename_i h
      rw [if_neg h]
      cases ha
      cases hc : a.complete with
      | false => exact .inl rfl
      | true => exact .inr fun he => h (by rw [hc, he]; simp)

theorem discardable_eq (l : List Admitted) : discardable l = l.takeWhile Admitted.complete := by
  induction l with
  | nil => rfl
  | cons a rest ih =>
    unfold discardable
    rw [ih, List.takeWhile_cons]

/-! ### What leaves a stream's window as it was -/

/-- The positions of a stream's append window and the entries in it. -/
def StreamEntry.window (st : StreamEntry) : Nat × Nat × Nat × List Admitted := (st.frontier, st.next, st.base, st.admitted)

/-- The window of stream `i`. -/
def Chip.window (c : Chip) (i : StreamId) : Nat × Nat × Nat × List Admitted := (c.stream i).window

theorem OnlyNotices.window {c t : Chip} (h : OnlyNotices c t) (i : StreamId) : t.window i = c.window i := by
  have hsame := congrArg StreamEntry.window (h.streams i)
  exact hsame

theorem Chip.window_of_streams {c t : Chip} (h : t.streams = c.streams) (i : StreamId) : t.window i = c.window i :=
  congrArg (fun v => StreamEntry.window (Vector.get v i)) h

section
variable (c : Chip) (i : StreamId)

theorem Chip.answer_window (id : Nat) (f : Request → Completion) : (c.answer id f).window i = c.window i :=
  (c.answer_rings id f).notices.window i

theorem Chip.attempt_window : (c.attempt i).window i = c.window i := (c.attempt_notices i).window i

theorem Chip.setStream_window (st : StreamEntry) : (c.setStream i st).window i = st.window :=
  congrArg StreamEntry.window (c.setStream_stream_same i st)

theorem Chip.modStream_window (f : StreamEntry → StreamEntry) (h : ∀ st, (f st).window = st.window) :
    (c.modStream i f).window i = c.window i := (c.setStream_window i _).trans (h _)

theorem Chip.evalBacklog_window : (c.evalBacklog i).window i = c.window i := by
  unfold Chip.evalBacklog
  dsimp only
  split_ifs
  · exact (Chip.attempt_window _ i).trans (c.setStream_window i _)
  · exact c.setStream_window i _
  · rfl

theorem Chip.startArbiter_window : c.startArbiter.window i = c.window i := by
  unfold Chip.startArbiter
  split_ifs <;> rfl

theorem Chip.startArbiterIf_window (b : Bool) : (c.startArbiterIf b).window i = c.window i := by
  cases b with
  | false => rfl
  | true => exact c.startArbiter_window i

theorem Chip.breakChain_window (p : Nat) : (c.breakChain i p).window i = c.window i := by
  unfold Chip.breakChain
  dsimp only
  split_ifs
  · exact c.setStream_window i _
  · exact c.setStream_window i _
  · rfl

theorem Chip.cut_window (brk : Option Nat) : (c.cut i brk).window i = c.window i := by
  cases brk with
  | none => rfl
  | some p => exact c.breakChain_window i p

theorem Chip.stopActive_window : (c.stopActive i).window i = c.window i := by
  unfold Chip.stopActive
  split
  · rfl
  · rw [Chip.stopCopy_engine]
    exact c.modStream_window i StreamEntry.markStopped fun _ => rfl

theorem Chip.refuseWaiting_window (s : Status) : (c.refuseWaiting i s).window i = c.window i :=
  ((Chip.refuseAll_rings _ _ s).notices.window i).trans (c.modStream_window i _ fun _ => rfl)

theorem Chip.refusePending_window (d : Option Nat) : (c.refusePending d).window i = c.window i := by
  cases d with
  | none => rfl
  | some id => exact c.answer_window i id _

theorem Chip.faultStream_window (cause : FaultCause) (brk : Option Nat) :
    (c.faultStream i cause brk).window i = c.window i := by
  unfold Chip.faultStream
  dsimp only
  rw [Chip.startArbiterIf_window, Chip.attempt_window, Chip.refusePending_window, Chip.refuseWaiting_window,
    Chip.stopActive_window, Chip.modStream_window _ i (fun x => x.enterFaulted cause) (fun _ => rfl), Chip.cut_window]

theorem Chip.grant_window (h : WaitingFetch) (rest : List WaitingFetch) (short : Bool) :
    (c.grant i h rest short).1.window i = c.window i := by
  have hwalk := Chip.window_of_streams (sizeWalk_stream i h.capacity (c.stream i).next
    (min h.maxRecords (c.stream i).available) c (c.stream i).read (c.stream i).readLoc.place.1
    (c.stream i).readLoc.place.2 0 0) i
  unfold Chip.grant
  dsimp only
  split <;> rename_i heq <;> rw [heq] at hwalk
  · exact (Chip.faultStream_window _ i _ _).trans hwalk
  · exact (Chip.answer_window _ i _ _).trans ((Chip.setStream_window _ i _).trans hwalk)
  · exact (Chip.evalBacklog_window _ i).trans ((Chip.setStream_window _ i _).trans hwalk)

theorem Chip.noData_window (h : WaitingFetch) (rest : List WaitingFetch) (f : Request → Completion) :
    ((c.modStream i fun st => { st with waitF := rest }).answer h.slot f).window i = c.window i :=
  (Chip.answer_window _ i _ _).trans (c.setStream_window i _)

end

theorem evalHeads_window (fuel : Nat) (i : StreamId) (c : Chip) : (evalHeads fuel i c).window i = c.window i := by
  induction fuel generalizing c with
  | zero => rfl
  | succ fuel ih =>
    unfold evalHeads
    dsimp only
    split
    · split
      · rfl
      · rename_i h rest hwait
        split_ifs
        · exact (ih _).trans (c.grant_window i h rest _)
        · exact c.grant_window i h rest _
        · exact (ih _).trans (c.grant_window i h rest _)
        · exact c.grant_window i h rest _
        · exact (ih _).trans (c.noData_window i h rest _)
        · rfl
    · rfl

theorem Chip.evalHead_window (c : Chip) (i : StreamId) : (c.evalHead i).window i = c.window i := evalHeads_window _ i c

theorem foldl_answer_window {α : Type} (i : StreamId) (slot : α → Nat) (f : α → Request → Completion) (l : List α) (c : Chip) :
    (l.foldl (fun d a => d.answer (slot a) (f a)) c).window i = c.window i :=
  (foldl_onlyRings _ (fun d a => d.answer_rings (slot a) (f a)) l c).notices.window i

/-! ### The walks -/

section
variable {c : Chip} {i : StreamId}

theorem Chip.inOrderWalk_nothing (h : committable (c.stream i).frontier (c.stream i).admitted = []) : c.inOrderWalk i = c := by
  simp only [Chip.inOrderWalk, h, List.isEmpty_nil, if_true]

theorem Chip.inOrderWalk_commits (h : committable (c.stream i).frontier (c.stream i).admitted ≠ []) :
    c.inOrderWalk i =
      let st := c.stream i
      let done := committable st.frontier st.admitted
      let f := st.frontier + done.length
      (((done.foldl (fun x a => x.answer a.slot (a.committed f))
        (c.setStream i { st with frontier := f, admitted := st.admitted.drop done.length })).evalBacklog i).evalHead
          i).startArbiter :=
  if_neg (by rwa [List.isEmpty_iff])

theorem Chip.discardWalk_nothing (h : discardable (c.stream i).admitted = []) : c.discardWalk i = c := by
  simp only [Chip.discardWalk, h, List.isEmpty_nil, if_true]

end

theorem Chip.discardWalk_discards {c : Chip} {i : StreamId} {status : Status} (hs : (c.stream i).discardStatus = status)
    (h : discardable (c.stream i).admitted ≠ []) :
    c.discardWalk i =
      let st := c.stream i
      let done := discardable st.admitted
      let left := done.foldl (fun x a => x.answer a.slot (a.discarded status))
        (c.setStream i { st with admitted := st.admitted.drop done.length })
      ((if st.state = .faulted then left else left.pageReturn i).startArbiter).endCheck i :=
  hs ▸ if_neg (by rwa [List.isEmpty_iff])

/-- The states the discard walk runs in, with its status. -/
def StreamEntry.Discarding (st : StreamEntry) (status : Status) : Prop :=
  st.state = .flushing ∧ status = .flushed ∨ st.state = .closing ∧ st.closeFromFault = false ∧ status = .closed ∨
    st.state = .closing ∧ st.closeFromFault = true ∧ status = .streamFaulted ∨ st.state = .faulted ∧ status = .streamFaulted

theorem StreamEntry.Discarding.status {st : StreamEntry} {status : Status} (h : st.Discarding status) :
    st.discardStatus = status := by
  unfold StreamEntry.discardStatus
  rcases h with ⟨hs, rfl⟩ | ⟨hs, hf, rfl⟩ | ⟨hs, hf, rfl⟩ | ⟨hs, rfl⟩
  · rw [hs]
  · rw [hs, hf]; rfl
  · rw [hs, hf]; rfl
  · rw [hs]

theorem Chip.walk_discarding {c : Chip} {i : StreamId} {status : Status} (h : (c.stream i).Discarding status) :
    c.walk i = c.discardWalk i := by
  unfold Chip.walk
  rcases h with ⟨hs, _⟩ | ⟨hs, _⟩ | ⟨hs, _⟩ | ⟨hs, _⟩ <;> rw [hs]

/-- Settles O41. -/
theorem walksOverTheAppendWindow : Obligations.WalksOverTheAppendWindow := by
  refine ⟨fun c i ho => ?_, fun a f q length tag src hb => ?_, fun c i status hd => ?_⟩
  · have hwalk : c.walk i = c.inOrderWalk i := by simp only [Chip.walk, ho]
    refine ⟨committable_prefix _ _, fun k a hk ha => committable_get hk ha, fun a ha => committable_stop ha,
      fun h => hwalk.trans (Chip.inOrderWalk_nothing h), fun h => ?_⟩
    rw [hwalk, Chip.inOrderWalk_commits h]
    dsimp only
    set st := c.stream i
    set done := committable st.frontier st.admitted
    have hwindow : ((((done.foldl (fun x a => x.answer a.slot (a.committed (st.frontier + done.length)))
        (c.setStream i { st with frontier := st.frontier + done.length, admitted := st.admitted.drop done.length })).evalBacklog
          i).evalHead i).startArbiter).window i =
        (st.frontier + done.length, st.next, st.base, st.admitted.drop done.length) := by
      rw [Chip.startArbiter_window, Chip.evalHead_window, Chip.evalBacklog_window, foldl_answer_window, Chip.setStream_window]
      rfl
    simp only [Chip.window, StreamEntry.window, Prod.mk.injEq] at hwindow
    exact ⟨rfl, hwindow⟩
  · refine ⟨fun h => ?_, fun h => ?_, fun h => ?_⟩
    · simp only [Admitted.committed, h, hb]
    · simp only [Admitted.committed, h]
    · simp only [Admitted.committed, h]
  · refine ⟨discardable_eq _, fun h => (Chip.walk_discarding hd).trans (Chip.discardWalk_nothing h), fun h => ?_⟩
    rw [Chip.walk_discarding hd, Chip.discardWalk_discards (StreamEntry.Discarding.status hd) h]
    rfl

end Sys2Proof.Machine
end

section
/-! Page return (R81 to R84, R96): the stops, what a run takes back and keeps, whole-chain returns, and the free list after them. -/

namespace Sys2Proof.Machine

/-! ### Stops -/

theorem StreamEntry.idle_iff (st : StreamEntry) : st.idle = true ↔ st.admitted = [] ∧ st.active = none := by
  simp only [StreamEntry.idle, Bool.and_eq_true, List.isEmpty_iff, Option.isNone_iff_eq_none]

theorem StreamEntry.isStop_iff (st : StreamEntry) (p : Nat) :
    st.isStop p = true ↔
      ¬ (st.base = st.next ∧ st.admitted = [] ∧ st.active = none) ∧
      ((∃ offset, st.baseLoc = .at p offset ∧ offset < 4096) ∨ (∃ a, st.active = some a ∧ a.pin = p) ∨
        ((st.state = .flushing ∨ st.state = .closing) ∧ ∃ a rest, st.admitted = a :: rest ∧ a.page = p)) := by
  have hbase : (match st.baseLoc with
      | .chainStart => false
      | .at q off => q == p && decide (off < Config.pageBytes)) = true ↔ ∃ offset, st.baseLoc = .at p offset ∧ offset < 4096 := by
    cases st.baseLoc
    case chainStart => simp
    next q off =>
      simp only [Bool.and_eq_true, beq_iff_eq, decide_eq_true_eq, Loc.at.injEq]
      exact ⟨fun ⟨hq, ho⟩ => ⟨off, ⟨hq, rfl⟩, ho⟩, fun ⟨_, ⟨hq, he⟩, ho⟩ => ⟨hq, he ▸ ho⟩⟩
  have hpin : (match st.active with
      | none => false
      | some a => a.pin == p) = true ↔ ∃ a, st.active = some a ∧ a.pin = p := by
    cases st.active <;> simp
  have hhead : (match st.admitted with
      | [] => false
      | a :: _ => a.page == p) = true ↔ ∃ a rest, st.admitted = a :: rest ∧ a.page = p := by
    cases st.admitted <;> simp
  have hstate : (st.state == .flushing || st.state == .closing) = true ↔ st.state = .flushing ∨ st.state = .closing := by
    rw [Bool.or_eq_true_iff, beq_iff_eq, beq_iff_eq]
  have hpage := (Bool.or_eq_true_iff.trans (or_congr (Bool.or_eq_true_iff.trans (or_congr hbase hpin))
    (Bool.and_eq_true_iff.trans (and_congr hstate hhead)))).trans or_assoc
  unfold StreamEntry.isStop
  split
  · rename_i h
    exact ⟨fun hf => absurd hf Bool.false_ne_true, fun hn => absurd ⟨h.1, st.idle_iff.1 h.2⟩ hn.1⟩
  · rename_i h
    exact hpage.trans ⟨fun hr => ⟨fun hn => h ⟨hn.1, st.idle_iff.2 hn.2⟩, hr⟩, fun hr => hr.2⟩

/-! ### What taking pages back keeps -/

/-- The fields of a stream that taking pages of its chain back leaves as they are. -/
def StreamEntry.unchained (st : StreamEntry) : StreamEntry := { st.clearLatches with chain := [], occupancy := .calm }

theorem Chip.headsTaken_unchained (c : Chip) (i : StreamId) (n : Nat) :
    ((c.headsTaken i n).stream i).unchained = (c.stream i).unchained := by
  have h := congrArg StreamEntry.unchained (c.headsTaken_entry i n)
  exact h

theorem Chip.takeBack_pool (c : Chip) (i : StreamId) (p : Nat) (rest : List Nat) :
    (c.takeBack i p rest).pool =
      { c.pool with free := c.pool.free + 1, tail := some p, head := c.pool.head.or (some p) } := by
  rw [Chip.takeBack_eq, (Chip.evalOccupancy_spec _ i).2.1]

theorem Chip.takeHead_pool {c : Chip} {i : StreamId} (h : (c.stream i).chain ≠ []) :
    (c.takeHead i).pool.usable = c.pool.usable ∧ (c.takeHead i).pool.free = c.pool.free + 1 ∧
      (c.takeHead i).pool.lost = c.pool.lost ∧ (c.takeHead i).pool.starts = c.pool.starts := by
  unfold Chip.takeHead
  split
  · contradiction
  · rw [Chip.takeBack_pool]
    exact ⟨rfl, rfl, rfl, rfl⟩
  · rw [Chip.takeBack_pool]
    exact ⟨rfl, rfl, rfl, rfl⟩

theorem Chip.headsTaken_pool {c : Chip} {i : StreamId} {n : Nat} (h : n ≤ (c.stream i).chain.length) :
    (c.headsTaken i n).pool.usable = c.pool.usable ∧ (c.headsTaken i n).pool.free = c.pool.free + n ∧
      (c.headsTaken i n).pool.lost = c.pool.lost ∧ (c.headsTaken i n).pool.starts = c.pool.starts := by
  induction n with
  | zero => exact ⟨rfl, rfl, rfl, rfl⟩
  | succ n ih =>
    obtain ⟨husable, hfree, hlost, hstarts⟩ := ih (Nat.le_of_succ_le h)
    have hne : ((c.headsTaken i n).stream i).chain ≠ [] := by
      rw [c.headsTaken_chain, Ne, List.drop_eq_nil_iff]
      exact Nat.not_le.2 h
    obtain ⟨husable', hfree', hlost', hstarts'⟩ := Chip.takeHead_pool hne
    rw [c.headsTaken_succ]
    exact ⟨husable'.trans husable, by rw [hfree', hfree]; rfl, hlost'.trans hlost, hstarts'.trans hstarts⟩

theorem Chip.startArbiterIf_pool (c : Chip) (b : Bool) :
    (c.startArbiterIf b).pool = { c.pool with starts := (c.startArbiterIf b).pool.starts } := by
  unfold Chip.startArbiterIf Chip.startArbiter
  split_ifs <;> rfl

theorem Chip.startArbiterIf_starts {c : Chip} (h : c.isActive = true) (b : Bool) :
    (c.startArbiterIf b).pool.starts = c.pool.starts + if b then 1 else 0 := by
  cases b with
  | false => rfl
  | true => exact congrArg (fun t : Chip => t.pool.starts) (if_pos h)

/-! ### A run of page return -/

/-- A run without a break ends with its chain empty or at a stop. -/
theorem returnRun_stops (i : StreamId) (stops : Bool) (fuel : Nat) (c : Chip) (n : Nat)
    (hl : (c.stream i).chain.length ≤ fuel) (hb : (returnRun i stops fuel c n).broken = none) {p : Nat} {rest : List Nat}
    (hp : ((returnRun i stops fuel c n).chip.stream i).chain = p :: rest) :
    (stops && ((returnRun i stops fuel c n).chip.stream i).isStop p) = true := by
  induction fuel generalizing c n with
  | zero =>
    rw [returnRun, List.eq_nil_of_length_eq_zero (Nat.le_zero.1 hl)] at hp
    cases hp
  | succ fuel ih =>
    have hback (d : Chip) (q : Nat) (more : List Nat) (hlen : (c.stream i).chain = q :: more) :
        ((d.takeBack i q more).stream i).chain.length ≤ fuel := by
      rw [(d.takeBack_spec i q more).2]
      rw [hlen] at hl
      exact Nat.le_of_succ_le_succ hl
    revert hb hp
    unfold returnRun
    split
    · rename_i hc
      intro _ hp
      rw [hc] at hp
      cases hp
    · rename_i q more hc
      split
      · rename_i hs
        intro _ hp
        rw [hc] at hp
        cases hp
        exact hs
      · split
        · exact ih (c.takeBack i q []) (n + 1) (hback c q [] hc)
        · dsimp only
          split
          · intro hb _
            cases hb
          · exact ih _ (n + 1) (hback (c.followChain i q).1 q _ hc)

/-- A run without a break takes back the pages before the first stop. -/
theorem returnRun_unbroken {i : StreamId} {stops : Bool} {fuel : Nat} {c : Chip} {n : Nat}
    (hl : (c.stream i).chain.length ≤ fuel) (hb : (returnRun i stops fuel c n).broken = none) :
    ∃ k, (returnRun i stops fuel c n).returned = n + k ∧ (returnRun i stops fuel c n).chip = c.headsTaken i k ∧
      k ≤ (c.stream i).chain.length ∧
      (∀ m q, m < k → (c.stream i).chain[m]? = some q → (stops && (c.stream i).isStop q) = false) ∧
      ∀ p, (c.stream i).chain[k]? = some p → (stops && (c.stream i).isStop p) = true := by
  obtain ⟨k, hk⟩ := returnRun_walked i stops fuel c n hl
  have hchip := hk.chip
  rw [hb] at hchip
  refine ⟨k, hk.returned, hchip, hk.le, fun m q hm hq => (hk.sound m q hm hq).1, fun p hp => ?_⟩
  have hdrop : (c.stream i).chain.drop k = p :: (c.stream i).chain.drop (k + 1) :=
    List.drop_eq_getElem?_toList_append.trans (by rw [hp]; rfl)
  have hchain : ((returnRun i stops fuel c n).chip.stream i).chain = p :: (c.stream i).chain.drop (k + 1) := by
    rw [hchip, c.headsTaken_chain, hdrop]
  have hstop := returnRun_stops i stops fuel c n hl hb hchain
  have hsame (st : StreamEntry) : st.unchained.isStop p = st.isStop p := rfl
  rwa [hchip, ← hsame, c.headsTaken_unchained, hsame] at hstop

/-- A stream whose chain has been emptied stands at the chain start (R7, R83). -/
def Chip.settleEmpty (c : Chip) (i : StreamId) : Chip :=
  if (c.stream i).chain = [] then c.modStream i StreamEntry.emptyChain else c

theorem Chip.settleEmpty_frame (c : Chip) (i : StreamId) : (c.settleEmpty i).pool = c.pool ∧ (c.settleEmpty i).ctl = c.ctl := by
  unfold Chip.settleEmpty
  split <;> exact ⟨rfl, rfl⟩

theorem Chip.settleEmpty_stream (c : Chip) (i : StreamId) :
    (c.settleEmpty i).stream i = if (c.stream i).chain = [] then (c.stream i).emptyChain else c.stream i := by
  unfold Chip.settleEmpty
  split
  · exact c.modStream_stream_same i _
  · rfl

theorem Chip.headsTaken_ctl (c : Chip) (i : StreamId) (n : Nat) : (c.headsTaken i n).ctl = c.ctl := by
  induction n with
  | zero => rfl
  | succ n ih =>
    rw [c.headsTaken_succ, ← ih]
    unfold Chip.takeHead
    split
    · rfl
    · exact (Chip.takeBack_keeps _ i _ _).ctl
    · exact (Chip.takeBack_keeps _ i _ _).ctl

/-- What a run of page return without a break leaves (R81 to R83). -/
structure PageReturned (c : Chip) (i : StreamId) (r : RunEnd) : Prop where
  chip : r.chip = ((c.headsTaken i r.returned).settleEmpty i).startArbiterIf (r.returned != 0)
  le : r.returned ≤ (c.stream i).chain.length
  passed : ∀ k p, k < r.returned → (c.stream i).chain[k]? = some p → (c.stream i).isStop p = false
  stop : ∀ p, (c.stream i).chain[r.returned]? = some p → (c.stream i).isStop p = true

theorem Chip.pageReturnRun_chip (c : Chip) (i : StreamId) :
    (c.pageReturnRun i).chip =
      ((returnRun i true (c.stream i).chain.length c 0).chip.settleEmpty i).startArbiterIf ((c.pageReturnRun i).returned != 0) := by
  simp only [Chip.settleEmpty, ← List.isEmpty_iff]
  rfl

/-- A run without a break takes single pages back, the occupancy monitor evaluated after each (R82, R109). -/
theorem Chip.pageReturnRun_trace {c : Chip} {i : StreamId} (hb : (c.pageReturnRun i).broken = none) :
    ∃ after : Nat → Chip, after 0 = c ∧
      (∀ n, n < (c.pageReturnRun i).returned → ∃ x : Chip, after (n + 1) = x.evalOccupancy i ∧
        x.stream i = { (after n).stream i with chain := (c.stream i).chain.drop (n + 1) } ∧
        x.ctl = (after n).ctl ∧ x.rings = (after n).rings ∧ x.link = (after n).link ∧
        x.pool.free = (after n).pool.free + 1) ∧
      (c.pageReturnRun i).chip =
        ((after (c.pageReturnRun i).returned).settleEmpty i).startArbiterIf ((c.pageReturnRun i).returned != 0) := by
  obtain ⟨k, after, hreturned, hzero, hsteps, hchip⟩ := returnRun_trace i true (c.stream i).chain.length c 0 hb
  have hk : (c.pageReturnRun i).returned = k := hreturned.trans (Nat.zero_add k)
  refine ⟨after, hzero, hk ▸ hsteps, ?_⟩
  rw [c.pageReturnRun_chip, hchip, hk]

theorem Chip.pageReturnRun_unbroken {c : Chip} {i : StreamId} (hb : (c.pageReturnRun i).broken = none) :
    PageReturned c i (c.pageReturnRun i) := by
  obtain ⟨k, hreturned, hchip, hle, hpassed, hstop⟩ := returnRun_unbroken (c := c) (i := i) (n := 0) le_rfl hb
  have hk : (c.pageReturnRun i).returned = k := hreturned.trans (Nat.zero_add k)
  refine ⟨?_, hk ▸ hle, hk ▸ hpassed, hk ▸ hstop⟩
  rw [c.pageReturnRun_chip, hchip, hk]

namespace PageReturned
variable {c : Chip} {i : StreamId} {r : RunEnd}

theorem entry (h : PageReturned c i r) :
    r.chip.stream i =
      if (c.stream i).chain.drop r.returned = [] then ((c.headsTaken i r.returned).stream i).emptyChain
      else (c.headsTaken i r.returned).stream i := by
  rw [h.chip, Chip.startArbiterIf_stream, Chip.settleEmpty_stream, c.headsTaken_chain]

theorem chain (h : PageReturned c i r) : (r.chip.stream i).chain = (c.stream i).chain.drop r.returned := by
  rw [h.entry, ← c.headsTaken_chain]
  split <;> rfl

theorem pool (h : PageReturned c i r) :
    r.chip.pool.free = c.pool.free + r.returned ∧ r.chip.pool.lost = c.pool.lost ∧
      (c.isActive = true → r.chip.pool.starts = c.pool.starts + if r.returned = 0 then 0 else 1) := by
  obtain ⟨-, hfree, hlost, hstarts⟩ := Chip.headsTaken_pool h.le
  obtain ⟨hpool, hctl⟩ := (c.headsTaken i r.returned).settleEmpty_frame i
  have hkept := ((c.headsTaken i r.returned).settleEmpty i).startArbiterIf_pool (r.returned != 0)
  rw [← h.chip, hpool] at hkept
  refine ⟨?_, ?_, fun ha => ?_⟩
  · rw [hkept, hfree]
  · rw [hkept, hlost]
  · have hactive : ((c.headsTaken i r.returned).settleEmpty i).isActive = true := by
      rw [Chip.isActive_iff, hctl, c.headsTaken_ctl, ← Chip.isActive_iff, ha]
    rw [h.chip, Chip.startArbiterIf_starts hactive, hpool, hstarts]
    by_cases h0 : r.returned = 0 <;> simp [h0]

theorem tail (h : PageReturned c i r) :
    (r.chip.stream i).tail = if (r.chip.stream i).chain = [] then 0 else (c.stream i).tail := by
  rw [h.chain, h.entry]
  split
  · rfl
  · exact (congrArg StreamEntry.tail (c.headsTaken_unchained i r.returned) :)

/-- The fields that a run keeps, but for its stream's chain and what an empty chain sets. -/
theorem kept (h : PageReturned c i r) :
    { (r.chip.stream i).unchained with tail := 0, baseLoc := .chainStart, readLoc := .chainStart, marks := [] } =
      { (c.stream i).unchained with tail := 0, baseLoc := .chainStart, readLoc := .chainStart, marks := [] } := by
  rw [← c.headsTaken_unchained i r.returned, h.entry]
  split <;> rfl

theorem positions (h : PageReturned c i r) :
    (r.chip.stream i).base = (c.stream i).base ∧ (r.chip.stream i).read = (c.stream i).read ∧
      (r.chip.stream i).frontier = (c.stream i).frontier ∧ (r.chip.stream i).next = (c.stream i).next ∧
      (r.chip.stream i).state = (c.stream i).state ∧ (r.chip.stream i).active = (c.stream i).active ∧
      (r.chip.stream i).admitted = (c.stream i).admitted := by
  have hk := h.kept
  simp only [StreamEntry.unchained, StreamEntry.clearLatches, StreamEntry.mk.injEq] at hk
  tauto

end PageReturned

/-! ### A whole chain returned -/

theorem Chip.breakChain_first {c : Chip} {i : StreamId} {p : Nat} {rest : List Nat} (h : (c.stream i).chain = p :: rest) :
    (c.breakChain i p).pool = { c.pool with lost := c.pool.lost + rest.length } ∧
      (c.breakChain i p).mem = c.mem.writeLink c.pool.usable p none (some i) := by
  have hmem : p ∈ (c.stream i).chain := h ▸ List.mem_cons_self
  have hkept : (c.stream i).chain.take ((c.stream i).chain.idxOf p + 1) = [p] := by
    rw [h, List.idxOf_cons_self]
    rfl
  have hbeyond : (c.stream i).chain.length - [p].length = rest.length := by
    rw [h]
    rfl
  rw [Chip.breakChain_spec c i p hmem]
  dsimp only
  rw [hkept, hbeyond]
  exact ⟨rfl, rfl⟩

section
variable {c : Chip} {i : StreamId}

theorem Chip.returnAll_whole (h : (c.returnAll i).2 = false) :
    ((c.returnAll i).1.stream i).chain = [] ∧ (c.returnAll i).1.pool.usable = c.pool.usable ∧
      (c.returnAll i).1.pool.free = c.pool.free + (c.stream i).chain.length ∧
      (c.returnAll i).1.pool.lost = c.pool.lost := by
  obtain ⟨husable, hfree, hlost, -⟩ := Chip.headsTaken_pool (c := c) (i := i) le_rfl
  rw [c.returnAll_walked i |>.2.1 h, Chip.startArbiterIf_stream, c.headsTaken_chain, List.drop_length, Chip.startArbiterIf_pool]
  exact ⟨rfl, husable, hfree, hlost⟩

/-- Page `p` stands at the head of the chain when its link breaks a return of the whole chain. -/
theorem FirstBreak.rest {n p : Nat}
    (f : FirstBreak i (c.stream i).chain ((c.stream i).chain.length - 1) (fun n => c.headsTaken i n) n p) :
    (((c.headsTaken i n).followChain i p).1.stream i).chain = p :: (c.stream i).chain.drop (n + 1) ∧
      n + 1 ≤ (c.stream i).chain.length := by
  have hchain : (((c.headsTaken i n).followChain i p).1.stream i).chain = (c.stream i).chain.drop n := c.headsTaken_chain i n
  have hwithin := f.within
  refine ⟨hchain.trans (List.drop_eq_getElem?_toList_append.trans ?_), by omega⟩
  rw [f.page]
  rfl

theorem Chip.returnAll_broken {n p : Nat}
    (f : FirstBreak i (c.stream i).chain ((c.stream i).chain.length - 1) (fun n => c.headsTaken i n) n p) :
    ((c.returnAll i).1.stream i).chain = [] ∧ (c.returnAll i).1.pool.usable = c.pool.usable ∧
      (c.returnAll i).1.pool.free = c.pool.free + n + 1 ∧
      (c.returnAll i).1.pool.lost = c.pool.lost + ((c.stream i).chain.length - (n + 1)) := by
  obtain ⟨hhead, hle⟩ := f.rest
  obtain ⟨husable, hfree, hlost, -⟩ := Chip.headsTaken_pool (Nat.le_of_succ_le hle)
  rw [(c.returnAll_walked i).2.2 n p f, Chip.startArbiterIf_stream, (Chip.takeBack_spec _ i p []).2, Chip.startArbiterIf_pool,
    Chip.takeBack_pool, (Chip.breakChain_first hhead).1, List.length_drop]
  exact ⟨rfl, husable, congrArg (· + 1) hfree, congrArg (· + _) hlost⟩

theorem Chip.returnAll_counts (c : Chip) (i : StreamId) :
    ((c.returnAll i).1.stream i).chain = [] ∧ (c.returnAll i).1.pool.usable = c.pool.usable ∧
      (c.returnAll i).1.pool.free + (c.returnAll i).1.pool.lost = c.pool.free + c.pool.lost + (c.stream i).chain.length ∧
      c.pool.free ≤ (c.returnAll i).1.pool.free ∧ c.pool.lost ≤ (c.returnAll i).1.pool.lost := by
  cases hb : (c.returnAll i).2 with
  | false =>
    obtain ⟨hchain, husable, hfree, hlost⟩ := Chip.returnAll_whole hb
    exact ⟨hchain, husable, by omega, by omega, by omega⟩
  | true =>
    obtain ⟨n, p, f⟩ := (c.returnAll_walked i).1.1 hb
    obtain ⟨hchain, husable, hfree, hlost⟩ := Chip.returnAll_broken f
    have hle := f.rest.2
    exact ⟨hchain, husable, by omega, by omega, by omega⟩

end

/-! ### The free list after pages joined it -/

/-- The words of two memories are the same, and the bytes of all words but those `S` names. -/
structure SameWords (S : Nat → Prop) (m n : BufferMemory) : Prop where
  word : ∀ w, n.word w = m.word w
  byte : ∀ a, ¬ S (a / 8) → n.readByte a = m.readByte a

namespace SameWords
variable {S : Nat → Prop} {m n : BufferMemory}

theorem rewrite (hm : m.wf = true) {w : Nat} (hw : S w) (v v' : DWord) :
    SameWords S (m.writeWord w v) ((m.writeWord w v').writeWord w v) where
  word x := by
    by_cases hx : x = w
    · rw [hx, BufferMemory.word_writeWord _ _ _ (BufferMemory.writeWord_wf m w v' hm), BufferMemory.word_writeWord _ _ _ hm]
    · rw [BufferMemory.word_writeWord_ne _ _ _ _ hx, BufferMemory.word_writeWord_ne _ _ _ _ hx,
        BufferMemory.word_writeWord_ne _ _ _ _ hx]
  byte a ha := by
    have hne : a / 8 ≠ w := fun h => ha (h ▸ hw)
    rw [BufferMemory.readByte_writeWord_ne _ _ _ _ hne, BufferMemory.readByte_writeWord_ne _ _ _ _ hne,
      BufferMemory.readByte_writeWord_ne _ _ _ _ hne]

theorem writeWord (h : SameWords S m n) (hm : m.wf = true) (hn : n.wf = true) {w : Nat} (hw : S w) (v : DWord) :
    SameWords S (m.writeWord w v) (n.writeWord w v) where
  word x := by
    by_cases hx : x = w
    · rw [hx, BufferMemory.word_writeWord _ _ _ hm, BufferMemory.word_writeWord _ _ _ hn]
    · rw [BufferMemory.word_writeWord_ne _ _ _ _ hx, BufferMemory.word_writeWord_ne _ _ _ _ hx, h.word]
  byte a ha := by
    have hne : a / 8 ≠ w := fun h => ha (h ▸ hw)
    rw [BufferMemory.readByte_writeWord_ne _ _ _ _ hne, BufferMemory.readByte_writeWord_ne _ _ _ _ hne, h.byte a ha]

end SameWords

/-- The ends of the free list and its links, after the pages `ps` of a chain have joined it (R96). -/
structure FreeList (c t : Chip) (ps : List Nat) : Prop where
  tail : t.pool.tail = (c.pool.tail.toList ++ ps).getLast?
  head : t.pool.head = c.pool.head.or ps.head?
  link : ∀ n p : Nat, ps ≠ [] → (c.pool.tail.toList ++ ps)[n]? = some p →
    (∀ m : Nat, (c.pool.tail.toList ++ ps)[m]? = some p → m = n) →
    t.mem.word (linkWord c.pool.usable p) = encodeLink (c.pool.tail.toList ++ ps)[n + 1]? none
  other : ∀ a, (∀ p ∈ c.pool.tail.toList ++ ps, a / 8 ≠ linkWord c.pool.usable p) → t.mem.readByte a = c.mem.readByte a

theorem Joined.freeList {c t : Chip} {ps : List Nat} (h : Joined (fun _ => False) c t ps) : FreeList c t ps :=
  ⟨h.tail, h.head, fun n p hne hp hu => h.link n p hne not_false hp hu,
    fun a ha => h.other a fun p hp => ha p (hp.resolve_right not_false)⟩

theorem FreeList.same {c t u : Chip} {ps : List Nat} (h : FreeList c t ps) (htail : u.pool.tail = t.pool.tail)
    (hhead : u.pool.head = t.pool.head)
    (hmem : SameWords (fun w => ∃ p ∈ c.pool.tail.toList ++ ps, w = linkWord c.pool.usable p) t.mem u.mem) : FreeList c u ps :=
  ⟨htail.trans h.tail, hhead.trans h.head, fun n p hne hp hu => (hmem.word _).trans (h.link n p hne hp hu),
    fun a ha => (hmem.byte a fun ⟨p, hp, he⟩ => ha p hp he).trans (h.other a ha)⟩

theorem SameWords.of_eq {S : Nat → Prop} {m n : BufferMemory} (h : n = m) : SameWords S m n :=
  ⟨fun _ => h ▸ rfl, fun _ _ => h ▸ rfl⟩

theorem Chip.startArbiterIf_mem (c : Chip) (b : Bool) : (c.startArbiterIf b).mem = c.mem := by
  unfold Chip.startArbiterIf Chip.startArbiter
  split_ifs <;> rfl

theorem FreeList.startArbiterIf {c t : Chip} {ps : List Nat} (h : FreeList c t ps) (b : Bool) :
    FreeList c (t.startArbiterIf b) ps :=
  h.same (by rw [Chip.startArbiterIf_pool]) (by rw [Chip.startArbiterIf_pool]) (.of_eq (t.startArbiterIf_mem b))

theorem Chip.pageReturnRun_freeList {c : Chip} (i : StreamId) (hm : c.memOk) :
    FreeList c (c.pageReturnRun i).chip ((c.stream i).chain.take (c.pageReturnRun i).returned) := by
  obtain ⟨k, hreturned, -, -, hjoined, -⟩ := returnRun_spec i true (c.stream i).chain.length c c 0 [] (.refl _ c hm)
  have hk : (c.pageReturnRun i).returned = k := hreturned.trans (Nat.zero_add k)
  rw [hk]
  refine FreeList.startArbiterIf ?_ _
  split
  · exact hjoined.freeList.same rfl rfl (.of_eq rfl)
  · exact hjoined.freeList

/-- Buffer DRAM with page `p` joined to a free list whose tail is `tail`. -/
def BufferMemory.joined (m : BufferMemory) (usable : Nat) (tail : Option Nat) (p : Nat) : BufferMemory :=
  match tail with
  | none => m.writeLink usable p none none
  | some t => (m.writeLink usable p none none).writeLink usable t (some p) none

theorem Chip.takeBack_mem (c : Chip) (i : StreamId) (p : Nat) (rest : List Nat) :
    (c.takeBack i p rest).mem = c.mem.joined c.pool.usable c.pool.tail p := by
  rw [Chip.takeBack_eq, (Chip.evalOccupancy_spec _ i).1]
  rfl

/-- A link written for a page just before it joins the free list leaves no trace. -/
theorem SameWords.joined_relinked {S : Nat → Prop} {m : BufferMemory} (hm : m.wf = true) (usable : Nat) (tail : Option Nat)
    (p : Nat) (next : Option Nat) (owner : Option StreamId) (hp : S (linkWord usable p))
    (ht : ∀ t, tail = some t → S (linkWord usable t)) :
    SameWords S (m.joined usable tail p) ((m.writeLink usable p next owner).joined usable tail p) := by
  have hfirst : SameWords S (m.writeLink usable p none none) ((m.writeLink usable p next owner).writeLink usable p none none) :=
    .rewrite hm hp _ _
  cases tail with
  | none => rwa [BufferMemory.joined, BufferMemory.joined]
  | some t =>
    rw [BufferMemory.joined, BufferMemory.joined]
    exact hfirst.writeWord (m.writeLink_wf _ _ _ _ hm) ((m.writeLink usable p next owner).writeLink_wf _ _ _ _
      (m.writeLink_wf _ _ _ _ hm)) (ht t rfl) _

theorem Joined.takeHead {skip : Nat → Prop} {c t : Chip} {ps : List Nat} {i : StreamId} {p : Nat} {rest : List Nat}
    (h : Joined skip c t ps) (hc : (t.stream i).chain = p :: rest) : Joined skip c (t.takeHead i) (ps ++ [p]) := by
  unfold Chip.takeHead
  split <;> rename_i heq <;> rw [hc] at heq <;> cases heq
  · exact (h.takeBack i p []).1
  · have hread : Joined skip c (t.followChain i p).1 ps :=
      h.same (t.followChain_spec i p).2.1 ((t.followChain_keeps i i p).mem h.ok) rfl rfl rfl rfl rfl
    exact (hread.takeBack i p _).1

theorem Chip.headsTaken_joined {c : Chip} {i : StreamId} {n : Nat} (hm : c.memOk) (hn : n ≤ (c.stream i).chain.length) :
    Joined (fun _ => False) c (c.headsTaken i n) ((c.stream i).chain.take n) := by
  induction n with
  | zero => exact .refl _ c hm
  | succ n ih =>
    have hchain : ((c.headsTaken i n).stream i).chain = (c.stream i).chain[n] :: (c.stream i).chain.drop (n + 1) := by
      rw [c.headsTaken_chain, List.drop_eq_getElem_cons hn]
    rw [c.headsTaken_succ, List.take_succ_eq_append_getElem hn]
    exact (ih (Nat.le_of_succ_le hn)).takeHead hchain

theorem Chip.returnAll_freeList {c : Chip} (i : StreamId) (hm : c.memOk) {k : Nat}
    (hk : c.pool.free + k = (c.returnAll i).1.pool.free) :
    FreeList c (c.returnAll i).1 ((c.stream i).chain.take k) := by
  cases hb : (c.returnAll i).2 with
  | false =>
    have hlen : k = (c.stream i).chain.length := Nat.add_left_cancel (hk.trans (Chip.returnAll_whole hb).2.2.1)
    rw [hlen, (c.returnAll_walked i).2.1 hb]
    exact (Chip.headsTaken_joined hm le_rfl).freeList.startArbiterIf _
  | true =>
    obtain ⟨n, p, f⟩ := (c.returnAll_walked i).1.1 hb
    obtain ⟨hhead, hle⟩ := f.rest
    have hn : k = n + 1 := Nat.add_left_cancel (hk.trans (Chip.returnAll_broken f).2.2.1)
    rw [hn, (c.returnAll_walked i).2.2 n p f, List.take_add_one, f.page]
    set y := ((c.headsTaken i n).followChain i p).1 with hy
    have hy : Joined (fun _ => False) c y ((c.stream i).chain.take n) :=
      (Chip.headsTaken_joined hm (Nat.le_of_succ_le hle)).same ((c.headsTaken i n).followChain_spec i p).2.1
        (((c.headsTaken i n).followChain_keeps i i p).mem (Chip.headsTaken_joined hm (Nat.le_of_succ_le hle)).ok)
        rfl rfl rfl rfl rfl
    obtain ⟨hpool, hmem⟩ := Chip.breakChain_first hhead
    have hlast : p ∈ c.pool.tail.toList ++ ((c.stream i).chain.take n ++ [p]) := by simp
    refine FreeList.startArbiterIf ((hy.takeBack i p []).1.freeList.same ?_ ?_ ?_) _
    · rw [Chip.takeBack_pool, Chip.takeBack_pool]
    · rw [Chip.takeBack_pool, Chip.takeBack_pool, hpool]
    · rw [Chip.takeBack_mem, Chip.takeBack_mem, hpool, hmem]
      refine .joined_relinked hy.ok _ _ p none (some i) ⟨p, hlast, by rw [hy.usable]⟩ fun t ht => ⟨t, ?_, by rw [hy.usable]⟩
      rw [hy.tail] at ht
      rw [← List.append_assoc]
      exact List.mem_append_left _ (List.mem_of_getLast? ht)

/-! ### A tail truncation -/

theorem Chip.truncateTail_freeList {c t : Chip} {i : StreamId} {last : Nat} (hm : c.memOk)
    (ht : c.truncateTail i last = (t, none)) :
    let ps := pagesAfter last (c.stream i).chain
    Joined (fun p => p = last) c t ps ∧ (t.stream i).chain = ps.foldl List.erase (c.stream i).chain ∧
      (ps ≠ [] → t.mem.word (linkWord c.pool.usable last) = encodeLink none (some i)) := by
  intro ps
  obtain ⟨hfollow, hdata, hok⟩ := followTo_spec i last (c.stream i).chain c
  set x := (followTo i last (c.stream i).chain c).1
  have hx : Joined (fun p => p = last) c x [] :=
    (Joined.refl _ c hm).same hdata (hok hm) (by rw [hfollow]) (by rw [hfollow]) (by rw [hfollow]) (by rw [hfollow]) (by rw [hfollow])
  have hcases : t = x ∧ ps = [] ∨ ps ≠ [] ∧ dropAfter i last ps (x.followChain i last).1 = (t, none) := by
    revert ht
    unfold Chip.truncateTail
    dsimp only
    split
    · intro ht
      cases ht
    · split
      · rename_i hps
        exact fun ht => .inl ⟨(Prod.mk.inj ht).1.symm, hps⟩
      · rename_i hps
        split
        · intro ht
          cases ht
        · exact fun ht => .inr ⟨hps, ht⟩
  rcases hcases with ⟨rfl, hps⟩ | ⟨hps, hdrop⟩
  · rw [hps]
    exact ⟨hx, by rw [hfollow]; rfl, fun h => absurd rfl h⟩
  · have hread : Joined (fun p => p = last) c (x.followChain i last).1 [] :=
      hx.same (x.followChain_spec i last).2.1 ((x.followChain_keeps i i last).mem hx.ok) rfl rfl rfl rfl rfl
    obtain ⟨hjoined, hchain, hlast⟩ := dropAfter_spec i last ps c _ t [] hps hread hdrop
    refine ⟨hjoined, hchain.trans ?_, fun _ => hlast⟩
    rw [(x.followChain_spec i last).1, hfollow]
    rfl

/-- Settles O49. -/
theorem pageReturnReturnsUpToTheFirstStop : Obligations.PageReturnReturnsUpToTheFirstStop := by
  refine ⟨StreamEntry.isStop_iff, fun c i hb => ?_, fun c i => ?_, fun c t i k hm ht => ?_, fun c t i last hm ht => ?_,
    Chip.takeBack_eq, Chip.pageReturnRun_walked, fun c i => ?_, Chip.truncateTail_walked⟩
  · have h := Chip.pageReturnRun_unbroken hb
    obtain ⟨hfree, hlost, hstarts⟩ := h.pool
    have hframe := c.pageReturnRun_keeps i
    obtain ⟨hbase, hread, hfrontier, hnext, hstate, hactive, hadmitted⟩ := h.positions
    refine ⟨Chip.pageReturnRun_trace hb, h.chain, h.le, h.passed, h.stop, hfree, hlost, hstarts, h.tail,
      hbase, hread, hfrontier, hnext, hstate, hactive, hadmitted, hframe.ctl, hframe.others⟩
  · obtain ⟨hchain, husable, hsum, hfree, hlost⟩ := c.returnAll_counts i
    exact ⟨hchain, husable, hsum, hfree, hlost, fun hb => (Chip.returnAll_whole hb).2.2.1⟩
  · intro link ps l
    have hlink (next : Option Nat) (owner : Option StreamId) : encodeLink next owner = link next owner := by
      cases next <;> cases owner <;> rfl
    have hlist : FreeList c t ps := by
      rcases ht with ⟨rfl, rfl⟩ | ⟨rfl, hk⟩
      · exact Chip.pageReturnRun_freeList i hm
      · exact Chip.returnAll_freeList i hm hk
    clear_value link
    exact ⟨hlist.tail, hlist.head, fun n p hne hp hu => (hlist.link n p hne hp hu).trans (hlink _ _), hlist.other⟩
  · intro link chain ps l
    have hlink (next : Option Nat) (owner : Option StreamId) : encodeLink next owner = link next owner := by
      cases next <;> cases owner <;> rfl
    clear_value link
    have h := Chip.truncateTail_freeList hm ht
    rw [pagesAfter_eq] at h
    obtain ⟨hjoined, hchain, hlast⟩ := h
    exact ⟨hchain, hjoined.free, hjoined.lost, hjoined.tail, hjoined.head,
      fun n p hne hp hget hu => (hjoined.link n p hne hp hget hu).trans (hlink _ _), fun hne => (hlast hne).trans (hlink _ _),
      fun a ha => hjoined.other a fun p hp => ha p (List.mem_cons.2 hp.symm)⟩
  · obtain ⟨hbroken, hwhole, hbreak⟩ := c.returnAll_walked i
    exact ⟨hbroken, hwhole, fun n p f => ⟨hbreak n p f, (Chip.returnAll_broken f).2.2⟩⟩

end Sys2Proof.Machine
end

section
/-! The ends of a flush and of a close (R14 to R18). -/

namespace Sys2Proof.Machine

/-! ### A run of page return on an emptied stream -/

namespace PageReturned
variable {c : Chip} {i : StreamId} {r : RunEnd}

theorem requests (h : PageReturned c i r) :
    (r.chip.stream i).waitA = (c.stream i).waitA ∧ (r.chip.stream i).waitF = (c.stream i).waitF ∧
      (r.chip.stream i).pendingEnd = (c.stream i).pendingEnd ∧ (r.chip.stream i).reserve = (c.stream i).reserve := by
  have hk := h.kept
  simp only [StreamEntry.unchained, StreamEntry.clearLatches, StreamEntry.mk.injEq] at hk
  tauto

theorem marks (h : PageReturned c i r) (hm : (c.stream i).marks = []) : (r.chip.stream i).marks = [] := by
  have hkept : ((c.headsTaken i r.returned).stream i).marks = [] :=
    (congrArg StreamEntry.marks (c.headsTaken_unchained i r.returned) :).trans hm
  rw [h.entry]
  split
  · exact congrArg (List.map fun m : Mark => { m with loc := .chainStart }) hkept
  · exact hkept

/-- With base at next and nothing in flight no page is a stop (R83). -/
theorem whole (h : PageReturned c i r) (hb : (c.stream i).base = (c.stream i).next) (hidle : (c.stream i).idle = true) :
    (c.stream i).chain.drop r.returned = [] := by
  rw [List.drop_eq_nil_iff]
  by_contra hlt
  have hstop := h.stop _ (List.getElem?_eq_getElem (Nat.lt_of_not_le hlt))
  exact ((StreamEntry.isStop_iff _ _).1 hstop).1 ⟨hb, (c.stream i).idle_iff.1 hidle⟩

end PageReturned

theorem StreamEntry.emptyChain_emptyChain (st : StreamEntry) : st.emptyChain.emptyChain = st.emptyChain := by
  simp only [StreamEntry.emptyChain, List.map_map]
  rfl

/-- A run on a chain already emptied changes nothing. -/
theorem Chip.pageReturnRun_empty {c : Chip} {i : StreamId} (hc : (c.stream i).chain = [])
    (he : (c.stream i).emptyChain = c.stream i) : (c.pageReturnRun i).chip = c ∧ (c.pageReturnRun i).broken = none := by
  have hrun : returnRun i true (c.stream i).chain.length c 0 = { chip := c, returned := 0, broken := none } := by
    rw [hc]
    rfl
  have hbroken : (c.pageReturnRun i).broken = none := congrArg RunEnd.broken hrun
  have hreturned : (c.pageReturnRun i).returned = 0 := congrArg RunEnd.returned hrun
  refine ⟨?_, hbroken⟩
  rw [c.pageReturnRun_chip, hrun, hreturned, Chip.settleEmpty, if_pos hc, Chip.modStream, he, Chip.setStream_self]
  rfl

theorem Chip.pageReturn_unbroken {c : Chip} {i : StreamId} (h : (c.pageReturnRun i).broken = none) :
    c.pageReturn i = (c.pageReturnRun i).chip := by
  simp only [Chip.pageReturn, h]

/-! ### The end of a flush -/

section
variable {c : Chip} {i : StreamId} {d : Nat}

/-- A flushing stream opened again, its flush answered. -/
def Chip.flushAnswered (c : Chip) (i : StreamId) (d a : Nat) : Chip :=
  (c.setStream i { c.stream i with state := .opened, pendingEnd := none }).answer d fun q =>
    { code := Status.ok.code, commandId := q.commandId, streamId := q.streamId, posA := a, posB := a }

theorem Chip.endCheck_busy (h : (c.stream i).idle = false) : c.endCheck i = c := by
  simp only [Chip.endCheck, h, Bool.false_eq_true, if_false]

theorem Chip.endCheck_flushing (hs : (c.stream i).state = .flushing) (hidle : (c.stream i).idle = true) :
    c.endCheck i = c.flushEnd i := by
  simp only [Chip.endCheck, hidle, if_true, hs]

theorem Chip.flushEnd_answers (hs : ((c.pageReturn i).stream i).state = .flushing)
    (hd : ((c.pageReturn i).stream i).pendingEnd = some d) :
    c.flushEnd i = (c.pageReturn i).flushAnswered i d ((c.pageReturn i).stream i).base := by
  simp only [Chip.flushEnd, hs, if_true, hd]
  rfl

theorem Chip.endCheck_flush (hs : (c.stream i).state = .flushing) (hd : (c.stream i).pendingEnd = some d)
    (hidle : (c.stream i).idle = true) (hb : (c.pageReturnRun i).broken = none) :
    c.endCheck i = (c.pageReturnRun i).chip.flushAnswered i d (c.stream i).base := by
  have h := Chip.pageReturnRun_unbroken hb
  obtain ⟨hbase, -, -, -, hstate, -⟩ := h.positions
  obtain ⟨-, -, hpending, -⟩ := h.requests
  rw [← Chip.pageReturn_unbroken hb] at hbase hstate hpending ⊢
  rw [Chip.endCheck_flushing hs hidle, Chip.flushEnd_answers (hstate.trans hs) (hpending.trans hd), hbase]

/-- A flush with nothing in flight ends at its page return. -/
theorem Chip.pageReturn_endCheck_flush (hs : (c.stream i).state = .flushing) (hd : (c.stream i).pendingEnd = some d)
    (hidle : (c.stream i).idle = true) (hn : (c.stream i).base = (c.stream i).next) (hb : (c.pageReturnRun i).broken = none) :
    (c.pageReturn i).endCheck i = (c.pageReturnRun i).chip.flushAnswered i d (c.stream i).next := by
  have h := Chip.pageReturnRun_unbroken hb
  obtain ⟨hbase, -, -, -, hstate, hactive, hadmitted⟩ := h.positions
  obtain ⟨-, -, hpending, -⟩ := h.requests
  have hdrop := h.whole hn hidle
  have hentry := h.entry
  rw [if_pos hdrop] at hentry
  have hempty : ((c.pageReturnRun i).chip.stream i).emptyChain = (c.pageReturnRun i).chip.stream i := by
    rw [hentry, StreamEntry.emptyChain_emptyChain]
  obtain ⟨hchip, hbroken⟩ := Chip.pageReturnRun_empty (h.chain.trans hdrop) hempty
  have hidle' : ((c.pageReturnRun i).chip.stream i).idle = true := by
    rw [StreamEntry.idle, hadmitted, hactive]
    exact hidle
  rw [Chip.pageReturn_unbroken hb,
    Chip.endCheck_flush (hstate.trans hs) (hpending.trans hd) hidle' hbroken, hchip, hbase, hn]

theorem Chip.flushAnswered_stream (c : Chip) (i : StreamId) (d a : Nat) :
    (c.flushAnswered i d a).stream i = { c.stream i with state := .opened, pendingEnd := none } := by
  rw [Chip.flushAnswered, Chip.answer_stream, Chip.setStream_stream_same]

end

theorem Chip.refuseWaiting_of_stream {c : Chip} {i : StreamId} {st : StreamEntry} (h : c.stream i = st) (s : Status) :
    c.refuseWaiting i s = (c.modStream i fun st => { st with waitA := [], waitF := [] }).refuseAll st.waitingSlots s := by
  rw [Chip.refuseWaiting, h]

/-- Stream `i` flushing for the request in slot `id`, before its page return. -/
def Chip.flushing (c : Chip) (i : StreamId) (id : Nat) : Chip :=
  ((c.modStream i fun st => st.flushed id).setPhase id .admitted).refuseWaiting i .flushed

theorem Chip.flushing_eq (c : Chip) (i : StreamId) (id : Nat) :
    c.flushing i id =
      (((c.setStream i ((c.stream i).flushed id)).setPhase id .admitted).modStream i fun st =>
        { st with waitA := [], waitF := [] }).refuseAll (c.stream i).waitingSlots .flushed := by
  have hentry : ((c.modStream i fun st => st.flushed id).setPhase id .admitted).stream i = (c.stream i).flushed id :=
    c.setStream_stream_same i _
  exact Chip.refuseWaiting_of_stream hentry .flushed

theorem Chip.flushing_stream (c : Chip) (i : StreamId) (id : Nat) :
    (c.flushing i id).stream i = { (c.stream i).flushed id with waitA := [], waitF := [] } := by
  have hentry := c.setStream_stream_same i ((c.stream i).flushed id)
  rw [Chip.flushing_eq, (Chip.refuseAll_rings _ _ _).stream, Chip.modStream_stream_same]
  exact congrArg (fun st : StreamEntry => { st with waitA := [], waitF := [] }) hentry

/-- Settles O31. -/
theorem streamFlushDiscardsAndEnds : Obligations.StreamFlushDiscardsAndEnds := by
  refine ⟨fun c i d hs hd hadmitted hactive hb => ?_, fun s u id q i hs hb ho => ?_⟩
  · exact Chip.endCheck_flush hs hd ((c.stream i).idle_iff.2 ⟨hadmitted, hactive⟩) hb
  · have hexec := exec_streamRequest_passes hs (g := .flush) (by rw [hb]; rfl) (by rw [ho]; rfl) u
    rw [Request.actOn, hb] at hexec
    change exec (.streamFlush u) s = .next (s.withChip ((((s.taking u id).flushing i id).pageReturn i).endCheck i)) at hexec
    intro st tailLoc flushed emptied c r
    have hc : (s.taking u id).flushing i id = c := Chip.flushing_eq _ i id
    have hentry : c.stream i = { st.flushed id with waitA := [], waitF := [] } := by
      rw [← hc, Chip.flushing_stream]
      rfl
    rw [hc] at hexec
    clear_value c
    have hstate : (c.stream i).state = .flushing := by rw [hentry]; rfl
    have hpending : (c.stream i).pendingEnd = some id := by rw [hentry]; rfl
    have hnext : (c.stream i).next = st.next := by rw [hentry]; rfl
    have hpositions : (c.stream i).base = st.next ∧ (c.stream i).read = st.next ∧ (c.stream i).frontier = st.next ∧
        (c.stream i).marks = [] := by
      rw [hentry]
      exact ⟨rfl, rfl, rfl, rfl⟩
    have hinflight : (c.stream i).admitted = st.admitted ∧ (c.stream i).active = st.active ∧
        (c.stream i).reserve = st.reserve ∧ (c.stream i).waitA = [] ∧ (c.stream i).waitF = [] := by
      rw [hentry]
      exact ⟨rfl, rfl, rfl, rfl, rfl⟩
    obtain ⟨hbase, hread, hfrontier, hmarks⟩ := hpositions
    obtain ⟨hadmitted, hactive, hreserve, hwaitA, hwaitF⟩ := hinflight
    have hends (hr : r.broken = none) (ha : st.admitted = []) (hf : st.active = none) :
        exec (.streamFlush u) s = .next (s.withChip (r.chip.flushAnswered i id st.next)) := by
      rw [hexec, Chip.pageReturn_endCheck_flush hstate hpending ((StreamEntry.idle_iff _).2 ⟨hadmitted.trans ha, hactive.trans hf⟩)
        (hbase.trans hnext.symm) hr, hnext]
    refine ⟨hexec, hends, fun hr => ?_⟩
    have h := Chip.pageReturnRun_unbroken hr
    obtain ⟨hbase', hread', hfrontier', hnext', hstate', hactive', hadmitted'⟩ := h.positions
    obtain ⟨hwaitA', hwaitF', hpending', hreserve'⟩ := h.requests
    refine ⟨fun ha hf => ⟨_, hends hr ha hf, ?_⟩, fun hbusy => ⟨_, hexec, ?_⟩⟩
    · have hchain := h.chain.trans (h.whole (hbase.trans hnext.symm)
        ((StreamEntry.idle_iff _).2 ⟨hadmitted.trans ha, hactive.trans hf⟩))
      have htail := h.tail.trans (if_pos hchain)
      have hstream : (s.withChip (r.chip.flushAnswered i id st.next)).toChip.stream i =
          { r.chip.stream i with state := .opened, pendingEnd := none } := r.chip.flushAnswered_stream i id st.next
      rw [hstream]
      exact ⟨rfl, hbase'.trans hbase, hread'.trans hread, hfrontier'.trans hfrontier, hnext'.trans hnext, hchain, htail,
        h.marks hmarks, hwaitA'.trans hwaitA, hwaitF'.trans hwaitF, rfl, hreserve'.trans hreserve⟩
    · have hidle : ((c.pageReturnRun i).chip.stream i).idle = false := by
        rw [Bool.eq_false_iff, Ne, StreamEntry.idle_iff, hadmitted', hactive', hadmitted, hactive]
        exact fun ⟨ha, hf⟩ => hbusy.elim (· ha) (· hf)
      rw [Chip.pageReturn_unbroken hr, Chip.endCheck_busy hidle]
      exact ⟨hstate'.trans hstate, hbase'.trans hbase, hread'.trans hread, hfrontier'.trans hfrontier, hnext'.trans hnext,
        h.marks hmarks, hwaitA'.trans hwaitA, hwaitF'.trans hwaitF, hpending'.trans hpending, hadmitted'.trans hadmitted,
        hactive'.trans hactive⟩

/-! ### The end of a close -/

section
variable {c : Chip} {i : StreamId} {d : Nat}

theorem Chip.endCheck_close (hs : (c.stream i).state = .closing) (hd : (c.stream i).pendingEnd = some d)
    (hidle : (c.stream i).idle = true) :
    c.endCheck i = ((c.returnAll i).1.setStream i StreamEntry.closed).answer d fun q =>
      { code := if (c.stream i).closeMedia = true ∨ (c.returnAll i).2 = true then Status.mediaError.code else Status.ok.code,
        commandId := q.commandId, streamId := q.streamId, posA := (c.stream i).base, posB := (c.stream i).next } := by
  simp only [Chip.endCheck, hidle, if_true, hs, Chip.closeEnd, hd, Request.positions, Bool.or_eq_true, apply_ite Status.code]

theorem Chip.endCheck_close_stream (hs : (c.stream i).state = .closing) (hd : (c.stream i).pendingEnd = some d)
    (hidle : (c.stream i).idle = true) : (c.endCheck i).stream i = StreamEntry.closed := by
  rw [Chip.endCheck_close hs hd hidle, Chip.answer_stream, Chip.setStream_stream_same]

end

/-- Stream `i` closing for the request in slot `id`, before the end of the close. -/
def Chip.closing (c : Chip) (i : StreamId) (id : Nat) : Chip :=
  ((((c.setStream i ((c.stream i).closing id)).setPhase id .admitted).modStream i fun st =>
    { st with waitA := [], waitF := [] }).refuseAll (c.stream i).waitingSlots .closed).startArbiterIf ((c.stream i).unmet != 0)

theorem Chip.closeStream_eq (c : Chip) (i : StreamId) (id : Nat) : c.closeStream i id = (c.closing i id).endCheck i := by
  have hentry : ((c.setStream i ((c.stream i).closing id)).setPhase id .admitted).stream i = (c.stream i).closing id :=
    c.setStream_stream_same i _
  rw [Chip.closeStream, Chip.refuseWaiting_of_stream hentry]
  rfl

theorem Chip.closing_stream (c : Chip) (i : StreamId) (id : Nat) :
    (c.closing i id).stream i = { (c.stream i).closing id with waitA := [], waitF := [] } := by
  have hentry := c.setStream_stream_same i ((c.stream i).closing id)
  rw [Chip.closing, Chip.startArbiterIf_stream, (Chip.refuseAll_rings _ _ _).stream, Chip.modStream_stream_same]
  exact congrArg (fun st : StreamEntry => { st with waitA := [], waitF := [] }) hentry

/-- Settles O32. -/
theorem streamCloseEndsOrWaits : Obligations.StreamCloseEndsOrWaits := by
  refine ⟨fun c i d hs hd => ⟨fun hadmitted hactive => ?_, fun hbusy => Chip.endCheck_busy ?_⟩, fun s u id q i hs hb hst => ?_⟩
  · have hidle := (c.stream i).idle_iff.2 ⟨hadmitted, hactive⟩
    exact ⟨Chip.endCheck_close hs hd hidle, Chip.endCheck_close_stream hs hd hidle⟩
  · rw [Bool.eq_false_iff, Ne, StreamEntry.idle_iff]
    exact fun ⟨ha, hf⟩ => hbusy.elim (· ha) (· hf)
  · have hpass : stateCheck .close (s.toChip.stream i).state = none := by
      rcases hst with h | h | h <;> rw [h] <;> rfl
    have hexec := exec_streamRequest_passes hs (g := .close) (by rw [hb]; rfl) hpass u
    rw [Request.actOn, hb] at hexec
    change exec (.streamClose u) s = .next (s.withChip ((s.taking u id).closeStream i id)) at hexec
    rw [Chip.closeStream_eq] at hexec
    intro closing emptied refused c
    have hc : (s.taking u id).closing i id = c := rfl
    have hentry : c.stream i = { (s.toChip.stream i).closing id with waitA := [], waitF := [] } := by
      rw [← hc, Chip.closing_stream]
      rfl
    rw [hc] at hexec
    clear_value c
    have hstate : (c.stream i).state = .closing := by rw [hentry]; rfl
    have hpending : (c.stream i).pendingEnd = some id := by rw [hentry]; rfl
    have hadmitted : (c.stream i).admitted = (s.toChip.stream i).admitted := by rw [hentry]; rfl
    have hactive : (c.stream i).active = (s.toChip.stream i).active := by rw [hentry]; rfl
    have hpositions : (c.stream i).base = (s.toChip.stream i).base ∧ (c.stream i).next = (s.toChip.stream i).next ∧
        (c.stream i).closeMedia = false := by
      rw [hentry]
      exact ⟨rfl, rfl, rfl⟩
    obtain ⟨hbase, hnext, hmedia⟩ := hpositions
    refine ⟨fun hbusy => ?_, fun ha hf => ?_⟩
    · have hidle : (c.stream i).idle = false := by
        rw [Bool.eq_false_iff, Ne, StreamEntry.idle_iff, hadmitted, hactive]
        exact fun ⟨ha, hf⟩ => hbusy.elim (· ha) (· hf)
      rw [hexec, Chip.endCheck_busy hidle]
    · have hidle : (c.stream i).idle = true := (StreamEntry.idle_iff _).2 ⟨hadmitted.trans ha, hactive.trans hf⟩
      have hclosed := Chip.endCheck_close_stream hstate hpending hidle
      refine ⟨?_, _, hexec, hclosed⟩
      rw [hexec, Chip.endCheck_close hstate hpending hidle, hbase, hnext, hmedia]
      simp only [Bool.false_eq_true, false_or]

end Sys2Proof.Machine
end

section
/-! STREAM_SET (R12, R13): its checks, the entry it makes, and what it starts. -/

namespace Sys2Proof.Machine

section
variable {c : Chip} {i : StreamId} {id : Nat} {b : SettingsBlock}

theorem Chip.setBlockOk_iff (c : Chip) (st : StreamEntry) (b : SettingsBlock) :
    c.setBlockOk st b = true ↔ b.inRange c.pool.usable = true ∧
      (st.state = .held ∨ ∃ n : RingId, b.noticeRing = n.val ∧ (c.cmpRing n).state = .active) := by
  rw [Chip.setBlockOk, Bool.and_eq_true, Bool.or_eq_true, beq_iff_eq, Chip.cmpActive_iff]

theorem Chip.setSettings_badField (h : c.setBlockOk (c.stream i) b = false) : c.setSettings i id b = c.refuse id .badField :=
  if_pos h

theorem Chip.setSettings_inUse (h : c.setBlockOk (c.stream i) b = true) (hq : b.quota < (c.stream i).chain.length) :
    c.setSettings i id b = c.refuse id .inUse := (if_neg (ne_false_of_eq_true h)).trans (if_pos hq)

theorem Chip.setSettings_noReserve (h : c.setBlockOk (c.stream i) b = true) (hq : (c.stream i).chain.length ≤ b.quota)
    (hr : c.sharedFree < (c.stream i).growth b) : c.setSettings i id b = c.refuse id .noReserve :=
  (if_neg (ne_false_of_eq_true h)).trans ((if_neg (Nat.not_lt.2 hq)).trans (if_pos hr))

/-- The entry after a STREAM_SET that passes its checks, without the waiting appends that cannot fit the new quota. -/
def StreamEntry.reset (st : StreamEntry) (b : SettingsBlock) : StreamEntry :=
  { st.setTo b with waitA := st.waitA.filter fun w => !w.tooLarge b.quota }

/-- The part after a STREAM_SET that passes its checks, but for the arbiter start. -/
def Chip.setDone (c : Chip) (i : StreamId) (id : Nat) (b : SettingsBlock) : Chip :=
  ((((c.setStream i ((c.stream i).reset b)).refuseAll
    (((c.stream i).waitA.filter (WaitingAppend.tooLarge b.quota)).map WaitingAppend.slot) .tooLarge).attemptIfMoved i
      (c.stream i).noticeRing).answer id fun q => q.positions .ok (c.stream i).base (c.stream i).next)

theorem Chip.refuseTooLarge_eq (c : Chip) (i : StreamId) (b : SettingsBlock) :
    (c.setStream i ((c.stream i).setTo b)).refuseTooLarge i b.quota =
      (c.setStream i ((c.stream i).reset b)).refuseAll
        (((c.stream i).waitA.filter (WaitingAppend.tooLarge b.quota)).map WaitingAppend.slot) .tooLarge := by
  rw [Chip.refuseTooLarge, Chip.modStream, Chip.setStream_stream_same, Chip.setStream_setStream]
  rfl

theorem Chip.setSettings_sets (h : c.setBlockOk (c.stream i) b = true) (hq : (c.stream i).chain.length ≤ b.quota)
    (hr : (c.stream i).growth b ≤ c.sharedFree) :
    c.setSettings i id b = (c.setDone i id b).startArbiterIf ((c.stream i).setStarts b) := by
  rw [Chip.setDone, ← Chip.refuseTooLarge_eq]
  exact (if_neg (ne_false_of_eq_true h)).trans ((if_neg (Nat.not_lt.2 hq)).trans (if_neg (Nat.not_lt.2 hr)))

theorem Chip.attemptIfMoved_notices (c : Chip) (i : StreamId) (old : Option RingId) : OnlyNotices c (c.attemptIfMoved i old) := by
  unfold Chip.attemptIfMoved
  split
  · exact .refl c
  · exact c.attempt_notices i

theorem Chip.setDone_notices (c : Chip) (i : StreamId) (id : Nat) (b : SettingsBlock) :
    OnlyNotices (c.setStream i ((c.stream i).reset b)) (c.setDone i id b) :=
  ((Chip.refuseAll_rings _ _ _).notices.trans (Chip.attemptIfMoved_notices _ i _)).trans (Chip.answer_rings _ id _).notices

theorem StreamEntry.setStarts_iff (st : StreamEntry) (b : SettingsBlock) :
    st.setStarts b = true ↔ st.quota < b.quota ∨ st.reserve < b.reserve ∨
      b.reserve - st.chain.length < st.reserve - st.chain.length ∨ st.waitA.head?.any (WaitingAppend.tooLarge b.quota) = true := by
  have hhead : (match st.waitA with
      | [] => false
      | h :: _ => h.tooLarge b.quota) = st.waitA.head?.any (WaitingAppend.tooLarge b.quota) := by
    cases st.waitA <;> rfl
  have hor : st.setStarts b = (decide (st.quota < b.quota) || decide (st.reserve < b.reserve) ||
    decide (b.reserve - st.heldPages < st.reserve - st.heldPages) || st.waitA.head?.any (WaitingAppend.tooLarge b.quota)) :=
    congrArg (decide (st.quota < b.quota) || decide (st.reserve < b.reserve) ||
      decide (b.reserve - st.heldPages < st.reserve - st.heldPages) || ·) hhead
  rw [hor, Bool.or_eq_true, Bool.or_eq_true, Bool.or_eq_true, decide_eq_true_iff, decide_eq_true_iff, decide_eq_true_iff,
    or_assoc, or_assoc]
  rfl

theorem Chip.setDone_stream (c : Chip) (i : StreamId) (id : Nat) (b : SettingsBlock) :
    ((c.setDone i id b).stream i).clearLatches = ((c.stream i).reset b).clearLatches := by
  rw [(c.setDone_notices i id b).streams i, Chip.setStream_stream_same]

end

/-- The notice ring a STREAM_SET leaves (R13). -/
theorem StreamEntry.setTo_noticeRing {st : StreamEntry} {b : SettingsBlock} {ring : Option RingId}
    (h : st.state = .held ∧ ring = st.noticeRing ∨ st.state = .opened ∧ ∃ n : RingId, b.noticeRing = n.val ∧ ring = some n) :
    (if st.state = StreamState.held then st.noticeRing else ringOf b.noticeRing) = ring := by
  rcases h with ⟨hs, hr⟩ | ⟨hs, n, hn, hr⟩
  · rw [if_pos hs, hr]
  · rw [hs, if_neg (by decide), hn, ringOf_val, hr]

theorem Chip.startArbiterIf_frame (c : Chip) (b : Bool) :
    (c.startArbiterIf b).engine = c.engine ∧ (c.startArbiterIf b).pool.free = c.pool.free :=
  ⟨c.startArbiterIf_engine b, by rw [Chip.startArbiterIf_pool]⟩

/-- Settles O30. -/
theorem streamSetChecksAndReplacesTheSettings : Obligations.StreamSetChecksAndReplacesTheSettings := by
  intro s id q i b hs hb st c hst valid growth
  have hpass : stateCheck .set_ (s.toChip.stream i).state = none := by
    rcases hst with h | h <;> rw [h] <;> rfl
  have hexec := exec_streamRequest_passes hs (g := .set_) (by rw [hb]; rfl) hpass []
  rw [Request.actOn, hb] at hexec
  change exec .streamSet s = .next (s.withChip (c.setSettings i id b)) at hexec
  have hstream : c.stream i = st := s.taking_stream [] id i
  have hfree : c.sharedFree = s.toChip.sharedFree := s.taking_sharedFree [] id
  have hvalid : c.setBlockOk (c.stream i) b = true ↔ valid := by
    rw [Chip.setBlockOk_iff, SettingsBlock.inRange_iff, hstream]
    simp only [valid, c, State.taking_pool, State.taking_cmpRing, and_assoc]
  have hsets (hv : valid) (hq : st.chain.length ≤ b.quota) (hr : growth ≤ s.toChip.sharedFree) :
      exec .streamSet s = .next (s.withChip ((c.setDone i id b).startArbiterIf (st.setStarts b))) := by
    rw [hexec, Chip.setSettings_sets (hvalid.2 hv) (by rwa [hstream]) (by rw [hstream, hfree]; exact hr), hstream]
  refine ⟨fun hv => ?_, fun hv hq => ?_, fun hv hq hr => ?_, fun hv hq hr => ?_, fun ring hv hq hr hring => ?_⟩
  · rw [hexec, Chip.setSettings_badField (Bool.eq_false_iff.2 fun h => hv (hvalid.1 h))]
  · rw [hexec, Chip.setSettings_inUse (hvalid.2 hv) (by rwa [hstream])]
  · rw [hexec, Chip.setSettings_noReserve (hvalid.2 hv) (by rwa [hstream]) (by rw [hstream, hfree]; exact hr)]
  · have hframe := c.setDone_notices i id b
    obtain ⟨hengine, hpool⟩ := (c.setDone i id b).startArbiterIf_frame (st.setStarts b)
    have hmem := ((c.setDone i id b).startArbiterIf_mem (st.setStarts b)).trans hframe.mem
    have hentry := c.setDone_stream i id b
    rw [hstream, ← (c.setDone i id b).startArbiterIf_stream (st.setStarts b)] at hentry
    simp only [StreamEntry.clearLatches, StreamEntry.reset, StreamEntry.setTo, StreamEntry.silent, StreamEntry.withSettings,
      StreamEntry.mk.injEq] at hentry
    obtain ⟨hstate, hmode, hdurable, hnotice, hready, hpressure, hrelief, hreserve, hquota, hbase, hread, hfrontier, hnext, -, -,
      htail, hchain, hmarks, hwaitA, hwaitF, hadmitted, hactive, -, hbacklog, hoccupancy, -⟩ := hentry
    refine ⟨_, _, hsets hv hq hr, rfl, hmode, hdurable, hready, hpressure, hrelief, hreserve, hquota, fun ho n hn => ?_, fun hh => ?_,
      hmarks, hwaitA, hbacklog, hoccupancy, hstate, hbase, hread, hfrontier, hnext, hchain, htail, hwaitF, hadmitted, hactive,
      hmem, hengine.trans hframe.engine, hpool.trans (congrArg Pool.free hframe.pool)⟩
    · exact hnotice.trans (StreamEntry.setTo_noticeRing (.inr ⟨ho, n, hn, rfl⟩))
    · exact hnotice.trans (StreamEntry.setTo_noticeRing (.inl ⟨hh, rfl⟩))
  · intro tooLarge set refused moved done starts
    have hset : st.reset b = set := by
      rw [StreamEntry.reset, StreamEntry.setTo, StreamEntry.setTo_noticeRing hring]
      rfl
    have hrefused : (c.setStream i (st.reset b)).refuseAll
        ((st.waitA.filter (WaitingAppend.tooLarge b.quota)).map WaitingAppend.slot) .tooLarge = refused := by
      rw [hset, Chip.refuseAll, List.foldl_map]
      rfl
    have hring' : (refused.stream i).noticeRing = ring := by
      rw [← hrefused, (Chip.refuseAll_rings _ _ _).stream, Chip.setStream_stream_same, hset]
    have hdone : c.setDone i id b = done := by
      rw [Chip.setDone, hstream, hrefused, Chip.attemptIfMoved, hring']
      rfl
    have hexec' := hsets hv hq hr
    rw [hdone] at hexec'
    have hframe := c.setDone_notices i id b
    rw [hdone] at hframe
    have hactive : done.isActive = true := by
      rw [Chip.isActive_iff, hframe.ctl]
      exact s.toChip.isActive_iff.1 hs.serving.active
    refine ⟨fun h => ?_, fun h => ?_⟩
    · rw [hexec', (StreamEntry.setStarts_iff st b).2 h, Chip.startArbiterIf, if_pos rfl, Chip.startArbiter, if_pos hactive, hframe.pool]
      rfl
    · rw [hexec', Bool.eq_false_iff.2 fun hb => h ((StreamEntry.setStarts_iff st b).1 hb)]
      rfl

end Sys2Proof.Machine
end

section
/-! The checks of an APPEND in order, and what an append without room answers (R27 to R31, R35). -/

namespace Sys2Proof.Machine

/-- An append's source as R27 and R28 accept it. -/
def Source.Carries (src : Source) (length : Nat) : Prop :=
  (∃ segs, src = .direct segs ∧ segs ≠ [] ∧ (∀ x ∈ segs, x.addr.toNat % 16 = 0) ∧ (segs.map Segment.len).sum = length) ∨
    ∃ addr count, src = .indirect addr count ∧ addr.toNat % 16 = 0 ∧ 1 ≤ count ∧ count ≤ 256

theorem appendSourceOk_iff (length : Nat) (src : Source) : appendSourceOk length src = true ↔ src.Carries length := by
  unfold Source.Carries
  cases src with
  | direct segs =>
    simp only [appendSourceOk, Bool.and_eq_true, Bool.not_eq_true', List.isEmpty_eq_false_iff, appendSegmentsOk_iff,
      Source.direct.injEq, exists_eq_left', reduceCtorEq, false_and, exists_false, or_false]
  | indirect addr count =>
    simp only [appendSourceOk, listAccepted, aligned16, Bool.and_eq_true, beq_iff_eq, decide_eq_true_eq, reduceCtorEq,
      false_and, exists_false, false_or, Source.indirect.injEq, and_assoc]
    exact ⟨fun h => ⟨addr, count, rfl, rfl, h⟩, fun ⟨_, _, ha, hc, h⟩ => ha ▸ hc ▸ h⟩

section
variable {c : Chip} {i : StreamId} {id length wait : Nat} {tag : Word} {src : Source}

/-! ### The checks -/

theorem Chip.append_unsized (h : ¬ (1 ≤ length ∧ length ≤ 32768)) :
    c.append i id length wait tag src = c.refuse id .badField := if_pos (by change _ ∨ 32768 < length; omega)

/-- An append of a length in range, by its next check. -/
theorem Chip.append_sized (h : 1 ≤ length ∧ length ≤ 32768) :
    c.append i id length wait tag src =
      if appendSourceOk length src = false then c.refuse id .badField
      else if (c.stream i).quota < (footprint length + 4095) / 4096 then c.refuse id .tooLarge
      else if (c.stream i).next = 2 ^ 48 - 1 then c.refuse id .seqLimit
      else c.appendRoom i id length wait tag src := if_neg (by change ¬ (_ ∨ 32768 < length); omega)

theorem Chip.append_passes (hsized : 1 ≤ length ∧ length ≤ 32768) (hsrc : src.Carries length)
    (hfits : (footprint length + 4095) / 4096 ≤ (c.stream i).quota) (hnext : (c.stream i).next ≠ 2 ^ 48 - 1) :
    c.append i id length wait tag src = c.appendRoom i id length wait tag src := by
  rw [Chip.append_sized hsized, if_neg (ne_false_of_eq_true ((appendSourceOk_iff _ _).2 hsrc)), if_neg (Nat.not_lt.2 hfits),
    if_neg hnext]

/-! ### Room -/

theorem Chip.tryAdmit_refused (h : c.allocate i ((c.stream i).need (footprint length)) = .refused) :
    c.tryAdmit i id length tag src = .refused := by
  simp only [Chip.tryAdmit, h]

theorem Chip.tryAdmit_linkError {c1 : Chip} (h : c.allocate i ((c.stream i).need (footprint length)) = .linkError c1) :
    c.tryAdmit i id length tag src = .halted (c1.halt .freeList) := by
  simp only [Chip.tryAdmit, h]

theorem Chip.appendRoom_waits {detail : Nat}
    (h : detail = 3 ∧ (c.stream i).waitA ≠ [] ∨ detail = 2 ∧ (c.stream i).waitA = [] ∧ 8 ≤ (c.stream i).admitted.length ∨
      detail = 1 ∧ (c.stream i).waitA = [] ∧ (c.stream i).admitted.length < 8 ∧
        c.allocate i ((c.stream i).need (footprint length)) = .refused) :
    c.appendRoom i id length wait tag src = c.appendWaits i id length wait detail := by
  have hmax : Config.maxWindow = 8 := rfl
  rcases h with ⟨rfl, hw⟩ | ⟨rfl, hw, hfull⟩ | ⟨rfl, hw, hroom, hrefused⟩
  · simp only [Chip.appendRoom, if_pos hw]
  · simp only [Chip.appendRoom, if_neg (not_not.2 hw), hmax, if_pos hfull]
  · simp only [Chip.appendRoom, if_neg (not_not.2 hw), hmax, if_neg (Nat.not_le.2 hroom), Chip.tryAdmit_refused hrefused]

theorem Chip.appendRoom_admits (hw : (c.stream i).waitA = []) (hroom : (c.stream i).admitted.length < 8) :
    c.appendRoom i id length wait tag src =
      match c.tryAdmit i id length tag src with
      | .refused => c.appendWaits i id length wait 1
      | .halted c1 => c1
      | .done c1 => c1 := (if_neg (not_not.2 hw)).trans ((if_neg (Nat.not_le.2 hroom)).trans (by cases c.tryAdmit i id length tag src <;> rfl))

theorem Chip.joinAppends_eq (c : Chip) (i : StreamId) (id length wait : Nat) :
    c.joinAppends i id length wait =
      if 8 ≤ (c.stream i).waitA.length then c.refuse id .waitLimit
      else if c.slotDraining id = true then c.cancelInstead id
      else
        (c.setStream i
          { c.stream i with
            waitA := (c.stream i).waitA ++
              [{ slot := id, length := length, deadline := if wait = 65535 then none else some wait }] }).setPhase id .waiting :=
  rfl

end

/-- Settles O35. -/
theorem appendChecksInOrder : Obligations.AppendChecksInOrder := by
  intro s u id q i length tag src hs hb ho st c formed sized fits passed
  have hexec := exec_streamRequest_passes hs (g := .io) (by rw [hb]; rfl) (stateCheck_io_of_opened ho) u
  rw [Request.actOn, hb] at hexec
  change exec (.append u) s = .next (s.withChip (c.append i id length q.wait tag src)) at hexec
  have hstream : c.stream i = st := s.taking_stream u id i
  have hroom (h : passed) : exec (.append u) s = .next (s.withChip (c.appendRoom i id length q.wait tag src)) := by
    obtain ⟨hsized, hformed, hfits, hnext⟩ := h
    rw [hexec, Chip.append_passes hsized hformed (by rwa [hstream]) (by rwa [hstream])]
  refine ⟨fun h => ?_, fun h hf => ?_, fun h hf hq => ?_, fun h hf hq hn => ?_, fun detail h hd => ?_, fun c1 h hw ha hl => ?_⟩
  · rw [hexec, Chip.append_unsized h]
  · rw [hexec, Chip.append_sized h, if_pos (Bool.eq_false_iff.2 fun hok => hf ((appendSourceOk_iff _ _).1 hok))]
  · rw [hexec, Chip.append_sized h, if_neg (ne_false_of_eq_true ((appendSourceOk_iff _ _).2 hf)), hstream,
      if_pos (Nat.not_le.1 hq)]
  · rw [hexec, Chip.append_sized h, if_neg (ne_false_of_eq_true ((appendSourceOk_iff _ _).2 hf)), hstream,
      if_neg (Nat.not_lt.2 hq), if_pos hn]
  · have hwaits := hroom h
    rw [Chip.appendRoom_waits (by rwa [hstream]), Chip.appendWaits] at hwaits
    refine ⟨fun h0 => ?_, fun h0 hfull => ?_, fun h0 hlt hdr => ?_, fun h0 hlt hdr => ?_⟩
    · rw [hwaits, if_pos h0]
      rfl
    · rw [hwaits, if_neg h0, Chip.joinAppends_eq, hstream, if_pos hfull]
    · rw [hwaits, if_neg h0, Chip.joinAppends_eq, hstream, if_neg (Nat.not_le.2 hlt), if_pos hdr]
    · rw [hwaits, if_neg h0, Chip.joinAppends_eq, hstream, if_neg (Nat.not_le.2 hlt), if_neg (ne_true_of_eq_false hdr)]
  · obtain ⟨m, rfl, -⟩ := c.allocate_linkError i _ c1 hl
    have hhalts := hroom h
    rw [Chip.appendRoom_admits (by rwa [hstream]) (by rwa [hstream]), Chip.tryAdmit_linkError (by rwa [hstream])] at hhalts
    refine ⟨_, hhalts, ?_⟩
    have hactive : c.ctl.state = .active := s.toChip.isActive_iff.1 hs.serving.active
    dsimp only
    rw [Chip.halt_of_active (c := { c with mem := m }) .freeList hactive]
    exact ⟨rfl, rfl, rfl, rfl, rfl⟩

end Sys2Proof.Machine
end

section
/-! Breaks and faults (R19 to R21, R97, R149, R159): what a break cuts off, what stopping a copy does, and what a fault leaves of a
stream. -/

namespace Sys2Proof.Machine

/-! ### A break -/

/-- The pages a break keeps (R97). -/
def StreamEntry.keptBy (st : StreamEntry) (brk : Option Nat) : List Nat :=
  match brk with
  | none => st.chain
  | some p => if p ∈ st.chain then st.chain.take (st.chain.idxOf p + 1) else st.chain

/-- The entry cut at a break, when there is one (R97, R7). -/
def StreamEntry.cutAt (st : StreamEntry) (brk : Option Nat) : StreamEntry :=
  { st with
    chain := st.keptBy brk, tail := if st.chain.length - (st.keptBy brk).length = 0 then st.tail else 4096 }

theorem StreamEntry.cutAt_whole {st : StreamEntry} {brk : Option Nat} (h : st.keptBy brk = st.chain) : st.cutAt brk = st := by
  rw [StreamEntry.cutAt, h, if_pos (Nat.sub_self _)]

theorem Chip.cut_eq (c : Chip) (i : StreamId) (brk : Option Nat) :
    c.cut i brk =
      { c.setStream i ((c.stream i).cutAt brk) with
        pool := { c.pool with lost := c.pool.lost + ((c.stream i).chain.length - ((c.stream i).keptBy brk).length) }
        mem := (c.cut i brk).mem } := by
  have hwhole (h : (c.stream i).keptBy brk = (c.stream i).chain) (hc : c.cut i brk = c) : c.cut i brk =
      { c.setStream i ((c.stream i).cutAt brk) with
        pool := { c.pool with lost := c.pool.lost + ((c.stream i).chain.length - ((c.stream i).keptBy brk).length) }
        mem := (c.cut i brk).mem } := by
    rw [StreamEntry.cutAt_whole h, h, Nat.sub_self, Chip.setStream_self, hc]
    rfl
  cases brk with
  | none => exact hwhole rfl rfl
  | some p =>
    by_cases hp : p ∈ (c.stream i).chain
    · have hkept : (c.stream i).keptBy (some p) = (c.stream i).chain.take ((c.stream i).chain.idxOf p + 1) := if_pos hp
      have hcut : c.cut i (some p) = c.breakChain i p := rfl
      rw [StreamEntry.cutAt, hkept, hcut, Chip.breakChain_spec c i p hp]
    · exact hwhole (if_neg hp) (c.breakChain_none i p hp)

theorem Chip.breakChain_link {c : Chip} {i : StreamId} {p : Nat} (h : p ∈ (c.stream i).chain) :
    (c.breakChain i p).mem = c.mem.writeLink c.pool.usable p none (some i) := by
  rw [Chip.breakChain_spec c i p h]

theorem encodeLink_end (i : StreamId) :
    ((encodeLink none (some i)).extractLsb' 0 32).toNat = 2 ^ 32 - 1 ∧
      ((encodeLink none (some i)).extractLsb' 32 32).toNat = i.val :=
  ⟨encodeLink_next none (some i) (fun _ h => by cases h), encodeLink_owner none (some i)⟩

/-! ### A copy stopped -/

section
variable {c : Chip} {id : Nat}

theorem Chip.stopCopy_queued (h : ∃ t ∈ c.engine.queue, t.slot = id) :
    c.stopCopy id =
      { c with
        engine := { c.engine with
          queue := c.engine.queue.filter fun t => t.slot != id
          ends := c.engine.ends ++ [stoppedReport id] } } := by
  have hany : (c.engine.queue.any fun t => t.slot == id) = true := by
    simpa only [List.any_eq_true, beq_iff_eq] using h
  rw [Chip.stopCopy, if_pos hany]
  rfl

theorem Chip.stopCopy_unqueued (h : ∀ t ∈ c.engine.queue, t.slot ≠ id) :
    c.stopCopy id = match c.ctxOf id with
      | none => c
      | some k => (c.setCtx k ((c.ctx k).finish .stopped)).settle k := by
  have hany : ¬ (c.engine.queue.any fun t => t.slot == id) = true := by
    simpa only [List.any_eq_true, beq_iff_eq, not_exists, not_and] using h
  exact (if_neg hany).trans (by cases c.ctxOf id <;> rfl)

theorem Chip.ctxOf_none (h : ∀ k t, (c.ctx k).transfer = some t → t.slot ≠ id) : c.ctxOf id = none := by
  refine find?_ctxIds_none fun k => ?_
  cases ht : (c.ctx k).transfer with
  | none => rfl
  | some t => exact beq_eq_false_iff_ne.2 (h k t ht)

theorem Chip.ctxOf_some {k : CtxId} {t : Transfer} (ht : (c.ctx k).transfer = some t) (hs : t.slot = id)
    (hlt : ∀ j t', j < k → (c.ctx j).transfer = some t' → t'.slot ≠ id) : c.ctxOf id = some k := by
  refine find?_ctxIds (by rw [ht]; exact beq_iff_eq.2 hs) fun j hj => ?_
  cases hx : (c.ctx j).transfer with
  | none => rfl
  | some t' => exact beq_eq_false_iff_ne.2 (hlt j t' hj hx)

theorem Context.finish_not_running {x : Context} (o : CopyOutcome) (h : x.state ≠ .running) : x.finish o = x := by
  unfold Context.finish
  split
  · rename_i hr
    exact absurd hr h
  all_goals rfl

theorem Chip.setCtx_ctx_self (c : Chip) (k : CtxId) : c.setCtx k (c.ctx k) = c := by
  simp [Chip.setCtx, Chip.ctx, Vector.get_eq_getElem]

theorem Chip.settle_engine_congr {c d : Chip} (h : d.engine = c.engine) (k : CtxId) :
    (d.settle k).engine = (c.settle k).engine := by
  have hctx : d.ctx k = c.ctx k := congrArg (fun e : Engine => e.contexts.get k) h
  unfold Chip.settle
  dsimp only
  rw [hctx]
  split
  · split
    · exact h
    · split
      · exact h
      · split
        · simp only [Chip.report, Chip.setCtx, h]
        · exact h
      · simp only [Chip.report, Chip.setCtx, h]
      · simp only [Chip.setCtx, h]
  · exact h

/-- What stopping a copy does to the engine rests on the engine alone. -/
theorem Chip.stopCopy_engine_congr {c d : Chip} (h : d.engine = c.engine) (id : Nat) :
    (d.stopCopy id).engine = (c.stopCopy id).engine := by
  have hctx (k : CtxId) : d.ctx k = c.ctx k := congrArg (fun e : Engine => e.contexts.get k) h
  have hof : d.ctxOf id = c.ctxOf id := by simp only [Chip.ctxOf, hctx]
  unfold Chip.stopCopy
  rw [h, hof]
  split
  · simp only [Chip.report]
  · split
    · exact h
    · rw [hctx]
      refine Chip.settle_engine_congr ?_ _
      simp only [Chip.setCtx, h]

end

section
variable {c : Chip} {i : StreamId}

theorem Chip.stopActive_none (h : (c.stream i).active = none) : c.stopActive i = c := by
  simp only [Chip.stopActive, h]

theorem Chip.stopActive_some {a : ActiveFetch} (h : (c.stream i).active = some a) :
    (c.stopActive i).engine = (c.stopCopy a.slot).engine := by
  simp only [Chip.stopActive, h]
  exact Chip.stopCopy_engine_congr (c := c) (d := c.modStream i StreamEntry.markStopped) rfl a.slot

theorem Chip.stopActive_eq (c : Chip) (i : StreamId) :
    c.stopActive i = { c.setStream i (c.stream i).markStopped with engine := (c.stopActive i).engine } := by
  cases h : (c.stream i).active with
  | none =>
    have hsame : (c.stream i).markStopped = c.stream i := by
      rw [StreamEntry.markStopped, h, Option.map_none, ← h]
    rw [Chip.stopActive_none h, hsame, Chip.setStream_self]
  | some a =>
    have hstop : c.stopActive i = (c.setStream i (c.stream i).markStopped).stopCopy a.slot := by
      simp only [Chip.stopActive, h]
      rfl
    rw [hstop]
    exact Chip.stopCopy_engine _ _

end

theorem Chip.stopActive_frame (c : Chip) (i : StreamId) :
    (c.stopActive i).stream i = (c.stream i).markStopped ∧ (c.stopActive i).mem = c.mem ∧ (c.stopActive i).pool = c.pool ∧
      (c.stopActive i).rings = c.rings ∧ (c.stopActive i).link = c.link ∧ (c.stopActive i).ctl = c.ctl ∧
      ∀ j, j ≠ i → (c.stopActive i).stream j = c.stream j := by
  rw [Chip.stopActive_eq]
  exact ⟨c.setStream_stream_same i _, rfl, rfl, rfl, rfl, rfl, fun j hj => c.setStream_stream_ne _ hj⟩

/-- The engine after the active fetch of a part with `c`'s engine is stopped. -/
theorem Chip.stopActive_engine {c d : Chip} {i : StreamId} (hd : d.engine = c.engine)
    (hactive : (d.stream i).active = (c.stream i).active) :
    (∀ a, (c.stream i).active = some a → (d.stopActive i).engine = (c.stopCopy a.slot).engine) ∧
      ((c.stream i).active = none → (d.stopActive i).engine = c.engine) :=
  ⟨fun a ha => (Chip.stopActive_some (hactive.trans ha)).trans (Chip.stopCopy_engine_congr hd a.slot),
    fun hn => by rw [Chip.stopActive_none (hactive.trans hn), hd]⟩

/-! ### A stream cut and its entry changed -/

/-- The chain of stream `i` cut and its entry then changed by `f`. -/
theorem Chip.cut_modStream_eq (c : Chip) (i : StreamId) (brk : Option Nat) (f : StreamEntry → StreamEntry) :
    (c.cut i brk).modStream i f =
      { c.setStream i (f ((c.stream i).cutAt brk)) with
        pool := { c.pool with lost := c.pool.lost + ((c.stream i).chain.length - ((c.stream i).keptBy brk).length) }
        mem := (c.cut i brk).mem } := by
  have hcut := c.cut_eq i brk
  have hstream : (c.cut i brk).stream i = (c.stream i).cutAt brk := by
    rw [hcut]
    exact c.setStream_stream_same i _
  rw [Chip.modStream, hstream]
  conv_lhs => rw [hcut]
  exact congrArg (fun d : Chip => { d with
    pool := { c.pool with lost := c.pool.lost + ((c.stream i).chain.length - ((c.stream i).keptBy brk).length) }
    mem := (c.cut i brk).mem }) (c.setStream_setStream i _ _)

/-- What the cut part keeps and loses, its entry then changed by `f`. -/
theorem Chip.cut_modStream_frame (c : Chip) (i : StreamId) (brk : Option Nat) (f : StreamEntry → StreamEntry) :
    let d := (c.cut i brk).modStream i f
    d.stream i = f ((c.stream i).cutAt brk) ∧ d.mem = (c.cut i brk).mem ∧
      d.pool = { c.pool with lost := c.pool.lost + ((c.stream i).chain.length - ((c.stream i).keptBy brk).length) } ∧
      d.engine = c.engine ∧ d.rings = c.rings ∧ d.link = c.link ∧ d.ctl = c.ctl ∧ ∀ j, j ≠ i → d.stream j = c.stream j := by
  dsimp only
  rw [Chip.cut_modStream_eq]
  exact ⟨c.setStream_stream_same i _, rfl, rfl, rfl, rfl, rfl, rfl, fun j hj => c.setStream_stream_ne _ hj⟩

/-! ### A fault -/

/-- The entry of a stream that entered FAULTED (R20, R113), its waiting lists empty. -/
def StreamEntry.faultedAt (st : StreamEntry) (cause : FaultCause) (brk : Option Nat) : StreamEntry :=
  { ((st.cutAt brk).enterFaulted cause).markStopped with waitA := [], waitF := [] }

/-- The part with stream `i` FAULTED, before its requests complete. -/
def Chip.faulting (c : Chip) (i : StreamId) (cause : FaultCause) (brk : Option Nat) : Chip :=
  (((c.cut i brk).modStream i fun x => x.enterFaulted cause).stopActive i).modStream i fun st =>
    { st with waitA := [], waitF := [] }

/-- The part with stream `i` FAULTED and its requests completed. -/
def Chip.faultAnswered (c : Chip) (i : StreamId) (cause : FaultCause) (brk : Option Nat) : Chip :=
  ((c.faulting i cause brk).refuseAll (c.stream i).waitingSlots .streamFaulted).refusePending (c.stream i).pendingEnd

section
variable (c : Chip) (i : StreamId) (cause : FaultCause) (brk : Option Nat)

theorem Chip.faulting_frame :
    let x := c.faulting i cause brk
    x.stream i = (c.stream i).faultedAt cause brk ∧ x.mem = (c.cut i brk).mem ∧
      x.pool = { c.pool with lost := c.pool.lost + ((c.stream i).chain.length - ((c.stream i).keptBy brk).length) } ∧
      x.rings = c.rings ∧ x.link = c.link ∧ x.ctl = c.ctl ∧
      (∀ a, (c.stream i).active = some a → x.engine = (c.stopCopy a.slot).engine) ∧
      ((c.stream i).active = none → x.engine = c.engine) ∧ ∀ j, j ≠ i → x.stream j = c.stream j := by
  obtain ⟨hentry, hmem, hpool, hengine, hrings, hlink, hctl, hothers⟩ := c.cut_modStream_frame i brk fun x => x.enterFaulted cause
  set d := (c.cut i brk).modStream i fun x => x.enterFaulted cause with hd
  obtain ⟨hentry', hmem', hpool', hrings', hlink', hctl', hothers'⟩ := d.stopActive_frame i
  have hactive : (d.stream i).active = (c.stream i).active := by
    rw [hentry]
    rfl
  obtain ⟨hsome, hnone⟩ := Chip.stopActive_engine hengine hactive
  refine ⟨?_, hmem'.trans hmem, hpool'.trans hpool, hrings'.trans hrings, hlink'.trans hlink, hctl'.trans hctl, hsome, hnone,
    fun j hj => ?_⟩
  · rw [Chip.faulting, Chip.modStream_stream_same, ← hd, hentry', hentry]
    rfl
  · exact (Chip.modStream_stream_ne _ _ hj).trans ((hothers' j hj).trans (hothers j hj))

theorem Chip.faultStream_eq :
    c.faultStream i cause brk = ((c.faultAnswered i cause brk).attempt i).startArbiterIf ((c.stream i).unmet != 0) := by
  have hentry := (Chip.stopActive_frame ((c.cut i brk).modStream i fun x => x.enterFaulted cause) i).1
  rw [(c.cut_modStream_frame i brk fun x => x.enterFaulted cause).1] at hentry
  have hwaiting := Chip.refuseWaiting_of_stream hentry .streamFaulted
  exact congrArg (fun d : Chip => ((d.refusePending (c.stream i).pendingEnd).attempt i).startArbiterIf ((c.stream i).unmet != 0))
    hwaiting

theorem Chip.refusePending_rings (d : Option Nat) : OnlyRings c (c.refusePending d) := by
  cases d with
  | none => exact .refl c
  | some id => exact c.answer_rings id _

theorem Chip.faultAnswered_rings : OnlyRings (c.faulting i cause brk) (c.faultAnswered i cause brk) :=
  (Chip.refuseAll_rings _ _ _).trans (Chip.refusePending_rings _ _)

end

/-- An attempt with FAULT alone pending posts it and clears it, or leaves the entry as it is. -/
theorem Chip.attempt_faultOnly {c : Chip} {i : StreamId} {f : FaultCause} (hf : (c.stream i).faultLatch = some f)
    (ho : (c.stream i).occLatch = none) (hr : (c.stream i).readyLatch = false) :
    (c.attempt i).stream i = c.stream i ∨
      (c.stream i).noticeRing ≠ none ∧ c.isActive = true ∧ (c.attempt i).stream i = { c.stream i with faultLatch := none } := by
  cases hn : (c.stream i).noticeRing with
  | none => exact .inl (by rw [Chip.attempt_unbound hn])
  | some n =>
    cases hc : c.canPost n with
    | false => exact .inl (by rw [Chip.attempt_full hn hc])
    | true =>
      have hactive : c.isActive = true := ((Bool.and_eq_true_iff.1 (Bool.and_eq_true_iff.1 hc).1).1)
      exact .inr ⟨nofun, hactive, by rw [Chip.attempt_fault hn hc hf ho hr, Chip.setStream_stream_same]⟩

/-- The entry of a stream that faulted: the latch of its fault posted or pending (R113, R114). -/
theorem Chip.faultStream_entry (c : Chip) (i : StreamId) (cause : FaultCause) (brk : Option Nat) :
    (c.faultStream i cause brk).stream i = (c.stream i).faultedAt cause brk ∨
      (c.stream i).noticeRing ≠ none ∧ c.isActive = true ∧
        (c.faultStream i cause brk).stream i = { (c.stream i).faultedAt cause brk with faultLatch := none } := by
  obtain ⟨hentry, -, -, -, -, hctl, -⟩ := c.faulting_frame i cause brk
  have hrings := c.faultAnswered_rings i cause brk
  have hstream : (c.faultAnswered i cause brk).stream i = (c.stream i).faultedAt cause brk := (hrings.stream i).trans hentry
  have hactive : (c.faultAnswered i cause brk).isActive = c.isActive := by
    rw [Chip.isActive, Chip.isActive, hrings.ctl, hctl]
  rw [Chip.faultStream_eq, Chip.startArbiterIf_stream]
  have hattempt := Chip.attempt_faultOnly (c := c.faultAnswered i cause brk) (i := i) (f := cause) (by rw [hstream]; rfl)
    (by rw [hstream]; rfl) (by rw [hstream]; rfl)
  rw [hstream, hactive] at hattempt
  exact hattempt

theorem Chip.faultStream_frame (c : Chip) (i : StreamId) (cause : FaultCause) (brk : Option Nat) :
    let t := c.faultStream i cause brk
    t.mem = (c.cut i brk).mem ∧ t.pool.free = c.pool.free ∧
      t.pool.lost = c.pool.lost + ((c.stream i).chain.length - ((c.stream i).keptBy brk).length) ∧
      ∀ j, j ≠ i → t.stream j = c.stream j := by
  obtain ⟨-, hmem, hpool, -, -, -, -, -, hothers⟩ := c.faulting_frame i cause brk
  have hrings := c.faultAnswered_rings i cause brk
  have hattempt := (c.faultAnswered i cause brk).attempt_notices i
  have hpool' := hattempt.pool.trans (hrings.pool.trans hpool)
  dsimp only
  rw [Chip.faultStream_eq, Chip.startArbiterIf_mem, Chip.startArbiterIf_pool, hpool']
  refine ⟨hattempt.mem.trans (hrings.mem.trans hmem), rfl, rfl, fun j hj => ?_⟩
  rw [Chip.startArbiterIf_stream, Chip.attempt_others _ i hj, hrings.stream, hothers j hj]

/-! ### A break at page return -/

/-- Where a broken run of page return stands (R84). -/
theorem Chip.pageReturnRun_broken {c : Chip} {i : StreamId} {p : Nat} (hb : (c.pageReturnRun i).broken = some p) :
    (∃ q rest, ((c.pageReturnRun i).chip.stream i).chain = p :: q :: rest) ∧
      ((c.pageReturnRun i).chip.stream i).state = (c.stream i).state := by
  obtain ⟨-, -, hbroken, hchip⟩ := c.pageReturnRun_walked i
  have f := ((hbroken p).1 hb).1
  have hrest := f.rest.1
  have hwithin := f.within
  have hne : (c.stream i).chain.drop ((c.pageReturnRun i).returned + 1) ≠ [] := by
    rw [Ne, List.drop_eq_nil_iff]
    omega
  obtain ⟨q, rest, hcons⟩ := List.exists_cons_of_ne_nil hne
  rw [hchip p hb, Chip.startArbiterIf_stream, hrest, hcons]
  exact ⟨⟨q, rest, rfl⟩, c.headsTaken_state i _⟩

theorem Chip.pageReturn_broken {c : Chip} {i : StreamId} {p : Nat} (hb : (c.pageReturnRun i).broken = some p) :
    ((c.stream i).state = .opened ∨ (c.stream i).state = .flushing →
      c.pageReturn i = (c.pageReturnRun i).chip.faultStream i .chainLink (some p)) ∧
    ((c.stream i).state = .closing → c.pageReturn i = (c.pageReturnRun i).chip.closeBroken i (some p)) := by
  have hstate := (Chip.pageReturnRun_broken hb).2
  refine ⟨fun h => ?_, fun h => ?_⟩
  · rcases h with h | h <;> simp only [Chip.pageReturn, hb, hstate, h]
  · simp only [Chip.pageReturn, hb, hstate, h]

theorem StreamEntry.keptBy_head {st : StreamEntry} {p q : Nat} {rest : List Nat} (h : st.chain = p :: q :: rest) :
    st.keptBy (some p) = [p] ∧ (st.cutAt (some p)).tail = 4096 := by
  have hkept : st.keptBy (some p) = [p] := by
    have hmem : p ∈ st.chain := h ▸ List.mem_cons_self
    refine (if_pos hmem).trans ?_
    rw [h, List.idxOf_cons_self]
    rfl
  refine ⟨hkept, ?_⟩
  have hlen : ¬ st.chain.length - (st.keptBy (some p)).length = 0 := by
    rw [hkept, h]
    simp
  exact if_neg hlen

section
variable {c : Chip} {i : StreamId}

theorem Chip.reportMedia_faults (cause : FaultCause) (brk : Option Nat)
    (h : (c.stream i).state = .opened ∨ (c.stream i).state = .flushing) :
    c.reportMedia i cause brk = c.faultStream i cause brk := by
  rcases h with h | h <;> simp only [Chip.reportMedia, h]

theorem Chip.reportMedia_closing (cause : FaultCause) (brk : Option Nat) (h : (c.stream i).state = .closing) :
    c.reportMedia i cause brk = (c.closeBroken i brk).stopActive i := by
  simp only [Chip.reportMedia, h]

theorem Chip.reportMedia_faulted (cause : FaultCause) (brk : Option Nat) (h : (c.stream i).state = .faulted) :
    c.reportMedia i cause brk = c.cut i brk := by
  simp only [Chip.reportMedia, h]

theorem Chip.reportMedia_idle (cause : FaultCause) (brk : Option Nat)
    (h : (c.stream i).state = .closed ∨ (c.stream i).state = .held) : c.reportMedia i cause brk = c := by
  rcases h with h | h <;> simp only [Chip.reportMedia, h]

end

/-- Settles O50. -/
theorem faultDropsWaitingWork : Obligations.FaultDropsWaitingWork := by
  refine ⟨fun c i p => ⟨c.breakChain_none i p, fun hp => ?_⟩, fun c i cause brk => ?_, fun c i => ⟨fun hb => Chip.pageReturn_unbroken hb,
    fun p hb => ?_⟩, fun c id => ⟨Chip.stopCopy_queued, fun hq => ⟨fun hn => ?_, fun k t ht hs hlt => ?_⟩⟩, fun c i cause brk => ?_⟩
  · have hmem := Chip.breakChain_link hp
    have hword (a : Nat) (ha : a / 8 ≠ c.pool.usable * 512 + p) : (c.breakChain i p).mem.readByte a = c.mem.readByte a := by
      rw [hmem]
      exact c.writeLink_readByte p a none (some i) ha
    have hlink (hwf : c.mem.wf = true) : (c.breakChain i p).mem.word (c.pool.usable * 512 + p) = encodeLink none (some i) := by
      rw [hmem]
      exact c.writeLink_word p none (some i) hwf
    refine ⟨?_, hword, fun hwf => ?_, ?_⟩
    · conv_lhs => rw [Chip.breakChain_spec c i p hp]
      rw [hmem]
    · rw [hlink hwf]
      exact encodeLink_end i
    · rw [hmem]
      exact ⟨BufferMemory.writeBytes_size _ _ _, BufferMemory.writeBytes_corrected _ _ _, BufferMemory.writeBytes_damaged _ _ _⟩
  · intro st kept tail mem t
    have hkept : kept = st.keptBy brk := by cases brk <;> rfl
    have hmem : mem = (c.cut i brk).mem := by cases brk <;> rfl
    have htail : tail = (st.cutAt brk).tail := by
      simp only [tail, hkept]
      rfl
    have hcut : st.cutAt brk = { st with chain := kept, tail := tail } := by
      rw [htail, hkept]
      rfl
    clear_value kept tail mem
    subst hmem
    refine ⟨Chip.reportMedia_faults cause brk, fun h => ?_, fun h => ?_, Chip.reportMedia_idle cause brk⟩
    · have ht : t = (c.closeBroken i brk).stopActive i := Chip.reportMedia_closing cause brk h
      obtain ⟨hentry, hmem, hpool, hengine, hrings, hlink, hctl, hothers⟩ :=
        c.cut_modStream_frame i brk fun st => { st with closeMedia := true }
      obtain ⟨hentry', hmem', hpool', hrings', hlink', hctl', hothers'⟩ := (c.closeBroken i brk).stopActive_frame i
      obtain ⟨hsome, hnone⟩ := Chip.stopActive_engine (c := c) (d := c.closeBroken i brk) (i := i) hengine
        ((congrArg StreamEntry.active hentry).trans rfl)
      rw [ht]
      refine ⟨?_, hmem'.trans hmem, ?_, hsome, hnone, hrings'.trans hrings, hlink'.trans hlink, hctl'.trans hctl,
        fun j hj => (hothers' j hj).trans (hothers j hj)⟩
      · refine hentry'.trans ((congrArg StreamEntry.markStopped hentry).trans ?_)
        rw [hcut]
        rfl
      · rw [hkept]
        exact hpool'.trans hpool
    · have ht : t = c.cut i brk := Chip.reportMedia_faulted cause brk h
      have heq := c.cut_eq i brk
      rw [ht, hkept]
      have hentry : (c.cut i brk).stream i = st.cutAt brk := by
        rw [heq]
        exact c.setStream_stream_same i _
      refine ⟨?_, rfl, by rw [heq], by rw [heq]; rfl, by rw [heq]; rfl, by rw [heq]; rfl, by rw [heq]; rfl, fun j hj => ?_⟩
      · rw [hentry, hcut, hkept]
      · rw [heq]
        exact c.setStream_stream_ne _ hj
  · obtain ⟨⟨q, rest, hchain⟩, hstate⟩ := Chip.pageReturnRun_broken hb
    obtain ⟨hfaults, hcloses⟩ := Chip.pageReturn_broken hb
    obtain ⟨hkept, htail⟩ := StreamEntry.keptBy_head hchain
    refine ⟨⟨q, rest, hchain⟩, hfaults, fun h => ⟨_, hcloses h, ?_⟩⟩
    obtain ⟨hentry, hmem, hpool, hengine, hrings, hlink, hctl, -⟩ :=
      (c.pageReturnRun i).chip.cut_modStream_frame i (some p) fun st => { st with closeMedia := true }
    rw [hkept] at hpool
    refine ⟨hentry.trans ?_, hmem, hpool, hengine, hrings, hlink, hctl⟩
    rw [StreamEntry.cutAt, hkept] at htail ⊢
    rw [htail]
  · rw [Chip.stopCopy_unqueued hq, Chip.ctxOf_none hn]
  · have hstop : c.stopCopy id = (c.setCtx k ((c.ctx k).finish .stopped)).settle k := by
      rw [Chip.stopCopy_unqueued hq, Chip.ctxOf_some ht hs hlt]
    refine ⟨fun hr => ?_, fun hr => ?_⟩
    · rw [hstop, Context.finish_running _ hr]
    · rw [hstop, Context.finish_not_running _ hr, Chip.setCtx_ctx_self]
  · intro st t e kept tail mem faulted
    have hkept : kept = st.keptBy brk := by cases brk <;> rfl
    have hmem : mem = (c.cut i brk).mem := by cases brk <;> rfl
    have htail : tail = (st.cutAt brk).tail := by
      simp only [tail, hkept]
      rfl
    have hfaulted : st.faultedAt cause brk =
        { st with
          state := .faulted, reserve := 0, pendingEnd := none, readyLatch := false, occLatch := none
          faultLatch := some cause, waitA := [], waitF := [], chain := kept, tail := tail
          active := st.active.map fun a => { a with stopped := true } } := by
      rw [hkept, htail]
      rfl
    obtain ⟨hentry, -, -, hrings, hlink, hctl, hsome, hnone, -⟩ := c.faulting_frame i cause brk
    obtain ⟨htmem, hfree, hlost, hothers⟩ := c.faultStream_frame i cause brk
    have hkeeps : e = st.faultedAt cause brk ∨
        st.noticeRing ≠ none ∧ c.isActive = true ∧ e = { st.faultedAt cause brk with faultLatch := none } :=
      c.faultStream_entry i cause brk
    obtain ⟨latch, hlatch⟩ : ∃ latch, e = { st.faultedAt cause brk with faultLatch := latch } := by
      rcases hkeeps with h | ⟨-, -, h⟩
      · exact ⟨_, h⟩
      · exact ⟨_, h⟩
    have hreset : e.state = .faulted ∧ e.reserve = 0 ∧ e.waitA = [] ∧ e.waitF = [] ∧ e.pendingEnd = none ∧
        e.readyLatch = false ∧ e.occLatch = none := by
      rw [hlatch]
      exact ⟨rfl, rfl, rfl, rfl, rfl, rfl, rfl⟩
    have hpositions : e.base = st.base ∧ e.read = st.read ∧ e.frontier = st.frontier ∧ e.next = st.next ∧ e.marks = st.marks ∧
        e.admitted = st.admitted ∧ e.active = st.active.map fun a => { a with stopped := true } := by
      rw [hlatch]
      exact ⟨rfl, rfl, rfl, rfl, rfl, rfl, rfl⟩
    have hchain : e.chain = st.keptBy brk ∧ e.tail = tail := by
      rw [hlatch, htail]
      exact ⟨rfl, rfl⟩
    obtain ⟨hstate, hreserve, hwaitA, hwaitF, hpending, hready, hocc⟩ := hreset
    obtain ⟨hbase, hread, hfrontier, hnext, hmarks, hadmitted, hactive⟩ := hpositions
    refine ⟨htmem.trans hmem.symm, hchain.2, ⟨_, hrings, hlink, hctl, hsome, hnone, hentry.trans hfaulted, ?_⟩, hstate, hreserve,
      hwaitA, hwaitF, hpending, hready, hocc, ?_, fun h => ?_, hbase, hread, hfrontier, hnext, hmarks, hadmitted, hactive,
      fun h => ?_, fun p h hp => ?_, hfree, hothers⟩
    · have heq := c.faultStream_eq i cause brk
      rw [Chip.faultAnswered, Chip.refuseAll, StreamEntry.waitingSlots] at heq
      exact heq
    · rcases hkeeps with h | ⟨hbound, -, h⟩
      · exact .inl (by rw [h]; rfl)
      · exact .inr ⟨by rw [h], hbound⟩
    · rcases hkeeps with he | ⟨hbound, ha, -⟩
      · rw [he]
        rfl
      · rcases h with h | h
        · exact absurd h hbound
        · exact absurd ha (ne_true_of_eq_false h)
    · subst h
      exact ⟨hchain.1, hlost.trans (by rw [StreamEntry.keptBy, Nat.sub_self, Nat.add_zero])⟩
    · subst h
      have hcut : st.keptBy (some p) = st.chain.take (st.chain.idxOf p + 1) := if_pos hp
      exact ⟨hchain.1.trans hcut, by rw [hchain.1]; exact hlost⟩

end Sys2Proof.Machine
end

section
/-! Allocation of pages (R93 to R95): the unmet reserve and the shared free count, what the pool answers, and what it draws from the
free list. -/

namespace Sys2Proof.Machine

/-! ### Unmet reserve -/

theorem StreamEntry.unmet_holding {st : StreamEntry} (h : st.state = .opened ∨ st.state = .flushing ∨ st.state = .held) :
    st.unmet = st.reserve - st.chain.length := by
  rcases h with h | h | h <;> simp only [StreamEntry.unmet, h, StreamEntry.heldPages]

theorem StreamEntry.unmet_other {st : StreamEntry} (h : st.state = .closed ∨ st.state = .closing ∨ st.state = .faulted) :
    st.unmet = 0 := by
  rcases h with h | h | h <;> simp only [StreamEntry.unmet, h]

theorem sum_map_range_eq (n : Nat) (f : Nat → Nat) : ((List.range n).map f).sum = ∑ k ∈ Finset.range n, f k := by
  induction n with
  | zero => rfl
  | succ n ih => rw [List.range_succ, List.map_append, List.sum_append, ih, Finset.sum_range_succ]; simp

theorem Chip.sumUnmet_range (c : Chip) :
    c.sumUnmet = ((List.range 512).map fun n => (c.stream (Fin.ofNat 512 n)).unmet).sum := by
  rw [Chip.sumUnmet_eq, sum_map_range_eq, Finset.sum_range]
  exact Finset.sum_congr rfl fun i _ => congrArg (fun j => (c.stream j).unmet) (Fin.ext (Nat.mod_eq_of_lt i.isLt).symm)

/-! ### What the pool answers -/

/-- The part after `k` pages are drawn for stream `i`: `m` is buffer DRAM after the reads of the free list, `g` the pages and the
new head. -/
def Chip.allocated (c : Chip) (i : StreamId) (k : Nat) (m : BufferMemory) (g : List Nat × Option Nat) : Chip :=
  { c.setStream i { c.stream i with chain := (c.stream i).chain ++ g.1 } with
    pool := { c.pool with
      free := c.pool.free - k, head := g.2, tail := if g.2 = none then none else c.pool.tail }
    mem := (linkPages i (Chip.linkAfter { c with mem := m } i g.1) g.1).mem }

theorem linkPages_frame (i : StreamId) (c : Chip) (ps : List Nat) :
    linkPages i c ps = { c with mem := (linkPages i c ps).mem } := by
  induction ps generalizing c with
  | nil => rfl
  | cons p rest ih =>
    cases rest with
    | nil => rfl
    | cons q more =>
      rw [linkPages, ih]
      rfl

theorem Chip.linkAfter_frame (c : Chip) (i : StreamId) (ps : List Nat) :
    c.linkAfter i ps = { c with mem := (c.linkAfter i ps).mem } := by
  unfold Chip.linkAfter
  split <;> rfl

theorem Chip.canAllocate_iff (c : Chip) (i : StreamId) (k : Nat) :
    c.canAllocate i k = true ↔
      (c.stream i).chain.length + k ≤ (c.stream i).quota ∧ k ≤ (c.stream i).unmet + c.sharedFree :=
  Bool.and_eq_true_iff.trans (and_congr decide_eq_true_iff decide_eq_true_iff)

/-- New pages linked after the old last page: buffer DRAM alone differs. -/
theorem linkPages_linkAfter_frame (i : StreamId) (c : Chip) (ps : List Nat) :
    linkPages i (c.linkAfter i ps) ps = { c with mem := (linkPages i (c.linkAfter i ps) ps).mem } :=
  (linkPages_frame i _ ps).trans
    (congrArg (fun x : Chip => { x with mem := (linkPages i (c.linkAfter i ps) ps).mem }) (c.linkAfter_frame i ps))

section
variable {c : Chip} {i : StreamId} {k : Nat}

theorem Chip.allocate_refuses (hk : 1 ≤ k) (h : c.canAllocate i k = false) : c.allocate i k = .refused :=
  (if_neg (Nat.one_le_iff_ne_zero.1 hk)).trans (if_neg (ne_true_of_eq_false h))

theorem Chip.allocate_draws (hk : 1 ≤ k) (h : c.canAllocate i k = true) :
    (∀ g, (takeFree c.pool.usable k c.pool.head c.mem).2 = some g →
      c.allocate i k = .pages (c.allocated i k (takeFree c.pool.usable k c.pool.head c.mem).1 g) g.1) ∧
    ((takeFree c.pool.usable k c.pool.head c.mem).2 = none →
      c.allocate i k = .linkError { c with mem := (takeFree c.pool.usable k c.pool.head c.mem).1 }) := by
  have hk0 : ¬ k = 0 := Nat.one_le_iff_ne_zero.1 hk
  refine ⟨fun g hg => ?_, fun hg => ?_⟩
  · simp only [Chip.allocate, if_neg hk0, if_pos h, hg]
    rw [linkPages_linkAfter_frame]
    obtain ⟨ps, head⟩ := g
    cases head <;> rfl
  · simp only [Chip.allocate, if_neg hk0, if_pos h, hg]

theorem Chip.canAllocate_of_drawn (hk : 1 ≤ k) (h : c.allocate i k ≠ .refused) : c.canAllocate i k = true :=
  Bool.eq_true_of_not_eq_false fun hf => h (Chip.allocate_refuses hk hf)

theorem Chip.allocate_eq_refused_iff (hk : 1 ≤ k) : c.allocate i k = .refused ↔ c.canAllocate i k = false := by
  refine ⟨fun h => Bool.eq_false_iff.2 fun hc => ?_, Chip.allocate_refuses hk⟩
  obtain ⟨hpages, herror⟩ := Chip.allocate_draws hk hc
  cases hg : (takeFree c.pool.usable k c.pool.head c.mem).2 with
  | none => cases h.symm.trans (herror hg)
  | some g => cases h.symm.trans (hpages g hg)

theorem Chip.allocate_eq_linkError {c1 : Chip} (h : c.allocate i k = .linkError c1) :
    (takeFree c.pool.usable k c.pool.head c.mem).2 = none ∧
      c1 = { c with mem := (takeFree c.pool.usable k c.pool.head c.mem).1 } := by
  have hk : 1 ≤ k := by
    refine Nat.one_le_iff_ne_zero.2 fun h0 => ?_
    cases h.symm.trans (if_pos h0)
  obtain ⟨hpages, herror⟩ := Chip.allocate_draws hk (Chip.canAllocate_of_drawn hk fun hr => by cases h.symm.trans hr)
  cases hg : (takeFree c.pool.usable k c.pool.head c.mem).2 with
  | none => exact ⟨rfl, (Allocation.linkError.inj (h.symm.trans (herror hg)))⟩
  | some g => cases h.symm.trans (hpages g hg)

theorem Chip.allocate_eq_pages {c1 : Chip} {ps : List Nat} (hk : 1 ≤ k) (h : c.allocate i k = .pages c1 ps) :
    ∃ head, (takeFree c.pool.usable k c.pool.head c.mem).2 = some (ps, head) ∧
      c1 = c.allocated i k (takeFree c.pool.usable k c.pool.head c.mem).1 (ps, head) := by
  obtain ⟨hpages, herror⟩ := Chip.allocate_draws hk (Chip.canAllocate_of_drawn hk fun hr => by cases h.symm.trans hr)
  cases hg : (takeFree c.pool.usable k c.pool.head c.mem).2 with
  | none => cases h.symm.trans (herror hg)
  | some g =>
    obtain ⟨hc, hps⟩ := Allocation.pages.inj (h.symm.trans (hpages g hg))
    exact ⟨g.2, by rw [hps], by rw [hc, hps]⟩

end

/-- Settles O38. -/
theorem allocationByQuotaAndRoom : Obligations.AllocationByQuotaAndRoom := by
  refine ⟨fun st => ⟨fun h => ?_, StreamEntry.unmet_other⟩, fun c => ⟨c.sumUnmet_range, ?_⟩, fun c i k =>
    ⟨fun h => if_pos h, fun hk => ?_, fun hk hq hu hr => ?_, fun hk hq hu => ?_, fun c1 ps hk h => ?_, fun c1 h => ?_⟩⟩
  · rw [StreamEntry.unmet_holding h]
    exact ⟨Nat.sub_add_cancel, Nat.sub_eq_zero_of_le⟩
  · rw [Chip.sharedFree, c.sumUnmet_range]
  · rw [Chip.allocate_eq_refused_iff hk, ← Chip.canAllocate_iff, Bool.not_eq_true]
  · have hcan := (c.canAllocate_iff i k).2 ⟨hq, hu.trans (Nat.le_add_right _ _)⟩
    exact ne_true_of_eq_false ((Chip.allocate_eq_refused_iff hk).1 hr) hcan
  · obtain ⟨hpages, herror⟩ := Chip.allocate_draws hk ((c.canAllocate_iff i k).2 ⟨hq, hu⟩)
    refine Iff.trans ⟨fun ⟨c1, h⟩ => (Chip.allocate_eq_linkError h).1, fun h => ⟨_, herror h⟩⟩
      (takeFree_walk c.pool.usable k c.pool.head c.mem).2.1
  · obtain ⟨head, hg, rfl⟩ := Chip.allocate_eq_pages hk h
    obtain ⟨-, hbad, hwalk⟩ := takeFree_walk c.pool.usable k c.pool.head c.mem
    obtain ⟨hlength, hfirst, -⟩ := (takeFree_spec c.pool.usable k c.pool.head c.mem).2 _ hg
    obtain ⟨hhead, hplaces⟩ := hwalk _ hg
    have hgood (n : Nat) (hn : n < k) (p : Nat) (hp : (c.freeAt n).1 = some p) :
        ((c.freeAt n).2.follow c.pool.usable p none).2 ≠ .error := fun he => by
      cases hg.symm.trans (hbad.2 ⟨n, hn, .inr ⟨p, hp, he⟩⟩)
    refine ⟨fun n hn => ?_, hhead, by rw [← show head = (c.freeAt k).1 from hhead]; rfl, hlength, hfirst hk,
      congrArg StreamEntry.chain (c.setStream_stream_same i _), rfl, rfl, rfl, fun j hj => c.setStream_stream_ne _ hj, rfl, rfl, rfl⟩
    obtain ⟨p, hp, hget⟩ := hplaces n hn
    exact ⟨p, hp, hget, hgood n hn p hp⟩
  · obtain ⟨-, rfl⟩ := Chip.allocate_eq_linkError h
    obtain ⟨hmem, -⟩ := takeFree_walk c.pool.usable k c.pool.head c.mem
    refine ⟨by rw [hmem]; rfl, (takeFree_spec c.pool.usable k c.pool.head c.mem).1.readByte⟩

end Sys2Proof.Machine
end

section
/-! Admission of an append (R32, R33, R69): what an allocation writes in the page link table, and what an admission leaves of the
part. -/

namespace Sys2Proof.Machine

/-! ### Links of new pages -/

/-- Pages linked behind a chain whose last page is `last`, when there is one (R94 step 2). -/
theorem linkPages_linkAfter_spec {c : Chip} {i : StreamId} {ps : List Nat} (hm : c.memOk) (hps : ps ≠ []) :
    let l := (c.stream i).chain.getLast?.toList ++ ps
    let t := linkPages i (c.linkAfter i ps) ps
    (∀ n p : Nat, l[n]? = some p → (∀ m : Nat, l[m]? = some p → m = n) →
      t.mem.word (linkWord c.pool.usable p) = encodeLink l[n + 1]? (some i)) ∧
    ∀ a, (∀ p ∈ l, a / 8 ≠ linkWord c.pool.usable p) → t.mem.readByte a = c.mem.readByte a := by
  intro l t
  obtain ⟨first, rest, rfl⟩ := List.exists_cons_of_ne_nil hps
  cases hlast : (c.stream i).chain.getLast? with
  | none =>
    have ht : t = linkPages i c (first :: rest) := by simp only [t, Chip.linkAfter, hlast]
    obtain ⟨-, hword, -, hbyte⟩ := linkPages_spec i c (first :: rest) hm
    simp only [l, hlast, Option.toList_none, List.nil_append, ht]
    exact ⟨hword, hbyte⟩
  | some last =>
    have ht : t = linkPages i (c.writeLink last (some first) (some i)) (first :: rest) := by
      simp only [t, Chip.linkAfter, hlast]
    have hm' := c.writeLink_memOk last (some first) (some i) hm
    obtain ⟨-, hword, hother, hbyte⟩ := linkPages_spec i (c.writeLink last (some first) (some i)) (first :: rest) hm'
    simp only [l, hlast, Option.toList_some, List.singleton_append, ht]
    refine ⟨fun n p hn hu => ?_, fun a ha => ?_⟩
    · cases n with
      | zero =>
        cases hn
        have hnew : last ∉ first :: rest := fun hmem => by
          obtain ⟨m, hget⟩ := List.mem_iff_getElem?.1 hmem
          exact absurd (hu (m + 1) hget) (Nat.succ_ne_zero m)
        exact (hother last hnew).trans (c.writeLink_word last (some first) (some i) hm)
      | succ n => exact hword n p hn fun m hget => Nat.succ.inj (hu (m + 1) hget)
    · exact (hbyte a fun p hp => ha p (List.mem_cons_of_mem last hp)).trans
        (c.writeLink_readByte last a (some first) (some i) (ha last List.mem_cons_self))

/-- What an allocation of pages reads and writes in the page link table (R94). -/
theorem Chip.allocate_links {c c1 : Chip} {i : StreamId} {k : Nat} {ps : List Nat} (hm : c.memOk) (hk : 1 ≤ k)
    (h : c.allocate i k = .pages c1 ps) :
    let l := (c.stream i).chain.getLast?.toList ++ ps
    (∀ n p : Nat, l[n]? = some p → (∀ m : Nat, l[m]? = some p → m = n) →
      c1.mem.word (linkWord c.pool.usable p) = encodeLink l[n + 1]? (some i)) ∧
    (∀ a, (∀ p ∈ l, a / 8 ≠ linkWord c.pool.usable p) → c1.mem.readByte a = c.mem.readByte a) ∧
    (∀ n p q : Nat, ps[n]? = some p → ps[n + 1]? = some q → linkNext (c.mem.word (linkWord c.pool.usable p)) = q) ∧
    (∀ p, ps.getLast? = some p → c1.pool.head =
      if linkNext (c.mem.word (linkWord c.pool.usable p)) = linkNone then none
      else some (linkNext (c.mem.word (linkWord c.pool.usable p)))) ∧
    c1.pool.tail = if c1.pool.head = none then none else c.pool.tail := by
  obtain ⟨head, hg, rfl⟩ := Chip.allocate_eq_pages hk h
  obtain ⟨hdata, hdrawn⟩ := takeFree_spec c.pool.usable k c.pool.head c.mem
  obtain ⟨hlength, -, -, hnext, hhead⟩ := hdrawn _ hg
  have hps : ps ≠ [] := fun h0 => by
    rw [h0] at hlength
    exact absurd hlength (Nat.ne_of_lt hk)
  have hm' : Chip.memOk { c with mem := (takeFree c.pool.usable k c.pool.head c.mem).1 } := takeFree_wf _ _ _ _ hm
  obtain ⟨hword, hbyte⟩ := linkPages_linkAfter_spec (i := i) hm' hps
  exact ⟨hword, fun a ha => (hbyte a ha).trans (hdata.readByte a), hnext, hhead, rfl⟩

/-! ### What an allocation leaves -/

theorem linkPages_below (i : StreamId) (c : Chip) (ps : List Nat) {a : Nat} (ha : a / 8 < c.pool.usable * 512) :
    (linkPages i c ps).mem.readByte a = c.mem.readByte a := by
  have hlink (d : Chip) (p : Nat) (next : Option Nat) (hd : a / 8 < d.pool.usable * 512) :
      (d.writeLink p next (some i)).mem.readByte a = d.mem.readByte a :=
    d.writeLink_readByte p a next (some i) (Nat.ne_of_lt (Nat.lt_add_right p hd))
  induction ps generalizing c with
  | nil => rfl
  | cons p rest ih =>
    cases rest with
    | nil => exact hlink c p none ha
    | cons q more => exact (ih (c.writeLink p (some q) (some i)) ha).trans (hlink c p (some q) ha)

theorem Chip.linkAfter_below (c : Chip) (i : StreamId) (ps : List Nat) {a : Nat} (ha : a / 8 < c.pool.usable * 512) :
    (c.linkAfter i ps).mem.readByte a = c.mem.readByte a := by
  unfold Chip.linkAfter
  split
  · exact c.writeLink_readByte _ a _ _ (Nat.ne_of_lt (Nat.lt_add_right _ ha))
  · rfl

/-- What an allocation that gives pages leaves of the part, besides the chain that grows and the links (R94). -/
theorem Chip.allocate_frame {c c1 : Chip} {i : StreamId} {k : Nat} {ps : List Nat} (h : c.allocate i k = .pages c1 ps) :
    ps.length = k ∧ c1.pool.free = c.pool.free - ps.length ∧ c1.pool.lost = c.pool.lost ∧ c1.rings = c.rings ∧
      c1.engine = c.engine ∧ ∀ a, a / 8 < c.pool.usable * 512 → c1.mem.readByte a = c.mem.readByte a := by
  rcases Nat.eq_zero_or_pos k with rfl | hk
  · obtain ⟨rfl, rfl⟩ := Allocation.pages.inj ((if_pos rfl : c.allocate i 0 = .pages c []).symm.trans h)
    exact ⟨rfl, rfl, rfl, rfl, rfl, fun _ _ => rfl⟩
  · obtain ⟨head, hg, rfl⟩ := Chip.allocate_eq_pages hk h
    obtain ⟨hdata, hdrawn⟩ := takeFree_spec c.pool.usable k c.pool.head c.mem
    have hlength := (hdrawn _ hg).1
    refine ⟨hlength, congrArg (c.pool.free - ·) hlength.symm, rfl, rfl, rfl, fun a ha => ?_⟩
    set d : Chip := { c with mem := (takeFree c.pool.usable k c.pool.head c.mem).1 }
    have husable : (d.linkAfter i ps).pool.usable = c.pool.usable := by
      rw [Chip.linkAfter_frame]
    exact (linkPages_below i (d.linkAfter i ps) ps (husable ▸ ha)).trans ((d.linkAfter_below i ps ha).trans (hdata.readByte a))

/-! ### Admission -/

/-- What an admission to stream `i` leaves of the part `c` (R33): `ps` are the new pages. -/
structure AdmittedAs (c t : Chip) (i : StreamId) (ps : List Nat) (id length : Nat) (tag : Word) (src : Source) : Prop where
  occupancy : ∃ x : Chip, t = (if ps = [] then x else x.evalOccupancy i) ∧ x.ctl = c.ctl ∧
    x.stream i = (c.stream i).afterAdmission ps length id
  entry : (t.stream i).clearLatches =
    { ((c.stream i).afterAdmission ps length id).clearLatches with occupancy := (t.stream i).occupancy }
  count : ps.length = (c.stream i).need (footprint length)
  others : ∀ j, j ≠ i → t.stream j = c.stream j
  ctl : t.ctl = c.ctl
  free : t.pool.free = c.pool.free - ps.length
  lost : t.pool.lost = c.pool.lost
  queue : t.engine.queue = c.engine.queue ++
    [{ slot := id, work := .appendCopy length src ((c.stream i).rangeOf ps).1 ((c.stream i).rangeOf ps).2 }]
  table : t.rings.table = (c.setPhase id .admitted).rings.table
  header : c.memOk → 1 ≤ length → length ≤ 32768 → (c.stream i).next < 2 ^ 48 →
    (t.mem.readHeader i (c.stream i).next (((c.stream i).rangeOf ps).1.head?.getD 0) ((c.stream i).rangeOf ps).2).2 =
      some { kind := .normal, length := length, tag := tag }
  byte : ∀ a, a / 8 < c.pool.usable * 512 →
    a / 8 ≠ (((c.stream i).rangeOf ps).1.head?.getD 0) * 512 + ((c.stream i).rangeOf ps).2 / 8 →
    a / 8 ≠ (((c.stream i).rangeOf ps).1.head?.getD 0) * 512 + ((c.stream i).rangeOf ps).2 / 8 + 1 →
    t.mem.readByte a = c.mem.readByte a

theorem BufferMemory.writeHeader_readByte (m : BufferMemory) (page offset seq length : Nat) (tag : Word) (i : StreamId) {a : Nat}
    (h0 : a / 8 ≠ page * 512 + offset / 8) (h1 : a / 8 ≠ page * 512 + offset / 8 + 1) :
    (m.writeHeader page offset seq length tag i).readByte a = m.readByte a :=
  (BufferMemory.readByte_writeWord_ne _ _ a _ h1).trans (m.readByte_writeWord_ne _ a _ h0)

theorem Chip.admitAppend_admits {c c1 : Chip} {i : StreamId} {ps : List Nat} {length : Nat}
    (h : c.allocate i ((c.stream i).need (footprint length)) = .pages c1 ps) (id : Nat) (tag : Word) (src : Source) :
    AdmittedAs c (c1.admitAppend i (c.stream i) ps id length tag src) i ps id length tag src := by
  obtain ⟨hkeeps, -⟩ := c.allocate_pages i _ c1 ps h
  obtain ⟨hcount, hfree, hlost, hrings, hengine, hbyte⟩ := Chip.allocate_frame h
  obtain ⟨x, ht, hentry, hothers, hctl, hpool, htable, hmem, hqueue⟩ := c1.admitAppend_spec i (c.stream i) ps id length tag src
  have heval : (c1.admitAppend i (c.stream i) ps id length tag src).mem = x.mem ∧
      (c1.admitAppend i (c.stream i) ps id length tag src).pool = x.pool ∧
      (c1.admitAppend i (c.stream i) ps id length tag src).ctl = x.ctl ∧
      (c1.admitAppend i (c.stream i) ps id length tag src).engine = x.engine ∧
      (c1.admitAppend i (c.stream i) ps id length tag src).rings.table = x.rings.table ∧
      (∀ j, j ≠ i → (c1.admitAppend i (c.stream i) ps id length tag src).stream j = x.stream j) ∧
      ((c1.admitAppend i (c.stream i) ps id length tag src).stream i).clearLatches =
        { (x.stream i).clearLatches with
          occupancy := ((c1.admitAppend i (c.stream i) ps id length tag src).stream i).occupancy } := by
    rw [ht]
    split
    · exact ⟨rfl, rfl, rfl, rfl, rfl, fun _ _ => rfl, rfl⟩
    · obtain ⟨hm, hp, -⟩ := x.evalOccupancy_spec i
      obtain ⟨hs, he, hr⟩ := x.evalOccupancy_entry i
      exact ⟨hm, hp, (x.evalOccupancy_keeps i).ctl, he, hr, (x.evalOccupancy_keeps i).others, hs⟩
  obtain ⟨hmem', hpool', hctl', hengine', htable', hothers', hentry'⟩ := heval
  refine ⟨⟨x, ht, hctl.trans hkeeps.ctl, hentry⟩, ?_, hcount, fun j hj => ?_, hctl'.trans (hctl.trans hkeeps.ctl), ?_, ?_, ?_, ?_,
    fun hm h1 h2 hn => ?_, fun a ha h0 h1 => ?_⟩
  · rw [hentry', hentry]
  · exact (hothers' j hj).trans ((hothers j hj).trans (hkeeps.others j hj))
  · rw [hpool', hpool, hfree]
  · rw [hpool', hpool, hlost]
  · rw [hengine', hqueue, hengine]
  · rw [htable', htable]
    simp only [Chip.setPhase, Chip.modSlot, hrings]
  · rw [hmem', hmem]
    exact c1.mem.readHeader_writeHeader i _ _ _ length tag (hkeeps.mem hm) hn h1 h2
  · rw [hmem', hmem, BufferMemory.writeHeader_readByte _ _ _ _ _ _ _ h0 h1]
    exact hbyte a ha

theorem AdmittedAs.slot {c t : Chip} {i : StreamId} {ps : List Nat} {id length : Nat} {tag : Word} {src : Source}
    (h : AdmittedAs c t i ps id length tag src) {sl : Slot} (hsl : c.slot? id = some sl) :
    t.slot? id = some { sl with phase := .admitted } := by
  have hid : sl.id = id := beq_iff_eq.1 (List.find?_some hsl :)
  have hslot : t.slot? id = (c.setPhase id .admitted).slot? id := by
    rw [Chip.slot?, h.table]
    rfl
  rw [hslot, Chip.slot?_setPhase .admitted hsl, if_pos hid]

end Sys2Proof.Machine
end

section
/-! APPEND admitted at arrival, and the starts and visits of the grant arbiter (R33, R36, R98 to R101). -/

namespace Sys2Proof.Machine

/-! ### The entry after an admission -/

namespace AdmittedAs
variable {c t : Chip} {i : StreamId} {ps : List Nat} {id length : Nat} {tag : Word} {src : Source}

theorem placed (h : AdmittedAs c t i ps id length tag src) :
    (t.stream i).next = (c.stream i).next + 1 ∧ (t.stream i).chain = (c.stream i).chain ++ ps ∧
      (t.stream i).tail = (c.stream i).tailAfter (footprint length) ∧
      (t.stream i).admitted = (c.stream i).admitted ++
        [{ seq := (c.stream i).next, page := ((c.stream i).rangeOf ps).1.head?.getD 0, offset := ((c.stream i).rangeOf ps).2,
           footprint := footprint length, pages := ((c.stream i).rangeOf ps).1, complete := false, failed := none, slot := id }] := by
  have hentry := h.entry
  simp only [StreamEntry.clearLatches, StreamEntry.afterAdmission, StreamEntry.mk.injEq] at hentry
  tauto

theorem kept (h : AdmittedAs c t i ps id length tag src) :
    (t.stream i).base = (c.stream i).base ∧ (t.stream i).read = (c.stream i).read ∧
      (t.stream i).frontier = (c.stream i).frontier ∧ (t.stream i).state = (c.stream i).state ∧
      (t.stream i).waitA = (c.stream i).waitA ∧ (t.stream i).waitF = (c.stream i).waitF ∧
      (t.stream i).reserve = (c.stream i).reserve ∧ (t.stream i).quota = (c.stream i).quota := by
  have hentry := h.entry
  simp only [StreamEntry.clearLatches, StreamEntry.afterAdmission, StreamEntry.mk.injEq] at hentry
  tauto

theorem relocated (h : AdmittedAs c t i ps id length tag src) :
    (t.stream i).baseLoc = relocate ps (c.stream i).baseLoc ∧ (t.stream i).readLoc = relocate ps (c.stream i).readLoc ∧
      (t.stream i).marks = (c.stream i).marks.map (fun m => { m with loc := relocate ps m.loc }) ∧
      (t.stream i).active = (c.stream i).active.map fun a => { a with endLoc := relocate ps a.endLoc } := by
  have hentry := h.entry
  simp only [StreamEntry.clearLatches, StreamEntry.afterAdmission, StreamEntry.mk.injEq] at hentry
  tauto

end AdmittedAs

theorem Chip.upset_sameData (c : Chip) (u : Upsets) : SameData c.mem (c.upset u).mem := by
  have hall (m : BufferMemory) : SameData m (u.foldl BufferMemory.upset m) := by
    induction u generalizing m with
    | nil => exact .refl m
    | cons e rest ih => exact (SameData.mk rfl rfl : SameData m (m.upset e)).trans (ih _)
  exact hall c.mem

theorem Chip.upset_memOk {c : Chip} (u : Upsets) (h : c.memOk) : (c.upset u).memOk := BufferMemory.upsets_wf u c.mem h

theorem Chip.tryAdmit_pages {c c1 : Chip} {i : StreamId} {ps : List Nat} {id length : Nat} {tag : Word} {src : Source}
    (h : c.allocate i ((c.stream i).need (footprint length)) = .pages c1 ps) :
    c.tryAdmit i id length tag src = .done (c1.admitAppend i (c.stream i) ps id length tag src) := by
  simp only [Chip.tryAdmit, h]

/-- Settles O36. -/
theorem appendAdmissionGivesSequenceAndPages : Obligations.AppendAdmissionGivesSequenceAndPages := by
  refine ⟨fun c c1 i k ps hm hk h => ?_, fun s u id q i length tag src c1 ps hs hb ho hm h1 h2 hsrc hq hn hw ha h => ?_⟩
  · intro entry link l
    have hlink (next : Option Nat) (owner : Option StreamId) : encodeLink next owner = link next owner := by
      cases next <;> cases owner <;> rfl
    clear_value link
    obtain ⟨hword, hbyte, hnext, hhead, htail⟩ := Chip.allocate_links hm hk h
    exact ⟨fun n p hp hu => (hword n p hp hu).trans (hlink _ _), hbyte, hnext, hhead, htail⟩
  · have hexec := exec_streamRequest_passes hs (g := .io) (by rw [hb]; rfl) (stateCheck_io_of_opened ho) u
    rw [Request.actOn, hb] at hexec
    change exec (.append u) s = .next (s.withChip ((s.taking u id).append i id length q.wait tag src)) at hexec
    have hstream : (s.taking u id).stream i = s.toChip.stream i := s.taking_stream u id i
    rw [Chip.append_passes (c := s.taking u id) ⟨h1, h2⟩ ((appendSourceOk_iff length src).1 hsrc) (by rwa [hstream])
        (by rw [hstream]; exact Nat.ne_of_lt hn),
      Chip.appendRoom_admits (c := s.taking u id) (by rwa [hstream]) (by rwa [hstream]),
      Chip.tryAdmit_pages (c := s.taking u id) (by rwa [hstream])] at hexec
    have hadmits := Chip.admitAppend_admits (c := s.taking u id) (i := i) (by rwa [hstream]) id tag src
    rw [hstream] at hexec hadmits
    intro range page moved
    have hmoved : moved = relocate ps := by
      funext l
      cases ps <;> cases l <;> rfl
    clear_value moved
    subst hmoved
    obtain ⟨x, hx, hctl, hentry⟩ := hadmits.occupancy
    obtain ⟨⟨-, sl, hsl, hreq⟩, -⟩ := Chip.current_eq_some.1 hs.serving.current
    have hslot := hadmits.slot hsl
    have hmem : (s.taking u id).memOk := Chip.upset_memOk u hm
    have hheader := hadmits.header hmem h1 h2 (Nat.lt_of_lt_of_le hn (Nat.sub_le _ _))
    have hbyte (a : Nat) := hadmits.byte a
    have hplaced := hadmits.placed
    have hkept := hadmits.kept
    have hrelocated := hadmits.relocated
    rw [hstream] at hheader hentry hplaced hkept hrelocated
    simp only [hstream] at hbyte
    obtain ⟨hnext, hchain, htail, hadmitted⟩ := hplaced
    obtain ⟨hbase, hread, hfrontier, hstate, hwaitA, hwaitF, hreserve, hquota⟩ := hkept
    obtain ⟨hbaseLoc, hreadLoc, hmarks, hactive⟩ := hrelocated
    have hcount := hadmits.count
    have hqueue := hadmits.queue
    rw [hstream] at hcount hqueue
    refine ⟨_, _, hexec, rfl, hnext, hchain, hcount, htail, hadmitted, hbase, hread, hfrontier, hstate.trans ho, hbaseLoc, hreadLoc,
      hmarks, hactive, hwaitA.trans hw, hwaitF, hreserve, hquota,
      ⟨x, congrArg s.withChip hx, hctl, by rw [hentry]; rfl, by rw [hentry]; rfl, by rw [hentry]; rfl, by rw [hentry]; rfl,
        by rw [hentry]; rfl⟩, hadmits.others, hadmits.ctl, hadmits.free, hadmits.lost, hqueue, ⟨_, hslot, rfl, hreq⟩, hheader,
      fun a hlt h0 h1 => (hbyte a hlt h0 h1).trans ((s.toChip.upset_sameData u).readByte a)⟩

/-! ### The grant arbiter -/

section
variable {c : Chip} {r : ArbiterRun} {i : StreamId}

theorem Chip.visit_passes_over (h : (c.stream i).state ≠ .opened ∨ (c.stream i).waitA = []) : c.visit r i = c.visitMissed r i := by
  unfold Chip.visit
  dsimp only
  split
  · rfl
  · rename_i w rest hw
    refine if_neg fun ho => h.elim (· ho) fun hn => ?_
    cases hn.symm.trans hw

/-- The visit of an OPEN stream with a waiting append, by its next checks (R36, R100). -/
theorem Chip.visit_head {w : WaitingAppend} {rest : List WaitingAppend} (ho : (c.stream i).state = .opened)
    (hw : (c.stream i).waitA = w :: rest) :
    c.visit r i =
      if (c.stream i).next = 2 ^ 48 - 1 then
        ((c.setStream i { c.stream i with waitA := [] }).refuseAll ((c.stream i).waitA.map WaitingAppend.slot)
          .seqLimit).visitMissed r i
      else if 8 ≤ (c.stream i).admitted.length then c.visitMissed r i
      else (c.slotRequest w.slot).elim (c.visitMissed r i) (c.visitHead r i w) := by
  unfold Chip.visit
  dsimp only
  split
  · rename_i h
    cases h.symm.trans hw
  · rename_i w' rest' h
    obtain ⟨rfl, -⟩ := List.cons.inj (h.symm.trans hw)
    refine (if_pos ho).trans ?_
    cases c.slotRequest w'.slot <;> rfl

theorem Chip.visitHead_append {w : WaitingAppend} {q : Request} {length : Nat} {tag : Word} {src : Source}
    (hb : q.body = .append length tag src) :
    (c.tryAdmit i w.slot length tag src = .refused → c.visitHead r i w q = c.visitMissed r i) ∧
    (∀ c1, c.tryAdmit i w.slot length tag src = .halted c1 → c.visitHead r i w q = c1) ∧
    ∀ c1, c.tryAdmit i w.slot length tag src = .done c1 → c.visitHead r i w q = (c1.dropAppend i w.slot).visitServed i := by
  refine ⟨fun h => ?_, fun c1 h => ?_, fun c1 h => ?_⟩ <;> simp only [Chip.visitHead, hb, h]

theorem Chip.arbiterVisit_visits (ha : c.isActive = true) (hr : c.pool.run = some r) : c.arbiterVisit = c.visit r r.cursor := by
  simp only [Chip.arbiterVisit, ha, if_true, hr]

theorem Chip.slotRequest_eq_some {id : Nat} {q : Request} (h : c.slotRequest id = some q) :
    ∃ sl, c.slot? id = some sl ∧ sl.request = some q := by
  unfold Chip.slotRequest at h
  split at h
  · cases h
  · rename_i sl hsl
    exact ⟨sl, hsl, h⟩

end

theorem exec_grantArbiterVisit {s : State} (u : Upsets) {r : ArbiterRun} (ha : s.ctl.state = .active) (hr : s.pool.run = some r) :
    exec (.grantArbiterVisit u) s = .next (s.withChip ((s.toChip.upset u).visit r r.cursor)) := by
  rw [← Chip.arbiterVisit_visits (c := s.toChip.upset u) (s.toChip.isActive_iff.2 ha) hr]
  rfl

theorem exec_grantArbiterStart {s : State} (ha : s.ctl.state = .active) (h : s.pool.starts ≠ 0) :
    exec .grantArbiterStart s = .next (s.withChip { s.toChip with pool := s.pool.startRun }) :=
  congrArg (fun c => Host.Outcome.next (s.withChip c)) (if_pos ⟨s.toChip.isActive_iff.2 ha, h⟩)

/-- Settles O53. -/
theorem grantArbiterStartsAndVisits : Obligations.GrantArbiterStartsAndVisits := by
  refine ⟨fun s ha h => ⟨fun hr => ?_, fun r hr => ?_⟩, fun s u r ha hr => ?_⟩
  · rw [exec_grantArbiterStart ha h, Pool.startRun, hr]
    rfl
  · rw [exec_grantArbiterStart ha h, Pool.startRun, hr]
  · intro i st c after missed
    have hexec : exec (.grantArbiterVisit u) s = .next (s.withChip (c.visit r i)) := exec_grantArbiterVisit u ha hr
    have hst : c.stream i = st := rfl
    have hmissed (d : Chip) : d.visitMissed r i = missed d := rfl
    refine ⟨fun h => ?_, fun ho hw hn => ?_, fun ho hw hn hfull => ?_, fun w rest q length tag src ho hw hn hroom hq hb => ?_⟩
    · rw [hexec, Chip.visit_passes_over (c := c) h, hmissed]
    · obtain ⟨w, rest, hcons⟩ := List.exists_cons_of_ne_nil hw
      rw [hexec, Chip.visit_head (c := c) ho hcons, hst, if_pos hn, hmissed]
    · obtain ⟨w, rest, hcons⟩ := List.exists_cons_of_ne_nil hw
      rw [hexec, Chip.visit_head (c := c) ho hcons, hst, if_neg hn, if_pos hfull, hmissed]
    · have hslot : c.slotRequest w.slot = some q := hq
      have hvisit : exec (.grantArbiterVisit u) s = .next (s.withChip (c.visitHead r i w q)) := by
        rw [hexec, Chip.visit_head (c := c) ho hw, hst, if_neg hn, if_neg (Nat.not_le.2 hroom), hslot]
        rfl
      obtain ⟨hrefused, hhalted, hdone⟩ := Chip.visitHead_append (c := c) (r := r) (i := i) (w := w) hb
      refine ⟨fun h => ?_, fun c1 h => ?_, fun c1 ps h => ?_⟩
      · rw [hvisit, hrefused (Chip.tryAdmit_refused (c := c) h), hmissed]
      · obtain ⟨m, rfl, -⟩ := c.allocate_linkError i _ c1 h
        rw [hhalted _ (Chip.tryAdmit_linkError (c := c) h)] at hvisit
        refine ⟨_, hvisit, ?_⟩
        rw [Chip.halt_of_active (c := { c with mem := m }) .freeList ha]
        exact ⟨rfl, rfl, rfl, rfl⟩
      · rw [hdone _ (Chip.tryAdmit_pages (c := c) h)] at hvisit
        have hadmits := Chip.admitAppend_admits (c := c) (i := i) h w.slot tag src
        set y := c1.admitAppend i (c.stream i) ps w.slot length tag src
        intro range page moved
        have hmoved : moved = relocate ps := by
          funext l
          cases ps <;> cases l <;> rfl
        clear_value moved
        subst hmoved
        obtain ⟨x, hx, hctl, hentry⟩ := hadmits.occupancy
        obtain ⟨sl, hsl, hreq⟩ := Chip.slotRequest_eq_some hslot
        have hstream : (s.withChip ((y.dropAppend i w.slot).visitServed i)).toChip.stream i =
            { y.stream i with waitA := (y.stream i).waitA.filter fun x => x.slot != w.slot } :=
          y.setStream_stream_same i _
        obtain ⟨hnext, hchain, htail, hadmitted⟩ := hadmits.placed
        obtain ⟨hbase, hread, hfrontier, hstate, hwaitA, hwaitF, hreserve, hquota⟩ := hadmits.kept
        obtain ⟨hbaseLoc, hreadLoc, hmarks, hactive⟩ := hadmits.relocated
        refine ⟨_, _, hvisit, hstream, hnext, hchain, hadmits.count, htail, congrArg (List.filter _) hwaitA, hadmitted, hbaseLoc, hreadLoc,
          hmarks, hactive, hbase, hread, hfrontier, hstate.trans ho, hwaitF, hreserve, hquota, ⟨x, ?_, hctl, by rw [hentry]; rfl,
          by rw [hentry]; exact ho, by rw [hentry]; rfl, by rw [hentry]; rfl, by rw [hentry]; rfl, by rw [hentry]; rfl⟩,
          fun j hj => ?_, hadmits.ctl, rfl, rfl, hadmits.free, hadmits.lost, hadmits.queue, ⟨_, hadmits.slot hsl, rfl, hreq⟩,
          fun hm h1 h2 h3 => hadmits.header (Chip.upset_memOk u hm) h1 h2 h3,
          fun a hlt h0 h1 => (hadmits.byte a hlt h0 h1).trans ((s.toChip.upset_sameData u).readByte a)⟩
        · rw [hx]
          rfl
        · exact (Chip.setStream_stream_ne y _ hj).trans (hadmits.others j hj)

end Sys2Proof.Machine
end

section
/-! GrantByItsSizing (O44). A sizing walk ends at the first record it does not count: at a header that is not sound, at a record the
capacity does not hold, or at a link that gives no page. What it answers names that record, so each answer of the walk says where it
ended. -/

namespace Sys2Proof.Machine

/-- The `n`-th record is sound and fits, and the `j`-th link to the place after it is the first that gives no page. -/
structure WalkPlace.BreaksAt (i : StreamId) (next first capacity : Nat) (start : WalkPlace) (n j : Nat) : Prop where
  header : ((start.after i next first n).header i (first + n)).2 ≠ none
  fits : start.total i next first (n + 1) ≤ capacity
  within : j < (start.after i next first n).hops i next (first + n)
  lost : (start.after i next first n).link i (first + n) j = none
  before : ∀ m, m < j → (start.after i next first n).link i (first + n) m ≠ none

/-- The `n`-th record is not counted: its header is not sound, it does not fit, or a link to the place after it gives no page. -/
inductive WalkPlace.Stop (i : StreamId) (next first capacity : Nat) (start : WalkPlace) (n : Nat) : Prop where
  | header (h : ((start.after i next first n).header i (first + n)).2 = none)
  | capacity (h : ((start.after i next first n).header i (first + n)).2 ≠ none)
      (tooBig : capacity < start.total i next first (n + 1))
  | link (j : Nat) (h : start.BreaksAt i next first capacity n j)

theorem WalkPlace.stop_of_not_counted {i : StreamId} {next first capacity : Nat} {start : WalkPlace} {n : Nat}
    (h : ¬ start.Counted i next first capacity n) : start.Stop i next first capacity n := by
  by_cases hh : ((start.after i next first n).header i (first + n)).2 = none
  · exact .header hh
  by_cases ht : capacity < start.total i next first (n + 1)
  · exact .capacity hh ht
  have hl : ∃ j, j < (start.after i next first n).hops i next (first + n) ∧
      (start.after i next first n).link i (first + n) j = none := by
    by_contra hl
    exact h ⟨hh, Nat.not_lt.1 ht, fun j hj hnone => hl ⟨j, hj, hnone⟩⟩
  classical
  obtain ⟨hin, hnone⟩ := Nat.find_spec hl
  exact .link (Nat.find hl)
    ⟨hh, Nat.not_lt.1 ht, hin, hnone, fun m hm hlost => Nat.find_min hl hm ⟨hm.trans hin, hlost⟩⟩

/-- Either every record of the walk is counted, or there is a first one that is not. -/
theorem WalkPlace.all_counted_or_stop (i : StreamId) (next first capacity : Nat) (start : WalkPlace) (bound : Nat) :
    (∀ m, m < bound → start.Counted i next first capacity m) ∨
      ∃ n, n < bound ∧ (∀ m, m < n → start.Counted i next first capacity m) ∧ start.Stop i next first capacity n := by
  induction bound with
  | zero => exact .inl fun m hm => absurd hm m.not_lt_zero
  | succ b ih =>
    obtain hall | ⟨n, hn, hcounted, hstop⟩ := ih
    · by_cases hb : start.Counted i next first capacity b
      · exact .inl fun m hm => (Nat.lt_succ_iff_lt_or_eq.1 hm).elim (hall m) fun h => h ▸ hb
      · exact .inr ⟨b, b.lt_succ_self, hall, stop_of_not_counted hb⟩
    · exact .inr ⟨n, hn.trans b.lt_succ_self, hcounted, hstop⟩

/-- The walk over `bound` records from `start`. -/
def WalkPlace.sizing (i : StreamId) (next first capacity bound : Nat) (start : WalkPlace) : Sizing :=
  sizeWalk i capacity next bound start.chip first start.page start.offset 0 0

/-- The part after the header of the `n`-th record was read. -/
def WalkPlace.readAt (i : StreamId) (next first : Nat) (start : WalkPlace) (n : Nat) : Chip :=
  { (start.after i next first n).chip with mem := ((start.after i next first n).header i (first + n)).1 }

section
variable {i : StreamId} {next first capacity bound : Nat} {start : WalkPlace} {n j : Nat}

theorem WalkPlace.sizing_all (h : ∀ m, m < bound → start.Counted i next first capacity m) :
    start.sizing i next first capacity bound =
      .sized (start.after i next first bound).chip bound
        (.at (start.after i next first bound).page (start.after i next first bound).offset) := by
  rw [sizing, sizeWalk_counted i capacity next first bound start bound le_rfl h, Nat.sub_self, sizeWalk]

/-- The walk that has counted `n` records stands before the next one. -/
theorem WalkPlace.sizing_at (hn : n < bound) (h : ∀ m, m < n → start.Counted i next first capacity m) :
    start.sizing i next first capacity bound =
      sizeWalk i capacity next (bound - n - 1 + 1) (start.after i next first n).chip (first + n)
        (start.after i next first n).page (start.after i next first n).offset n (start.total i next first n) := by
  rw [sizing, sizeWalk_counted i capacity next first bound start n hn.le h, Nat.sub_add_cancel (Nat.sub_pos_of_lt hn)]

theorem WalkPlace.sizing_header (hn : n < bound) (h : ∀ m, m < n → start.Counted i next first capacity m)
    (hh : ((start.after i next first n).header i (first + n)).2 = none) :
    start.sizing i next first capacity bound = .broken (start.readAt i next first n) .recordHeader none := by
  rw [sizing_at hn h]
  exact (sizeWalk_step i capacity next first _ start n).1 hh

theorem WalkPlace.sizing_capacity (hn : n < bound) (h : ∀ m, m < n → start.Counted i next first capacity m)
    (hh : ((start.after i next first n).header i (first + n)).2 ≠ none)
    (tooBig : capacity < start.total i next first (n + 1)) :
    start.sizing i next first capacity bound =
      if n = 0 then .small (start.readAt i next first n) ((start.after i next first n).size i (first + n))
      else .sized (start.readAt i next first n) n
        (.at (start.after i next first n).page (start.after i next first n).offset) := by
  rw [sizing_at hn h]
  exact (sizeWalk_step i capacity next first _ start n).2.1 hh tooBig

theorem WalkPlace.sizing_link (hn : n < bound) (h : ∀ m, m < n → start.Counted i next first capacity m)
    (hb : start.BreaksAt i next first capacity n j) :
    start.sizing i next first capacity bound =
      .broken (((start.after i next first n).hop i (first + n) j).1.followChain i
          ((start.after i next first n).hop i (first + n) j).2).1 .chainLink
        (some ((start.after i next first n).hop i (first + n) j).2) := by
  rw [sizing_at hn h]
  exact (sizeWalk_step i capacity next first _ start n).2.2.1 hb.header hb.fits j hb.within hb.lost hb.before

/-- A walk that answers a count has counted so many records, and has ended at its bound or before a record that does not fit. -/
theorem WalkPlace.of_sizing_sized {c : Chip} {loc : Loc} (h : start.sizing i next first capacity bound = .sized c n loc) :
    (∀ m, m < n → start.Counted i next first capacity m) ∧
      loc = .at (start.after i next first n).page (start.after i next first n).offset ∧ n ≤ bound ∧
      (n < bound → ((start.after i next first n).header i (first + n)).2 ≠ none ∧
        capacity < start.total i next first (n + 1)) ∧
      (1 ≤ bound → 1 ≤ n) := by
  obtain hall | ⟨k, hk, hcounted, hstop⟩ := start.all_counted_or_stop i next first capacity bound
  · rw [sizing_all hall] at h
    injection h with _ hn hloc
    subst hn
    exact ⟨hall, hloc.symm, le_rfl, fun hlt => absurd hlt (lt_irrefl _), id⟩
  · cases hstop with
    | header hh => rw [sizing_header hk hcounted hh] at h; cases h
    | link j hb => rw [sizing_link hk hcounted hb] at h; cases h
    | capacity hh tooBig =>
      rw [sizing_capacity hk hcounted hh tooBig] at h
      split at h
      · cases h
      · next hne =>
        injection h with _ hn hloc
        subst hn
        exact ⟨hcounted, hloc.symm, hk.le, fun _ => ⟨hh, tooBig⟩, fun _ => Nat.one_le_iff_ne_zero.2 hne⟩

/-- A walk that answers a footprint has met it at its first record. -/
theorem WalkPlace.of_sizing_small {c : Chip} {f : Nat} (h : start.sizing i next first capacity bound = .small c f) :
    (start.header i first).2 ≠ none ∧ f = start.size i first ∧ capacity < f := by
  obtain hall | ⟨k, hk, hcounted, hstop⟩ := start.all_counted_or_stop i next first capacity bound
  · rw [sizing_all hall] at h
    cases h
  · cases hstop with
    | header hh => rw [sizing_header hk hcounted hh] at h; cases h
    | link j hb => rw [sizing_link hk hcounted hb] at h; cases h
    | capacity hh tooBig =>
      rw [sizing_capacity hk hcounted hh tooBig] at h
      split at h
      · next hzero =>
        subst hzero
        injection h with _ hf
        rw [total_succ] at tooBig
        simp only [total, List.range_zero, List.map_nil, List.sum_nil, Nat.zero_add, hf] at tooBig
        exact ⟨hh, hf.symm, tooBig⟩
      · cases h

/-- A walk that is broken off has counted the records before, and names the header or the link it was broken off by. -/
theorem WalkPlace.of_sizing_broken {c : Chip} {cause : FaultCause} {brk : Option Nat}
    (h : start.sizing i next first capacity bound = .broken c cause brk) :
    ∃ n, n < bound ∧ (∀ m, m < n → start.Counted i next first capacity m) ∧
      (((start.after i next first n).header i (first + n)).2 = none ∧ cause = .recordHeader ∧ brk = none ∨
        ∃ j, start.BreaksAt i next first capacity n j ∧ cause = .chainLink ∧
          brk = some ((start.after i next first n).hop i (first + n) j).2) := by
  obtain hall | ⟨k, hk, hcounted, hstop⟩ := start.all_counted_or_stop i next first capacity bound
  · rw [sizing_all hall] at h
    cases h
  · refine ⟨k, hk, hcounted, ?_⟩
    cases hstop with
    | header hh =>
      rw [sizing_header hk hcounted hh] at h
      injection h with _ hcause hbrk
      exact .inl ⟨hh, hcause.symm, hbrk.symm⟩
    | link j hb =>
      rw [sizing_link hk hcounted hb] at h
      injection h with _ hcause hbrk
      exact .inr ⟨j, hb, hcause.symm, hbrk.symm⟩
    | capacity hh tooBig =>
      rw [sizing_capacity hk hcounted hh tooBig] at h
      split at h <;> cases h

end

/-! ### The grant -/

/-- The sizing walk of the head `h` of stream `i`. -/
def Chip.sizing (c : Chip) (i : StreamId) (h : WaitingFetch) : Sizing :=
  sizeWalk i h.capacity (c.stream i).next (min h.maxRecords ((c.stream i).frontier - (c.stream i).read)) c
    (c.stream i).read (c.stream i).readLoc.place.1 (c.stream i).readLoc.place.2 0 0

section
variable {c c1 : Chip} {i : StreamId} {h : WaitingFetch} {rest : List WaitingFetch} {short : Bool}

theorem OnlyReads.stream {c t : Chip} (h : OnlyReads c t) (i : StreamId) : t.stream i = c.stream i := by rw [h.same]; rfl

theorem OnlyReads.slotSegments {c t : Chip} (h : OnlyReads c t) (id : Nat) : t.slotSegments id = c.slotSegments id := by
  rw [h.same]; rfl

/-- The grant by the sizing walk. -/
theorem Chip.grant_eq (c : Chip) (i : StreamId) (h : WaitingFetch) (rest : List WaitingFetch) (short : Bool) :
    c.grant i h rest short =
      match c.sizing i h with
      | .broken c1 cause brk => (c1.faultStream i cause brk, false)
      | .small c1 f =>
        ((c1.modStream i fun st => { st with waitF := rest }).answer h.slot fun q =>
          { code := Status.bufferSmall.code, commandId := q.commandId, streamId := q.streamId,
            posA := (c.stream i).read, bytes := f }, true)
      | .sized c1 n loc =>
        ((((c1.modStream i fun st => st.granted h rest short n loc).setPhase h.slot .admitted).place
          { slot := h.slot
            work := .fetchCopy i (c.stream i).read ((c.stream i).read + n) (c.stream i).readLoc h.capacity
              (c1.slotSegments h.slot) }).evalBacklog i, false) := by
  unfold Chip.grant
  change (match c.sizing i h with | .broken _ _ _ => _ | .small _ _ => _ | .sized _ _ _ => _) = _
  cases c.sizing i h <;> rfl

theorem Chip.grant_sized {n : Nat} {loc : Loc} (hs : c.sizing i h = .sized c1 n loc) :
    c.grant i h rest short =
      ((((c1.setStream i ((c.stream i).granted h rest short n loc)).setPhase h.slot .admitted).place
        { slot := h.slot
          work := .fetchCopy i (c.stream i).read ((c.stream i).read + n) (c.stream i).readLoc h.capacity
            (c.slotSegments h.slot) }).evalBacklog i, false) := by
  have hr : OnlyReads c c1 := sizeWalk_reads _ _ _ _ _ _ _ _ _ _ _ (.inl ⟨_, _, hs⟩)
  rw [c.grant_eq, hs]
  simp only [Chip.modStream, hr.stream i, hr.slotSegments]

theorem Chip.grant_small {f : Nat} (hs : c.sizing i h = .small c1 f) :
    c.grant i h rest short =
      ((c1.setStream i { c.stream i with waitF := rest }).answer h.slot fun q =>
        { code := Status.bufferSmall.code, commandId := q.commandId, streamId := q.streamId, posA := (c.stream i).read,
          bytes := f }, true) := by
  have hr : OnlyReads c c1 := sizeWalk_reads _ _ _ _ _ _ _ _ _ _ _ (.inr (.inl ⟨_, hs⟩))
  rw [c.grant_eq, hs]
  simp only [Chip.modStream, hr.stream i]

theorem Chip.grant_broken {cause : FaultCause} {brk : Option Nat} (hs : c.sizing i h = .broken c1 cause brk) :
    c.grant i h rest short = (c1.faultStream i cause brk, false) := by
  rw [c.grant_eq, hs]

end

/-- The header a walk reads is sound by the record's words, and the footprint is the one its words give. -/
theorem WalkPlace.headerAt {i : StreamId} {seq : Nat} {x : WalkPlace} (h : (x.header i seq).2 ≠ none) :
    ∃ r, x.chip.headerAt i seq (x.page, x.offset) = some r ∧ x.size i seq = footprint r.length := by
  obtain ⟨r, hr⟩ := Option.ne_none_iff_exists'.1 h
  refine ⟨r, (BufferMemory.readHeader_spec _ i seq _ _).2 r hr, ?_⟩
  rw [WalkPlace.size, hr]
  rfl

/-- Settles O44, by the first record the sizing walk does not count. -/
theorem grantByItsSizing : Obligations.GrantByItsSizing := by
  intro c i h rest short st bound sizing link stored after sameBytes start at_ header read total counted broken
  have hreads {t : Chip} (ht : (∃ m loc, sizing = .sized t m loc) ∨ (∃ f, sizing = .small t f) ∨
      ∃ cause brk, sizing = .broken t cause brk) : t = { c with mem := t.mem } ∧ sameBytes t.mem := by
    have hr : OnlyReads c t := sizeWalk_reads _ _ _ _ _ _ _ _ _ _ _ ht
    exact ⟨hr.same, hr.data.readByte, hr.data.size⟩
  have hbreaks {n j : Nat} : broken n j ↔ start.BreaksAt i st.next st.read h.capacity n j :=
    ⟨fun ⟨hh, ht, hj, hl, hb⟩ => ⟨hh, ht, hj, hl, hb⟩, fun ⟨hh, ht, hj, hl, hb⟩ => ⟨hh, ht, hj, hl, hb⟩⟩
  have hafter : ∀ seq p f, after seq p f = c.placeAfter (decide (seq + 1 < st.next)) p.1 (p.2 + f) := by
    intro seq p f
    simp only [after, Chip.placeAfter, decide_eq_true_eq]
    rfl
  refine ⟨fun n hn hc => ⟨WalkPlace.sizing_header hn hc, WalkPlace.sizing_capacity hn hc,
    fun j hb => WalkPlace.sizing_link hn hc (hbreaks.1 hb)⟩, WalkPlace.sizing_all, ?_, ?_, ?_⟩
  · intro c1 n loc hs
    obtain ⟨hcounted, hloc, hn, hstop, hone⟩ := WalkPlace.of_sizing_sized (start := start) hs
    obtain ⟨hsame, hbytes⟩ := hreads (.inl ⟨_, _, hs⟩)
    obtain ⟨sizes, place, -, hfirst, hsteps, hend, hsum, hcount⟩ :=
      sizeWalk_spec i h.capacity st.next bound c c _ _ _ 0 0 (.refl c) c1 n loc (Nat.zero_le _) hs
    rw [Nat.sub_zero] at hend hsum hcount
    rw [Nat.zero_add] at hsum hcount
    refine ⟨hcounted, hloc, hstop, hn.trans (min_le_left _ _), hn.trans (min_le_right _ _), hsame, hbytes,
      ⟨sizes, place, hfirst, fun k f hk => ?_, hend, hsum, ?_, hone⟩, Chip.grant_sized hs⟩
    · obtain ⟨hheader, hnext⟩ := hsteps k f hk
      exact ⟨hheader, fun hlt => (hnext (by omega)).trans (hafter _ _ _).symm⟩
    · exact hcount.imp_right fun ⟨hlt, hlen, hbig, _⟩ => ⟨hlt, hlen, hbig⟩
  · intro c1 f hs
    obtain ⟨hheader, hf, hbig⟩ := WalkPlace.of_sizing_small (start := start) hs
    obtain ⟨hsame, hbytes⟩ := hreads (.inr (.inl ⟨_, hs⟩))
    obtain ⟨r, hr, hsize⟩ := start.headerAt hheader
    exact ⟨hheader, hf, hbig, hsame, hbytes, ⟨r, hr, hf.trans hsize⟩, Chip.grant_small hs⟩
  · intro c1 cause brk hs
    obtain ⟨n, hn, hcounted, hstop⟩ := WalkPlace.of_sizing_broken (start := start) hs
    obtain ⟨hsame, hbytes⟩ := hreads (.inr (.inr ⟨_, _, hs⟩))
    exact ⟨⟨n, hn, hcounted, hstop.imp_right fun ⟨j, hj, hrest⟩ => ⟨j, hbreaks.2 hj, hrest⟩⟩, hsame, hbytes,
      Chip.grant_broken hs⟩

end Sys2Proof.Machine
end

section
/-! The restart (R171): what settling one stream leaves as it was, the entry a closed stream takes, and the entry of a stream that
enters HELD (R26). No monitor is evaluated and no arbiter run starts, since the Controller is not ACTIVE. -/

namespace Sys2Proof.Machine

/-! ### What settling a stream leaves -/

/-- The Controller, the rings and the arbiter's grant pointer are as they were. -/
structure RestartFrame (c t : Chip) : Prop where
  ctl : t.ctl = c.ctl
  rings : t.rings = c.rings
  grantPtr : t.pool.grantPtr = c.pool.grantPtr

namespace RestartFrame
variable {a b c t : Chip}

theorem refl (c : Chip) : RestartFrame c c := ⟨rfl, rfl, rfl⟩

theorem trans (h : RestartFrame a b) (k : RestartFrame b c) : RestartFrame a c :=
  ⟨k.ctl.trans h.ctl, k.rings.trans h.rings, k.grantPtr.trans h.grantPtr⟩

theorem isActive (h : RestartFrame c t) : t.isActive = c.isActive := by simp only [Chip.isActive, h.ctl]

end RestartFrame

theorem OnlyChain.restartFrame {i : StreamId} {c t : Chip} (h : OnlyChain i c t) : RestartFrame c t :=
  ⟨h.ctl, h.rings, h.grantPtr⟩

theorem Chip.modStream_restartFrame (c : Chip) (i : StreamId) (f : StreamEntry → StreamEntry) :
    RestartFrame c (c.modStream i f) := ⟨rfl, rfl, rfl⟩

theorem Chip.breakChain_restartFrame (c : Chip) (i : StreamId) (p : Nat) : RestartFrame c (c.breakChain i p) := by
  unfold Chip.breakChain
  dsimp only
  split <;> exact ⟨rfl, rfl, rfl⟩

section
variable {c : Chip} {i : StreamId}

theorem Chip.startArbiterIf_inactive (h : c.isActive = false) (b : Bool) : c.startArbiterIf b = c := by
  cases b with
  | false => rfl
  | true => exact if_neg (ne_true_of_eq_false h)

theorem Chip.takeBack_onlyChain (h : c.isActive = false) (p : Nat) (rest : List Nat) :
    OnlyChain i c (c.takeBack i p rest) := by
  have hjoin := c.joinFree_onlyChain i p rest
  rw [Chip.takeBack, Chip.evalOccupancy_frozen (.inl (hjoin.restartFrame.isActive.trans h))]
  exact hjoin

theorem Chip.takeHead_onlyChain (h : c.isActive = false) : OnlyChain i c (c.takeHead i) := by
  unfold Chip.takeHead
  split
  · exact .refl i c
  · exact Chip.takeBack_onlyChain h _ _
  · rename_i p q rest _
    have hread : OnlyChain i c (c.followChain i p).1 := .of_reads (c.followChain_reads i p)
    exact hread.trans (Chip.takeBack_onlyChain (hread.restartFrame.isActive.trans h) _ _)

theorem Chip.headsTaken_onlyChain (h : c.isActive = false) (n : Nat) : OnlyChain i c (c.headsTaken i n) := by
  induction n with
  | zero => exact .refl i c
  | succ n ih =>
    rw [c.headsTaken_succ]
    exact ih.trans (Chip.takeHead_onlyChain (ih.restartFrame.isActive.trans h))

theorem returnRun_onlyChain (stops : Bool) (fuel n : Nat) (h : c.isActive = false) :
    OnlyChain i c (returnRun i stops fuel c n).chip := by
  induction fuel generalizing c n with
  | zero => exact .refl i c
  | succ fuel ih =>
    have back {d : Chip} (hd : OnlyChain i c d) (p : Nat) (rest : List Nat) :
        OnlyChain i c (returnRun i stops fuel (d.takeBack i p rest) (n + 1)).chip := by
      have hback := hd.trans (Chip.takeBack_onlyChain (hd.restartFrame.isActive.trans h) p rest)
      exact hback.trans (ih (n + 1) (hback.restartFrame.isActive.trans h))
    unfold returnRun
    split
    · exact .refl i c
    · split
      · exact .refl i c
      · split
        · exact back (.refl i c) _ _
        · dsimp only
          split
          · exact .of_reads (c.followChain_reads i _)
          · exact back (.of_reads (c.followChain_reads i _)) _ _

theorem Chip.returnAll_restartFrame (h : c.isActive = false) : RestartFrame c (c.returnAll i).1 := by
  have hrun := (returnRun_onlyChain (i := i) false (c.stream i).chain.length 0 h).restartFrame
  unfold Chip.returnAll
  dsimp only
  split
  · rw [Chip.startArbiterIf_inactive (hrun.isActive.trans h)]
    exact hrun
  · rename_i p _
    have hcut := hrun.trans (Chip.breakChain_restartFrame _ i p)
    have hlast := hcut.trans (returnRun_onlyChain (i := i) false 1
      (returnRun i false (c.stream i).chain.length c 0).returned (hcut.isActive.trans h)).restartFrame
    rw [Chip.startArbiterIf_inactive (hlast.isActive.trans h)]
    exact hlast

theorem Chip.resetClose_restartFrame (h : c.isActive = false) : RestartFrame c (c.resetClose i) := by
  have hreturn := (c.modStream_restartFrame i fun st => { st with state := .closing, reserve := 0 }).trans
    (Chip.returnAll_restartFrame (i := i) h)
  exact hreturn.trans ⟨rfl, rfl, rfl⟩

theorem Chip.heldBroken_restartFrame (h : c.isActive = false) (p : Nat) : RestartFrame c (c.heldBroken i p) := by
  have hcut := c.breakChain_restartFrame i p
  exact hcut.trans (Chip.resetClose_restartFrame (hcut.isActive.trans h))

theorem Chip.heldTruncation_restartFrame (c : Chip) (i : StreamId) : RestartFrame c (c.heldTruncation i).1 := by
  obtain h | ⟨page, offset, h⟩ := c.heldTruncation_cases i
  · rw [h]
    exact .refl c
  · rw [h]
    exact (c.truncateTail_truncates i page).chain.restartFrame.trans ⟨rfl, rfl, rfl⟩

theorem Chip.pageReturnRun_restartFrame (h : c.isActive = false) : RestartFrame c (c.pageReturnRun i).chip := by
  have hrun := (returnRun_onlyChain (i := i) true (c.stream i).chain.length 0 h).restartFrame
  have hsettle : RestartFrame c ((returnRun i true (c.stream i).chain.length c 0).chip.settleEmpty i) := by
    unfold Chip.settleEmpty
    split
    · exact hrun.trans (Chip.modStream_restartFrame _ i _)
    · exact hrun
  rw [c.pageReturnRun_chip, Chip.startArbiterIf_inactive (hsettle.isActive.trans h)]
  exact hsettle

theorem Chip.heldReturn_restartFrame (h : c.isActive = false) : RestartFrame c (c.heldReturn i) := by
  have hrun := (c.modStream_restartFrame i StreamEntry.enterHeld).trans (Chip.pageReturnRun_restartFrame (i := i) h)
  unfold Chip.heldReturn
  dsimp only
  split
  · exact hrun.trans (Chip.heldBroken_restartFrame (hrun.isActive.trans h) _)
  · exact hrun.trans (Chip.modStream_restartFrame _ i _)

theorem Chip.holdStream_restartFrame (h : c.isActive = false) : RestartFrame c (c.holdStream i) := by
  have hcut := c.heldTruncation_restartFrame i
  unfold Chip.holdStream
  split
  · dsimp only
    split
    · exact hcut.trans (Chip.heldBroken_restartFrame (hcut.isActive.trans h) _)
    · exact hcut.trans (Chip.heldReturn_restartFrame (hcut.isActive.trans h))
  · exact Chip.heldReturn_restartFrame h

theorem Chip.settleStream_restartFrame (h : c.isActive = false) : RestartFrame c (c.settleStream i) := by
  have hclose := Chip.resetClose_restartFrame (i := i) h
  have hhold := Chip.holdStream_restartFrame (i := i) h
  unfold Chip.settleStream
  dsimp only
  split
  · exact .refl c
  · split
    · exact hhold
    · exact hclose
  · split
    · exact hhold
    · exact hclose
  · split
    · exact .refl c
    · exact hclose
  · exact hclose
  · exact hclose

theorem foldl_settleStream_restartFrame (l : List StreamId) (h : c.isActive = false) :
    RestartFrame c (l.foldl Chip.settleStream c) := by
  induction l generalizing c with
  | nil => exact .refl c
  | cons i l ih =>
    have hfirst := Chip.settleStream_restartFrame (i := i) h
    exact hfirst.trans (ih (hfirst.isActive.trans h))

end

/-! ### Streams settled in ascending order -/

theorem foldl_settleStream_stream_ne {i : StreamId} (l : List StreamId) (c : Chip) (h : i ∉ l) :
    (l.foldl Chip.settleStream c).stream i = c.stream i := by
  induction l generalizing c with
  | nil => rfl
  | cons j l ih =>
    obtain ⟨hj, hl⟩ := not_or.1 (mt List.mem_cons.2 h)
    exact (ih _ hl).trans ((c.settleStream_safeOn j).others i hj)

theorem streamIds_eq : streamIds = List.finRange 512 := by
  refine List.ext_getElem (by simp [streamIds]) fun n h1 h2 => ?_
  have hn : n < 512 := by simpa [streamIds] using h1
  simp only [streamIds, List.getElem_map, List.getElem_range, List.getElem_finRange, Fin.ext_iff, Fin.ofNat]
  exact Nat.mod_eq_of_lt hn

/-- The streams before stream `i`, stream `i`, and the streams after it, none of them stream `i` again. -/
theorem streamIds_split (i : StreamId) : ∃ after, streamIds = streamIds.take i.val ++ i :: after ∧
    i ∉ streamIds.take i.val ∧ i ∉ after := by
  have hi : i.val < streamIds.length := by rw [streamIds_eq, List.length_finRange]; exact i.isLt
  have hget : streamIds[i.val] = i := by simp only [streamIds_eq, List.getElem_finRange]; rfl
  have hsplit : streamIds = streamIds.take i.val ++ i :: streamIds.drop (i.val + 1) := by
    rw [← congrArg (· :: _) hget, List.getElem_cons_drop, List.take_append_drop]
  have hnodup : streamIds.Nodup := streamIds_eq ▸ List.nodup_finRange 512
  rw [hsplit] at hnodup
  obtain ⟨-, hrest, hne⟩ := List.nodup_append.1 hnodup
  exact ⟨_, hsplit, fun h => hne i h i List.mem_cons_self rfl, (List.nodup_cons.1 hrest).1⟩

/-- The restart leaves stream `i` as its own settling does, after the streams before it. -/
theorem foldl_settleStream_stream (c : Chip) (i : StreamId) :
    (streamIds.foldl Chip.settleStream c).stream i =
      (((streamIds.take i.val).foldl Chip.settleStream c).settleStream i).stream i := by
  obtain ⟨after, hsplit, -, hafter⟩ := streamIds_split i
  conv_lhs => rw [hsplit, List.foldl_append, List.foldl_cons]
  exact foldl_settleStream_stream_ne after _ hafter

end Sys2Proof.Machine
end

section
/-! QuiesceEndMakesTheRestart (O13): the entry of each stream after the restart, and the Controller and the rings it leaves. -/

namespace Sys2Proof.Machine

/-! ### The tail truncation of a stream that enters HELD -/

/-- A list without its longest beginning that satisfies `p`. -/
theorem drop_eq_dropWhile {α : Type} {l : List α} {p : α → Bool} {k : Nat} (hk : k ≤ l.length)
    (hpass : ∀ m q, m < k → l[m]? = some q → p q = true) (hstop : ∀ q, l[k]? = some q → p q = false) :
    l.drop k = l.dropWhile p := by
  induction l generalizing k with
  | nil => rw [List.drop_nil, List.dropWhile_nil]
  | cons a l ih =>
    cases k with
    | zero => rw [List.drop_zero, List.dropWhile_cons_of_neg (ne_true_of_eq_false (hstop a rfl))]
    | succ k =>
      rw [List.drop_succ_cons, List.dropWhile_cons_of_pos (hpass 0 a k.succ_pos rfl)]
      exact ih (Nat.le_of_succ_le_succ hk) (fun m q hm hq => hpass (m + 1) q (Nat.succ_lt_succ hm) hq) hstop

theorem dropAfter_chain {i : StreamId} {last : Nat} {l : List Nat} {c t : Chip} (h : dropAfter i last l c = (t, none)) :
    (t.stream i).chain = l.foldl List.erase (c.stream i).chain := by
  induction l generalizing c with
  | nil => cases h; rfl
  | cons p rest ih =>
    have hdrop (d : Chip) (next : Option Nat) : ((d.dropPage i last p next).stream i).chain = (d.stream i).chain.erase p := by
      simp only [Chip.dropPage, Chip.writeLink_stream, Chip.joinFree_stream, Chip.modStream_stream_same]
    cases rest with
    | nil => cases h; exact hdrop c none
    | cons q more =>
      revert h
      unfold dropAfter
      dsimp only
      split
      · exact nofun
      · intro h
        exact (ih h).trans (congrArg (List.foldl List.erase · _) (hdrop (c.followChain i p).1 (some q)))

/-- A truncation without a break takes the pages after the new tail page out of the chain (R96). -/
theorem Chip.truncateTail_chain {c t : Chip} {i : StreamId} {last : Nat} (h : c.truncateTail i last = (t, none)) :
    (t.stream i).chain = (pagesAfter last (c.stream i).chain).foldl List.erase (c.stream i).chain := by
  have hfollow := (followTo_truncates i last (c.stream i).chain c).chain
  have hsame : ((followTo i last (c.stream i).chain c).1.stream i).chain = (c.stream i).chain := by
    rw [(followTo_spec i last (c.stream i).chain c).1]; rfl
  revert h
  unfold Chip.truncateTail
  dsimp only
  split
  · exact nofun
  · split
    · rename_i hlater
      intro h
      rw [← (Prod.mk.inj h).1, hlater]
      exact hsame
    · split
      · exact nofun
      · intro h
        exact (dropAfter_chain h).trans (congrArg (List.foldl List.erase · _) hsame)

theorem tailBefore_inside {page offset : Nat} (ho : offset ≠ 0) {l : List Nat} (h : page ∈ l) :
    tailBefore page offset l = some (page, offset) := by
  induction l with
  | nil => exact absurd h List.not_mem_nil
  | cons p rest ih =>
    cases rest with
    | nil =>
      obtain rfl := List.mem_singleton.1 h
      exact if_pos ⟨rfl, ho⟩
    | cons q more =>
      unfold tailBefore
      by_cases hp : p = page
      · rw [if_pos ⟨hp, ho⟩, hp]
      · rw [if_neg fun hn => hp hn.1, if_neg fun hn => ho hn.2]
        exact ih ((List.mem_cons.1 h).resolve_left (Ne.symm hp))

/-- An append that begins a page leaves the tail at the end of the page before, the first such page of the chain. -/
theorem tailBefore_boundary {page next n : Nat} {l : List Nat} (hn : l[n]? = some page) (hnext : l[n + 1]? = some next)
    (hfirst : ∀ m, m < n → l[m + 1]? ≠ some next) : tailBefore next 0 l = some (page, 4096) := by
  induction l generalizing n with
  | nil => cases hn
  | cons p rest ih =>
    cases rest with
    | nil => cases hnext
    | cons q more =>
      unfold tailBefore
      rw [if_neg fun h => h.2 rfl]
      cases n with
      | zero =>
        cases hn
        cases hnext
        exact if_pos ⟨rfl, rfl⟩
      | succ n =>
        rw [if_neg fun h => hfirst 0 n.succ_pos (congrArg some h.1)]
        exact ih hn hnext fun m hm => hfirst (m + 1) (Nat.succ_lt_succ hm)

/-- Where the last committed record ends (R26). -/
theorem StreamEntry.heldTail_eq {st : StreamEntry} {page offset : Nat}
    (h : st.admitted = [] ∧ st.chain.getLast? = some page ∧ offset = st.tail ∨
      ∃ a rest, st.admitted = a :: rest ∧
        (a.offset ≠ 0 ∧ page = a.page ∧ page ∈ st.chain ∧ offset = a.offset ∨
          a.offset = 0 ∧ offset = 4096 ∧ ∃ n, st.chain[n]? = some page ∧ st.chain[n + 1]? = some a.page ∧
            ∀ m, m < n → st.chain[m + 1]? ≠ some a.page)) : st.heldTail = some (page, offset) := by
  rcases h with ⟨ha, hlast, rfl⟩ | ⟨a, rest, ha, ⟨ho, rfl, hmem, rfl⟩ | ⟨ho, rfl, n, hn, hnext, hfirst⟩⟩
  · rw [heldTail, ha]
    exact congrArg (Option.map _) hlast
  · rw [heldTail, ha]
    exact tailBefore_inside ho hmem
  · rw [heldTail, ha]
    exact (congrArg (tailBefore a.page · st.chain) ho).trans (tailBefore_boundary hn hnext hfirst)

section
variable {c : Chip} {i : StreamId}

theorem Chip.heldTruncation_none (h : (c.stream i).frontier ≤ (c.stream i).base) : c.heldTruncation i = (c, none) :=
  if_neg (Nat.not_lt.2 h)

theorem Chip.heldTruncation_some {page offset : Nat} (h : (c.stream i).base < (c.stream i).frontier)
    (ht : (c.stream i).heldTail = some (page, offset)) :
    c.heldTruncation i =
      ((c.truncateTail i page).1.modStream i fun x => { x with tail := offset }, (c.truncateTail i page).2) := by
  unfold Chip.heldTruncation
  dsimp only
  rw [if_pos h, ht]

theorem Chip.heldTruncation_entry (c : Chip) (i : StreamId) :
    (c.heldTruncation i).1.stream i =
      { c.stream i with
        chain := ((c.heldTruncation i).1.stream i).chain
        tail := ((c.heldTruncation i).1.stream i).tail } := by
  obtain h | ⟨page, offset, h⟩ := c.heldTruncation_cases i
  · rw [h]
  · rw [h, Chip.modStream_stream_same, (c.truncateTail_truncates i page).chain.entry]

/-! ### The page return of a stream that enters HELD -/

/-- The page of the first record of a stream, when it is not at the end of its page. -/
def StreamEntry.basePage (st : StreamEntry) : Option Nat :=
  match st.baseLoc with
  | .chainStart => none
  | .at p o => if o < 4096 then some p else none

/-- The chain kept in HELD: the pages from the base page on, none when every record has been discarded (R26, R83). -/
def StreamEntry.heldChain (st : StreamEntry) (next : Nat) : List Nat :=
  if st.base = next then [] else st.chain.dropWhile fun p => st.basePage != some p

theorem StreamEntry.enterHeld_isStop (st : StreamEntry) (p : Nat) :
    st.enterHeld.isStop p = true ↔ st.base ≠ st.enterHeld.next ∧ st.basePage = some p := by
  have hbase : st.basePage = some p ↔ ∃ offset, st.baseLoc = .at p offset ∧ offset < 4096 := by
    unfold basePage
    cases st.baseLoc
    case chainStart => simp
    next q o =>
      simp only [Option.ite_none_right_eq_some, Option.some.injEq, Loc.at.injEq]
      exact ⟨fun ⟨ho, hq⟩ => ⟨o, ⟨hq, rfl⟩, ho⟩, fun ⟨_, ⟨hq, he⟩, ho⟩ => ⟨he ▸ ho, hq⟩⟩
  rw [StreamEntry.isStop_iff, hbase]
  constructor
  · rintro ⟨hne, hb | ⟨a, ha, -⟩ | ⟨-, a, rest, ha, -⟩⟩
    · exact ⟨fun he => hne ⟨he, rfl, rfl⟩, hb⟩
    · cases ha
    · cases ha
  · exact fun ⟨hne, hb⟩ => ⟨fun h => hne h.1, .inl hb⟩

/-- The chain that a page return without a break leaves to a stream that enters HELD. -/
theorem PageReturned.heldChain {r : RunEnd} (h : PageReturned (c.modStream i StreamEntry.enterHeld) i r) :
    (c.stream i).chain.drop r.returned = (c.stream i).heldChain (c.stream i).enterHeld.next := by
  have hle := h.le
  have hpassed := h.passed
  have hstop := h.stop
  simp only [Chip.modStream_stream_same] at hle hpassed hstop
  change r.returned ≤ (c.stream i).chain.length at hle
  unfold StreamEntry.heldChain
  split
  · rename_i hb
    refine List.drop_eq_nil_of_le (Nat.not_lt.1 fun hlt => ?_)
    exact ((c.stream i).enterHeld_isStop _).1 (hstop _ (List.getElem?_eq_getElem hlt)) |>.1 hb
  · rename_i hb
    refine drop_eq_dropWhile hle (fun m q hm hq => ?_) fun q hq => ?_
    · have hpass := hpassed m q hm hq
      exact bne_iff_ne.2 fun he => Bool.false_ne_true (hpass.symm.trans (((c.stream i).enterHeld_isStop q).2 ⟨hb, he⟩))
    · rw [bne_eq_false_iff_eq]
      exact (((c.stream i).enterHeld_isStop q).1 (hstop q hq)).2

/-- The entry of a stream in HELD, from what it was before: its chain is `chain`, whose last page is used up to `tail`. -/
def StreamEntry.heldEntry (st : StreamEntry) (chain : List Nat) : StreamEntry :=
  (if chain = [] then { st.enterHeld with chain := chain }.emptyChain else { st.enterHeld with chain := chain }).silent

theorem Chip.heldReturn_unbroken (ha : c.isActive = false)
    (hb : ((c.modStream i StreamEntry.enterHeld).pageReturnRun i).broken = none) :
    (c.heldReturn i).stream i = (c.stream i).heldEntry ((c.stream i).heldChain (c.stream i).enterHeld.next) := by
  have hrun := Chip.pageReturnRun_unbroken hb
  have hentry := hrun.entry
  have htaken := (Chip.headsTaken_onlyChain (c := c.modStream i StreamEntry.enterHeld) (i := i) ha
    ((c.modStream i StreamEntry.enterHeld).pageReturnRun i).returned).entry
  rw [Chip.headsTaken_chain] at htaken
  rw [Chip.modStream_stream_same] at htaken hentry
  rw [htaken, show (c.stream i).enterHeld.chain = (c.stream i).chain from rfl, hrun.heldChain] at hentry
  rw [Chip.heldReturn, hb]
  dsimp only
  rw [Chip.modStream_stream_same, hentry]
  rfl

theorem Chip.heldReturn_broken {p : Nat} (hb : ((c.modStream i StreamEntry.enterHeld).pageReturnRun i).broken = some p) :
    (c.heldReturn i).stream i = StreamEntry.closed := by
  rw [Chip.heldReturn, hb]
  exact Chip.setStream_stream_same _ i _

/-! ### The entry of a settled stream -/

theorem Chip.resetClose_stream (c : Chip) (i : StreamId) : (c.resetClose i).stream i = StreamEntry.closed :=
  Chip.setStream_stream_same _ i _

theorem Chip.settleStream_closed (h : (c.stream i).state = .closed) : c.settleStream i = c := by
  rw [Chip.settleStream, h]

theorem Chip.settleStream_held (hp : c.ctl.preserveFlag = true) (hd : (c.stream i).durable = true)
    (h : (c.stream i).state = .held) : c.settleStream i = c := by
  rw [Chip.settleStream, h, hp, hd]
  rfl

theorem Chip.settleStream_enters (hp : c.ctl.preserveFlag = true) (hd : (c.stream i).durable = true)
    (h : (c.stream i).state = .opened ∨ (c.stream i).state = .flushing) : c.settleStream i = c.holdStream i := by
  rcases h with h | h <;> · rw [Chip.settleStream, h, hp, hd]; rfl

theorem Chip.settleStream_closes (hne : (c.stream i).state ≠ .closed)
    (h : c.ctl.preserveFlag = false ∨ (c.stream i).durable = false ∨ (c.stream i).state = .closing ∨
      (c.stream i).state = .faulted) : c.settleStream i = c.resetClose i := by
  have hkeeps : (c.ctl.preserveFlag && (c.stream i).durable) = false ∨ (c.stream i).state = .closing ∨
      (c.stream i).state = .faulted := by
    rw [Bool.and_eq_false_iff]
    tauto
  unfold Chip.settleStream
  dsimp only
  rcases hkeeps with hk | hs | hs
  · rw [hk]
    cases hs : (c.stream i).state with
    | closed => exact absurd hs hne
    | _ => rfl
  · rw [hs]
  · rw [hs]

/-- The tail truncation before the page return: of an OPEN stream alone (R26). -/
def Chip.heldCut (c : Chip) (i : StreamId) : Chip × Option Nat :=
  if (c.stream i).state = .opened then c.heldTruncation i else (c, none)

theorem Chip.heldCut_entry (c : Chip) (i : StreamId) :
    (c.heldCut i).1.stream i =
      { c.stream i with chain := ((c.heldCut i).1.stream i).chain, tail := ((c.heldCut i).1.stream i).tail } := by
  unfold Chip.heldCut
  split
  · exact c.heldTruncation_entry i
  · rfl

theorem Chip.heldCut_restartFrame (c : Chip) (i : StreamId) : RestartFrame c (c.heldCut i).1 := by
  unfold Chip.heldCut
  split
  · exact c.heldTruncation_restartFrame i
  · exact .refl c

theorem Chip.holdStream_broken (h : (c.heldCut i).2 ≠ none ∨
      (((c.heldCut i).1.modStream i StreamEntry.enterHeld).pageReturnRun i).broken ≠ none) :
    (c.holdStream i).stream i = StreamEntry.closed := by
  unfold Chip.heldCut at h
  unfold Chip.holdStream
  split
  · rename_i ho
    rw [if_pos ho] at h
    dsimp only
    split
    · exact Chip.resetClose_stream _ i
    · rename_i hcut
      obtain ⟨p, hp⟩ := Option.ne_none_iff_exists'.1 (h.resolve_left fun hn => hn hcut)
      exact Chip.heldReturn_broken hp
  · rename_i ho
    rw [if_neg ho] at h
    obtain ⟨p, hp⟩ := Option.ne_none_iff_exists'.1 (h.resolve_left fun hn => hn rfl)
    exact Chip.heldReturn_broken hp

theorem Chip.holdStream_unbroken (h : (c.heldCut i).2 = none) : c.holdStream i = (c.heldCut i).1.heldReturn i := by
  unfold Chip.heldCut at h ⊢
  unfold Chip.holdStream
  split
  · rename_i ho
    rw [if_pos ho] at h
    dsimp only
    rw [h]
  · rfl

theorem StreamEntry.heldEntry_eq (st : StreamEntry) (chain : List Nat) :
    st.heldEntry chain =
      { st with
        state := .held, noticeRing := none, next := st.enterHeld.next, read := st.base, chain := chain
        tail := if chain = [] then 0 else st.tail
        baseLoc := if chain = [] then .chainStart else st.baseLoc
        readLoc := if chain = [] then .chainStart else st.baseLoc
        marks := (st.marks.filter fun m => decide (m.pos ≤ st.base)).map fun m =>
          if chain = [] then { m with loc := .chainStart } else m
        waitA := [], waitF := [], admitted := [], active := none, pendingEnd := none, readyLatch := false
        occLatch := none, faultLatch := none
        backlog := if st.readyLevel ≠ 0 ∧ st.readyLevel ≤ st.frontier - st.base then .atOrAbove else .below
        occupancy := if st.pressureLevel ≠ 0 ∧ st.pressureLevel ≤ chain.length then .pressed
          else if st.pressureLevel = 0 ∨ chain.length ≤ st.reliefLevel then .calm else st.occupancy } := by
  unfold heldEntry
  by_cases hchain : chain = []
  · simp only [if_pos hchain]
    rfl
  · simp only [if_neg hchain, List.map_id']
    rfl

end

/-! ### The Controller and the rings after the restart -/

/-- Entry into DISABLED: the Controller becomes ACTIVE at once when it is enabled and the placement is sound, with the two rings
of id 0 (R165, R171). -/
theorem Chip.enterDisabled_cases (c : Chip) :
    (c.ctl.enable && c.ctl.placementOk) = true ∧
        c.enterDisabled =
          (({ c with ctl := { c.ctl with state := .active, ringError := false } } : Chip).setReqRing 0
            (newRequestRing c.ctl.reqBase c.ctl.reqSize 0 none)).setCmpRing 0
            (newCompletionRing c.ctl.cmpBase c.ctl.cmpSize true 1 0 none) ∨
      (c.ctl.enable && c.ctl.placementOk) = false ∧
        ∃ e, c.enterDisabled = { c with ctl := { c.ctl with state := .disabled, ringError := e } } := by
  cases he : c.ctl.enable with
  | false => exact .inr ⟨rfl, c.ctl.ringError, by rw [Chip.enterDisabled, he]; rfl⟩
  | true =>
    have hcheck : c.enterDisabled = ({ c with ctl := { c.ctl with state := .disabled } } : Chip).placementCheck := by
      rw [Chip.enterDisabled, he]
      rfl
    cases hp : c.ctl.placementOk with
    | false => exact .inr ⟨rfl, true, hcheck.trans (if_neg (ne_true_of_eq_false hp))⟩
    | true => exact .inl ⟨rfl, hcheck.trans (if_pos hp)⟩

/-- The part at the end of its restart, before it enters DISABLED (R171). -/
def Chip.restarted (c : Chip) : Chip :=
  { c with ctl := { c.ctl with lastPreserved := c.ctl.preserveFlag }, engine := { c.engine with ends := [] } }

theorem Chip.restart_eq (c : Chip) :
    c.restart = (streamIds.foldl Chip.settleStream c.dropRings).restarted.enterDisabled := rfl

theorem Chip.restart_stream (c : Chip) (i : StreamId) :
    c.restart.stream i = (((streamIds.take i.val).foldl Chip.settleStream c.dropRings).settleStream i).stream i := by
  rw [← foldl_settleStream_stream, c.restart_eq]
  generalize streamIds.foldl Chip.settleStream c.dropRings = d
  obtain ⟨-, h⟩ | ⟨-, e, h⟩ := d.restarted.enterDisabled_cases <;> · rw [h]; rfl

/-- What the restart leaves of the Controller, the rings, the pool and the engine. -/
theorem Chip.restart_frame {c : Chip} (ha : c.isActive = false) :
    c.restart.ctl = { c.ctl with
      state := if c.ctl.enable && c.ctl.placementOk then .active else .disabled
      lastPreserved := c.ctl.preserveFlag
      ringError := c.restart.ctl.ringError } ∧
    c.restart.rings.table = [] ∧ c.restart.rings.arrived = [] ∧ c.restart.rings.ioPtr = 31 ∧
    (∀ n, n ≠ 0 ∨ c.restart.ctl.state = .disabled →
      c.restart.reqRing n = RequestRing.absent ∧ c.restart.cmpRing n = CompletionRing.absent) ∧
    c.restart.pool.grantPtr = c.pool.grantPtr ∧ c.restart.engine.ends = [] := by
  obtain ⟨hctl, hrings, hptr⟩ := foldl_settleStream_restartFrame (c := c.dropRings) streamIds ha
  rw [c.restart_eq]
  generalize streamIds.foldl Chip.settleStream c.dropRings = d at hctl hrings hptr
  have hctl : d.ctl = c.ctl := hctl
  have hrings : d.rings = RingEngine.reset := hrings
  have hreq (n : RingId) : d.reqRing n = RequestRing.absent := by
    rw [Chip.reqRing, hrings]
    simp [RingEngine.reset, Vector.get_eq_getElem]
  have hcmp (n : RingId) : d.cmpRing n = CompletionRing.absent := by
    rw [Chip.cmpRing, hrings]
    simp [RingEngine.reset, Vector.get_eq_getElem]
  rw [← hctl]
  obtain ⟨ho, h⟩ | ⟨ho, e, h⟩ := d.restarted.enterDisabled_cases
  · have ho : (d.ctl.enable && d.ctl.placementOk) = true := ho
    rw [h, ho]
    refine ⟨rfl, congrArg RingEngine.table hrings, congrArg RingEngine.arrived hrings, congrArg RingEngine.ioPtr hrings,
      fun n hn => ⟨?_, ?_⟩, hptr, rfl⟩
    · have hn : n ≠ 0 := hn.resolve_right nofun
      rw [Chip.setCmpRing_reqRing, Chip.setReqRing_reqRing, if_neg hn]
      exact hreq n
    · have hn : n ≠ 0 := hn.resolve_right nofun
      rw [Chip.setCmpRing_cmpRing, if_neg hn]
      exact hcmp n
  · have ho : (d.ctl.enable && d.ctl.placementOk) = false := ho
    rw [h, ho]
    exact ⟨rfl, congrArg RingEngine.table hrings, congrArg RingEngine.arrived hrings, congrArg RingEngine.ioPtr hrings,
      fun n _ => ⟨hreq n, hcmp n⟩, hptr, rfl⟩

/-- An OPEN stream whose committed records are all discarded, and a FLUSHING one, keep their pages until the page return. -/
theorem Chip.heldCut_none {c : Chip} {i : StreamId}
    (h : (c.stream i).state = .flushing ∨ (c.stream i).frontier ≤ (c.stream i).base) : c.heldCut i = (c, none) := by
  unfold Chip.heldCut
  split
  · rename_i ho
    exact Chip.heldTruncation_none (h.resolve_left fun hf => by rw [ho] at hf; cases hf)
  · rfl

/-- The truncation of an OPEN stream at the end of its last committed record: its break, and the chain and the tail it leaves. -/
theorem Chip.heldCut_truncates {c : Chip} {i : StreamId} {page offset : Nat} (ho : (c.stream i).state = .opened)
    (h : (c.stream i).base < (c.stream i).frontier) (ht : (c.stream i).heldTail = some (page, offset)) :
    (c.heldCut i).2 = (c.truncateTail i page).2 ∧ ((c.heldCut i).2 = none →
      ((c.heldCut i).1.stream i).chain =
          (((c.stream i).chain.dropWhile fun p => p != page).drop 1).foldl List.erase (c.stream i).chain ∧
        ((c.heldCut i).1.stream i).tail = offset) := by
  rw [Chip.heldCut, if_pos ho, Chip.heldTruncation_some h ht]
  refine ⟨rfl, fun hn => ?_⟩
  rw [Chip.modStream_stream_same, ← pagesAfter_eq]
  exact ⟨Chip.truncateTail_chain (Prod.ext rfl hn), rfl⟩

/-! ### The obligation -/

/-- The streams before stream `i` settled, stream `i` not yet. -/
def Chip.beforeSettling (c : Chip) (i : StreamId) : Chip := (streamIds.take i.val).foldl Chip.settleStream c.dropRings

theorem Chip.beforeSettling_stream (c : Chip) (i : StreamId) : (c.beforeSettling i).stream i = c.stream i := by
  obtain ⟨_, -, hbefore, -⟩ := streamIds_split i
  exact foldl_settleStream_stream_ne _ _ hbefore

theorem Chip.beforeSettling_restartFrame {c : Chip} (ha : c.isActive = false) (i : StreamId) :
    RestartFrame c.dropRings (c.beforeSettling i) := foldl_settleStream_restartFrame _ ha

/-- Settles O13. -/
theorem quiesceEndMakesTheRestart : Obligations.QuiesceEndMakesTheRestart := by
  intro s u hq still
  have hdrained : (s.toChip.upset u).drained = true ↔ still := (s.toChip.upset u).drained_iff
  have hq : (s.toChip.upset u).ctl.state = .quiescing := hq
  have hidle : (s.toChip.upset u).isActive = false := by rw [Chip.isActive, hq]; rfl
  refine ⟨fun hn => ?_, ?_⟩
  · rw [exec_quiesceEnd, Chip.quiesceEnd_waits (eq_false_of_ne_true (mt hdrained.1 hn))]
  intro closed hs
  have hexec : exec (.quiesceEnd u) s = .next (s.withChip (s.toChip.upset u).restart) := by
    rw [exec_quiesceEnd, Chip.quiesceEnd_drained hq (hdrained.2 hs)]
  have hstreams := (s.toChip.upset u).restart_stream
  obtain ⟨hctl, htable, harrived, hio, hrings, hptr, hends⟩ := Chip.restart_frame hidle
  generalize (s.toChip.upset u).restart = r at hexec hstreams hctl htable harrived hio hrings hptr hends
  refine ⟨_, hexec, congrArg (·.state) hctl, congrArg (·.lastPreserved) hctl, congrArg (·.cause) hctl, congrArg (·.enable) hctl,
    congrArg (·.preserve) hctl, congrArg (·.preserveFlag) hctl, congrArg (·.reqBase) hctl, congrArg (·.cmpBase) hctl,
    congrArg (·.sizes) hctl, htable, harrived, hio, hrings, hptr, hends, fun i => ?_⟩
  intro c st
  have hentry : (s.withChip r).toChip.stream i = ((c.beforeSettling i).settleStream i).stream i := hstreams i
  have hst : (c.beforeSettling i).stream i = st := c.beforeSettling_stream i
  have hframe := Chip.beforeSettling_restartFrame hidle i
  have hp : (c.beforeSettling i).ctl.preserveFlag = s.ctl.preserveFlag := congrArg (·.preserveFlag) hframe.ctl
  have ha : (c.beforeSettling i).isActive = false := hframe.isActive.trans hidle
  rw [hentry]
  refine ⟨fun h => ?_, fun hne h => ?_, fun hpreserve hd h => ?_, fun hpreserve hd h => ?_⟩
  · rw [Chip.settleStream_closed (by rw [hst, h]), hst]
  · rw [Chip.settleStream_closes (by rw [hst]; exact hne) (by rw [hst, hp]; exact h)]
    exact Chip.resetClose_stream _ i
  · rw [Chip.settleStream_held (hp.trans hpreserve) (by rw [hst, hd]) (by rw [hst, h]), hst]
  rw [Chip.settleStream_enters (hp.trans hpreserve) (by rw [hst, hd]) (by rw [hst]; exact h)]
  intro d cut x run next basePage chain
  have hcut : cut = (c.beforeSettling i).heldCut i := by rw [Chip.heldCut, hst]; rfl
  clear_value cut
  subst hcut
  have hx : x = { st with chain := x.chain, tail := x.tail } :=
    ((c.beforeSettling i).heldCut_entry i).trans (by rw [hst])
  refine ⟨fun hk => ?_, fun page offset ho hb ht => ?_, Chip.holdStream_broken, fun hn hr => ?_⟩
  · have hnone := Chip.heldCut_none (c := c.beforeSettling i) (i := i) (by rw [hst]; exact hk)
    exact ⟨congrArg Prod.snd hnone, (congrArg (fun r : Chip × Option Nat => r.1.stream i) hnone).trans hst⟩
  · have htrunc := Chip.heldCut_truncates (c := c.beforeSettling i) (i := i) (by rw [hst]; exact ho) (by rw [hst]; exact hb)
      (by rw [hst]; exact StreamEntry.heldTail_eq ht)
    rw [hst] at htrunc
    exact htrunc
  · have hcut := (c.beforeSettling i).heldCut_restartFrame i
    have hchain : chain = x.heldChain x.enterHeld.next := by rw [hx]; rfl
    have hnext : next = x.enterHeld.next := by rw [hx]; rfl
    rw [Chip.holdStream_unbroken hn, Chip.heldReturn_unbroken (hcut.isActive.trans ha) hr]
    change x.heldEntry (x.heldChain x.enterHeld.next) = _
    rw [StreamEntry.heldEntry_eq, ← hchain, ← hnext]
    clear_value chain next
    rw [hx]

end Sys2Proof.Machine
end
